-- ==== Sys2Proof/Word.lean ====
section
/-! DEFINITION. Word types of the AJ16: what the manual treats as bits is a bit vector, what it counts is a `Nat`. -/

namespace Sys2Proof

/-- A byte of host memory, staging memory or an array line. -/
abbrev Byte := BitVec 8

/-- A 16-bit sequence: compared by modular distance (Conventions). -/
abbrev Seq := BitVec 16

/-- A 32-bit register, tag or check value. -/
abbrev Word := BitVec 32

/-- A host bus address (64 bits, R189, R190). -/
abbrev Addr := BitVec 64

/-- A sector of the array, 0 to 255 (R4). -/
abbrev SectorNo := Fin 256

/-- A stream, 0 to 15 (R39). -/
abbrev StreamNo := Fin 16

/-- A command slot (R171). -/
abbrev SlotNo := Fin 64

/-- An assembly context (R58). -/
abbrev CtxNo := Fin 32

/-- A staging block (R62). -/
abbrev BlockNo := Fin 384

end Sys2Proof
end

