-- ==== Sys2Proof/Config.lean ====
section
/-! DEFINITION. Constants of the part: the numbers the manual fixes, and the markers of the array lines,
whose values it does not give (log entry 1). -/

namespace Sys2Proof.Config

/-- Lines in a sector (Conventions, R4). -/
def linesPerSector : Nat := 2048
/-- Bytes in a line (R1). -/
def lineBytes : Nat := 32
/-- Bytes in a staging block (R62). -/
def blockBytes : Nat := 512
/-- The longest payload (R8). -/
def maxPayload : Nat := 8192
/-- The greatest JSN or epoch that names something, FFFFFFFEH (Conventions). -/
def lastJsn : Nat := 0xFFFFFFFE
/-- FFFFFFFFH: no JSN, or no epoch, is left (R82); also where counters saturate. -/
def exhausted : Nat := 0xFFFFFFFF
/-- The wear limit, 100,000 erases (R106). -/
def wearLimit : Nat := 100000
/-- The weak threshold, 16 corrected lines (R35). -/
def weakThreshold : Nat := 16
/-- Suspensions of one erase (R153). -/
def maxSuspends : Nat := 8
/-- Operations served in one suspension (R154). -/
def maxServed : Nat := 16
/-- Placement attempts of a record (R96). -/
def maxPlacements : Nat := 3
/-- Slot attempts of a snapshot before rollover (R124). -/
def maxSlotAttempts : Nat := 3
/-- Transfers in flight of one context (R64). -/
def maxTransfers : Nat := 4
/-- Pieces of one context (R63). -/
def maxPieces : Nat := 8
/-- Time limits of R156, in microseconds. -/
def programLimit : Nat := 10000
def readLimit : Nat := 1000
def eraseLimit : Nat := 2000000
/-- The ID register (R185). -/
def idRegister : Word := 0x10160001#32
/-- The length of a QUERY output (R37, R56, R131, R183). -/
def sectorsOutput : Nat := 8224
def streamsOutput : Nat := 544
def holdsOutput : Nat := 576
def statsOutput : Nat := 128

/-! DESIGN CHOICE, unsafe (log entry 1): "one fixed value" each (R5, R8, R10, R14), not given by the manual.
They differ in their first bytes from each other, from FFH and from 00H, as R5 and R8 require. -/

def sectorMarker : Nat := 0x36314A53
def commitMarker : Nat := 0x36314A43
def slotMarker : Nat := 0x36314A41
def snapshotMarker : Nat := 0x36314A56
def kindData : Nat := 0x44
def kindPad : Nat := 0x50

end Sys2Proof.Config
end

