-- ==== Sys2Proof/Syntax.lean ====
section
/-! DEFINITION. The commands of the block: `Instr`, one constructor per row of spec/opcode_table.json, and the
types of what they carry. A row that is the end of an access to host memory or of an array operation carries what the
world outside the controller answered (log entry 2). -/

namespace Sys2Proof

/-- The five requesters of the Array Controller (section 9.1). -/
inductive Requester where
  | writer | anchor | reader | reclaim | mount
  deriving DecidableEq, Repr

/-- What a line that is not erased stands at in the array (R1): how it reads when nothing disturbs the read. -/
inductive Cell where
  /-- Reads CLEAN with these 32 bytes. -/
  | clean (bytes : List Byte)
  /-- Reads CORRECTED with these 32 bytes. -/
  | repaired (bytes : List Byte)
  /-- Reads UNCORRECTABLE. -/
  | broken
  deriving DecidableEq, Repr

/-- How lines are left by an operation that failed or was cut short (R3): line number in the whole array
(2048 · sector + line) and what stands there, `none` for a blank line. -/
abbrev Residue := List (Nat × Option Cell)

/-- The outcome of reading one line (R1, R149). -/
inductive LineOutcome where
  | clean (bytes : List Byte)
  | corrected (bytes : List Byte)
  | uncorrectable
  deriving DecidableEq, Repr

/-- How the array reports the end of an operation (R149 to R151). -/
inductive ArrayReport where
  /-- The operation did its work; `disturbed` names lines (by number in the whole array) whose raw cells showed bit
  errors to it, and how such a line read (R149). A program and a blank check judge the raw cells (R150, R151). -/
  | done (disturbed : List (Nat × LineOutcome))
  /-- A program did not verify at this line, which is left so (R150, R3). Every line up to it was blank. -/
  | programFails (line : Nat) (left : Option Cell)
  /-- An erase did not leave every line blank (R151, R3). -/
  | eraseFails (left : Residue)
  deriving DecidableEq, Repr

/-- The registers of the REGISTER_WRITE row (R186). -/
inductive PlainRegister where
  | id | state | setupLo | setupHi
  deriving DecidableEq, Repr

/-- The commands and happenings of the part: the rows of the opcode table, in its order. -/
inductive Instr where
  | append
  | openStream
  | closeStream
  | abortRecord
  | read
  | scan
  | hold
  | release
  | querySectors
  | queryStreams
  | queryHolds
  | queryStats
  | wipe
  | ctrlEnableSet
  | ctrlEnableClear
  /-- `left`: how the lines of an array operation that the reset cuts short are left (R3). -/
  | softReset (left : Residue)
  | coldReset (left : Residue)
  | ringIndexSubmission (ring : Fin 4) (position : BitVec 12)
  | ringIndexCompletion (position : BitVec 12)
  | ringIndexNotice (position : BitVec 12)
  /-- Selector 7 when `seven`, else 6. -/
  | ringIndexBadSelector (seven : Bool) (position : BitVec 12)
  | intCauseWrite (value : Word)
  | intMaskWrite (value : Word)
  | registerWrite (register : PlainRegister) (value : Word)
  /-- `answer`: the 128 bytes read, or `none` for a failed read. -/
  | setupReadEnd (answer : Option (List Byte))
  | fetchBegin
  /-- `answer`: the 64 bytes read, or `none` for a failed read. -/
  | submissionFetchEnd (answer : Option (List Byte))
  | postingBegin
  | completionWriteEnd (ok : Bool)
  | noticeWriteEnd (ok : Bool)
  | statusWriteBegin
  | statusWriteEnd (ok : Bool)
  | drainEnd
  | tick
  | assemblyExpired (context : CtxNo)
  | sequenceSkipped (stream : StreamNo)
  /-- The transfer of the fragment in `slot` ends well with `data` read from host memory. -/
  | transferEnd (slot : SlotNo) (data : List Byte)
  | transferFail (slot : SlotNo)
  | queueHeadTaken
  | spaceQuestionRetry
  | sectorHeaderProgrammed
  | padProgrammed
  | burstProgrammed
  | commitLineProgrammed
  | reclaimTest
  | eraseEnd
  | snapshotProgramEnd
  | rolloverEraseEnd
  | readBegin
  | scanBegin
  | readUnitLinesRead
  | imageWriteEnd (ok : Bool)
  /-- The host writes of the QUERY command in `slot` end. -/
  | queryWriteEnd (slot : SlotNo) (ok : Bool)
  /-- The controller takes the request that `who` has placed. -/
  | arrayRequest (who : Requester)
  /-- `elapsed`: microseconds since the operation, or this stretch of the erase, began (R156). -/
  | arrayOperationEnd (elapsed : Nat) (report : ArrayReport)
  | eraseStopped (elapsed : Nat)
  | eraseResumed (elapsed : Nat)
  | arrayTimeout (elapsed : Nat) (left : Residue)
  | anchorSlotRead
  | mountLineRead
  | blankCheckEnd
  deriving DecidableEq, Repr

end Sys2Proof
end

