-- ==== Sys2Proof/WellFormed.lean ====
section
/-! DEFINITION. Well-formed commands: the data a command carries has the size and the numbers it can have on the part. -/

namespace Sys2Proof

/-- Lines in the whole array. -/
def WellFormed.arrayLines : Nat := 256 * Config.linesPerSector

/-- A line holds 32 bytes (R1). -/
def Cell.wf : Cell → Bool
  | .clean b => b.length = Config.lineBytes
  | .repaired b => b.length = Config.lineBytes
  | .broken => true

/-- A line read gives 32 bytes or none (R1). -/
def LineOutcome.wf : LineOutcome → Bool
  | .clean b => b.length = Config.lineBytes
  | .corrected b => b.length = Config.lineBytes
  | .uncorrectable => true

/-- The residue names lines of the array and whole lines. -/
def Residue.wf (r : Residue) : Bool :=
  r.all fun e => decide (e.1 < WellFormed.arrayLines) && (e.2.map Cell.wf).getD true

def ArrayReport.wf : ArrayReport → Bool
  | .done d => d.all fun e => decide (e.1 < WellFormed.arrayLines) && e.2.wf
  | .programFails n left => decide (n < WellFormed.arrayLines) && (left.map Cell.wf).getD true
  | .eraseFails left => left.wf

/-- The checks: a setup block is 128 bytes (R189), a submission entry 64 (R190), a fragment 1 to 4,096 (R64);
what the array leaves and reads is in lines of 32 bytes (R1). -/
def Instr.wf : Instr → Bool
  | .setupReadEnd (some b) => b.length = 128
  | .submissionFetchEnd (some b) => b.length = 64
  | .transferEnd _ data => decide (1 ≤ data.length) && decide (data.length ≤ 4096)
  | .softReset left => left.wf
  | .coldReset left => left.wf
  | .arrayOperationEnd _ report => report.wf
  | .arrayTimeout _ left => left.wf
  | _ => true

end Sys2Proof
end

