-- ==== Sys2Proof/Decode.lean ====
section
/-! DEFINITION. From a write in the register window to the command it is (R184 to R188), and the table's words.
The opcode table gives its rows no bits, so no word spells a command. -/

namespace Sys2Proof

/-- No row of the opcode table has bits: a word spells no command. -/
def decodeTableWord (_nbits _w : Nat) : Option Instr := none

/-- The word a register write carries: the bytes not written are taken as 0 (R186). -/
def writtenWord (enables : BitVec 4) (value : Word) : Word :=
  let lane (k : Nat) : Word := if enables.getLsbD k then (0xFF#32 <<< (8 * k)) else 0#32
  value &&& (lane 0 ||| lane 1 ||| lane 2 ||| lane 3)

/-- A CTRL write: SOFT_RESET in bit 1 wins over ENABLE in bit 0 (R185, R186). -/
def ctrlCommand (v : Word) (left : Residue) : Instr :=
  if v.getLsbD 1 then .softReset left
  else if v.getLsbD 0 then .ctrlEnableSet
  else .ctrlEnableClear

/-- A RING_INDEX write: selector in bits 2 to 0, position in bits 27 to 16 (R185, R188). -/
def ringIndexCommand (v : Word) : Instr :=
  let position : BitVec 12 := v.extractLsb' 16 12
  match (v.extractLsb' 0 3).toNat with
  | 0 => .ringIndexSubmission 0 position
  | 1 => .ringIndexSubmission 1 position
  | 2 => .ringIndexSubmission 2 position
  | 3 => .ringIndexSubmission 3 position
  | 4 => .ringIndexCompletion position
  | 5 => .ringIndexNotice position
  | 6 => .ringIndexBadSelector false position
  | _ => .ringIndexBadSelector true position

/-- The command a 32-bit write at `offset` of the register window is (R185): `none` outside the eight registers.
`left` is what a soft reset leaves of an array operation it cuts short. -/
def registerWriteCommand (offset : Nat) (enables : BitVec 4) (value : Word) (left : Residue) : Option Instr :=
  let v := writtenWord enables value
  match offset with
  | 0x00 => some (.registerWrite .id v)
  | 0x04 => some (ctrlCommand v left)
  | 0x08 => some (.registerWrite .state v)
  | 0x0C => some (.registerWrite .setupLo v)
  | 0x10 => some (.registerWrite .setupHi v)
  | 0x14 => some (ringIndexCommand v)
  | 0x18 => some (.intCauseWrite v)
  | 0x1C => some (.intMaskWrite v)
  | _ => none

end Sys2Proof
end

