-- ==== Sys2Proof/Machine/State.lean ====
section
/-! DEFINITION. The state of the part as plain data, block by block, and its value after a cold reset.
Fields marked MODEL are the model's own (log entry 3); every other field is one the manual names. -/

namespace Sys2Proof.Machine

/-! ### Host Ring Unit (R171 to R192) -/

/-- R172, in the code order of R192. -/
inductive DeviceState where
  | offline | setup | mounting | online | draining | stopped | halted
  deriving DecidableEq, Repr

/-- The reasons of R173 and R181, in the code order of R192. -/
inductive Reason where
  | noReason | setupReadError | setupInvalid | submissionReadError | completionWriteError | noticeWriteError
  | statusWriteError | arrayTimeout
  deriving DecidableEq, Repr

/-- The completion statuses of R192. -/
inductive Status where
  | ok | accepted | committed | badKind | badField | streamClosed | streamOpen | streamBusy | noContext
  | stale | ahead | abandoned | overlap | scattered | beyondEnd | poolExhausted
  | hostReadError | hostWriteError | aborted | tooLate | journalFull | journalExhausted | writeFailed
  | notYet | expired | shortBuffer | mediaError | corrupt
  | holdTableFull | noSuchHold | holdBusy | nothingToHold | anchorFailed | notIdle | wipeActive
  deriving DecidableEq, Repr

/-- The subjects of QUERY (R190). -/
inductive Subject where
  | sectors | streams | holds | stats
  deriving DecidableEq, Repr

/-- A submission command with its fields in range (R190, R176). -/
inductive Cmd where
  | append (stream : StreamNo) (seq : Seq) (offset length : Nat) (last : Bool) (tag : Word) (address : Addr)
  | openStream (stream : StreamNo) (limit ageLimit : Nat) (explicit : Bool) (first : Seq)
  | closeStream (stream : StreamNo) (abort : Bool)
  | abortRecord (stream : StreamNo) (seq : Seq)
  | read (jsn : Nat) (address : Addr) (length : Nat) (headerOnly : Bool)
  | scan (fromJsn : Nat) (filter : Option StreamNo) (maxRecords : Nat) (address : Addr) (length : Nat)
  /-- `last` is `none` for an open-ended hold. -/
  | hold (first : Nat) (last : Option Nat) (fixed : Bool) (owner : Word)
  | release (id : Fin 16)
  | query (subject : Subject) (clear : Bool) (address : Addr) (length : Nat)
  | wipe
  deriving DecidableEq, Repr

/-- The owners of R176. -/
inductive Owner where
  | hostRing | assembly | readUnit | holdTable | sectorTable | reclaim
  deriving DecidableEq, Repr

/-- A command slot (R171, R175, R176). -/
inductive Slot where
  | free
  /-- Claimed by a fetch whose read has not returned. -/
  | fetching (ring : Fin 4)
  | taken (ring : Fin 4) (tag : BitVec 16) (kind : Byte) (owner : Option Owner)
  deriving DecidableEq, Repr

/-- A command routed to its owner and not yet taken by it. -/
structure Routed where
  slot : SlotNo
  cmd : Cmd
  deriving DecidableEq, Repr

/-- The result fields of a completion entry at bytes 4, 8, 12 and 14 (R190). -/
structure Results where
  at4 : Word := 0#32
  at8 : Word := 0#32
  at12 : BitVec 16 := 0#16
  at14 : Bool := false
  deriving DecidableEq, Repr

/-- Retire reasons, in the code order of R192. -/
inductive RetireReason where
  | noReason | worn | programFail | eraseFail | weak
  deriving DecidableEq, Repr

/-- The notices of R190. -/
inductive Notice where
  | assemblyExpired (stream : StreamNo) (seq : Seq)
  | assemblyDrained (stream : StreamNo) (seq : Seq)
  | sequenceSkipped (stream : StreamNo) (seq : Seq)
  | recordsExpired (sector : SectorNo) (first last : Nat)
  | sectorRetired (sector : SectorNo) (reason : RetireReason)
  | weakSector (sector : SectorNo)
  | journalFull
  | journalSpace
  | anchorFailed
  | mountDone (committed torn members free dirty retired : Nat)
  deriving DecidableEq, Repr

/-- An entry of the posting queue (R177, R178). -/
inductive Posting where
  | outcome (slot : SlotNo) (status : Status) (results : Results)
  | notice (notice : Notice)
  deriving DecidableEq, Repr

/-- A write into host memory: where and what. -/
structure BusWrite where
  address : Addr
  bytes : List Byte
  deriving DecidableEq, Repr

/-- The entry or status block write in progress (R177, R178). A status block write carries which of COMPLETION,
NOTICE and STATE_CHANGE its end is to set. -/
inductive RingWrite where
  | completion (write : BusWrite)
  | notice (write : BusWrite)
  | status (write : BusWrite) (completions notices stateChange : Bool)
  deriving DecidableEq, Repr

/-- One submission ring of the setup block (R173, R189). -/
structure RingSetup where
  base : Addr
  size : Nat
  weight : Nat
  deriving DecidableEq, Repr

/-- The setup copy (R173, R189). -/
structure Setup where
  rings : Vector RingSetup 4
  completionBase : Addr
  completionSize : Nat
  noticeBase : Addr
  noticeSize : Nat
  statusAddress : Addr
  tickPeriod : Nat
  reserve : Nat
  deriving DecidableEq, Repr

/-- MODEL: where SETUP stands: waiting for a host write to end, or reading the setup block, at the address the two
registers held on entry (R173, R186). -/
inductive SetupStage where
  | idle
  | waiting (address : Addr)
  | reading (address : Addr)
  deriving DecidableEq, Repr

/-- A QUERY output being written (R37, R56, R131, R183). -/
structure QueryWrite where
  slot : SlotNo
  write : BusWrite
  deriving DecidableEq, Repr

/-- The Host Ring Unit (R171) and the registers (R185). -/
structure HostUnit where
  device : DeviceState
  reason : Reason
  badIndex : Nat
  enable : Bool
  setupLo : Word
  setupHi : Word
  /-- Bits 0 COMPLETION, 1 NOTICE, 2 STATE_CHANGE, 3 INDEX_ERROR (R185). -/
  intCause : BitVec 4
  intMask : BitVec 4
  /-- MODEL: interrupt messages sent on the link (R179). -/
  intMessages : Nat
  setup : Option Setup
  /-- MODEL. -/
  setupStage : SetupStage
  subHead : Vector Nat 4
  subTail : Vector Nat 4
  completionTail : Nat
  completionHead : Nat
  noticeTail : Nat
  noticeHead : Nat
  slots : Vector Slot 64
  roundRing : Fin 4
  roundYield : Nat
  /-- The read of a submission entry in progress: its slot and its ring. -/
  fetch : Option (SlotNo × Fin 4)
  /-- The entry being written stays at the head until its write is done (R171 "not yet written"). -/
  posting : List Posting
  ringWrite : Option RingWrite
  statusMark : Bool
  lostCount : Nat
  noticesLost : Nat
  writeCount : Word
  /-- MODEL: completions, notices posted and device state changed since the last status block write (R177). -/
  completionsSince : Bool
  noticesSince : Bool
  stateSince : Bool
  /-- QUERY STATS commands routed to the unit itself (R176). -/
  queue : List Routed
  queryWrites : List QueryWrite
  deriving DecidableEq, Repr

/-! ### Assembly Unit (R39, R58 to R81) -/

inductive StreamState where
  | closed | opened | closing
  deriving DecidableEq, Repr

/-- A stream table entry (R39). Bit k of `abandoned` is window position k. -/
structure Stream where
  state : StreamState
  limit : Nat
  ageLimit : Nat
  nextAdmission : Seq
  abandoned : Byte
  stallAge : Nat
  gapPending : Bool
  pendingClose : Option SlotNo
  recovered : Option Seq
  committed : Nat
  deriving DecidableEq, Repr

/-- The states of a context that is not FREE (R58). -/
inductive CtxState where
  | gathering | aborting | complete | queued | writing
  deriving DecidableEq, Repr

/-- A transfer in flight (R58): slot, offset, length; and its LAST flag and data address, which R70 and R68 use. -/
structure Transfer where
  slot : SlotNo
  offset : Nat
  length : Nat
  last : Bool
  address : Addr
  deriving DecidableEq, Repr

/-- An assembly context that is not FREE (R58). Coverage intervals run from a first byte to the first byte past. -/
structure Context where
  state : CtxState
  stream : StreamNo
  seq : Seq
  total : Option Nat
  tag : Option Word
  coverage : List (Nat × Nat)
  transfers : List Transfer
  blockMap : Vector (Option BlockNo) 16
  age : Nat
  deferred : Option SlotNo
  attempts : Nat
  deriving DecidableEq, Repr

/-- The Assembly Unit. A FREE context is `none`. -/
structure Assembly where
  streams : Vector Stream 16
  contexts : Vector (Option Context) 32
  freeBlocks : List BlockNo
  tickCounter : Word
  drainMark : Bool
  /-- The APPEND that R64 holds. -/
  held : Option Routed
  queue : List Routed
  fragmentsAccepted : Nat
  fragmentsRefused : Nat
  deriving DecidableEq, Repr

/-! ### Journal Writer (R82 to R99) -/

inductive WriterState where
  | idle | opening | writing | committing | waitingSpace
  deriving DecidableEq, Repr

/-- Where the current placement lies (R82): sector, header position, footprint, next line to program. -/
structure Placement where
  sector : SectorNo
  position : Nat
  footprint : Nat
  nextLine : Nat
  deriving DecidableEq, Repr

structure Writer where
  state : WriterState
  queue : List CtxNo
  nextJsn : Option Nat
  nextEpoch : Option Nat
  full : Bool
  record : Option CtxNo
  gapMark : Bool
  placement : Option Placement
  sectorInHand : Option SectorNo
  payloadCrc : Word
  /-- MODEL: the epoch in the header of the sector in hand, once that header is reported programmed (R91, R92). -/
  headerEpoch : Option Nat
  /-- MODEL: the Sector Table has signalled a writer in WAITING_SPACE (R88). -/
  spaceSignal : Bool
  recordsCommitted : Nat
  bytesCommitted : Nat
  recordsFailed : Nat
  deriving DecidableEq, Repr

/-! ### Sector Table (R17 to R38) -/

/-- In the code order of R192. -/
inductive SectorState where
  | anchor | free | opened | closed | erasing | dirty | retired
  deriving DecidableEq, Repr

/-- A sector entry (R17). The range is the first and the last JSN. -/
structure SectorEntry where
  state : SectorState
  wear : Nat
  wearEstimated : Bool
  epoch : Option Nat
  baseJsn : Option Nat
  range : Option (Nat × Nat)
  nextFree : Option Nat
  corrected : Nat
  weak : Bool
  retirePending : Bool
  reason : RetireReason
  pins : Nat
  inHand : Bool
  deriving DecidableEq, Repr

/-- The Sector Table. The free set is the set of FREE entries (R18) and is not stored twice. -/
structure SectorTable where
  entries : Vector SectorEntry 256
  journal : List SectorNo
  queue : List Routed
  deriving DecidableEq, Repr

/-! ### Reclaim Unit (R100 to R115) -/

inductive ReclaimState where
  | idle | reclaiming | wiping | wipeFinishing
  deriving DecidableEq, Repr

structure Reclaim where
  state : ReclaimState
  erase : Option SectorNo
  wipeSlot : Option SlotNo
  wipeActive : Bool
  sectorsErased : Nat
  sectorsRetired : Nat
  /-- MODEL: a signal of R101 has reached the idle unit. -/
  signal : Bool
  queue : List Routed
  deriving DecidableEq, Repr

/-! ### Hold Table and Anchor Unit (R116 to R131) -/

/-- The states of a hold that is not FREE (R116). -/
inductive HoldState where
  | soft | fixing | fixed | unfixing
  deriving DecidableEq, Repr

/-- A hold that is not FREE (R116). `last` is `none` for an open-ended hold. -/
structure Hold where
  state : HoldState
  first : Nat
  last : Option Nat
  owner : Word
  waiting : Option SlotNo
  effectiveFirst : Option Nat
  deriving DecidableEq, Repr

/-- The Hold Table. A FREE entry is `none`. -/
structure HoldTable where
  entries : Vector (Option Hold) 16
  queue : List Routed
  deriving DecidableEq, Repr

/-- A present hold line (R14). -/
structure HoldLine where
  first : Nat
  last : Option Nat
  owner : Word
  deriving DecidableEq, Repr

/-- In the code order of R192. -/
inductive AnchorState where
  | idle | writing | rollingOver
  deriving DecidableEq, Repr

/-- The changes of R122. -/
inductive Change where
  | hold (id : Fin 16)
  | retire (sector : SectorNo)
  | wipe
  deriving DecidableEq, Repr

/-- A snapshot in progress (R121): its captured content, generation, slot attempts and rolled mark. -/
structure Snapshot where
  holds : Vector (Option HoldLine) 16
  retired : BitVec 256
  generation : Nat
  attempts : Nat
  rolled : Bool
  /-- MODEL: the slot of the attempt, and which of its four program requests is awaited (R124). -/
  slot : Nat
  request : Fin 4
  deriving DecidableEq, Repr

/-- The Anchor Unit (R121). Bit s of `retired` is sector s. -/
structure Anchor where
  state : AnchorState
  active : Fin 2
  nextSlot : Nat
  generation : Nat
  retired : BitVec 256
  snapshot : Option Snapshot
  covered : List Change
  waiting : List Change
  pendingFlag : Bool
  failed : Bool
  deriving DecidableEq, Repr

/-! ### Read Unit (R132 to R146) -/

/-- The fields of a valid DATA header line (R8). -/
structure RecordHeader where
  gap : Bool
  stream : StreamNo
  seq : Seq
  jsn : Nat
  length : Nat
  tag : Word
  tick : Word
  deriving DecidableEq, Repr

/-- MODEL: which outcome the active read awaits. -/
inductive ReadStage where
  /-- The header line at `p`. -/
  | header (p : Nat)
  /-- The commit line of the record at `p`. -/
  | commit (p : Nat) (h : RecordHeader)
  /-- The run of payload lines that starts after `got` payload lines of the record at `p`. -/
  | payload (p : Nat) (h : RecordHeader) (crc : Word) (got : Nat)
  /-- The host write of the image (or of the descriptor alone) of the record at `p`. -/
  | image (p : Nat) (h : RecordHeader) (short : Bool)
  deriving DecidableEq, Repr

structure ScanProgress where
  count : Nat
  placed : Nat
  expiredSkipped : Bool
  startJsn : Nat
  deriving DecidableEq, Repr

structure ReadUnit where
  queue : List Routed
  fifo : List Routed
  active : Option Routed
  pinned : Option SectorNo
  expected : Nat
  tally : Nat
  image : List Byte
  scan : Option ScanProgress
  /-- MODEL. -/
  stage : Option ReadStage
  /-- The host write of the active read in progress. -/
  write : Option BusWrite
  completed : Nat
  deriving DecidableEq, Repr

/-! ### Array Controller (R147 to R158) -/

/-- An operation of the array on a sector, lines numbered within the sector (R148). -/
inductive ArrayOp where
  | readLines (sector : SectorNo) (first count : Nat)
  | programLines (sector : SectorNo) (first : Nat) (lines : List (List Byte))
  | eraseSector (sector : SectorNo)
  | blankCheck (sector : SectorNo)
  deriving DecidableEq, Repr

/-- The outcome of an operation (R149 to R151). -/
inductive ArrayOutcome where
  | lines (outcomes : List LineOutcome)
  | programmed
  | programFailed (line : Nat) (notBlank : Bool)
  | erased
  | eraseFailed
  | blank
  | notBlank
  deriving DecidableEq, Repr

inductive CtrlState where
  | idle | reading | programming | erasing | suspending | eraseSuspended | resuming | blankChecking
  deriving DecidableEq, Repr

/-- The erase in progress (R147). -/
structure HeldErase where
  requester : Requester
  sector : SectorNo
  suspends : Nat
  served : Nat
  deriving DecidableEq, Repr

/-- One optional value for each requester. -/
structure PerRequester (α : Type) where
  writer : Option α
  anchor : Option α
  reader : Option α
  reclaim : Option α
  mount : Option α
  deriving DecidableEq, Repr

structure ArrayCtrl where
  state : CtrlState
  operation : Option (Requester × ArrayOp)
  erase : Option HeldErase
  requests : PerRequester ArrayOp
  lastServed : Requester
  /-- In microseconds. -/
  eraseTime : Nat
  linesCorrected : Nat
  linesUncorrectable : Nat
  suspensions : Nat
  /-- MODEL: requests placed by their requesters and not yet taken by the controller (R148). -/
  placed : PerRequester ArrayOp
  /-- MODEL: outcomes handed to their requesters and not yet taken by them (R148). -/
  outcomes : PerRequester ArrayOutcome
  deriving DecidableEq, Repr

/-! ### Mount Unit (R159 to R170) -/

inductive MountPhase where
  | idle | anchorScan | sectorScan | build
  deriving DecidableEq, Repr

inductive ResetKind where
  | cold | soft
  deriving DecidableEq, Repr

/-- The fields of a valid sector header (R5). -/
structure SectorHeader where
  epoch : Nat
  baseJsn : Nat
  wear : Nat
  wearEstimated : Bool
  deriving DecidableEq, Repr

/-- How a chain walk ended (R13). `media`: TORN on a line that read UNCORRECTABLE. -/
inductive WalkEnd where
  | erased | pad | torn (media : Bool) | full
  deriving DecidableEq, Repr

/-- What a mount walk has met so far (R163): the committed records lie from the base JSN to below `expected`. -/
structure Walk where
  header : SectorHeader
  expected : Nat
  count : Nat
  newest : Vector (Option (Nat × Seq)) 16
  deriving DecidableEq, Repr

/-- A sector finding (R162). -/
inductive Finding where
  | none
  | retired
  | blank
  | dirty
  | valid (walk : Walk) (walkEnd : WalkEnd) (position : Nat)
  deriving DecidableEq, Repr

/-- The scan position (R159): the read the mount awaits. -/
inductive ScanPosition where
  | none
  | slot (sector : Fin 2) (slot : Nat)
  | sectorHeader (sector : SectorNo)
  | blankCheck (sector : SectorNo)
  | walkHeader (sector : SectorNo) (p : Nat) (walk : Walk)
  | walkCommit (sector : SectorNo) (p : Nat) (h : RecordHeader) (walk : Walk)
  deriving DecidableEq, Repr

/-- The snapshot found (R159). -/
structure FoundSnapshot where
  sector : Fin 2
  slot : Nat
  generation : Nat
  holds : Vector (Option HoldLine) 16
  retired : BitVec 256
  deriving DecidableEq, Repr

structure Mount where
  phase : MountPhase
  resetKind : ResetKind
  mounted : Bool
  position : ScanPosition
  snapshot : Option FoundSnapshot
  usedSlots : Vector (Option Nat) 2
  generations : List Nat
  findings : Vector Finding 256
  streamFindings : Vector (Option (Nat × Seq)) 16
  deriving DecidableEq, Repr

/-! ### The part -/

/-- The state of the AJ16: its nine blocks, the lines of the array that are not erased (by line number in the whole
array), the staging bytes that are not 00H (by block · 512 + place), and the queue of waiting commands. -/
structure State where
  host : HostUnit
  assembly : Assembly
  writer : Writer
  table : SectorTable
  reclaim : Reclaim
  holds : HoldTable
  anchor : Anchor
  reader : ReadUnit
  ctrl : ArrayCtrl
  mount : Mount
  array : List (Nat × Cell)
  /-- MODEL: contents that a line does not read as until its sector is erased (R3): the line, and the 32 bytes. -/
  barred : List (Nat × List Byte)
  staging : List Host.Cell
  pending : List Instr
  deriving DecidableEq, Repr

/-- Nothing in the block stops the machine: every happening has the effect the manual gives it, and a halt of the
part is a state, HALTED (R181). No constructor, so no command can end in a fault (safe). -/
inductive Fault where
  deriving DecidableEq, Repr

/-- Why a command could have no meaning. -/
inductive Refusal where
  /-- Raised only by an arm of `exec` whose command is not modelled yet; no arm is so now. Safe: the run stops. -/
  | notModelled (mnemonic : String)
  deriving DecidableEq, Repr

/-! ### Values after reset -/

/-- No value for any requester. -/
def PerRequester.empty {α : Type} : PerRequester α := ⟨none, none, none, none, none⟩

def HostUnit.reset : HostUnit where
  device := .offline
  reason := .noReason
  badIndex := 0
  enable := false
  setupLo := 0#32
  setupHi := 0#32
  intCause := 0#4
  intMask := 0xF#4
  intMessages := 0
  setup := none
  setupStage := .idle
  subHead := Vector.replicate 4 0
  subTail := Vector.replicate 4 0
  completionTail := 0
  completionHead := 0
  noticeTail := 0
  noticeHead := 0
  slots := Vector.replicate 64 .free
  roundRing := 0
  roundYield := 0
  fetch := none
  posting := []
  ringWrite := none
  statusMark := false
  lostCount := 0
  noticesLost := 0
  writeCount := 0#32
  completionsSince := false
  noticesSince := false
  stateSince := false
  queue := []
  queryWrites := []

/-- R40. -/
def Stream.reset : Stream where
  state := .closed
  limit := 1
  ageLimit := 0
  nextAdmission := 0#16
  abandoned := 0#8
  stallAge := 0
  gapPending := false
  pendingClose := none
  recovered := none
  committed := 0

/-- R40, R59, R81. -/
def Assembly.reset : Assembly where
  streams := Vector.replicate 16 Stream.reset
  contexts := Vector.replicate 32 none
  freeBlocks := List.finRange 384
  tickCounter := 0#32
  drainMark := false
  held := none
  queue := []
  fragmentsAccepted := 0
  fragmentsRefused := 0

/-- R83; the payload CRC's value is a DESIGN CHOICE (log entry 4). -/
def Writer.reset : Writer where
  state := .idle
  queue := []
  nextJsn := none
  nextEpoch := none
  full := false
  record := none
  gapMark := false
  placement := none
  sectorInHand := none
  payloadCrc := 0#32
  headerEpoch := none
  spaceSignal := false
  recordsCommitted := 0
  bytesCommitted := 0
  recordsFailed := 0

/-- A journal sector after cold reset (R19): DIRTY, wear 0 with the wear-estimated flag set. -/
def SectorEntry.reset : SectorEntry where
  state := .dirty
  wear := 0
  wearEstimated := true
  epoch := none
  baseJsn := none
  range := none
  nextFree := none
  corrected := 0
  weak := false
  retirePending := false
  reason := .noReason
  pins := 0
  inHand := false

/-- R19. -/
def SectorTable.reset : SectorTable where
  entries := ((Vector.replicate 256 SectorEntry.reset).set 0 { SectorEntry.reset with state := .anchor }).set 1
    { SectorEntry.reset with state := .anchor }
  journal := []
  queue := []

/-- R100. -/
def Reclaim.reset : Reclaim where
  state := .idle
  erase := none
  wipeSlot := none
  wipeActive := false
  sectorsErased := 0
  sectorsRetired := 0
  signal := false
  queue := []

/-- R116. -/
def HoldTable.reset : HoldTable where
  entries := Vector.replicate 16 none
  queue := []

/-- R121; the active sector, next slot, generation and retired set are DESIGN CHOICES (log entry 4). -/
def Anchor.reset : Anchor where
  state := .idle
  active := 0
  nextSlot := 0
  generation := 0
  retired := 0#256
  snapshot := none
  covered := []
  waiting := []
  pendingFlag := false
  failed := false

/-- R132; the expected JSN, the tally and the image buffer are DESIGN CHOICES (log entry 4). -/
def ReadUnit.reset : ReadUnit where
  queue := []
  fifo := []
  active := none
  pinned := none
  expected := 1
  tally := 0
  image := []
  scan := none
  stage := none
  write := none
  completed := 0

/-- R147. -/
def ArrayCtrl.reset : ArrayCtrl where
  state := .idle
  operation := none
  erase := none
  requests := .empty
  lastServed := .reader
  eraseTime := 0
  linesCorrected := 0
  linesUncorrectable := 0
  suspensions := 0
  placed := .empty
  outcomes := .empty

/-- R159. With no scan under way, after a reset and after the handover, the scan position is `none`, a value beside those
of R159 (DESIGN CHOICE, log entry 4). -/
def Mount.reset (kind : ResetKind) : Mount where
  phase := .idle
  resetKind := kind
  mounted := false
  position := .none
  snapshot := none
  usedSlots := Vector.replicate 2 none
  generations := []
  findings := Vector.replicate 256 .none
  streamFindings := Vector.replicate 16 none

/-- The part right after a cold reset (R182), with an array erased in every line (R170; DESIGN CHOICE, log entry 4)
and no command waiting. -/
def State.reset : State where
  host := HostUnit.reset
  assembly := Assembly.reset
  writer := Writer.reset
  table := SectorTable.reset
  reclaim := Reclaim.reset
  holds := HoldTable.reset
  anchor := Anchor.reset
  reader := ReadUnit.reset
  ctrl := ArrayCtrl.reset
  mount := Mount.reset .cold
  array := []
  barred := []
  staging := []
  pending := []

/-! ### Changing one block -/

def State.onHost (f : HostUnit → HostUnit) (s : State) : State := { s with host := f s.host }
def State.onAssembly (f : Assembly → Assembly) (s : State) : State := { s with assembly := f s.assembly }
def State.onWriter (f : Writer → Writer) (s : State) : State := { s with writer := f s.writer }
def State.onTable (f : SectorTable → SectorTable) (s : State) : State := { s with table := f s.table }
def State.onReclaim (f : Reclaim → Reclaim) (s : State) : State := { s with reclaim := f s.reclaim }
def State.onHolds (f : HoldTable → HoldTable) (s : State) : State := { s with holds := f s.holds }
def State.onAnchor (f : Anchor → Anchor) (s : State) : State := { s with anchor := f s.anchor }
def State.onReader (f : ReadUnit → ReadUnit) (s : State) : State := { s with reader := f s.reader }
def State.onCtrl (f : ArrayCtrl → ArrayCtrl) (s : State) : State := { s with ctrl := f s.ctrl }
def State.onMount (f : Mount → Mount) (s : State) : State := { s with mount := f s.mount }
def State.onArray (f : List (Nat × Cell) → List (Nat × Cell)) (s : State) : State := { s with array := f s.array }
def State.onBarred (f : List (Nat × List Byte) → List (Nat × List Byte)) (s : State) : State :=
  { s with barred := f s.barred }
def State.onStaging (f : List Host.Cell → List Host.Cell) (s : State) : State := { s with staging := f s.staging }

end Sys2Proof.Machine
end

