-- ==== Sys2Proof/Machine/Format.lean ====
section
/-! DEFINITION. Bytes and lines: little-endian fields, the CRC of R2, the lines of chapter 1, and the chain walk's
tests. The places of the fields in an array line are a DESIGN CHOICE (log entry 1): the manual states the lines by
field only. -/

namespace Sys2Proof.Machine

/-! ### Bytes -/

/-- The `n` low bytes of `v`, least significant first (Conventions). -/
def leBytes : Nat → Nat → List Byte
  | 0, _ => []
  | n + 1, v => BitVec.ofNat 8 v :: leBytes n (v / 256)

/-- The number that bytes spell, least significant first. -/
def leNat : List Byte → Nat
  | [] => 0
  | b :: t => b.toNat + 256 * leNat t

/-- The field of `n` bytes at offset `i`. -/
def fieldAt (l : List Byte) (i n : Nat) : Nat := leNat ((l.drop i).take n)

/-- `n` bytes 00H. -/
def zeros (n : Nat) : List Byte := List.replicate n 0#8

/-- The list cut or padded with 00H to `n` bytes. -/
def toLength (n : Nat) (l : List Byte) : List Byte := l.take n ++ zeros (n - l.length)

/-- The bits of a one-byte flag field. -/
def flagByte (b0 b1 b2 b3 : Bool) : Byte :=
  BitVec.ofNat 8 (b0.toNat + 2 * b1.toNat + 4 * b2.toNat + 8 * b3.toNat)

/-! ### The CRC of R2: polynomial 1EDC6F41H, least significant bit of each byte first -/

/-- One bit: 82F63B78H is the polynomial with its bits in reverse. -/
def crcBit (c : Nat) : Nat := if c % 2 = 1 then (c / 2) ^^^ 0x82F63B78 else c / 2

/-- One byte. -/
def crcByte (c : Nat) (b : Byte) : Nat := Nat.repeat crcBit 8 (c ^^^ b.toNat)

/-- `k` of `n`, in a form that makes the kernel compute `n` first. -/
def forced {α : Type} (n : Nat) (k : Nat → α) : α :=
  match n with
  | 0 => k 0
  | m + 1 => k (m + 1)

/-- The register after the bytes. -/
def crcRun : Nat → List Byte → Nat
  | c, [] => c
  | c, b :: t => forced (crcByte c b) fun c' => crcRun c' t

/-- The check of R2: from FFFFFFFFH, the final value inverted. -/
def crc32 (l : List Byte) : Word := ~~~ (BitVec.ofNat 32 (crcRun 0xFFFFFFFF l))

/-! ### Line numbers and reading a line -/

/-- The number of a line in the whole array. -/
def lineNo (sector : SectorNo) (line : Nat) : Nat := Config.linesPerSector * sector.val + line

/-- An erased line reads as 32 bytes of FFH (R1). -/
def erasedBytes : List Byte := List.replicate 32 0xFF#8

/-- What a line reads as, undisturbed (R1). -/
def cellOutcome : Option Cell → LineOutcome
  | none => .clean erasedBytes
  | some (.clean b) => .clean b
  | some (.repaired b) => .corrected b
  | some .broken => .uncorrectable

/-- The bytes of a readable line (R1). -/
def readable : LineOutcome → Option (List Byte)
  | .clean b => some b
  | .corrected b => some b
  | .uncorrectable => none

/-- "The line reads erased" (R1). -/
def readsErased (o : LineOutcome) : Bool := readable o == some erasedBytes

/-- CORRECTED outcomes, counted by R134 and R158. -/
def correctedLines (l : List LineOutcome) : Nat :=
  l.countP fun o => match o with | .corrected _ => true | _ => false

/-- UNCORRECTABLE outcomes (R158). -/
def uncorrectableLines (l : List LineOutcome) : Nat := l.countP fun o => o == .uncorrectable

/-! ### Footprint -/

/-- ⌈L/32⌉. -/
def payloadLines (length : Nat) : Nat := (length + 31) / 32

/-- The footprint 2 + ⌈L/32⌉ (section 1.4). -/
def footprint (length : Nat) : Nat := 2 + payloadLines length

/-! ### Building lines (R5, R8 to R11, R14) -/

/-- A line whose last four bytes check the 28 before them (R2). -/
def sealedLine (body : List Byte) : List Byte := body ++ leBytes 4 (crc32 body).toNat

/-- The check of a sealed line matches (R2). -/
def checkMatches (l : List Byte) : Bool := (crc32 (l.take 28)).toNat == fieldAt l 28 4

/-- A line of a journal sector passes the check of its own 28 bytes (R2). A line of an anchor sector has no check of its
own: what is checked there is a snapshot as a whole (R15). -/
def passesCheck (line : Nat) (b : List Byte) : Bool := decide (2 * Config.linesPerSector ≤ line) && checkMatches b

/-- The sector header line (R5). -/
def sectorHeaderLine (h : SectorHeader) : List Byte :=
  sealedLine (leBytes 4 Config.sectorMarker ++ leBytes 4 h.epoch ++ leBytes 4 h.baseJsn ++ leBytes 4 h.wear
    ++ leBytes 1 h.wearEstimated.toNat ++ zeros 11)

/-- The header line of a record (R8). -/
def recordHeaderLine (h : RecordHeader) : List Byte :=
  sealedLine (leBytes 1 Config.kindData ++ leBytes 1 h.gap.toNat ++ leBytes 1 h.stream.val ++ zeros 1
    ++ leBytes 2 h.seq.toNat ++ leBytes 2 h.length ++ leBytes 4 h.jsn ++ leBytes 4 h.tag.toNat
    ++ leBytes 4 h.tick.toNat ++ zeros 8)

/-- A PAD with the JSN a record there would have had to carry (R11). -/
def padLine (jsn : Nat) : List Byte :=
  sealedLine (leBytes 1 Config.kindPad ++ zeros 7 ++ leBytes 4 jsn ++ zeros 16)

/-- Payload line `i` (R9): 32 bytes of the payload, 00H past its end. -/
def payloadLine (payload : List Byte) (i : Nat) : List Byte := toLength 32 ((payload.drop (32 * i)).take 32)

/-- The commit line (R10). -/
def commitLine (jsn length : Nat) (payloadCrc : Word) : List Byte :=
  sealedLine (leBytes 4 Config.commitMarker ++ leBytes 4 jsn ++ leBytes 4 payloadCrc.toNat ++ leBytes 2 length
    ++ zeros 14)

/-- The slot header line (R14). -/
def slotHeaderLine (generation : Nat) : List Byte :=
  leBytes 4 Config.slotMarker ++ leBytes 4 generation ++ zeros 24

/-- A hold line (R14): every field 0 when the hold is not present. -/
def holdLine : Option HoldLine → List Byte
  | none => zeros 32
  | some h => leBytes 1 1 ++ leBytes 1 h.last.isNone.toNat ++ zeros 2 ++ leBytes 4 h.first
      ++ leBytes 4 (h.last.getD 0) ++ leBytes 4 h.owner.toNat ++ zeros 16

/-- The retired-set line (R14). -/
def retiredLine (retired : BitVec 256) : List Byte := leBytes 32 retired.toNat

/-- The first 18 lines of a snapshot (R14). -/
def snapshotBody (generation : Nat) (holds : Vector (Option HoldLine) 16) (retired : BitVec 256) :
    List (List Byte) :=
  slotHeaderLine generation :: (holds.toList.map holdLine ++ [retiredLine retired])

/-- The snapshot commit line (R14). -/
def snapshotCommitLine (generation : Nat) (body : List (List Byte)) : List Byte :=
  leBytes 4 Config.snapshotMarker ++ leBytes 4 generation ++ leBytes 4 (crc32 body.flatten).toNat ++ zeros 20

/-- The 19 lines of a snapshot, in the order of R14. -/
def snapshotLines (generation : Nat) (holds : Vector (Option HoldLine) 16) (retired : BitVec 256) :
    List (List Byte) :=
  let body := snapshotBody generation holds retired
  body ++ [snapshotCommitLine generation body]

/-! ### Reading lines -/

/-- A JSN or an epoch in 1 to FFFFFFFEH. -/
def inJsnRange (n : Nat) : Bool := decide (1 ≤ n) && decide (n ≤ Config.lastJsn)

/-- The class Valid of R6, with the header's fields. -/
def validSectorHeader (o : LineOutcome) : Option SectorHeader :=
  match readable o with
  | none => none
  | some l =>
    if fieldAt l 0 4 = Config.sectorMarker ∧ inJsnRange (fieldAt l 4 4) ∧ inJsnRange (fieldAt l 8 4)
        ∧ fieldAt l 16 1 ≤ 1 ∧ checkMatches l then
      some ⟨fieldAt l 4 4, fieldAt l 8 4, fieldAt l 12 4, fieldAt l 16 1 == 1⟩
    else none

/-- What a header line is to a walk (R13). -/
inductive HeaderView where
  | erased
  | unreadable
  | pad
  | invalid
  | data (h : RecordHeader)
  deriving DecidableEq, Repr

/-- The fields of a line of kind DATA that passes R12, but for its fit in the sector. -/
def validData (e : Nat) (l : List Byte) : Option RecordHeader :=
  if h : fieldAt l 2 1 < 16 then
    if fieldAt l 0 1 = Config.kindData ∧ fieldAt l 1 1 ≤ 1 ∧ 1 ≤ fieldAt l 6 2 ∧ fieldAt l 6 2 ≤ Config.maxPayload
        ∧ fieldAt l 8 4 = e ∧ inJsnRange e ∧ checkMatches l then
      some ⟨fieldAt l 1 1 == 1, ⟨fieldAt l 2 1, h⟩, BitVec.ofNat 16 (fieldAt l 4 2), fieldAt l 8 4, fieldAt l 6 2,
        BitVec.ofNat 32 (fieldAt l 12 4), BitVec.ofNat 32 (fieldAt l 16 4)⟩
    else none
  else none

/-- A valid PAD (R12). -/
def validPad (e : Nat) (l : List Byte) : Bool :=
  fieldAt l 0 1 == Config.kindPad && fieldAt l 1 1 == 0 && fieldAt l 2 1 == 0 && fieldAt l 4 2 == 0
    && fieldAt l 6 2 == 0 && fieldAt l 8 4 == e && fieldAt l 12 4 == 0 && fieldAt l 16 4 == 0 && checkMatches l

/-- The cases of R13 at header position `p` with expected JSN `e`, the commit line apart. -/
def viewHeader (e p : Nat) (o : LineOutcome) : HeaderView :=
  if readsErased o then .erased
  else
    match readable o with
    | none => .unreadable
    | some l =>
      if validPad e l then .pad
      else
        match validData e l with
        | some h => if p + footprint h.length ≤ 2048 then .data h else .invalid
        | none => .invalid

/-- The commit line of a record validates (R10): its payload CRC. -/
def validCommit (h : RecordHeader) (o : LineOutcome) : Option Word :=
  match readable o with
  | none => none
  | some l =>
    if fieldAt l 0 4 = Config.commitMarker ∧ fieldAt l 4 4 = h.jsn ∧ fieldAt l 12 2 = h.length ∧ checkMatches l then
      some (BitVec.ofNat 32 (fieldAt l 8 4))
    else none

/-- The present hold a hold line states, `none` when it states none (R14). -/
def readHoldLine (l : List Byte) : Option HoldLine :=
  if fieldAt l 0 1 = 1 then
    some ⟨fieldAt l 4 4, if fieldAt l 1 1 = 1 then none else some (fieldAt l 8 4), BitVec.ofNat 32 (fieldAt l 12 4)⟩
  else none

/-- The test of R15 on a present hold line. -/
def holdLineOk : Option HoldLine → Bool
  | none => true
  | some h => inJsnRange h.first && (match h.last with | none => true | some l => decide (h.first ≤ l))

/-- The generation of a readable slot header line with the slot marker (R160). -/
def slotGeneration (o : LineOutcome) : Option Nat :=
  match readable o with
  | none => none
  | some l => if fieldAt l 0 4 = Config.slotMarker then some (fieldAt l 4 4) else none

/-- All outcomes readable: their bytes. -/
def allReadable : List LineOutcome → Option (List (List Byte))
  | [] => some []
  | o :: t =>
    match readable o, allReadable t with
    | some b, some r => some (b :: r)
    | _, _ => none

/-- A table of `n` values. -/
def tabulate {α : Type} (n : Nat) (f : Fin n → α) : Vector α n :=
  ⟨((List.finRange n).map f).toArray, by simp⟩

/-- The holds that lines 1 to 16 of a slot state. -/
def readHolds (lines : List (List Byte)) : Vector (Option HoldLine) 16 :=
  tabulate 16 fun i => readHoldLine (lines.getD (i.val + 1) [])

/-- A valid snapshot (R15), from the outcomes of lines 0 to 18 of the slot: generation, holds, retired set. -/
def validSnapshot (outcomes : List LineOutcome) : Option (Nat × Vector (Option HoldLine) 16 × BitVec 256) :=
  match allReadable outcomes with
  | none => none
  | some lines =>
    let l0 := lines.getD 0 []
    let l18 := lines.getD 18 []
    let holds := readHolds lines
    let retired := BitVec.ofNat 256 (leNat (lines.getD 17 []))
    if fieldAt l0 0 4 = Config.slotMarker ∧ fieldAt l18 0 4 = Config.snapshotMarker
        ∧ fieldAt l18 4 4 = fieldAt l0 4 4
        ∧ fieldAt l18 8 4 = (crc32 (lines.take 18).flatten).toNat
        ∧ holds.toList.all holdLineOk
        ∧ retired.getLsbD 0 = false ∧ retired.getLsbD 1 = false then
      some (fieldAt l0 4 4, holds, retired)
    else none

end Sys2Proof.Machine
end

