-- ==== Sys2Proof/Machine/Flags.lean ====
section
/-! DEFINITION. Causes, masks, saturating counters, and the code tables of R192. -/

namespace Sys2Proof.Machine

/-- The four interrupt causes as bits of INT_CAUSE and INT_MASK (R185). -/
def causeCompletion : BitVec 4 := 1#4
def causeNotice : BitVec 4 := 2#4
def causeStateChange : BitVec 4 := 4#4
def causeIndexError : BitVec 4 := 8#4

/-- The interrupt is raised: a set cause whose mask is clear (R179). -/
def HostUnit.raised (h : HostUnit) : Bool := h.intCause &&& ~~~h.intMask != 0#4

/-- Change causes or masks, and send one message when the condition turns from false to true (R179, R187). -/
def HostUnit.judged (h : HostUnit) (cause mask : BitVec 4) : HostUnit :=
  let h' := { h with intCause := cause, intMask := mask }
  if !h.raised && h'.raised then { h' with intMessages := h.intMessages + 1 } else h'

/-- Set causes (R174, R177, R172). -/
def HostUnit.withCauses (h : HostUnit) (causes : BitVec 4) : HostUnit := h.judged (h.intCause ||| causes) h.intMask

/-- A 32-bit counter held at FFFFFFFFH. -/
def saturate (n : Nat) : Nat := min n 0xFFFFFFFF

/-- R192. -/
def DeviceState.code : DeviceState → Nat
  | .offline => 0 | .setup => 1 | .mounting => 2 | .online => 3 | .draining => 4 | .stopped => 5 | .halted => 6

def Reason.code : Reason → Nat
  | .noReason => 0 | .setupReadError => 1 | .setupInvalid => 2 | .submissionReadError => 3
  | .completionWriteError => 4 | .noticeWriteError => 5 | .statusWriteError => 6 | .arrayTimeout => 7

def Status.code : Status → Nat
  | .ok => 0x00 | .accepted => 0x01 | .committed => 0x02 | .badKind => 0x10 | .badField => 0x11
  | .streamClosed => 0x20 | .streamOpen => 0x21 | .streamBusy => 0x22 | .noContext => 0x23
  | .stale => 0x24 | .ahead => 0x25 | .abandoned => 0x26 | .overlap => 0x27 | .scattered => 0x28
  | .beyondEnd => 0x29 | .poolExhausted => 0x2A | .hostReadError => 0x30 | .hostWriteError => 0x31
  | .aborted => 0x32 | .tooLate => 0x33 | .journalFull => 0x40 | .journalExhausted => 0x41
  | .writeFailed => 0x42 | .notYet => 0x50 | .expired => 0x51 | .shortBuffer => 0x52 | .mediaError => 0x53
  | .corrupt => 0x54 | .holdTableFull => 0x60 | .noSuchHold => 0x61 | .holdBusy => 0x62
  | .nothingToHold => 0x63 | .anchorFailed => 0x64 | .notIdle => 0x70 | .wipeActive => 0x71

def SectorState.code : SectorState → Nat
  | .anchor => 0 | .free => 1 | .opened => 2 | .closed => 3 | .erasing => 4 | .dirty => 5 | .retired => 6

def RetireReason.code : RetireReason → Nat
  | .noReason => 0 | .worn => 1 | .programFail => 2 | .eraseFail => 3 | .weak => 4

def StreamState.code : StreamState → Nat
  | .closed => 0 | .opened => 1 | .closing => 2

/-- The code of a hold entry's state; FREE is `none`. -/
def holdCode : Option Hold → Nat
  | none => 0
  | some h => match h.state with | .soft => 1 | .fixing => 2 | .fixed => 3 | .unfixing => 4

def AnchorState.code : AnchorState → Nat
  | .idle => 0 | .writing => 1 | .rollingOver => 2

def WriterState.code : WriterState → Nat
  | .idle => 0 | .opening => 1 | .writing => 2 | .committing => 3 | .waitingSpace => 4

end Sys2Proof.Machine
end

