-- ==== Sys2Proof/Machine/Ops.lean ====
section
/-! DEFINITION. The operations every block shares: tables, the array's lines, staging memory, handing outcomes and
notices for posting, the device state, requests to the Array Controller, and the signals between blocks. -/

namespace Sys2Proof.Machine

/-! ### Tables -/

/-- Change one entry of a table. -/
def tableMod {α : Type} {n : Nat} (v : Vector α n) (i : Fin n) (f : α → α) : Vector α n := v.set i (f v[i])

/-- Change every entry of a table. -/
def tableMap {α β : Type} {n : Nat} (f : α → β) (v : Vector α n) : Vector β n :=
  ⟨(v.toList.map f).toArray, by simp⟩

/-! ### Sparse memories: address and value pairs, addresses strictly rising -/

/-- What stands at an address, if anything is listed there. -/
def memGet {α : Type} : List (Nat × α) → Nat → Option α
  | [], _ => none
  | (a, v) :: t, k => if a = k then some v else memGet t k

/-- List a value at an address. -/
def memPut {α : Type} : List (Nat × α) → Nat → α → List (Nat × α)
  | [], k, v => [(k, v)]
  | (a, w) :: t, k, v =>
    if k < a then (k, v) :: (a, w) :: t
    else if k = a then (k, v) :: t
    else (a, w) :: memPut t k v

/-- List nothing at an address. -/
def memDrop {α : Type} (m : List (Nat × α)) (k : Nat) : List (Nat × α) := m.filter fun e => e.1 != k

/-- List a value or nothing at an address. -/
def memSet {α : Type} (m : List (Nat × α)) (k : Nat) : Option α → List (Nat × α)
  | some v => memPut m k v
  | none => memDrop m k

/-- The addresses rise strictly. -/
def risingFrom {α : Type} : Option Nat → List (Nat × α) → Bool
  | _, [] => true
  | lo, (a, _) :: t => (match lo with | none => true | some l => decide (l < a)) && risingFrom (some a) t

/-! ### The lines of the array -/

/-- The canonical form of the array's contents: line numbers strictly rising. An erased line is listed nowhere. -/
def arrayWf (m : List (Nat × Cell)) : Bool := risingFrom none m

/-- A line stands blank: nothing has programmed it since its sector was erased (R1). -/
def isBlank (m : List (Nat × Cell)) (line : Nat) : Bool := (memGet m line).isNone

/-- A line number lies in a sector. -/
def inSector (sector : SectorNo) (line : Nat) : Bool :=
  decide (lineNo sector 0 ≤ line) && decide (line < lineNo sector 0 + Config.linesPerSector)

/-- Every line of the sector blank (R1, R151). -/
def eraseLines (m : List (Nat × Cell)) (sector : SectorNo) : List (Nat × Cell) :=
  m.filter fun e => !inSector sector e.1

/-- The bytes a cell reads as. -/
def cellBytes : Cell → Option (List Byte)
  | .clean b => some b
  | .repaired b => some b
  | .broken => none

/-- A line left by a failed or cut-short operation is a whole line; anything else reads UNCORRECTABLE. -/
def wholeCell : Option Cell → Option Cell
  | some c => if c.wf then some c else some .broken
  | none => none

/-- A content carries the marker, the generation echo and the snapshot CRC of the snapshot commit line that the line was
to receive: with the lines before it as programmed, the snapshot would be valid (R14, R15). -/
def commitsAs (intended b : List Byte) : Bool :=
  fieldAt intended 0 4 == Config.snapshotMarker && b.take 12 == intended.take 12

/-- R3, first row: a line whose program was reported FAIL does not read as the content it was to receive; nor, in a
journal sector, as any line that its check validates, nor, in an anchor sector, as a commit line that makes the snapshot
valid, so that a torn record stays torn and a snapshot that failed stays invalid (R15, R96; log entry 15). -/
def failedProgramCell (line : Nat) (intended : List Byte) (left : Option Cell) : Option Cell :=
  match wholeCell left with
  | some c =>
    if (match cellBytes c with
        | some b => b == intended || passesCheck line b || (decide (line < 2 * Config.linesPerSector) && commitsAs intended b)
        | none => false) then some .broken
    else some c
  | none => if intended = erasedBytes then some .broken else none

/-- The contents of a sector's lines join those that the lines do not read as (R3, third row). -/
def barSector (m : List (Nat × Cell)) (sector : SectorNo) (barred : List (Nat × List Byte)) : List (Nat × List Byte) :=
  (m.filterMap fun e => if inSector sector e.1 then (cellBytes e.2).map fun b => (e.1, b) else none) ++ barred

/-- A good erase ends what R3 says of the sector's lines. -/
def unbarSector (sector : SectorNo) (barred : List (Nat × List Byte)) : List (Nat × List Byte) :=
  barred.filter fun e => !inSector sector e.1

/-- R3, third row: what a line of a sector whose erase failed or was cut short can stand at. It does not read as a
content it held; line 0 of a journal sector shows no valid header; no line of an anchor sector shows a snapshot
commit marker. -/
def failedEraseCell (sector : SectorNo) (line : Nat) (barred : List (Nat × List Byte)) (left : Option Cell) :
    Option Cell :=
  match wholeCell left with
  | none => none
  | some c =>
    if (match cellBytes c with | some b => barred.contains (line, b) | none => false)
        || (decide (2 ≤ sector.val) && decide (line = lineNo sector 0) && (validSectorHeader (cellOutcome (some c))).isSome)
        || (decide (sector.val < 2) && (match cellBytes c with | some b => fieldAt b 0 4 == Config.snapshotMarker | none => false))
    then some .broken
    else some c

/-- The sector as an erase that was cut short leaves it: lines the residue does not name are blank. -/
def cutErase (m : List (Nat × Cell)) (barred : List (Nat × List Byte)) (sector : SectorNo) (left : Residue) :
    List (Nat × Cell) :=
  let barred := barSector m sector barred
  left.foldl (init := eraseLines m sector) fun acc e =>
    if inSector sector e.1 then memSet acc e.1 (failedEraseCell sector e.1 barred e.2) else acc

/-- Some line of the sector is not blank. -/
def sectorListed (m : List (Nat × Cell)) (sector : SectorNo) : Bool := m.any fun e => inSector sector e.1

/-- The sector as an erase reported FAIL leaves it: some line is not blank (R151). Where the residue would leave every
line blank, line 0 reads UNCORRECTABLE (log entry 15). -/
def failErase (m : List (Nat × Cell)) (barred : List (Nat × List Byte)) (sector : SectorNo) (left : Residue) :
    List (Nat × Cell) :=
  let m' := cutErase m barred sector left
  if sectorListed m' sector then m' else memPut m' (lineNo sector 0) .broken

/-- The sector of a stopped erase: no line is erased, and none is readable as anything the part relies on (R153). -/
def stopErase (m : List (Nat × Cell)) (sector : SectorNo) : List (Nat × Cell) :=
  (m.filter fun e => decide (e.1 < lineNo sector 0))
    ++ (List.range Config.linesPerSector).map (fun k => (lineNo sector k, Cell.broken))
    ++ m.filter fun e => decide (lineNo sector 0 + Config.linesPerSector ≤ e.1)

/-- How many of the lines stand blank before the first that does not: a program goes no further (R150). -/
def blankRun (m : List (Nat × Cell)) (first : Nat) : Nat → Nat
  | 0 => 0
  | n + 1 => if isBlank m first then blankRun m (first + 1) n + 1 else 0

/-- The lines of a program that was cut short (R3, second row): a line the residue names is left so, any other line
of the operation is left as it stood. A line that was not blank is not changed, and ends the operation (R1, R150).
DESIGN CHOICE (log entry 15): after a timeout too a line may stand as its intended content, as R3 and R15 have it for a
program cut short, although R156 says that such a program reads as a torn record, an invalid or erased header, or an
invalid snapshot. -/
def cutProgram (m : List (Nat × Cell)) (first count : Nat) (left : Residue) : List (Nat × Cell) :=
  let reached := blankRun m first count
  left.foldl (init := m) fun acc e =>
    if first ≤ e.1 ∧ e.1 < first + reached then memSet acc e.1 (wholeCell e.2) else acc

/-- What an operation that was cut short leaves (R3). A read or a blank check changes nothing. -/
def cutShort (m : List (Nat × Cell)) (barred : List (Nat × List Byte)) (op : ArrayOp) (left : Residue) :
    List (Nat × Cell) :=
  match op with
  | .programLines sector first lines => cutProgram m (lineNo sector first) lines.length left
  | .eraseSector sector => cutErase m barred sector left
  | .readLines .. => m
  | .blankCheck _ => m

/-- What the lines of an operation that was cut short do not read as (R3). -/
def cutBarred (m : List (Nat × Cell)) (op : ArrayOp) (barred : List (Nat × List Byte)) : List (Nat × List Byte) :=
  match op with
  | .eraseSector sector => barSector m sector barred
  | .programLines .. => barred
  | .readLines .. => barred
  | .blankCheck _ => barred

/-! ### Staging memory -/

/-- The canonical form of staging memory: addresses strictly rising, no byte 00H listed. -/
def stagingWf (m : List Host.Cell) : Bool := risingFrom none m && m.all fun e => e.2 != 0#8

/-- One staging byte; what nothing has written reads 00H (log entry 5). -/
def stagingByte (m : List Host.Cell) (a : Nat) : Byte := (memGet m a).getD 0#8

/-- Write one staging byte. -/
def stagingPut (m : List Host.Cell) (a : Nat) (b : Byte) : List Host.Cell :=
  memSet m a (if b = 0#8 then none else some b)

/-- Where record byte `i` of a context lies: position i mod 512 of the block of entry ⌊i/512⌋ (R68). -/
def stagingAddress (map : Vector (Option BlockNo) 16) (i : Nat) : Option Nat :=
  if h : i / Config.blockBytes < 16 then
    map[i / Config.blockBytes].map fun b => Config.blockBytes * b.val + i % Config.blockBytes
  else none

/-- Write record bytes from byte `i` on (R68). -/
def stagingWrite (map : Vector (Option BlockNo) 16) : List Host.Cell → Nat → List Byte → List Host.Cell
  | m, _, [] => m
  | m, i, b :: t =>
    match stagingAddress map i with
    | some a => stagingWrite map (stagingPut m a b) (i + 1) t
    | none => stagingWrite map m (i + 1) t

/-- Read the first `n` record bytes (R73). -/
def stagedBytes (map : Vector (Option BlockNo) 16) (m : List Host.Cell) (n : Nat) : List Byte :=
  (List.range n).map fun i => ((stagingAddress map i).map (stagingByte m)).getD 0#8

/-! ### Handing outcomes and notices to the Host Ring Unit -/

/-- The outcome of a command joins the tail of the posting queue (R177). -/
def postOutcome (slot : SlotNo) (status : Status) (results : Results) (s : State) : State :=
  s.onHost fun h => { h with posting := h.posting ++ [.outcome slot status results] }

/-- A command completes with its status alone. -/
def complete (slot : SlotNo) (status : Status) (s : State) : State := postOutcome slot status {} s

/-- A notice that cannot be written is dropped and counted (R178). -/
def HostUnit.dropNotice (h : HostUnit) : HostUnit :=
  { h with lostCount := min (h.lostCount + 1) 255, noticesLost := saturate (h.noticesLost + 1) }

/-- A notice joins the posting queue, or is dropped and counted in OFFLINE and SETUP (R178). -/
def postNotice (n : Notice) (s : State) : State :=
  if s.host.device = .offline ∨ s.host.device = .setup then s.onHost HostUnit.dropNotice
  else s.onHost fun h => { h with posting := h.posting ++ [.notice n] }

/-! ### Device state (R172, R186) -/

/-- A change to MOUNTING, ONLINE, DRAINING or STOPPED: reason and index become 0, the status mark is set, and the
status block write that carries the state is to set STATE_CHANGE. -/
def HostUnit.changeState (h : HostUnit) (d : DeviceState) : HostUnit :=
  { h with device := d, reason := .noReason, badIndex := 0, statusMark := true, stateSince := true }

/-- A change to OFFLINE or HALTED with a reason: STATE_CHANGE is set at once. -/
def HostUnit.stopWith (h : HostUnit) (d : DeviceState) (r : Reason) (index : Nat) : HostUnit :=
  { h with device := d, reason := r, badIndex := index }.withCauses causeStateChange

/-- The part halts (R181); a halt cause met in HALTED leaves the first reason in place. -/
def halt (r : Reason) (s : State) : State :=
  if s.host.device = .halted then s else s.onHost fun h => h.stopWith .halted r 0

/-- The part is not HALTED: its blocks take happenings. -/
def State.live (s : State) : Bool := s.host.device != .halted

/-- Commands are taken by their owners: ONLINE and, for commands already in slots, DRAINING (R56, R180). -/
def State.takesCommands (s : State) : Bool := s.host.device == .online || s.host.device == .draining

/-! ### Requests to the Array Controller and their outcomes (R148) -/

def PerRequester.get {α : Type} (p : PerRequester α) : Requester → Option α
  | .writer => p.writer
  | .anchor => p.anchor
  | .reader => p.reader
  | .reclaim => p.reclaim
  | .mount => p.mount

def PerRequester.set {α : Type} (p : PerRequester α) (who : Requester) (v : Option α) : PerRequester α :=
  match who with
  | .writer => { p with writer := v }
  | .anchor => { p with anchor := v }
  | .reader => { p with reader := v }
  | .reclaim => { p with reclaim := v }
  | .mount => { p with mount := v }

/-- A requester places its next request (R148). -/
def placeRequest (who : Requester) (op : ArrayOp) (s : State) : State :=
  s.onCtrl fun c => { c with placed := c.placed.set who (some op) }

/-- A requester takes the outcome handed to it (R148). -/
def takeOutcome (who : Requester) (s : State) : State :=
  s.onCtrl fun c => { c with outcomes := c.outcomes.set who none }

/-! ### Signals -/

/-- A signal of R101 reaches the Reclaim Unit: it is acted on only in IDLE. -/
def signalReclaim (s : State) : State :=
  if s.reclaim.state = .idle then s.onReclaim fun r => { r with signal := true } else s

/-- The Sector Table signals the Journal Writer: a writer in WAITING_SPACE is to ask again (R88). -/
def signalWriter (s : State) : State :=
  if s.writer.state = .waitingSpace then s.onWriter fun w => { w with spaceSignal := true } else s

/-! ### The end of a WIPE (R112) -/

/-- The WIPE completes: the wipe active flag clears, the unit enters IDLE and its reclaim test is called for. -/
def completeWipe (status : Status) (s : State) : State :=
  match s.reclaim.wipeSlot with
  | some slot =>
    signalReclaim ((complete slot status s).onReclaim fun r =>
      { r with state := .idle, wipeActive := false, wipeSlot := none })
  | none => s

end Sys2Proof.Machine
end

