-- ==== Sys2Proof/Machine/Controller.lean ====
section
/-! DEFINITION. The Array Controller (R147 to R158): arbitration, suspension, the operations' effects on the array. -/

namespace Sys2Proof.Machine

/-! ### Arbitration (R152) -/

/-- A program or a read: what the rotation and a suspension serve. -/
def ArrayOp.isService : ArrayOp → Bool
  | .readLines .. => true
  | .programLines .. => true
  | .eraseSector _ => false
  | .blankCheck _ => false

/-- The rotation Writer, Anchor, Reader, beginning with the one after last served. -/
def rotationAfter : Requester → List Requester
  | .writer => [.anchor, .reader, .writer]
  | .anchor => [.reader, .writer, .anchor]
  | .reader => [.writer, .anchor, .reader]
  | .reclaim => [.writer, .anchor, .reader]
  | .mount => [.writer, .anchor, .reader]

/-- The pending program or read of a requester. -/
def ArrayCtrl.service (c : ArrayCtrl) (who : Requester) : Option ArrayOp := (c.requests.get who).filter ArrayOp.isService

/-- The pending erase of a requester. -/
def ArrayCtrl.pendingErase (c : ArrayCtrl) (who : Requester) : Option SectorNo :=
  match c.requests.get who with
  | some (.eraseSector i) => some i
  | _ => none

/-- The requester the rotation finds with a program or read pending, and its request. -/
def ArrayCtrl.nextService (c : ArrayCtrl) : Option (Requester × ArrayOp) :=
  (rotationAfter c.lastServed).findSome? fun who => (c.service who).map fun op => (who, op)

/-- The state in which the array carries an operation out. -/
def ArrayOp.state : ArrayOp → CtrlState
  | .readLines .. => .reading
  | .programLines .. => .programming
  | .eraseSector _ => .erasing
  | .blankCheck _ => .blankChecking

/-- A pending request starts. -/
def ArrayCtrl.begin (c : ArrayCtrl) (who : Requester) (op : ArrayOp) : ArrayCtrl :=
  { c with state := op.state, operation := some (who, op), requests := c.requests.set who none }

/-- A program or read starts, and its requester becomes last served. -/
def ArrayCtrl.serve (c : ArrayCtrl) (who : Requester) (op : ArrayOp) : ArrayCtrl :=
  { c.begin who op with lastServed := who }

/-- An erase starts: suspend count 0, served count 0, erase time 0. -/
def ArrayCtrl.beginErase (c : ArrayCtrl) (who : Requester) (i : SectorNo) : ArrayCtrl :=
  { c.begin who (.eraseSector i) with erase := some ⟨who, i, 0, 0⟩, eraseTime := 0 }

/-- Nothing is running. -/
def ArrayCtrl.rest (c : ArrayCtrl) : ArrayCtrl := { c with state := .idle, operation := none, erase := none }

/-- The choice when the array becomes free. -/
def ArrayCtrl.choose (c : ArrayCtrl) : ArrayCtrl :=
  let c := c.rest
  match c.requests.mount with
  | some op => c.begin .mount op
  | none =>
    match c.nextService with
    | some (who, op) => c.serve who op
    | none =>
      match c.pendingErase .anchor with
      | some i => c.beginErase .anchor i
      | none =>
        match c.pendingErase .reclaim with
        | some i => c.beginErase .reclaim i
        | none => c

/-! ### Suspension (R153, R154) -/

/-- A suspension begins, if the erase has had fewer than eight. -/
def ArrayCtrl.suspend (c : ArrayCtrl) : ArrayCtrl :=
  match c.erase with
  | none => c
  | some e =>
    if e.suspends < Config.maxSuspends then
      { c with
        state := .suspending
        erase := some { e with suspends := e.suspends + 1, served := 0 }
        suspensions := saturate (c.suspensions + 1) }
    else c

/-- The choice in ERASE_SUSPENDED: serve, or resume the erase. -/
def ArrayCtrl.chooseSuspended (c : ArrayCtrl) : ArrayCtrl :=
  match c.erase with
  | none => c
  | some e =>
    match c.nextService with
    | some (who, op) =>
      if e.served < Config.maxServed then { c.serve who op with erase := some { e with served := e.served + 1 } }
      else { c with state := .resuming, operation := some (e.requester, .eraseSector e.sector) }
    | none => { c with state := .resuming, operation := some (e.requester, .eraseSector e.sector) }

/-- The controller takes the request that `who` has placed (R148). -/
def ArrayCtrl.takeRequest (c : ArrayCtrl) (who : Requester) (op : ArrayOp) : ArrayCtrl :=
  let c := { c with placed := c.placed.set who none, requests := c.requests.set who (some op) }
  match c.state with
  | .idle => c.choose
  | .erasing => if op.isService && who != .mount then c.suspend else c
  | .eraseSuspended => c.chooseSuspended
  | .reading => c
  | .programming => c
  | .suspending => c
  | .resuming => c
  | .blankChecking => c

/-! ### What an operation does (R149 to R151) -/

/-- A line outcome the array can report: whole lines only. -/
def wholeOutcome (o : LineOutcome) : LineOutcome := if o.wf then o else .uncorrectable

/-- A content that is not the line's own, which bit errors may give without being detected (R149): it is none that
the line does not read as (R3), and in a journal sector it does not pass the line's check. -/
def mayMisread (barred : List (Nat × List Byte)) (line : Nat) (b : List Byte) : Bool :=
  !barred.contains (line, b) && !passesCheck line b

/-- How a line reads: as bit errors disturb it, else as it stands (R149, R3). -/
def readLine (m : List (Nat × Cell)) (barred : List (Nat × List Byte)) (disturbed : List (Nat × LineOutcome))
    (line : Nat) : LineOutcome :=
  let own := cellOutcome (memGet m line)
  match (memGet disturbed line).map wholeOutcome with
  | none => own
  | some o =>
    match readable o with
    | none => .uncorrectable
    | some b => if readable own = some b ∨ mayMisread barred line b then o else .uncorrectable

/-- The outcomes of READ_LINES, in rising order (R149). Contents that are not the lines' own are caught by the snapshot
check (R15): where such contents would have an anchor slot read as a valid snapshot that its lines do not state, the lines
that show them are UNCORRECTABLE instead (log entry 15). -/
def readLines (m : List (Nat × Cell)) (barred : List (Nat × List Byte)) (disturbed : List (Nat × LineOutcome))
    (sector : SectorNo) (first count : Nat) : List LineOutcome :=
  let own := (List.range count).map fun k => cellOutcome (memGet m (lineNo sector (first + k)))
  let shown := (List.range count).map fun k => readLine m barred disturbed (lineNo sector (first + k))
  if sector.val < 2 ∧ validSnapshot shown ≠ none ∧ validSnapshot shown ≠ validSnapshot own then
    List.zipWith (fun o x => if readable o = readable x then x else .uncorrectable) own shown
  else shown

/-- The raw cells of a line show bit errors to an operation: the line is not blank (R150). -/
def rawErrors (disturbed : List (Nat × LineOutcome)) (line : Nat) : Bool :=
  match memGet disturbed line with
  | some o => o != .clean erasedBytes
  | none => false

/-- The blank test of R150. -/
def testsBlank (m : List (Nat × Cell)) (disturbed : List (Nat × LineOutcome)) (line : Nat) : Bool :=
  isBlank m line && !rawErrors disturbed line

/-- PROGRAM_LINES: line by line, to the first that is not blank or does not verify (R150). `fails` is the line that
does not verify, if one is to fail so, and what it is left at. -/
def programCells (sector : SectorNo) (disturbed : List (Nat × LineOutcome)) (fails : Option (Nat × Option Cell)) :
    List (Nat × Cell) → Nat → List (List Byte) → List (Nat × Cell) × ArrayOutcome
  | m, _, [] => (m, .programmed)
  | m, line, b :: t =>
    let a := lineNo sector line
    if !testsBlank m disturbed a then (m, .programFailed line true)
    else
      match fails with
      | some (n, left) =>
        if n = a then (memSet m a (failedProgramCell a b left), .programFailed line false)
        else programCells sector disturbed fails (memPut m a (.clean b)) (line + 1) t
      | none => programCells sector disturbed fails (memPut m a (.clean b)) (line + 1) t

/-- The line at which a program did not verify does not read as the content it was to receive (R3). -/
def barFailed (sector : SectorNo) (first : Nat) (lines : List (List Byte)) (o : ArrayOutcome)
    (barred : List (Nat × List Byte)) : List (Nat × List Byte) :=
  match o with
  | .programFailed line false => (lineNo sector line, lines.getD (line - first) []) :: barred
  | _ => barred

/-- BLANK_CHECK (R151). -/
def sectorBlank (m : List (Nat × Cell)) (disturbed : List (Nat × LineOutcome)) (sector : SectorNo) : Bool :=
  !sectorListed m sector && !disturbed.any fun e => inSector sector e.1 && rawErrors disturbed e.1

/-- What an operation leaves of the array and of the contents its lines do not read as, and the outcome it reports;
`none` where the report is of another operation. DESIGN CHOICE (log entry 15): bit errors that come with the report of an
erase that ended well do not make its verification fail (R151): an erase fails by the report `eraseFails` alone. -/
def runOp (m : List (Nat × Cell)) (barred : List (Nat × List Byte)) (op : ArrayOp) (report : ArrayReport) :
    Option (List (Nat × Cell) × List (Nat × List Byte) × ArrayOutcome) :=
  match op, report with
  | .readLines sector first count, .done disturbed =>
    some (m, barred, .lines (readLines m barred disturbed sector first count))
  | .programLines sector first lines, .done disturbed =>
    let r := programCells sector disturbed none m first lines
    some (r.1, barred, r.2)
  | .programLines sector first lines, .programFails n left =>
    let r := programCells sector [] (some (n, left)) m first lines
    some (r.1, barFailed sector first lines r.2 barred, r.2)
  | .eraseSector sector, .done _ => some (eraseLines m sector, unbarSector sector barred, .erased)
  | .eraseSector sector, .eraseFails left =>
    some (failErase m barred sector left, barSector m sector barred, .eraseFailed)
  | .blankCheck sector, .done disturbed =>
    some (m, barred, if sectorBlank m disturbed sector then .blank else .notBlank)
  | _, _ => none

/-- The statistics of line outcomes (R158). -/
def ArrayCtrl.countLines (c : ArrayCtrl) (o : ArrayOutcome) : ArrayCtrl :=
  match o with
  | .lines l => { c with
      linesCorrected := saturate (c.linesCorrected + correctedLines l)
      linesUncorrectable := saturate (c.linesUncorrectable + uncorrectableLines l) }
  | _ => c

/-- The limit of R156. -/
def ArrayOp.limit : ArrayOp → Nat
  | .readLines .. => Config.readLimit
  | .programLines .. => Config.programLimit
  | .eraseSector _ => Config.eraseLimit
  | .blankCheck _ => Config.readLimit

/-- The time the running operation has taken when `elapsed` more has passed: an erase counts its erase time. -/
def ArrayCtrl.runTime (c : ArrayCtrl) (op : ArrayOp) (elapsed : Nat) : Nat :=
  match op with
  | .eraseSector _ => c.eraseTime + elapsed
  | .readLines .. => elapsed
  | .programLines .. => elapsed
  | .blankCheck _ => elapsed

/-- The operation that can end now: the one in progress, unless the array is only taking a stopped erase up again. -/
def ArrayCtrl.endable (c : ArrayCtrl) : Option (Requester × ArrayOp) :=
  match c.state with
  | .resuming => none
  | .idle => none
  | .eraseSuspended => none
  | .reading => c.operation
  | .programming => c.operation
  | .erasing => c.operation
  | .suspending => c.operation
  | .blankChecking => c.operation

/-- The operation whose time runs (R156): in RESUMING too. -/
def ArrayCtrl.timed (c : ArrayCtrl) : Option (Requester × ArrayOp) :=
  match c.state with
  | .resuming => c.operation
  | _ => c.endable

/-- An operation is served while an erase stands suspended. -/
def ArrayCtrl.inSuspension (c : ArrayCtrl) (op : ArrayOp) : Bool := op.isService && c.erase.isSome

/-- The controller after the operation has left it, with nothing started: ERASE_SUSPENDED, or IDLE. -/
def ArrayCtrl.leave (c : ArrayCtrl) (op : ArrayOp) : ArrayCtrl :=
  if c.inSuspension op then { c with state := .eraseSuspended, operation := none } else c.rest

/-- An operation ends (R152, R154, R157): in HALTED its outcome goes nowhere and nothing is started. -/
def ArrayCtrl.ended (c : ArrayCtrl) (live : Bool) (who : Requester) (op : ArrayOp) (o : ArrayOutcome) : ArrayCtrl :=
  let c := c.countLines o
  if live then
    let c' := { c.leave op with outcomes := c.outcomes.set who (some o) }
    if c.inSuspension op then c'.chooseSuspended else c'.choose
  else c.leave op

/-- ARRAY_OPERATION_END. -/
def operationEnded (elapsed : Nat) (report : ArrayReport) (s : State) : State :=
  match s.ctrl.endable with
  | none => s
  | some (who, op) =>
    if s.ctrl.runTime op elapsed < op.limit then
      match runOp s.array s.barred op report with
      | none => s
      | some (m, barred, o) =>
        ((s.onCtrl fun c => c.ended s.live who op o).onArray fun _ => m).onBarred fun _ => barred
    else s

/-- The lines of a sector whose erase has stopped: nothing of what they held is left (R153, R3). -/
def stopLines (sector : SectorNo) (s : State) : State :=
  (s.onArray fun m => stopErase m sector).onBarred fun b => barSector s.array sector b

/-- The array reports the erase stopped (R153, R157). -/
def eraseStopped (elapsed : Nat) (s : State) : State :=
  if s.ctrl.state = .suspending ∧ s.ctrl.eraseTime + elapsed < Config.eraseLimit then
    (match s.ctrl.erase with | some e => stopLines e.sector s | none => s).onCtrl fun c =>
      let c := { c with state := .eraseSuspended, operation := none, eraseTime := c.eraseTime + elapsed }
      if s.live then c.chooseSuspended else c
  else s

/-- The array reports the erase resumed (R154, R157). -/
def eraseResumed (elapsed : Nat) (s : State) : State :=
  if s.ctrl.state = .resuming ∧ s.ctrl.eraseTime + elapsed < Config.eraseLimit then
    s.onCtrl fun c =>
      let c := { c with state := .erasing, eraseTime := c.eraseTime + elapsed }
      if s.live && c.nextService.isSome then c.suspend else c
  else s

/-- An operation reaches its limit (R156): it is abandoned and the part halts. -/
def operationTimedOut (elapsed : Nat) (left : Residue) (s : State) : State :=
  match s.ctrl.timed with
  | none => s
  | some (_, op) =>
    if op.limit ≤ s.ctrl.runTime op elapsed then
      halt .arrayTimeout (((s.onCtrl fun c => { c.leave op with
          eraseTime := match op with
            | .eraseSector _ => min (c.eraseTime + elapsed) Config.eraseLimit
            | _ => c.eraseTime }).onArray
        fun m => cutShort m s.barred op left).onBarred fun b => cutBarred s.array op b)
    else s

/-- The sector that an erase request names. -/
def ArrayOp.erases : ArrayOp → Option SectorNo
  | .eraseSector sector => some sector
  | .readLines .. => none
  | .programLines .. => none
  | .blankCheck _ => none

/-- The sectors whose erase a reset cuts short: that of the erase in the array, running or stopped (R157), and the victim
whose erase the Reclaim Unit has requested and the array has not begun (R32, R100, R105; log entry 24). -/
def ArrayCtrl.abandonedErases (c : ArrayCtrl) : List SectorNo :=
  (c.erase.map (·.sector)).toList ++ (c.requests.reclaim.bind ArrayOp.erases).toList
    ++ (c.placed.reclaim.bind ArrayOp.erases).toList

/-- What the lines of the erases that a reset has abandoned do not read as (R3). -/
def abandonedBarred (c : ArrayCtrl) (m : List (Nat × Cell)) (barred : List (Nat × List Byte)) : List (Nat × List Byte) :=
  c.abandonedErases.foldl (fun b sector => barSector m sector b) barred

/-- The array after a reset has abandoned what it was doing, running or stopped (R157, R3), and the erase that the
Reclaim Unit waits for (R105). -/
def abandonedArray (c : ArrayCtrl) (m : List (Nat × Cell)) (barred : List (Nat × List Byte)) (left : Residue) :
    List (Nat × Cell) :=
  let programmed := match c.operation with
    | some (_, .programLines sector first lines) => cutProgram m (lineNo sector first) lines.length left
    | _ => m
  c.abandonedErases.foldl (fun acc sector => cutErase acc (abandonedBarred c m barred) sector left) programmed

end Sys2Proof.Machine
end

