-- ==== Sys2Proof/Machine/Sectors.lean ====
section
/-! DEFINITION. The Sector Table's claims and questions (R17 to R38), each taken whole against the entries as they
stand. -/

namespace Sys2Proof.Machine

/-- Every sector, in number order. -/
def allSectors : List SectorNo := List.finRange 256

/-- Change one sector entry. -/
def modEntry (i : SectorNo) (f : SectorEntry → SectorEntry) (s : State) : State :=
  s.onTable fun t => { t with entries := tableMod t.entries i f }

/-- The sectors in a state, in number order. -/
def SectorTable.inState (t : SectorTable) (st : SectorState) : List SectorNo :=
  allSectors.filter fun i => t.entries[i].state == st

/-- The free set (R18). -/
def SectorTable.freeSet (t : SectorTable) : List SectorNo := t.inState .free

/-- The OPEN sector, if any (R18). -/
def SectorTable.openSector (t : SectorTable) : Option SectorNo :=
  allSectors.find? fun i => t.entries[i].state == .opened

/-- The in-hand sector, if any (R22). -/
def SectorTable.inHandSector (t : SectorTable) : Option SectorNo :=
  allSectors.find? fun i => t.entries[i].inHand

/-! ### Ranges and holds -/

/-- A present range meets [a, b], or [a, ∞) when `b` is absent (R17). -/
def rangeMeets (range : Option (Nat × Nat)) (a : Nat) (b : Option Nat) : Bool :=
  match range with
  | none => false
  | some (first, last) => decide (a ≤ last) && (match b with | none => true | some b => decide (first ≤ b))

/-- A range meets the range of some hold that is not FREE (R30). -/
def heldRange (holds : HoldTable) (range : Option (Nat × Nat)) : Bool :=
  holds.entries.toList.any fun e =>
    match e with
    | none => false
    | some h => rangeMeets range h.first h.last

/-- A retire reason takes effect on the first marking only (R36). -/
def SectorEntry.retireLater (e : SectorEntry) (r : RetireReason) : SectorEntry :=
  if e.retirePending then e else { e with retirePending := true, reason := r }

/-! ### The free set and opening (R22 to R24) -/

/-- The FREE sector of lowest wear, the lowest number among equals (R22): the first of the list that no other one
undercuts. -/
def lowestWear (t : SectorTable) : List SectorNo → Option SectorNo
  | [] => none
  | i :: rest =>
    match lowestWear t rest with
    | none => some i
    | some j => if t.entries[j].wear < t.entries[i].wear then some j else some i

/-- The sector that R22 chooses. -/
def SectorTable.chooseFree (t : SectorTable) : Option SectorNo := lowestWear t t.freeSet

/-- The space outlook is COMING (R24). -/
def spaceComing (t : SectorTable) (holds : HoldTable) : Bool :=
  t.freeSet.isEmpty && allSectors.any fun i =>
    t.entries[i].state == .erasing || t.entries[i].state == .dirty
      || (t.entries[i].state == .closed && !heldRange holds t.entries[i].range)

/-- The chosen sector is taken in hand (R22). -/
def takeInHand (i : SectorNo) (s : State) : State := modEntry i (fun e => { e with inHand := true }) s

/-- The open claim (R22): taken only if no sector is OPEN. It signals the Reclaim Unit (R101). -/
def openClaim (i : SectorNo) (epoch base : Nat) (s : State) : State :=
  match s.table.openSector with
  | some _ => s
  | none =>
    signalReclaim ((modEntry i (fun e => { e with
        state := .opened, inHand := false, epoch := some epoch, baseJsn := some base, range := none,
        nextFree := some 1 }) s).onTable fun t => { t with journal := t.journal ++ [i] })

/-- A header program failure (R23). -/
def headerFailed (i : SectorNo) (s : State) : State :=
  signalReclaim (modEntry i (fun e => { e.retireLater .programFail with state := .dirty, inHand := false }) s)

/-! ### Extending and closing (R25) -/

/-- The extend claim. -/
def extendClaim (i : SectorNo) (position footprint jsn : Nat) (s : State) : State :=
  modEntry i (fun e => { e with
    nextFree := some (position + footprint),
    range := match e.range with | none => some (jsn, jsn) | some (first, _) => some (first, jsn) }) s

/-- The kinds of a close claim. -/
inductive CloseKind where
  | padded | full | padFailed | recordFailed
  deriving DecidableEq, Repr

/-- The close claim. It signals the Reclaim Unit (R101). -/
def closeClaim (i : SectorNo) (kind : CloseKind) (s : State) : State :=
  signalReclaim (modEntry i (fun e =>
    let closed := { e with state := .closed, nextFree := none }
    match kind with
    | .padded => closed
    | .full => closed
    | .padFailed => closed.retireLater .programFail
    | .recordFailed => closed.retireLater .programFail) s)

/-! ### Questions about ranges (R26) -/

/-- The lowest surviving JSN at or above `j`, with its sector. -/
def SectorTable.lowestSurviving (t : SectorTable) (j : Nat) : Option (SectorNo × Nat) :=
  t.journal.findSome? fun i =>
    match t.entries[i].range with
    | none => none
    | some (first, last) => if j ≤ last then some (i, max j first) else none

/-- The range [a, b] or [a, ∞) meets some member of the journal list. -/
def SectorTable.meetsJournal (t : SectorTable) (a : Nat) (b : Option Nat) : Bool :=
  t.journal.any fun i => rangeMeets t.entries[i].range a b

/-! ### Pins (R27 to R29) -/

/-- The member whose range holds `j`. -/
def SectorTable.locate (t : SectorTable) (j : Nat) : Option SectorNo :=
  t.journal.find? fun i =>
    match t.entries[i].range with
    | none => false
    | some (first, last) => decide (first ≤ j) && decide (j ≤ last)

/-- The first member after `i` whose range is present. -/
def SectorTable.nextAfter (t : SectorTable) (i : SectorNo) : Option SectorNo :=
  ((t.journal.dropWhile fun k => k != i).drop 1).find? fun k => t.entries[k].range.isSome

/-- A pin is taken. -/
def pinSector (i : SectorNo) (s : State) : State := modEntry i (fun e => { e with pins := e.pins + 1 }) s

/-- A pin is released; the last one on a CLOSED sector signals the Reclaim Unit. -/
def unpinSector (i : SectorNo) (s : State) : State :=
  let s' := modEntry i (fun e => { e with pins := e.pins - 1 }) s
  if s'.table.entries[i].pins = 0 ∧ s'.table.entries[i].state = .closed then signalReclaim s' else s'

/-! ### Victims and settlements (R30 to R34) -/

/-- The victim of R30. -/
def chooseVictim (t : SectorTable) (holds : HoldTable) : Option SectorNo :=
  match allSectors.find? fun i => t.entries[i].state == .dirty with
  | some i => some i
  | none => t.journal.find? fun i =>
      t.entries[i].state == .closed && t.entries[i].pins == 0 && !heldRange holds t.entries[i].range

/-- RECORDS_EXPIRED for a present range. -/
def expireRange (i : SectorNo) (s : State) : State :=
  match s.table.entries[i].range with
  | none => s
  | some (first, last) => postNotice (.recordsExpired i first last) s

/-- The victim leaves the journal list and becomes ERASING (R31). -/
def takeVictim (i : SectorNo) (s : State) : State :=
  (modEntry i (fun e => { e with
      state := .erasing, epoch := none, baseJsn := none, range := none }) (expireRange i s)).onTable
    fun t => { t with journal := t.journal.filter fun k => k != i }

/-- The outcomes a settlement reports (R33). -/
inductive Settlement where
  | toFree
  | toRetired (reason : RetireReason)
  | failed
  deriving DecidableEq, Repr

/-- The entry after a settlement. -/
def SectorEntry.settled (e : SectorEntry) (o : Settlement) : SectorEntry :=
  let cleared := { e with corrected := 0, weak := false, retirePending := false }
  match o with
  | .toFree => { cleared with wear := e.wear + 1, reason := .noReason, state := .free }
  | .toRetired r => { cleared with wear := e.wear + 1, reason := r, state := .retired }
  | .failed => { cleared with reason := .eraseFail, state := .retired }

/-- The settlement of an erase: the entry, and the signal to the writer. -/
def settleErase (i : SectorNo) (o : Settlement) (s : State) : State :=
  signalWriter (modEntry i (fun e => e.settled o) s)

/-- One member of the journal list at a wipe start: its notice, and DIRTY. -/
def wipeMember (i : SectorNo) (s : State) : State :=
  modEntry i (fun e => { e with
    state := .dirty, epoch := none, baseJsn := none, range := none, nextFree := none }) (expireRange i s)

/-- The wipe start claim (R34), oldest epoch first. -/
def wipeStart (s : State) : State :=
  (s.table.journal.foldl (fun s i => wipeMember i s) s).onTable fun t => { t with journal := [] }

/-! ### Corrected lines and anchor erases (R21, R35) -/

/-- A corrected-line report of `n` lines. -/
def correctedReport (i : SectorNo) (n : Nat) (s : State) : State :=
  let e := s.table.entries[i]
  if e.state = .opened ∨ e.state = .closed then
    let count := min (e.corrected + n) Config.weakThreshold
    if count = Config.weakThreshold ∧ e.weak = false then
      postNotice (.weakSector i)
        (modEntry i (fun e => { e with corrected := count, weak := true }.retireLater .weak) s)
    else modEntry i (fun e => { e with corrected := count }) s
  else s

/-- The Anchor Unit reports the end of its erase of an anchor sector. -/
def anchorEraseSettled (sector : Fin 2) (ok : Bool) (s : State) : State :=
  if ok then modEntry ⟨sector.val, by omega⟩ (fun e => { e with wear := e.wear + 1 }) s else s

end Sys2Proof.Machine
end

