-- ==== Sys2Proof/Machine/AnchorUnit.lean ====
section
/-! DEFINITION. The Hold Table and the Anchor Unit (R116 to R131): holds, changes, snapshots, rollover, failure. -/

namespace Sys2Proof.Machine

/-- Hold ids in order. -/
def allHolds : List (Fin 16) := List.finRange 16

/-- Put a hold, or FREE, at an id. -/
def setHold (id : Fin 16) (h : Option Hold) (s : State) : State :=
  s.onHolds fun t => { t with entries := t.entries.set id h }

/-- The entry becomes FREE, and the Reclaim Unit is signalled (R120). -/
def freeHold (id : Fin 16) (s : State) : State := signalReclaim (setHold id none s)

/-! ### Snapshots (R123 to R126) -/

/-- The sector of an anchor number. -/
def anchorSector (a : Fin 2) : SectorNo := ⟨a.val, by omega⟩

/-- The other anchor sector. -/
def otherAnchor (a : Fin 2) : Fin 2 := if a = 0 then 1 else 0

/-- The hold line a snapshot captures for an entry (R123, R116). -/
def captureHold : Option Hold → Option HoldLine
  | none => none
  | some h =>
    match h.state with
    | .fixing => some ⟨h.first, h.last, h.owner⟩
    | .fixed => some ⟨h.first, h.last, h.owner⟩
    | .soft => none
    | .unfixing => none

/-- First line and line count of the four program requests (R124). -/
def snapshotPart : Fin 4 → Nat × Nat
  | 0 => (0, 8)
  | 1 => (8, 8)
  | 2 => (16, 2)
  | 3 => (18, 1)

/-- The program request of one part of the snapshot, in its slot (R124). -/
def requestPart (snap : Snapshot) (s : State) : State :=
  let part := snapshotPart snap.request
  let lines := ((snapshotLines snap.generation snap.holds snap.retired).drop part.1).take part.2
  placeRequest .anchor (.programLines (anchorSector s.anchor.active) (32 * snap.slot + part.1) lines)
    (s.onAnchor fun a => { a with state := .writing, snapshot := some snap })

/-- An attempt begins in the next slot (R124). -/
def beginAttempt (snap : Snapshot) (s : State) : State :=
  requestPart { snap with slot := s.anchor.nextSlot, request := 0 }
    (s.onAnchor fun a => { a with nextSlot := a.nextSlot + 1 })

/-- The rollover begins (R126). -/
def beginRollover (snap : Snapshot) (s : State) : State :=
  placeRequest .anchor (.eraseSector (anchorSector (otherAnchor s.anchor.active)))
    (s.onAnchor fun a => { a with state := .rollingOver, snapshot := some { snap with rolled := true } })

/-- A snapshot starts (R123). -/
def startSnapshot (s : State) : State :=
  let snap : Snapshot :=
    { holds := tableMap captureHold s.holds.entries, retired := s.anchor.retired,
      generation := s.anchor.generation + 1, attempts := 0, rolled := false, slot := 0, request := 0 }
  if s.anchor.nextSlot = 64 then beginRollover snap s else beginAttempt snap s

/-! ### Changes (R122, R128) -/

/-- The change of a retire request joins the retired set at once (R122). -/
def Change.addRetired (c : Change) (retired : BitVec 256) : BitVec 256 :=
  match c with
  | .retire i => retired ||| (1#256 <<< i.val)
  | .hold _ => retired
  | .wipe => retired

/-- The Anchor Unit takes a change. -/
def takeChange (c : Change) (s : State) : State :=
  let s := s.onAnchor fun a => { a with retired := c.addRetired a.retired }
  if s.anchor.failed then
    match c with
    | .wipe => completeWipe .anchorFailed s
    | .retire _ => s
    | .hold _ => s
  else
    match s.anchor.state with
    | .idle => startSnapshot (s.onAnchor fun a => { a with covered := a.covered ++ [c] })
    | .writing => s.onAnchor fun a => { a with waiting := a.waiting ++ [c], pendingFlag := true }
    | .rollingOver => s.onAnchor fun a => { a with waiting := a.waiting ++ [c], pendingFlag := true }

/-! ### Validation and failure (R125, R127) -/

/-- A waiting command of a hold entry completes. -/
def completeWaiting (h : Hold) (status : Status) (results : Results) (s : State) : State :=
  match h.waiting with
  | some slot => postOutcome slot status results s
  | none => s

/-- The results of an accepted HOLD (R118, R190). -/
def holdResults (id : Fin 16) (effectiveFirst : Nat) : Results :=
  { at4 := BitVec.ofNat 32 effectiveFirst, at12 := BitVec.ofNat 16 id.val }

/-- A covered change at the validation (R125, step 2). -/
def changeValidated (c : Change) (s : State) : State :=
  match c with
  | .retire _ => s
  | .wipe => completeWipe .ok s
  | .hold id =>
    match s.holds.entries[id] with
    | none => s
    | some h =>
      match h.state with
      | .fixing =>
        completeWaiting h .ok (holdResults id (h.effectiveFirst.getD 0))
          (setHold id (some { h with state := .fixed, waiting := none, effectiveFirst := none }) s)
      | .unfixing => completeWaiting h .ok {} (freeHold id s)
      | .soft => s
      | .fixed => s

/-- A change when the anchor fails (R127, step 2). -/
def changeFailed (c : Change) (s : State) : State :=
  match c with
  | .retire _ => s
  | .wipe => completeWipe .anchorFailed s
  | .hold id =>
    match s.holds.entries[id] with
    | none => s
    | some h =>
      match h.state with
      | .fixing => completeWaiting h .anchorFailed {} (freeHold id s)
      | .unfixing =>
        completeWaiting h .anchorFailed {} (setHold id (some { h with state := .fixed, waiting := none }) s)
      | .soft => s
      | .fixed => s

/-- The snapshot is validated (R125). -/
def snapshotValidated (snap : Snapshot) (s : State) : State :=
  let covered := s.anchor.covered
  let s := s.onAnchor fun a => { a with
    generation := snap.generation, snapshot := none, covered := [], state := .idle }
  let s := covered.foldl (fun s c => changeValidated c s) s
  if s.anchor.pendingFlag then
    startSnapshot (s.onAnchor fun a => { a with covered := a.waiting, waiting := [], pendingFlag := false })
  else s

/-- The anchor fails (R127). -/
def anchorFails (s : State) : State :=
  let changes := s.anchor.covered ++ s.anchor.waiting
  let s := s.onAnchor fun a => { a with
    failed := true, snapshot := none, pendingFlag := false, state := .idle, covered := [], waiting := [] }
  postNotice .anchorFailed (changes.foldl (fun s c => changeFailed c s) s)

/-- A program request of the snapshot ended (R124). -/
def snapshotPartEnded (snap : Snapshot) (ok : Bool) (s : State) : State :=
  if ok then
    if snap.request = 3 then snapshotValidated snap s
    else requestPart { snap with request := snap.request + 1 } s
  else
    let snap := { snap with attempts := snap.attempts + 1 }
    if snap.attempts < Config.maxSlotAttempts ∧ s.anchor.nextSlot ≤ 63 then beginAttempt snap s
    else if snap.rolled then anchorFails s
    else beginRollover snap s

/-- The rollover erase ended (R126). -/
def rolloverEnded (snap : Snapshot) (ok : Bool) (s : State) : State :=
  let other := otherAnchor s.anchor.active
  let s := anchorEraseSettled other ok s
  if ok then
    beginAttempt { snap with attempts := 0 } (s.onAnchor fun a => { a with active := other, nextSlot := 0 })
  else anchorFails s

/-! ### HOLD and RELEASE (R117 to R119) -/

/-- HOLD is taken. -/
def takeHold (slot : SlotNo) (first : Nat) (last : Option Nat) (fixed : Bool) (owner : Word) (s : State) : State :=
  if s.reclaim.wipeActive then complete slot .wipeActive s
  else if fixed && s.anchor.failed then complete slot .anchorFailed s
  else if (match last with
      | none => false
      | some l => decide (l < s.writer.nextJsn.getD 0) && !s.table.meetsJournal first (some l)) then
    complete slot .nothingToHold s
  else
    match allHolds.find? fun i => s.holds.entries[i].isNone with
    | none => complete slot .holdTableFull s
    | some id =>
      let effective := match s.table.lowestSurviving first with
        | some (_, j) => j
        | none => s.writer.nextJsn.getD 0
      if fixed then
        takeChange (.hold id) (setHold id (some ⟨.fixing, first, last, owner, some slot, some effective⟩) s)
      else
        postOutcome slot .ok (holdResults id effective) (setHold id (some ⟨.soft, first, last, owner, none, none⟩) s)

/-- RELEASE is taken. -/
def takeRelease (slot : SlotNo) (id : Fin 16) (s : State) : State :=
  match s.holds.entries[id] with
  | none => complete slot .noSuchHold s
  | some h =>
    match h.state with
    | .fixing => complete slot .holdBusy s
    | .unfixing => complete slot .holdBusy s
    | .soft => complete slot .ok (freeHold id s)
    | .fixed =>
      if s.anchor.failed then complete slot .anchorFailed s
      else takeChange (.hold id) (setHold id (some { h with state := .unfixing, waiting := some slot }) s)

end Sys2Proof.Machine
end

