-- ==== Sys2Proof/Machine/Coverage.lean ====
section
/-! DEFINITION. Coverage lists and pieces (R63), and the range and staging tests of a fragment (R66, R67). -/

namespace Sys2Proof.Machine

/-- Some byte of [a, b) lies in an interval of the list. -/
def covers (l : List (Nat × Nat)) (a b : Nat) : Bool := l.any fun iv => decide (iv.1 < b) && decide (a < iv.2)

/-- Add [a, b), joined with every interval it touches or overlaps. -/
def addInterval (a b : Nat) : List (Nat × Nat) → List (Nat × Nat)
  | [] => [(a, b)]
  | (x, y) :: t =>
    if b < x then (a, b) :: (x, y) :: t
    else if y < a then (x, y) :: addInterval a b t
    else addInterval (min a x) (max b y) t

/-- Remove the bytes of [a, b). -/
def removeInterval (a b : Nat) : List (Nat × Nat) → List (Nat × Nat)
  | [] => []
  | (x, y) :: t =>
    (if x < min y a then [(x, min y a)] else []) ++ (if max x b < y then [(max x b, y)] else [])
      ++ removeInterval a b t

/-- The maximal runs of received bytes: the coverage less every transfer in flight. -/
def Context.receivedRuns (c : Context) : List (Nat × Nat) :=
  c.transfers.foldl (fun l t => removeInterval t.offset (t.offset + t.length) l) c.coverage

/-- The pieces of a context. -/
def Context.pieces (c : Context) : Nat := c.receivedRuns.length + c.transfers.length

/-- The context is complete: one received interval from 0 to the total. -/
def Context.isComplete (c : Context) : Bool :=
  match c.total with
  | none => false
  | some total => c.coverage == [(0, total)] && c.transfers.isEmpty

/-- The block map entries a fragment touches (R67). -/
def fragmentEntries (offset length : Nat) : List (Fin 16) :=
  (List.finRange 16).filter fun i =>
    decide (offset / Config.blockBytes ≤ i.val) && decide (i.val ≤ (offset + length - 1) / Config.blockBytes)

/-- Those of them that are absent from the map. -/
def absentEntries (map : Vector (Option BlockNo) 16) (offset length : Nat) : List (Fin 16) :=
  (fragmentEntries offset length).filter fun i => map[i].isNone

/-- Give the entries blocks from the free block list, in order. -/
def fillEntries (map : Vector (Option BlockNo) 16) : List (Fin 16) → List BlockNo →
    Vector (Option BlockNo) 16 × List BlockNo
  | i :: is, b :: bs => fillEntries (map.set i (some b)) is bs
  | _, bs => (map, bs)

/-- The blocks that a map names. -/
def mappedBlocks (map : Vector (Option BlockNo) 16) : List BlockNo := map.toList.filterMap id

/-- The entries of a fragment whose 512 bytes now hold no covered byte (R70). -/
def emptiedEntries (coverage : List (Nat × Nat)) (offset length : Nat) : List (Fin 16) :=
  (fragmentEntries offset length).filter fun i =>
    !covers coverage (Config.blockBytes * i.val) (Config.blockBytes * (i.val + 1))

/-- Make the entries absent. -/
def clearEntries (map : Vector (Option BlockNo) 16) (l : List (Fin 16)) : Vector (Option BlockNo) 16 :=
  l.foldl (fun m (i : Fin 16) => m.set i none) map

/-- The four range tests of R66 in their order, and then the staging test of R67: the refusal, if any. -/
def fragmentRefusal (c : Context) (freeBlocks : Nat) (offset length : Nat) (last : Bool) : Option Status :=
  if Config.maxPayload < offset + length then some .beyondEnd
  else if covers c.coverage offset (offset + length) then some .overlap
  else if Config.maxPieces < c.pieces + 1 then some .scattered
  else if (match c.total with | some total => decide (total < offset + length) | none => false)
      || (last && c.coverage.any fun iv => decide (offset + length < iv.2)) then some .beyondEnd
  else if freeBlocks < (absentEntries c.blockMap offset length).length then some .poolExhausted
  else none

end Sys2Proof.Machine
end

