-- ==== Sys2Proof/Machine/Assembly.lean ====
section
/-! DEFINITION. The Assembly Unit: streams, the sequence window, admission, contexts, fragments, ticks and the start
of DRAINING (R39 to R81). -/

namespace Sys2Proof.Machine

/-- Contexts in number order. -/
def allContexts : List CtxNo := List.finRange 32
/-- Streams in number order. -/
def allStreams : List StreamNo := List.finRange 16

def modStream (i : StreamNo) (f : Stream → Stream) (s : State) : State :=
  s.onAssembly fun a => { a with streams := tableMod a.streams i f }

/-- Put a context, or FREE, at a number. -/
def setContext (i : CtxNo) (c : Option Context) (s : State) : State :=
  s.onAssembly fun a => { a with contexts := a.contexts.set i c }

/-! ### Finding contexts -/

/-- A context stands in its stream's window: it is not yet admitted (R58). -/
def CtxState.inWindow : CtxState → Bool
  | .gathering => true
  | .aborting => true
  | .complete => true
  | .queued => false
  | .writing => false

/-- The first context that satisfies a test. -/
def Assembly.findContext (a : Assembly) (p : Context → Bool) : Option (CtxNo × Context) :=
  allContexts.findSome? fun i =>
    match a.contexts[i] with
    | some c => if p c then some (i, c) else none
    | none => none

/-- The context of the stream that holds the sequence, in the given states. -/
def Assembly.contextOf (a : Assembly) (st : StreamNo) (seq : Seq) (p : CtxState → Bool) : Option (CtxNo × Context) :=
  a.findContext fun c => c.stream == st && c.seq == seq && p c.state

/-- The context whose transfer list names the slot. -/
def Assembly.transferContext (a : Assembly) (slot : SlotNo) : Option (CtxNo × Context) :=
  a.findContext fun c => c.transfers.any fun t => t.slot == slot

/-- The number of the stream's contexts that are not FREE and satisfy a test. -/
def Assembly.countContexts (a : Assembly) (p : Context → Bool) : Nat :=
  a.contexts.toList.countP fun e => match e with | some c => p c | none => false

/-- The stream holds a context that is not FREE. -/
def Assembly.streamBusy (a : Assembly) (st : StreamNo) : Bool := a.countContexts (fun c => c.stream == st) != 0

/-- The lowest-numbered FREE context (R60). -/
def Assembly.freeContext (a : Assembly) : Option CtxNo := allContexts.find? fun i => a.contexts[i].isNone

/-! ### The window (R39, R45) -/

/-- The distance from the stream's next admission number to a sequence. -/
def Stream.distance (st : Stream) (seq : Seq) : Nat := (seq - st.nextAdmission).toNat

/-- The sequence at a window position. -/
def Stream.atPosition (st : Stream) (k : Nat) : Seq := st.nextAdmission + BitVec.ofNat 16 k

/-- Position `k` is in the abandoned set. -/
def Stream.isAbandoned (st : Stream) (k : Nat) : Bool := st.abandoned.getLsbD k

/-- Position `k` joins the abandoned set (R46). -/
def Stream.abandon (st : Stream) (k : Nat) : Stream := { st with abandoned := st.abandoned ||| (1#8 <<< k) }

/-- One advance of admission (R47): positions move down by one and the stall age becomes 0. -/
def Stream.advance (st : Stream) : Stream :=
  { st with nextAdmission := st.nextAdmission + 1#16, abandoned := st.abandoned >>> 1, stallAge := 0 }

/-! ### Discarding, closing, admission -/

/-- Blocks return to the free block list (R62). -/
def freeBlocks (l : List BlockNo) (s : State) : State := s.onAssembly fun a => { a with freeBlocks := a.freeBlocks ++ l }

/-- A context's blocks are freed and it becomes FREE. -/
def releaseContext (i : CtxNo) (c : Context) (s : State) : State :=
  setContext i none (freeBlocks (mappedBlocks c.blockMap) s)

/-- Discard a context (R61): its deferred fragment, if any, completes ABORTED. -/
def discardContext (i : CtxNo) (c : Context) (s : State) : State :=
  let s := releaseContext i c s
  match c.deferred with
  | some slot => complete slot .aborted s
  | none => s

/-- A context leaves the commit queue. -/
def unqueue (i : CtxNo) (s : State) : State := s.onWriter fun w => { w with queue := w.queue.filter fun k => k != i }

/-- The stream becomes CLOSED (R44); a pending close completes OK. -/
def closeStreamNow (st : StreamNo) (s : State) : State :=
  let close := s.assembly.streams[st].pendingClose
  let s := modStream st (fun e => { e with
    state := .closed, recovered := some e.nextAdmission, abandoned := 0#8, stallAge := 0, gapPending := false,
    pendingClose := none }) s
  match close with
  | some slot => complete slot .ok s
  | none => s

/-- A CLOSING stream that holds no context becomes CLOSED (R43, R71, R73). -/
def closeIfDone (st : StreamNo) (s : State) : State :=
  if s.assembly.streams[st].state = .closing ∧ s.assembly.streamBusy st = false then closeStreamNow st s else s

/-- One step of admission (R47), if one applies: a COMPLETE context at position 0 is queued, or an abandoned
position 0 is passed over. -/
def admitOnce (st : StreamNo) (s : State) : Option State :=
  let e := s.assembly.streams[st]
  if e.state = .opened then
    match s.assembly.contextOf st e.nextAdmission (· == .complete) with
    | some (i, c) =>
      some (modStream st Stream.advance
        ((setContext i (some { c with state := .queued }) s).onWriter fun w => { w with queue := w.queue ++ [i] }))
    | none =>
      if e.isAbandoned 0 then some (modStream st (fun e => { e.advance with gapPending := true }) s) else none
  else none

/-- At most `n` steps of admission. -/
def admitSteps (st : StreamNo) : Nat → State → State
  | 0, s => s
  | n + 1, s =>
    match admitOnce st s with
    | some s' => admitSteps st n s'
    | none => s

/-- Admission for one stream: at most eight advances in one run (R47). -/
def admitStream (st : StreamNo) (s : State) : State := admitSteps st 8 s

/-- Admission for streams 0 to 15 in number order (R48). -/
def admitAll (s : State) : State := allStreams.foldl (fun s st => admitStream st s) s

/-- A window position is marked abandoned, without admission (R46). -/
def markAbandoned (st : StreamNo) (k : Nat) (s : State) : State := modStream st (fun e => e.abandon k) s

/-- The window position of a context of the stream. -/
def positionOf (st : StreamNo) (seq : Seq) (s : State) : Nat := s.assembly.streams[st].distance seq

/-! ### Taking an APPEND (R64 to R67) -/

/-- The fields of an APPEND with its slot. -/
structure Fragment where
  slot : SlotNo
  stream : StreamNo
  seq : Seq
  offset : Nat
  length : Nat
  last : Bool
  tag : Word
  address : Addr
  deriving DecidableEq, Repr

/-- The fragment of a routed APPEND. -/
def Routed.fragment (r : Routed) : Option Fragment :=
  match r.cmd with
  | .append stream seq offset length last tag address => some ⟨r.slot, stream, seq, offset, length, last, tag, address⟩
  | _ => none

/-- The context that R60 makes for a fragment. -/
def newContext (f : Fragment) : Context where
  state := .gathering
  stream := f.stream
  seq := f.seq
  total := none
  tag := none
  coverage := []
  transfers := []
  blockMap := Vector.replicate 16 none
  age := 0
  deferred := none
  attempts := 0

/-- The stream tests of R45: the refusal, if any. -/
def streamRefusal (e : Stream) (seq : Seq) : Option Status :=
  let d := e.distance seq
  if e.state ≠ .opened then some .streamClosed
  else if 32768 ≤ d then some .stale
  else if 8 ≤ d then some .ahead
  else if e.isAbandoned d then some .abandoned
  else none

/-- The context test of R65: a refusal, or the context the fragment goes on with. -/
def contextFor (a : Assembly) (f : Fragment) : Except Status (CtxNo × Context) :=
  match a.contextOf f.stream f.seq CtxState.inWindow with
  | some (i, c) => if c.state = .aborting then .error .aborted else .ok (i, c)
  | none =>
    if a.streams[f.stream].limit ≤ a.countContexts (fun c => c.stream == f.stream) then .error .streamBusy
    else
      match a.freeContext with
      | none => .error .noContext
      | some i => .ok (i, newContext f)

/-- Every test of an APPEND in order (R64): a refusal, or the context it is accepted into. -/
def appendVerdict (a : Assembly) (f : Fragment) : Except Status (CtxNo × Context) :=
  if a.drainMark then .error .aborted
  else
    match streamRefusal a.streams[f.stream] f.seq with
    | some r => .error r
    | none =>
      match contextFor a f with
      | .error r => .error r
      | .ok (i, c) =>
        match fragmentRefusal c a.freeBlocks.length f.offset f.length f.last with
        | some r => .error r
        | none => .ok (i, c)

/-- A context with an accepted fragment (R67). -/
def Context.accept (c : Context) (f : Fragment) (map : Vector (Option BlockNo) 16) : Context :=
  { c with
    blockMap := map
    coverage := addInterval f.offset (f.offset + f.length) c.coverage
    transfers := c.transfers ++ [⟨f.slot, f.offset, f.length, f.last, f.address⟩]
    age := 0
    total := if f.last then some (f.offset + f.length) else c.total
    tag := if f.last then some f.tag else c.tag }

/-- The APPEND is taken: accepted (R67) or refused, and counted (R81). -/
def takeAppend (f : Fragment) (s : State) : State :=
  match appendVerdict s.assembly f with
  | .error r =>
    complete f.slot r (s.onAssembly fun a => { a with fragmentsRefused := saturate (a.fragmentsRefused + 1) })
  | .ok (i, c) =>
    let filled := fillEntries c.blockMap (absentEntries c.blockMap f.offset f.length) s.assembly.freeBlocks
    setContext i (some (c.accept f filled.1))
      (s.onAssembly fun a => { a with freeBlocks := filled.2, fragmentsAccepted := saturate (a.fragmentsAccepted + 1) })

/-- The APPEND must be held (R64): a context of its stream that holds its sequence has four transfers in flight, and the
drain mark is clear. -/
def mustHold (a : Assembly) (f : Fragment) : Bool :=
  !a.drainMark && (a.findContext fun c =>
    c.stream == f.stream && c.seq == f.seq && decide (Config.maxTransfers ≤ c.transfers.length)).isSome

/-- A held APPEND is taken as soon as nothing holds it (R64). -/
def takeHeld (s : State) : State :=
  match s.assembly.held with
  | none => s
  | some r =>
    match r.fragment with
    | none => s
    | some f =>
      if mustHold s.assembly f then s
      else takeAppend f (s.onAssembly fun a => { a with held := none })

/-! ### Ends of transfers (R68 to R71) -/

/-- The transfer leaves the transfer list. -/
def Context.dropTransfer (c : Context) (slot : SlotNo) : Context :=
  { c with transfers := c.transfers.filter fun t => t.slot != slot }

/-- The last transfer of an ABORTING context has ended (R71). -/
def abortedContextEnds (i : CtxNo) (c : Context) (s : State) : State :=
  let st := c.stream
  let k := positionOf st c.seq s
  let s := discardContext i c s
  if s.assembly.streams[st].state = .opened then admitStream st (markAbandoned st k s) else closeIfDone st s

/-- A transfer of an ABORTING context ends, well or not (R71). -/
def abortingTransferEnd (i : CtxNo) (c : Context) (slot : SlotNo) (s : State) : State :=
  let c := c.dropTransfer slot
  let s := complete slot .aborted (setContext i (some c) s)
  if c.transfers = [] then abortedContextEnds i c s else s

/-- A transfer of a GATHERING context ends well (R69). -/
def gatheringTransferEnd (i : CtxNo) (c : Context) (slot : SlotNo) (s : State) : State :=
  let c := c.dropTransfer slot
  if c.isComplete then
    admitStream c.stream (setContext i (some { c with state := .complete, deferred := some slot }) s)
  else complete slot .accepted (setContext i (some c) s)

/-- A context without the bytes of a failed transfer (R70). -/
def Context.withoutFragment (c : Context) (t : Transfer) : Context :=
  let coverage := removeInterval t.offset (t.offset + t.length) c.coverage
  { c.dropTransfer t.slot with
    coverage := coverage
    blockMap := clearEntries c.blockMap (emptiedEntries coverage t.offset t.length)
    total := if t.last then none else c.total
    tag := if t.last then none else c.tag }

/-- A transfer of a GATHERING context fails (R70). -/
def gatheringTransferFail (i : CtxNo) (c : Context) (t : Transfer) (s : State) : State :=
  let c' := c.withoutFragment t
  let freed := (emptiedEntries c'.coverage t.offset t.length).filterMap fun k => c.blockMap[k]
  let s := complete t.slot .hostReadError (setContext i (some c') (freeBlocks freed s))
  if c'.coverage = [] then discardContext i c' s else s

/-- The data of a transfer lands in staging memory (R68). -/
def landData (c : Context) (t : Transfer) (data : List Byte) (s : State) : State :=
  s.onStaging fun m => stagingWrite c.blockMap m t.offset (toLength t.length data)

/-- A transfer ends well, and a held APPEND may now be taken (R69, R71, R64). -/
def transferEnds (slot : SlotNo) (data : List Byte) (s : State) : State :=
  match s.assembly.transferContext slot with
  | none => s
  | some (i, c) =>
    match c.transfers.find? fun t => t.slot == slot with
    | none => s
    | some t =>
      let s := landData c t data s
      takeHeld (if c.state = .aborting then abortingTransferEnd i c slot s else gatheringTransferEnd i c slot s)

/-- A transfer fails, and a held APPEND may now be taken (R70, R71, R64). -/
def transferFails (slot : SlotNo) (s : State) : State :=
  match s.assembly.transferContext slot with
  | none => s
  | some (i, c) =>
    match c.transfers.find? fun t => t.slot == slot with
    | none => s
    | some t =>
      takeHeld (if c.state = .aborting then abortingTransferEnd i c slot s else gatheringTransferFail i c t s)

/-! ### The writer's reports (R73) -/

/-- The record of a context has been committed. -/
def recordCommitted (i : CtxNo) (jsn : Nat) (s : State) : State :=
  match s.assembly.contexts[i] with
  | none => s
  | some c =>
    let s := match c.deferred with
      | some slot => postOutcome slot .committed { at4 := BitVec.ofNat 32 jsn } s
      | none => s
    let s := modStream c.stream (fun e => { e with committed := saturate (e.committed + 1) }) s
    closeIfDone c.stream (releaseContext i c s)

/-- The record of a context has failed in the writer. -/
def recordFailed (i : CtxNo) (status : Status) (s : State) : State :=
  match s.assembly.contexts[i] with
  | none => s
  | some c =>
    let s := match c.deferred with
      | some slot => complete slot status s
      | none => s
    let s := modStream c.stream (fun e => { e with gapPending := true }) s
    closeIfDone c.stream (releaseContext i c s)

/-! ### Stream commands (R41 to R44, R74, R75) -/

/-- OPEN_STREAM is taken (R41). -/
def takeOpenStream (slot : SlotNo) (st : StreamNo) (limit ageLimit : Nat) (explicit : Bool) (first : Seq)
    (s : State) : State :=
  let e := s.assembly.streams[st]
  if s.reclaim.wipeActive then complete slot .wipeActive s
  else if e.state ≠ .closed then complete slot .streamOpen s
  else
    let number := if explicit then first else e.recovered.getD 0#16
    postOutcome slot .ok { at4 := number.setWidth 32 } (modStream st (fun e => { e with
      state := .opened, nextAdmission := number, limit := limit, ageLimit := ageLimit, abandoned := 0#8,
      stallAge := 0, gapPending := false, committed := 0 }) s)

/-- What a CLOSE_STREAM with ABORT does to one context (R43). -/
def closeAbort (st : StreamNo) (i : CtxNo) (s : State) : State :=
  match s.assembly.contexts[i] with
  | none => s
  | some c =>
    if c.stream ≠ st then s
    else
      match c.state with
      | .gathering =>
        if c.transfers = [] then discardContext i c s else setContext i (some { c with state := .aborting }) s
      | .aborting => s
      | .complete => discardContext i c s
      | .queued => discardContext i c (unqueue i s)
      | .writing => s

/-- CLOSE_STREAM is taken (R42, R43). DESIGN CHOICE (log entry 25): with ABORT, contexts go in number order, so the
deferred fragments complete ABORTED in that order. -/
def takeCloseStream (slot : SlotNo) (st : StreamNo) (abort : Bool) (s : State) : State :=
  match s.assembly.streams[st].state with
  | .closed => complete slot .streamClosed s
  | .closing => complete slot .streamBusy s
  | .opened =>
    if s.assembly.streamBusy st = false then complete slot .ok (closeStreamNow st s)
    else if abort then
      closeIfDone st (modStream st (fun e => { e with state := .closing, pendingClose := some slot })
        (allContexts.foldl (fun s i => closeAbort st i s) s))
    else complete slot .streamBusy s

/-- ABORT_RECORD for window position `k` (R75). -/
def abortPosition (st : StreamNo) (seq : Seq) (k : Nat) (s : State) : State :=
  match s.assembly.contextOf st seq CtxState.inWindow with
  | none =>
    if s.assembly.streams[st].isAbandoned k then s else admitStream st (markAbandoned st k s)
  | some (i, c) =>
    match c.state with
    | .gathering =>
      if c.transfers = [] then admitStream st (markAbandoned st k (discardContext i c s))
      else setContext i (some { c with state := .aborting }) s
    | .complete => admitStream st (markAbandoned st k (discardContext i c s))
    | .aborting => s
    | .queued => s
    | .writing => s

/-- The sequence of an ABORT_RECORD is held by no admitted record (R74, cases 4 and 5). -/
def abortInWindow (slot : SlotNo) (st : StreamNo) (seq : Seq) (s : State) : State :=
  let d := s.assembly.streams[st].distance seq
  if 32768 ≤ d then complete slot .stale s
  else if 8 ≤ d then complete slot .ahead s
  else complete slot .ok (abortPosition st seq d s)

/-- The admitted record in a QUEUED context is aborted (R74, case 3). DESIGN CHOICE (log entry 25): the ABORTED of its
deferred fragment is posted before the OK of the command. -/
def abortQueued (slot : SlotNo) (st : StreamNo) (i : CtxNo) (c : Context) (s : State) : State :=
  complete slot .ok (modStream st (fun e => { e with gapPending := true }) (discardContext i c (unqueue i s)))

/-- ABORT_RECORD is taken: the cases of R74 in their order (R75 for the last). DESIGN CHOICE (log entry 25): where it
discards a COMPLETE or QUEUED context, the ABORTED of the deferred fragment is posted before the OK of the command; the
rules give no order between the two. DESIGN CHOICE (log entry 27): of several QUEUED contexts of the stream with the one
sequence, the lowest-numbered is removed; R74 speaks of one. -/
def takeAbortRecord (slot : SlotNo) (st : StreamNo) (seq : Seq) (s : State) : State :=
  if s.assembly.streams[st].state ≠ .opened then complete slot .streamClosed s
  else if (s.assembly.contextOf st seq (· == .writing)).isSome then complete slot .tooLate s
  else
    match s.assembly.contextOf st seq (· == .queued) with
    | some (i, c) => abortQueued slot st i c s
    | none => abortInWindow slot st seq s

/-! ### Ticks (R51, R77, R78) -/

/-- A context expires: it is discarded, its position marked abandoned, and the notice handed over (R78). -/
def expireContext (i : CtxNo) (c : Context) (s : State) : State :=
  postNotice (.assemblyExpired c.stream c.seq)
    (markAbandoned c.stream (positionOf c.stream c.seq s) (discardContext i c s))

/-- A context that a tick ages: GATHERING, no transfer in flight, in an OPEN stream with an age limit (R78). -/
def agesOnTick (a : Assembly) (c : Context) : Bool :=
  c.state == .gathering && c.transfers.isEmpty && a.streams[c.stream].state == .opened
    && decide (0 < a.streams[c.stream].ageLimit)

/-- Context ageing of one context (R78). -/
def ageContext (i : CtxNo) (s : State) : State :=
  match s.assembly.contexts[i] with
  | none => s
  | some c =>
    if agesOnTick s.assembly c then
      let c := { c with age := c.age + 1 }
      if c.age = s.assembly.streams[c.stream].ageLimit then expireContext i c s else setContext i (some c) s
    else s

/-- A window position holds a context of the stream. -/
def holdsContext (a : Assembly) (st : StreamNo) (k : Nat) : Bool :=
  (a.contextOf st (a.streams[st].atPosition k) CtxState.inWindow).isSome

/-- The stream is stalled (R51). -/
def isStalled (a : Assembly) (st : StreamNo) : Bool :=
  !holdsContext a st 0 && !a.streams[st].isAbandoned 0 && [1, 2, 3, 4, 5, 6, 7].any fun k => holdsContext a st k

/-- Position 0 is skipped, with its notice (R51). -/
def skipPosition (st : StreamNo) (s : State) : State :=
  postNotice (.sequenceSkipped st s.assembly.streams[st].nextAdmission) (markAbandoned st 0 s)

/-- Stall ageing of one stream (R51). -/
def ageStall (st : StreamNo) (s : State) : State :=
  let e := s.assembly.streams[st]
  if e.state = .opened ∧ 0 < e.ageLimit then
    if isStalled s.assembly st then
      let s := modStream st (fun e => { e with stallAge := e.stallAge + 1 }) s
      if e.stallAge + 1 = e.ageLimit then skipPosition st s else s
    else modStream st (fun e => { e with stallAge := 0 }) s
  else s

/-- A tick, in the order of R77. -/
def takeTick (s : State) : State :=
  let s := s.onAssembly fun a => { a with tickCounter := a.tickCounter + 1#32 }
  let s := allContexts.foldl (fun s i => ageContext i s) s
  let s := allStreams.foldl (fun s st => ageStall st s) s
  admitAll s

/-! ### The start of DRAINING (R53, R80) -/

/-- One context at the start of DRAINING (R80). -/
def drainContext (i : CtxNo) (s : State) : State :=
  match s.assembly.contexts[i] with
  | none => s
  | some c =>
    match c.state with
    | .gathering =>
      let s := postNotice (.assemblyDrained c.stream c.seq) s
      if c.transfers = [] then
        let k := positionOf c.stream c.seq s
        let s := discardContext i c s
        if s.assembly.streams[c.stream].state = .opened then markAbandoned c.stream k s else s
      else setContext i (some { c with state := .aborting }) s
    | .aborting => postNotice (.assemblyDrained c.stream c.seq) s
    | .complete => s
    | .queued => s
    | .writing => s

/-- The highest window position of the stream that holds a COMPLETE context (R53). -/
def highestComplete (a : Assembly) (st : StreamNo) : Option Nat :=
  [7, 6, 5, 4, 3, 2, 1, 0].find? fun k =>
    (a.contextOf st (a.streams[st].atPosition k) (· == .complete)).isSome

/-- One position below it: skipped when it holds no context and is not abandoned (R53). -/
def drainSkipPosition (st : StreamNo) (k : Nat) (s : State) : State :=
  if holdsContext s.assembly st k || s.assembly.streams[st].isAbandoned k then s
  else postNotice (.sequenceSkipped st (s.assembly.streams[st].atPosition k)) (markAbandoned st k s)

/-- The skips of one stream (R53). -/
def drainSkips (st : StreamNo) (s : State) : State :=
  if s.assembly.streams[st].state = .opened then
    match highestComplete s.assembly st with
    | none => s
    | some h => (List.range h).foldl (fun s k => drainSkipPosition st k s) s
  else s

/-- The Assembly Unit's start of DRAINING: the drain mark, the contexts, the skips, admission; then the held APPEND
is taken (R64, R80; log entry 9). -/
def drainAssembly (s : State) : State :=
  let s := s.onAssembly fun a => { a with drainMark := true }
  let s := allContexts.foldl (fun s i => drainContext i s) s
  let s := allStreams.foldl (fun s st => drainSkips st s) s
  takeHeld (admitAll s)

end Sys2Proof.Machine
end

