-- ==== Sys2Proof/Machine/Writer.lean ====
section
/-! DEFINITION. The Journal Writer (R82 to R99): the queue head, room for a record, opening and closing sectors,
programming a record, relocation and failure. -/

namespace Sys2Proof.Machine

/-- The record in hand: its context. -/
def State.recordContext (s : State) : Option (CtxNo × Context) :=
  match s.writer.record with
  | none => none
  | some i => s.assembly.contexts[i].map fun c => (i, c)

/-- The payload length of a context's record. -/
def Context.payloadLength (c : Context) : Nat := c.total.getD 0

/-- The staged payload of a context (R73). -/
def State.payloadOf (s : State) (c : Context) : List Byte := stagedBytes c.blockMap s.staging c.payloadLength

/-- The writer's next JSN, FFFFFFFFH meaning none is left; absent only before a mount. -/
def Writer.jsn (w : Writer) : Nat := w.nextJsn.getD Config.exhausted

/-- The writer's next epoch. -/
def Writer.epoch (w : Writer) : Nat := w.nextEpoch.getD Config.exhausted

/-- The writer returns to IDLE: nothing is in hand (R95, R97). -/
def Writer.toIdle (w : Writer) : Writer :=
  { w with state := .idle, record := none, placement := none, sectorInHand := none, gapMark := false,
           headerEpoch := none, spaceSignal := false }

/-- The full flag and its notice at a JOURNAL_FULL failure (R90). -/
def markFull (s : State) : State :=
  let s' := s.onWriter fun w => { w with full := true }
  if s.writer.full then s' else postNotice .journalFull s'

/-- The record in hand fails (R97). -/
def failRecord (status : Status) (s : State) : State :=
  match s.writer.record with
  | none => s
  | some i =>
    let s := recordFailed i status s
    let s := if status = .journalFull then markFull s else s
    s.onWriter fun w => { w.toIdle with recordsFailed := saturate (w.recordsFailed + 1) }

/-! ### Placing a record (R93, R94) -/

/-- The header of the record in hand, with the GAP flag given (R8, R93). -/
def State.headerFor (s : State) (c : Context) (gap : Bool) : RecordHeader where
  gap := gap
  stream := c.stream
  seq := c.seq
  jsn := s.writer.jsn
  length := c.payloadLength
  tag := c.tag.getD 0#32
  tick := s.assembly.tickCounter

/-- Lines of a burst that begins with `left` lines still to program before the commit line: at most 8 (R94). -/
def burstCount (left : Nat) : Nat := min 8 left

/-- Payload lines `first` on, `n` of them. -/
def payloadRun (payload : List Byte) (first n : Nat) : List (List Byte) :=
  (List.range n).map fun k => payloadLine payload (first + k)

/-- The GAP flag of a placement: at the first one the stream's gap-pending, later the record GAP mark (R93, R49). -/
def gapFor (c : Context) (s : State) : Bool :=
  if c.attempts = 0 then s.assembly.streams[c.stream].gapPending else s.writer.gapMark

/-- A placement is found: the header line is built, and the first burst requested (R93, R94). -/
def placeRecord (i : CtxNo) (c : Context) (sector : SectorNo) (p : Nat) (s : State) : State :=
  let payload := s.payloadOf c
  let gap := gapFor c s
  let h := s.headerFor c gap
  let F := footprint c.payloadLength
  let n := burstCount (F - 1)
  let s := if c.attempts = 0 then modStream c.stream (fun e => { e with gapPending := false }) s else s
  let s := setContext i (some { c with attempts := c.attempts + 1 }) s
  let s := s.onWriter fun w => { w with
    state := .writing, gapMark := gap, placement := some ⟨sector, p, F, p⟩, payloadCrc := crc32 payload,
    spaceSignal := false }
  placeRequest .writer (.programLines sector p (recordHeaderLine h :: payloadRun payload 0 (n - 1))) s

/-- The writer waits for space (R88). -/
def waitForSpace (s : State) : State :=
  s.onWriter fun w => { w with
    state := .waitingSpace, placement := none, sectorInHand := none, headerEpoch := none, spaceSignal := false }

/-- Some sector is ERASING (R89). -/
def State.someErasing (s : State) : Bool := (s.table.inState .erasing).isEmpty == false

/-- The sector question and its answer (R86 to R89). -/
def askSector (s : State) : State :=
  if s.writer.epoch = Config.exhausted then failRecord .journalExhausted s
  else
    match s.table.chooseFree with
    | some i =>
      let e := s.table.entries[i]
      let line := sectorHeaderLine ⟨s.writer.epoch, s.writer.jsn, e.wear, e.wearEstimated⟩
      placeRequest .writer (.programLines i 0 [line])
        ((takeInHand i s).onWriter fun w => { w with
          state := .opening, sectorInHand := some i, headerEpoch := none, placement := none, spaceSignal := false })
    | none =>
      if spaceComing s.table s.holds && (s.host.device != .draining || s.someErasing) then waitForSpace s
      else failRecord .journalFull s

/-- The room check of a placement (R87). -/
def roomCheck (s : State) : State :=
  match s.recordContext with
  | none => s
  | some (i, c) =>
    match s.table.openSector with
    | none => askSector s
    | some o =>
      match s.table.entries[o].nextFree with
      | none => askSector s
      | some p => if p + footprint c.payloadLength ≤ 2048 then placeRecord i c o p s else askSector s

/-- The IDLE writer takes the queue head (R84, R85). -/
def takeQueueHead (s : State) : State :=
  match s.writer.queue with
  | [] => s
  | i :: rest =>
    let s := s.onWriter fun w => { w with queue := rest, record := some i }
    let s := match s.assembly.contexts[i] with
      | some c => setContext i (some { c with state := .writing }) s
      | none => s
    if s.writer.jsn = Config.exhausted then failRecord .journalExhausted s else roomCheck s

/-! ### Opening and closing sectors (R91, R92) -/

/-- The next epoch advances at the end of a header program (R86). -/
def advanceEpoch (s : State) : State := s.onWriter fun w => { w with nextEpoch := w.nextEpoch.map (· + 1) }

/-- The open claim for the sector in hand, and the room check again (R91). -/
def openInHand (epoch : Nat) (s : State) : State :=
  match s.writer.sectorInHand with
  | none => s
  | some i =>
    roomCheck ((openClaim i epoch s.writer.jsn s).onWriter fun w => { w with sectorInHand := none, headerEpoch := none })

/-- The header of the sector in hand was programmed: the OPEN sector, if any, is closed first (R91, R92). -/
def headerProgrammed (s : State) : State :=
  let epoch := s.writer.epoch
  let s := advanceEpoch s
  match s.table.openSector with
  | none => openInHand epoch s
  | some o =>
    match s.table.entries[o].nextFree with
    | none => openInHand epoch (closeClaim o .full s)
    | some n =>
      if n ≤ 2047 then
        placeRequest .writer (.programLines o n [padLine s.writer.jsn])
          (s.onWriter fun w => { w with headerEpoch := some epoch })
      else openInHand epoch (closeClaim o .full s)

/-- The header program of the sector in hand failed (R91): the writer asks again. -/
def headerProgramFailed (s : State) : State :=
  match s.writer.sectorInHand with
  | none => s
  | some i => askSector ((headerFailed i (advanceEpoch s)).onWriter fun w => { w with sectorInHand := none })

/-- The PAD program ended (R92). -/
def padProgrammed (epoch : Nat) (ok : Bool) (s : State) : State :=
  match s.table.openSector with
  | none => openInHand epoch s
  | some o => openInHand epoch (closeClaim o (if ok then .padded else .padFailed) s)

/-! ### Bursts and the commit line (R94 to R96) -/

/-- The next burst, or the commit line when every line before it is programmed (R94). -/
def continueRecord (c : Context) (pl : Placement) (s : State) : State :=
  let left := pl.position + pl.footprint - 1 - pl.nextLine
  if left = 0 then
    placeRequest .writer
      (.programLines pl.sector (pl.position + pl.footprint - 1)
        [commitLine s.writer.jsn c.payloadLength s.writer.payloadCrc])
      (s.onWriter fun w => { w with state := .committing, placement := some pl })
  else
    placeRequest .writer
      (.programLines pl.sector pl.nextLine
        (payloadRun (s.payloadOf c) (pl.nextLine - pl.position - 1) (burstCount left)))
      (s.onWriter fun w => { w with placement := some pl })

/-- A burst was programmed (R94). -/
def burstDone (c : Context) (pl : Placement) (s : State) : State :=
  let n := burstCount (pl.position + pl.footprint - 1 - pl.nextLine)
  continueRecord c { pl with nextLine := pl.nextLine + n } s

/-- A line of the record failed to program (R96): the sector is closed, and the record placed again or failed. -/
def relocate (c : Context) (pl : Placement) (s : State) : State :=
  let s := (closeClaim pl.sector .recordFailed s).onWriter fun w => { w with placement := none }
  if c.attempts < Config.maxPlacements then roomCheck s else failRecord .writeFailed s

/-- The commit line was programmed (R95). -/
def commitRecord (i : CtxNo) (c : Context) (pl : Placement) (s : State) : State :=
  let jsn := s.writer.jsn
  let s := extendClaim pl.sector pl.position pl.footprint jsn s
  let s := s.onWriter fun w => { w with nextJsn := some (jsn + 1) }
  let s := recordCommitted i jsn s
  s.onWriter fun w => { w.toIdle with
    recordsCommitted := saturate (w.recordsCommitted + 1)
    bytesCommitted := saturate (w.bytesCommitted + c.payloadLength) }

/-! ### Space (R88 to R90) -/

/-- A sector became FREE: a set full flag clears, with its notice (R90). -/
def spaceRegained (s : State) : State :=
  if s.writer.full then postNotice .journalSpace (s.onWriter fun w => { w with full := false }) else s

/-- The writer in WAITING_SPACE asks again when the part enters DRAINING (R89). -/
def drainWriter (s : State) : State := if s.writer.state = .waitingSpace then askSector s else s

end Sys2Proof.Machine
end

