-- ==== Sys2Proof/Machine/ReclaimUnit.lean ====
section
/-! DEFINITION. The Reclaim Unit (R100 to R115): the reclaim test, victims, the end of an erase, retirement, WIPE. -/

namespace Sys2Proof.Machine

/-- The reclaim reserve of the setup copy (R173). -/
def State.reserve (s : State) : Nat := match s.host.setup with | some c => c.reserve | none => 0

/-- The reclaim test passes (R101). -/
def reclaimTestPasses (s : State) : Bool :=
  s.host.device == .online && !s.reclaim.wipeActive
    && (decide (s.table.freeSet.length < s.reserve) || !(s.table.inState .dirty).isEmpty)

/-- A victim's erase is requested, the unit entering `st` (R102, R110). -/
def eraseVictim (i : SectorNo) (st : ReclaimState) (s : State) : State :=
  placeRequest .reclaim (.eraseSector i)
    ((takeVictim i s).onReclaim fun r => { r with state := st, erase := some i })

/-- The reclaim test, and the victim question if it passes (R101, R102). NONE signals a waiting writer (R88). -/
def reclaimTest (s : State) : State :=
  if reclaimTestPasses s then
    match chooseVictim s.table s.holds with
    | some i => eraseVictim i .reclaiming s
    | none => signalWriter s
  else s

/-- The outcome the unit decides for the settlement (R103). -/
def settlementOf (e : SectorEntry) (ok : Bool) : Settlement :=
  if !ok then .failed
  else if e.retirePending then .toRetired e.reason
  else if Config.wearLimit ≤ e.wear + 1 then .toRetired .worn
  else .toFree

/-- The reason a settlement retires a sector for, if it does. -/
def Settlement.retires : Settlement → Option RetireReason
  | .toFree => none
  | .toRetired r => some r
  | .failed => some .eraseFail

/-- The retirement steps (R104): the retire request, then the notice. -/
def retireSector (i : SectorNo) (r : RetireReason) (s : State) : State :=
  postNotice (.sectorRetired i r) (takeChange (.retire i) s)

/-- WIPE_FINISHING (R112): numbering starts again, recovered sequences become absent, and the wipe request goes to
the Anchor Unit. -/
def finishWipe (s : State) : State :=
  let s := s.onWriter fun w => { w with nextJsn := some 1, nextEpoch := some 1 }
  let s := s.onAssembly fun a => { a with streams := tableMap (fun e => { e with recovered := none }) a.streams }
  takeChange .wipe (s.onReclaim fun r => { r with state := .wipeFinishing })

/-- A wipe goes on with the lowest DIRTY sector, or finishes (R110, R111). -/
def continueWipe (s : State) : State :=
  match chooseVictim s.table s.holds with
  | some i => eraseVictim i .wiping s
  | none => finishWipe s

/-- The settlement of the unit's erase, with its signals, retirement steps and counters (R33, R90, R103, R104, R115). -/
def settleSector (i : SectorNo) (ok : Bool) (s : State) : State :=
  let o := settlementOf s.table.entries[i] ok
  let s := settleErase i o s
  let s := match o.retires with
    | none => spaceRegained s
    | some r => retireSector i r s
  s.onReclaim fun r => { r with
    sectorsErased := if ok then saturate (r.sectorsErased + 1) else r.sectorsErased
    sectorsRetired := if o.retires.isSome then saturate (r.sectorsRetired + 1) else r.sectorsRetired
    erase := none }

/-- The end of the unit's erase (R103). -/
def eraseEnded (i : SectorNo) (ok : Bool) (s : State) : State :=
  let s := settleSector i ok s
  match s.reclaim.state with
  | .wiping => continueWipe s
  | .reclaiming => reclaimTest (s.onReclaim fun r => { r with state := .idle })
  | .idle => s
  | .wipeFinishing => s

/-- Something is using the journal (R109, case 3). -/
def journalInUse (s : State) : Bool :=
  (s.assembly.streams.toList.any fun e => e.state != .closed)
    || (s.assembly.contexts.toList.any fun c => c.isSome)
    || (s.holds.entries.toList.any fun h => h.isSome)
    || s.reader.active.isSome || !s.reader.fifo.isEmpty
    || s.writer.state != .idle

/-- The acceptance of a WIPE (R110). -/
def acceptWipe (slot : SlotNo) (s : State) : State :=
  let s := wipeStart (s.onReclaim fun r => { r with wipeActive := true, wipeSlot := some slot, signal := false })
  let s := s.onReclaim fun r => { r with state := .wiping }
  if s.reclaim.erase.isNone then continueWipe s else s

/-- WIPE is taken (R109). -/
def takeWipe (slot : SlotNo) (s : State) : State :=
  if s.reclaim.wipeActive then complete slot .wipeActive s
  else if s.host.device ≠ .online then complete slot .notIdle s
  else if journalInUse s then complete slot .notIdle s
  else acceptWipe slot s

end Sys2Proof.Machine
end

