-- ==== Sys2Proof/Machine/Device.lean ====
section
/-! DEFINITION. Changes of the device state and what each brings about (R172, R173, R180). -/

namespace Sys2Proof.Machine

/-- The setup block address that the two registers hold, the low six bits taken as 0 (R173, R185). -/
def HostUnit.setupAddress (h : HostUnit) : Addr := (h.setupHi ++ h.setupLo) &&& ~~~63#64

/-- The ring positions, the fetch round and the notice lost count return to their reset values, and the read of the
setup block is issued (R173). -/
def HostUnit.startSetupRead (address : Addr) (h : HostUnit) : HostUnit :=
  { h with
    setupStage := .reading address
    subHead := Vector.replicate 4 0, subTail := Vector.replicate 4 0
    completionTail := 0, completionHead := 0, noticeTail := 0, noticeHead := 0
    roundRing := 0, roundYield := 0, lostCount := 0 }

/-- The device enters SETUP: an entry or status block write in progress ends first (R172, R173). The address is the
one the registers hold at the entry (R186, log entry 21). -/
def enterSetup (s : State) : State :=
  s.onHost fun h =>
    let address := h.setupAddress
    let h := { h with device := .setup, reason := .noReason, badIndex := 0 }
    if h.ringWrite.isSome then { h with setupStage := .waiting address } else h.startSetupRead address

/-- A write that SETUP was waiting for has ended (R173). -/
def resumeSetup (s : State) : State :=
  match s.host.setupStage with
  | .waiting address => if s.host.device = .setup then s.onHost (HostUnit.startSetupRead address) else s
  | .idle => s
  | .reading _ => s

/-- The device enters ONLINE: the drain mark clears and the Reclaim Unit is signalled (R172, R80, R101). -/
def enterOnline (s : State) : State :=
  signalReclaim ((s.onHost fun h => h.changeState .online).onAssembly fun a => { a with drainMark := false })

/-- The device enters STOPPED, and passes on to SETUP when CTRL.ENABLE is set (R172, R180). -/
def enterStopped (s : State) : State :=
  let s := s.onHost fun h => h.changeState .stopped
  if s.host.enable then enterSetup s else s

/-- The device enters DRAINING: the Assembly Unit and the Journal Writer are signalled (R172, R80, R89). DESIGN CHOICE
(log entry 9): the Assembly Unit's whole start of DRAINING, the held APPEND included, comes before the writer asks its
sector question again; the rules give no order between the two. -/
def enterDraining (s : State) : State := drainWriter (drainAssembly (s.onHost fun h => h.changeState .draining))

/-- The device enters OFFLINE with a reason (R173). -/
def enterOffline (r : Reason) (index : Nat) (s : State) : State :=
  s.onHost fun h => { h.stopWith .offline r index with setupStage := .idle }

/-- Everything R180 asks for the end of DRAINING. A request placed and an outcome not yet taken count as array work
(log entry 8). -/
def drained (s : State) : Bool :=
  (s.host.slots.toList.all fun x => x == .free)
    && s.host.posting.isEmpty && s.host.fetch.isNone
    && s.writer.queue.isEmpty && s.writer.state == .idle
    && s.anchor.state == .idle
    && s.reader.active.isNone && s.reader.fifo.isEmpty
    && s.ctrl.state == .idle && s.ctrl.placed == .empty && s.ctrl.outcomes == .empty

end Sys2Proof.Machine
end

