-- ==== Sys2Proof/Machine/MountUnit.lean ====
section
/-! DEFINITION. The Mount Unit (R159 to R170): the anchor scan, the sector scan, the build and the handover. -/

namespace Sys2Proof.Machine

/-! ### The scans (R159 to R163) -/

/-- Ask for lines 0 to 18 of an anchor slot (R160). -/
def requestSlot (a : Fin 2) (slot : Nat) (s : State) : State :=
  placeRequest .mount (.readLines (anchorSector a) (32 * slot) 19)
    (s.onMount fun m => { m with position := .slot a slot })

/-- Ask for one line of a journal sector (R162, R163). -/
def requestMountLine (i : SectorNo) (line : Nat) (position : ScanPosition) (s : State) : State :=
  placeRequest .mount (.readLines i line 1) (s.onMount fun m => { m with position := position })

/-- The device enters MOUNTING and the Mount Unit enters ANCHOR_SCAN with every finding empty (R159, R172). -/
def enterMounting (s : State) : State :=
  let s := s.onHost fun h => h.changeState .mounting
  requestSlot 0 0 (s.onMount fun m =>
    { Mount.reset m.resetKind with phase := .anchorScan, mounted := m.mounted })

/-- What one slot of the anchor scan adds to the findings (R160). -/
def Mount.withSlot (m : Mount) (a : Fin 2) (slot : Nat) (l : List LineOutcome) : Mount :=
  if readsErased (l.headD .uncorrectable) then m
  else
    let m := { m with usedSlots := m.usedSlots.set a (some slot) }
    let m := match slotGeneration (l.headD .uncorrectable) with
      | some g => if g ∈ m.generations then m else { m with generations := m.generations ++ [g] }
      | none => m
    match validSnapshot l with
    | none => m
    | some (g, holds, retired) =>
      if (match m.snapshot with | none => true | some f => decide (f.generation ≤ g)) then
        { m with snapshot := some ⟨a, slot, g, holds, retired⟩ }
      else m

/-- The retired set of R161. -/
def Mount.retired (m : Mount) : BitVec 256 :=
  match m.snapshot with
  | some f => f.retired
  | none => 0#256

/-- A walk begins at a valid header (R163). -/
def Walk.start (h : SectorHeader) : Walk := ⟨h, h.baseJsn, 0, Vector.replicate 16 none⟩

/-- A walk passes a committed record. -/
def Walk.pass (w : Walk) (h : RecordHeader) : Walk :=
  { w with expected := w.expected + 1, count := w.count + 1, newest := w.newest.set h.stream (some (h.jsn, h.seq)) }

/-- Of two findings of a stream, the one of higher JSN (R163). -/
def newerFinding (old new : Option (Nat × Seq)) : Option (Nat × Seq) :=
  match old, new with
  | none, n => n
  | some o, none => some o
  | some o, some n => if o.1 < n.1 then some n else some o

/-- The findings of two walks, stream by stream. -/
def newerFindings (old new : Vector (Option (Nat × Seq)) 16) : Vector (Option (Nat × Seq)) 16 :=
  tabulate 16 fun i => newerFinding old[i] new[i]

/-- A sector's finding is recorded (R162). -/
def setFinding (i : SectorNo) (f : Finding) (s : State) : State :=
  s.onMount fun m => { m with findings := m.findings.set i f }

/-! ### The build (R164 to R168) -/

/-- A sector with a valid header, and its walk. -/
structure Candidate where
  sector : SectorNo
  walk : Walk
  walkEnd : WalkEnd
  position : Nat
  deriving DecidableEq, Repr

/-- Every sector with a valid header, in number order. -/
def Mount.validSectors (m : Mount) : List Candidate :=
  allSectors.filterMap fun i =>
    match m.findings[i] with
    | .valid w e p => some ⟨i, w, e, p⟩
    | .none => none
    | .retired => none
    | .blank => none
    | .dirty => none

/-- Duplicate epochs: the lowest-numbered stays (R164, step 1). `seen` are the epochs met before. -/
def firstOfEpoch : List Nat → List Candidate → List Candidate
  | _, [] => []
  | seen, c :: t =>
    if c.walk.header.epoch ∈ seen then firstOfEpoch seen t
    else c :: firstOfEpoch (c.walk.header.epoch :: seen) t

/-- Insert by epoch. -/
def insertByEpoch (c : Candidate) : List Candidate → List Candidate
  | [] => [c]
  | d :: t => if c.walk.header.epoch ≤ d.walk.header.epoch then c :: d :: t else d :: insertByEpoch c t

/-- Rising epoch order. -/
def sortByEpoch (l : List Candidate) : List Candidate := l.foldr insertByEpoch []

/-- JSN order (R164, step 2): a candidate whose first JSN is at or below the highest last JSN kept is not kept. -/
def keepRising : Nat → List Candidate → List Candidate
  | _, [] => []
  | high, c :: t =>
    if c.walk.count = 0 then c :: keepRising high t
    else if c.walk.header.baseJsn ≤ high then keepRising high t
    else c :: keepRising (c.walk.expected - 1) t

/-- The members of the journal list, oldest epoch first. -/
def Mount.members (m : Mount) : List Candidate := keepRising 0 (sortByEpoch (firstOfEpoch [] m.validSectors))

/-- The next JSN (R166). -/
def Mount.nextJsn (m : Mount) : Nat :=
  m.validSectors.foldl (fun n c => max n (max c.walk.expected c.walk.header.baseJsn)) 1

/-- The next epoch (R166). -/
def Mount.nextEpoch (m : Mount) : Nat := m.validSectors.foldl (fun n c => max n (c.walk.header.epoch + 1)) 1

/-- The highest wear in a valid header, or 0 (R167). -/
def Mount.highestWear (m : Mount) : Nat := m.validSectors.foldl (fun n c => max n c.walk.header.wear) 0

/-- The newest member becomes OPEN (R165). -/
def Mount.openMember (m : Mount) : Option Candidate :=
  match m.members.getLast? with
  | none => none
  | some c => if c.walkEnd = .erased ∧ m.nextJsn = c.walk.expected then some c else none

/-- The wear of a sector without a valid header (R167), from the entry the reset left. -/
def Mount.wearOf (m : Mount) (old : SectorEntry) (retired : Bool) : Nat × Bool :=
  if m.resetKind = .cold ∧ retired = false then (m.highestWear, true) else (old.wear, old.wearEstimated)

/-- An entry as a build leaves it (R20), with a state and a wear. -/
def builtEntry (st : SectorState) (wear : Nat × Bool) : SectorEntry :=
  { SectorEntry.reset with state := st, wear := wear.1, wearEstimated := wear.2 }

/-- A member's entry (R165). -/
def memberEntry (c : Candidate) (opened : Bool) : SectorEntry :=
  { builtEntry (if opened then .opened else .closed) (c.walk.header.wear, c.walk.header.wearEstimated) with
    epoch := some c.walk.header.epoch
    baseJsn := some c.walk.header.baseJsn
    range := if c.walk.count = 0 then none else some (c.walk.header.baseJsn, c.walk.expected - 1)
    nextFree := if opened then some c.position else none }

/-- The entry of a sector at the handover (R164, R165, R167). -/
def Mount.entryOf (m : Mount) (members : List Candidate) (openSector : Option SectorNo) (old : SectorEntry)
    (i : SectorNo) : SectorEntry :=
  if i.val < 2 then builtEntry .anchor (old.wear, old.wearEstimated)
  else
    match m.findings[i] with
    | .retired => builtEntry .retired (m.wearOf old true)
    | .blank =>
      let w := m.wearOf old false
      builtEntry (if Config.wearLimit ≤ w.1 then .dirty else .free) w
    | .dirty => builtEntry .dirty (m.wearOf old false)
    | .none => builtEntry .dirty (m.wearOf old false)
    | .valid w _ _ =>
      match members.find? fun c => c.sector == i with
      | some c => memberEntry c (openSector == some i)
      | none => builtEntry .dirty (w.header.wear, w.header.wearEstimated)

/-- The built Sector Table (R20, R164, R165). -/
def Mount.builtTable (m : Mount) (old : SectorTable) : SectorTable :=
  let members := m.members
  let openSector := m.openMember.map (·.sector)
  { old with
    entries := tabulate 256 fun i => m.entryOf members openSector old.entries[i] i
    journal := members.map (·.sector) }

/-- The findings after the two steps of R164: a sector with a valid header that is no member is DIRTY. -/
def Mount.builtFindings (m : Mount) : Vector Finding 256 :=
  let members := m.members
  tabulate 256 fun i =>
    match m.findings[i] with
    | .valid w e p => if members.any fun c => c.sector == i then .valid w e p else .dirty
    | .none => .none
    | .retired => .retired
    | .blank => .blank
    | .dirty => .dirty

/-- The stream findings taken again from the members alone (R163, R168). -/
def Mount.memberFindings (m : Mount) : Vector (Option (Nat × Seq)) 16 :=
  m.members.foldl (fun v c => newerFindings v c.walk.newest) (Vector.replicate 16 none)

/-- The recovered next sequences (R168). -/
def Mount.recovered (m : Mount) : Vector (Option Seq) 16 :=
  tableMap (fun f => f.map fun (x : Nat × Seq) => x.2 + 1#16) m.memberFindings

/-- The anchor state of R161: active sector, next slot, generation. -/
def Mount.anchorState (m : Mount) : Fin 2 × Nat × Nat :=
  let highest := m.generations.foldl max 0
  match m.snapshot with
  | some f => (f.sector, (m.usedSlots[f.sector].map (· + 1)).getD 0, max f.generation highest)
  | none =>
    if m.usedSlots[0].isNone then (0, 0, highest)
    else if m.usedSlots[1].isNone then (1, 0, highest)
    else (0, 64, highest)

/-- The holds to be restored (R161, R169). -/
def Mount.restoredHolds (m : Mount) : Vector (Option Hold) 16 :=
  match m.snapshot with
  | none => Vector.replicate 16 none
  | some f => tableMap (fun (l : Option HoldLine) => l.map fun x => ⟨.fixed, x.first, x.last, x.owner, none, none⟩) f.holds

/-- The MOUNT_DONE notice (R169), from the built table. -/
def Mount.doneNotice (m : Mount) (t : SectorTable) : Notice :=
  .mountDone ((m.members.map fun c => c.walk.count).sum)
    (m.members.countP fun c => match c.walkEnd with | .torn _ => true | _ => false)
    m.members.length (t.inState .free).length (t.inState .dirty).length (t.inState .retired).length

/-- The handover of R169, and the device leaves MOUNTING (R172). -/
def handOver (s : State) : State :=
  let m := s.mount
  let table := m.builtTable s.table
  let anchor := m.anchorState
  let s := s.onTable fun _ => table
  let s := s.onWriter fun w => { w with nextJsn := some m.nextJsn, nextEpoch := some m.nextEpoch }
  let s := s.onHolds fun t => { t with entries := m.restoredHolds }
  let s := s.onAnchor fun a => { a with
    active := anchor.1, nextSlot := anchor.2.1, generation := anchor.2.2, retired := m.retired }
  let s := s.onAssembly fun a => { a with
    streams := tabulate 16 fun i => { a.streams[i] with recovered := m.recovered[i] } }
  let s := postNotice (m.doneNotice table) s
  let s := s.onMount fun m => { m with
    mounted := true, phase := .idle, position := .none, findings := m.builtFindings, streamFindings := m.memberFindings }
  if s.host.enable then enterOnline s else enterStopped s

/-- The sector scan goes on with the first of the sectors that is not retired; after the last comes BUILD (R162). -/
def scanSectors : List SectorNo → State → State
  | [], s => handOver (s.onMount fun m => { m with phase := .build })
  | i :: t, s =>
    if s.mount.retired.getLsbD i.val then scanSectors t (setFinding i .retired s)
    else requestMountLine i 0 (.sectorHeader i) s

/-- The scan goes on after sector `i`. -/
def scanAfter (i : SectorNo) (s : State) : State := scanSectors (allSectors.drop (i.val + 1)) s

/-- A slot of the anchor scan was read (R160). -/
def slotRead (a : Fin 2) (slot : Nat) (l : List LineOutcome) (s : State) : State :=
  let s := s.onMount fun m => m.withSlot a slot l
  if slot < 63 then requestSlot a (slot + 1) s
  else if a = 0 then requestSlot 1 0 s
  else scanSectors (allSectors.drop 2) (s.onMount fun m => { m with phase := .sectorScan })

/-- The walk of a sector ended (R163). -/
def mountWalkEnded (i : SectorNo) (w : Walk) (e : WalkEnd) (p : Nat) (s : State) : State :=
  scanAfter i ((setFinding i (.valid w e p) s).onMount fun m =>
    { m with streamFindings := newerFindings m.streamFindings w.newest })

/-- A header line of a mount walk was read (R163, R13). -/
def mountHeaderRead (i : SectorNo) (p : Nat) (w : Walk) (o : LineOutcome) (s : State) : State :=
  match viewHeader w.expected p o with
  | .erased => mountWalkEnded i w .erased p s
  | .unreadable => mountWalkEnded i w (.torn true) p s
  | .pad => mountWalkEnded i w .pad p s
  | .invalid => mountWalkEnded i w (.torn false) p s
  | .data h => requestMountLine i (p + footprint h.length - 1) (.walkCommit i p h w) s

/-- A commit line of a mount walk was read (R163, R13). -/
def mountCommitRead (i : SectorNo) (p : Nat) (h : RecordHeader) (w : Walk) (o : LineOutcome) (s : State) : State :=
  match validCommit h o with
  | none => mountWalkEnded i w (.torn (o == .uncorrectable)) p s
  | some _ =>
    let next := p + footprint h.length
    if next = 2048 then mountWalkEnded i (w.pass h) .full 2048 s
    else requestMountLine i next (.walkHeader i next (w.pass h)) s

/-- Line 0 of a journal sector was read (R162). -/
def mountSectorRead (i : SectorNo) (o : LineOutcome) (s : State) : State :=
  match validSectorHeader o with
  | some h => requestMountLine i 1 (.walkHeader i 1 (Walk.start h)) s
  | none =>
    if readsErased o then
      placeRequest .mount (.blankCheck i) (s.onMount fun m => { m with position := .blankCheck i })
    else scanAfter i (setFinding i .dirty s)

end Sys2Proof.Machine
end

