-- ==== Sys2Proof/Machine/Reader.lean ====
section
/-! DEFINITION. The Read Unit (R132 to R146): READ and SCAN, the walk, the check of a record, and its image. -/

namespace Sys2Proof.Machine

/-! ### Images (R138, R191) -/

/-- The record descriptor. -/
def descriptor (h : RecordHeader) : List Byte :=
  leBytes 4 h.jsn ++ leBytes 1 h.stream.val ++ leBytes 1 h.gap.toNat ++ leBytes 2 h.seq.toNat
    ++ leBytes 2 h.length ++ zeros 2 ++ leBytes 4 h.tag.toNat ++ leBytes 4 h.tick.toNat ++ zeros 12

/-- The length of a record image: 32 + 8·⌈L/8⌉. -/
def imageLength (length : Nat) : Nat := 32 + 8 * ((length + 7) / 8)

/-- The payload bytes in the image buffer, after the descriptor. -/
def ReadUnit.payload (r : ReadUnit) (length : Nat) : List Byte := (r.image.drop 32).take length

/-- The whole image: descriptor, payload, 00H to a multiple of 8. -/
def ReadUnit.wholeImage (r : ReadUnit) (h : RecordHeader) : List Byte :=
  toLength (imageLength h.length) (descriptor h ++ r.payload h.length)

/-! ### Requests and pins -/

/-- Ask for one line of the pinned sector (R134). -/
def requestLine (i : SectorNo) (line : Nat) (stage : ReadStage) (s : State) : State :=
  placeRequest .reader (.readLines i line 1) (s.onReader fun r => { r with stage := some stage })

/-- Hold a sector as the pinned one: its expected JSN is its base JSN and the tally 0 (R135, R140, R143). -/
def holdPinned (i : SectorNo) (s : State) : State :=
  let base := s.table.entries[i].baseJsn.getD 0
  s.onReader fun r => { r with pinned := some i, expected := base, tally := 0 }

/-- The tally is reported, if above 0, and the pin released (R134, R29). -/
def reportAndUnpin (i : SectorNo) (s : State) : State :=
  let n := s.reader.tally
  let s := if 0 < n then correctedReport i n s else s
  unpinSector i (s.onReader fun r => { r with tally := 0 })

/-- The active read ends: report, release, completion, counter (R139, R144, R146). -/
def finishRead (status : Status) (results : Results) (s : State) : State :=
  match s.reader.active with
  | none => s
  | some a =>
    let s := match s.reader.pinned with
      | some i => reportAndUnpin i s
      | none => s
    (postOutcome a.slot status results s).onReader fun r => { r with
      active := none, pinned := none, scan := none, stage := none, write := none
      completed := saturate (r.completed + 1) }

/-! ### SCAN results (R144, R190) -/

/-- The SCAN ends with a status that carries count, bytes placed, next JSN and EXPIRED_SKIPPED. -/
def finishScan (status : Status) (nextJsn : Nat) (s : State) : State :=
  match s.reader.scan with
  | none => s
  | some p =>
    finishRead status ⟨BitVec.ofNat 32 nextJsn, BitVec.ofNat 32 p.placed, BitVec.ofNat 16 p.count, p.expiredSkipped⟩ s

/-- The SCAN ends SHORT_BUFFER (R142). -/
def finishScanShort (h : RecordHeader) (s : State) : State :=
  match s.reader.scan with
  | none => s
  | some p =>
    finishRead .shortBuffer
      ⟨BitVec.ofNat 32 h.jsn, BitVec.ofNat 32 (imageLength h.length), 0#16, p.expiredSkipped⟩ s

/-! ### The walk (R136, R141, R143) -/

/-- A SCAN is about to read the header line at `p`: the test against the next JSN comes first (R141). -/
def scanHeader (i : SectorNo) (p : Nat) (s : State) : State :=
  if s.writer.jsn ≤ s.reader.expected then finishScan .ok s.reader.expected s
  else requestLine i p (.header p) s

/-- The status of a walk that met a line that has decayed (R136, R143). -/
def decayStatus (e : WalkEnd) : Status :=
  match e with
  | .torn true => .mediaError
  | .torn false => .corrupt
  | .erased => .corrupt
  | .pad => .corrupt
  | .full => .corrupt

/-- The walk of a SCAN's sector ended normally: the next sector, or the end (R143). -/
def scanHandover (i : SectorNo) (s : State) : State :=
  match s.table.nextAfter i with
  | some k => scanHeader k 1 (holdPinned k (reportAndUnpin i (pinSector k s)))
  | none => finishScan .ok s.reader.expected s

/-- The walk of the pinned sector ended. -/
def walkEnded (e : WalkEnd) (i : SectorNo) (s : State) : State :=
  if s.reader.scan.isSome then
    match s.table.entries[i].range with
    | none => scanHandover i s
    | some (_, last) =>
      if last < s.reader.expected then scanHandover i s else finishScan (decayStatus e) s.reader.expected s
  else finishRead (decayStatus e) {} s

/-- The walk moves on past a committed record (R13). -/
def moveOn (i : SectorNo) (p : Nat) (h : RecordHeader) (s : State) : State :=
  let next := p + footprint h.length
  let s := s.onReader fun r => { r with expected := r.expected + 1 }
  if next = 2048 then walkEnded .full i s
  else if s.reader.scan.isSome then scanHeader i next s
  else requestLine i next (.header next) s

/-! ### Checking and delivering (R137 to R142) -/

/-- Ask for the next run of up to 64 payload lines (R137). -/
def requestPayload (i : SectorNo) (p : Nat) (h : RecordHeader) (crc : Word) (got : Nat) (s : State) : State :=
  placeRequest .reader (.readLines i (p + 1 + got) (min 64 (payloadLines h.length - got)))
    (s.onReader fun r => { r with stage := some (.payload p h crc got) })

/-- The check of a record begins. -/
def beginCheck (i : SectorNo) (p : Nat) (h : RecordHeader) (crc : Word) (s : State) : State :=
  requestPayload i p h crc 0 (s.onReader fun r => { r with image := descriptor h })

/-- A host write of the active read is issued (R138). -/
def issueImage (p : Nat) (h : RecordHeader) (short : Bool) (address : Addr) (bytes : List Byte) (s : State) : State :=
  s.onReader fun r => { r with stage := some (.image p h short), write := some ⟨address, bytes⟩ }

/-- A record that has passed its check is written to the host buffer (R139, R142). DESIGN CHOICE (log entry 26): the
buffer address plus the bytes placed is taken modulo 2^64. -/
def deliver (p : Nat) (h : RecordHeader) (s : State) : State :=
  match s.reader.active with
  | none => s
  | some a =>
    match a.cmd with
    | .read _ address length headerOnly =>
      if headerOnly then issueImage p h false address (descriptor h) s
      else if imageLength h.length ≤ length then issueImage p h false address (s.reader.wholeImage h) s
      else issueImage p h true address (descriptor h) s
    | .scan _ _ _ address length =>
      match s.reader.scan with
      | none => s
      | some g =>
        if g.placed + imageLength h.length ≤ length then
          issueImage p h false (address + BitVec.ofNat 64 g.placed) (s.reader.wholeImage h) s
        else issueImage p h true address (descriptor h) s
    | _ => s

/-- The check of a record failed (R137, R139, R142). -/
def checkFailed (h : RecordHeader) (status : Status) (s : State) : State :=
  if s.reader.scan.isSome then finishScan status h.jsn s else finishRead status {} s

/-- A record is offered for an image (R142). -/
def offerRecord (i : SectorNo) (p : Nat) (h : RecordHeader) (crc : Word) (length : Nat) (g : ScanProgress)
    (s : State) : State :=
  if g.placed + imageLength h.length ≤ length then beginCheck i p h crc s
  else if 0 < g.count then finishScan .ok h.jsn s
  else beginCheck i p h crc s

/-- A committed record that the walk reports (R136, R141). -/
def recordMet (i : SectorNo) (p : Nat) (h : RecordHeader) (crc : Word) (s : State) : State :=
  match s.reader.active with
  | none => s
  | some a =>
    match a.cmd with
    | .read jsn _ _ _ => if h.jsn = jsn then beginCheck i p h crc s else moveOn i p h s
    | .scan _ filter _ _ length =>
      match s.reader.scan with
      | none => s
      | some g =>
        if h.jsn < g.startJsn then moveOn i p h s
        else
          match filter with
          | some st => if h.stream = st then offerRecord i p h crc length g s else moveOn i p h s
          | none => offerRecord i p h crc length g s
    | _ => s

/-! ### Outcomes of the unit's reads (R134) -/

/-- The outcome of the single line asked for. -/
def firstLine (l : List LineOutcome) : LineOutcome := l.headD .uncorrectable

/-- A header line of the walk (R13). -/
def headerRead (i : SectorNo) (p : Nat) (o : LineOutcome) (s : State) : State :=
  match viewHeader s.reader.expected p o with
  | .erased => walkEnded .erased i s
  | .unreadable => walkEnded (.torn true) i s
  | .pad => walkEnded .pad i s
  | .invalid => walkEnded (.torn false) i s
  | .data h => requestLine i (p + footprint h.length - 1) (.commit p h) s

/-- A commit line of the walk (R13). -/
def commitRead (i : SectorNo) (p : Nat) (h : RecordHeader) (o : LineOutcome) (s : State) : State :=
  match validCommit h o with
  | some crc => recordMet i p h crc s
  | none => walkEnded (.torn (o == .uncorrectable)) i s

/-- A run of payload lines (R137). -/
def payloadRead (i : SectorNo) (p : Nat) (h : RecordHeader) (crc : Word) (got : Nat) (l : List LineOutcome)
    (s : State) : State :=
  match allReadable l with
  | none => checkFailed h .mediaError s
  | some lines =>
    let s := s.onReader fun r => { r with image := r.image ++ lines.flatten }
    if got + l.length < payloadLines h.length then requestPayload i p h crc (got + l.length) s
    else if crc32 (s.reader.payload h.length) = crc then deliver p h s
    else checkFailed h .corrupt s

/-- The Read Unit takes the outcome of its read (R134). -/
def linesRead (i : SectorNo) (stage : ReadStage) (l : List LineOutcome) (s : State) : State :=
  let s := s.onReader fun r => { r with tally := r.tally + correctedLines l }
  match stage with
  | .header p => headerRead i p (firstLine l) s
  | .commit p h => commitRead i p h (firstLine l) s
  | .payload p h crc got => payloadRead i p h crc got l s
  | .image _ _ _ => s

/-- The end of the host write of an image or descriptor (R138, R139, R142). -/
def imageWritten (i : SectorNo) (p : Nat) (h : RecordHeader) (short ok : Bool) (written : Nat) (s : State) : State :=
  match s.reader.active with
  | none => s
  | some a =>
    if !ok then finishRead .hostWriteError {} s
    else
      match a.cmd with
      | .scan _ _ maxRecords _ _ =>
        if short then finishScanShort h s
        else
          let s := s.onReader fun r => { r with
            write := none, stage := none
            scan := r.scan.map fun g => { g with count := g.count + 1, placed := g.placed + written } }
          if (s.reader.scan.map (·.count)) = some maxRecords then finishScan .ok (h.jsn + 1) s
          else moveOn i p h s
      | _ =>
        if short then finishRead .shortBuffer { at8 := BitVec.ofNat 32 (imageLength h.length) } s
        else finishRead .ok { at8 := BitVec.ofNat 32 written } s

/-! ### Taking and beginning reads (R133, R135, R140) -/

/-- A READ of `jsn` becomes the active read and begins (R135). -/
def beginRead (r : Routed) (jsn : Nat) (rest : List Routed) (s : State) : State :=
  let s := s.onReader fun u => { u with fifo := rest, active := some r, scan := none }
  if s.writer.jsn ≤ jsn then finishRead .notYet {} s
  else
    match s.table.locate jsn with
    | none => finishRead .expired {} s
    | some i => requestLine i 1 (.header 1) (holdPinned i (pinSector i s))

/-- A SCAN from `f` becomes the active read and begins (R140). -/
def beginScan (r : Routed) (f : Nat) (rest : List Routed) (s : State) : State :=
  let s := s.onReader fun u => { u with fifo := rest, active := some r, scan := some ⟨0, 0, false, f⟩ }
  match s.table.lowestSurviving f with
  | some (i, g) =>
    let s := s.onReader fun u => { u with scan := some ⟨0, 0, decide (f < g), g⟩ }
    scanHeader i 1 (holdPinned i (pinSector i s))
  | none =>
    if f < s.writer.jsn then
      finishScan .ok s.writer.jsn (s.onReader fun u => { u with scan := some ⟨0, 0, true, f⟩ })
    else finishScan .ok f s

/-- The head of the FIFO leaves it, becomes the active read and begins (R133). -/
def beginHead (r : Routed) (rest : List Routed) (s : State) : State :=
  match r.cmd with
  | .read jsn _ _ _ => beginRead r jsn rest s
  | .scan f _ _ _ _ => beginScan r f rest s
  | _ => s.onReader fun u => { u with fifo := rest }

/-- Heads begin in turn until one goes on or the FIFO is empty (R133, R139, R144). -/
def beginHeads : List Routed → State → State
  | [], s => s
  | r :: rest, s =>
    let s := beginHead r rest s
    if s.reader.active.isNone then beginHeads rest s else s

/-- With no read active, the head of the FIFO becomes active in the same happening (R133, R139, R144). -/
def nextRead (s : State) : State := if s.reader.active.isNone then beginHeads s.reader.fifo s else s

/-- READ or SCAN is taken: refused during a wipe, or at the tail of the FIFO, which it leaves at once when no read is
active (R133). -/
def takeRead (r : Routed) (s : State) : State :=
  if s.reclaim.wipeActive then complete r.slot .wipeActive s
  else nextRead (s.onReader fun u => { u with fifo := u.fifo ++ [r] })

end Sys2Proof.Machine
end

