-- ==== Sys2Proof/Machine/Layouts.lean ====
section
/-! DEFINITION. What the part writes into host memory and shows in its registers: completion and notice entries, the
status block, the QUERY outputs, the registers as read (R184 to R191). Absent fields and reserved bytes are 0. -/

namespace Sys2Proof.Machine

/-! ### Entries and the status block (R189, R190) -/

/-- The ring and the tag of a slot's command. -/
def Slot.ringAndTag : Slot → Nat × BitVec 16
  | .free => (0, 0#16)
  | .fetching ring => (ring.val, 0#16)
  | .taken ring tag _ _ => (ring.val, tag)

/-- A completion entry: 16 bytes. -/
def completionEntry (slot : Slot) (status : Status) (r : Results) : List Byte :=
  leBytes 1 slot.ringAndTag.1 ++ leBytes 1 status.code ++ leBytes 2 slot.ringAndTag.2.toNat
    ++ leBytes 4 r.at4.toNat ++ leBytes 4 r.at8.toNat ++ leBytes 2 r.at12.toNat ++ leBytes 1 r.at14.toNat ++ zeros 1

/-- The stream and sequence of a notice. -/
def streamNotice (st : StreamNo) (seq : Seq) : List Byte :=
  leBytes 1 st.val ++ zeros 1 ++ leBytes 2 seq.toNat ++ zeros 8

/-- The code of a notice. -/
def Notice.code : Notice → Nat
  | .assemblyExpired .. => 0x01 | .assemblyDrained .. => 0x02 | .sequenceSkipped .. => 0x03
  | .recordsExpired .. => 0x04 | .sectorRetired .. => 0x05 | .weakSector .. => 0x06 | .journalFull => 0x07
  | .journalSpace => 0x08 | .anchorFailed => 0x09 | .mountDone .. => 0x0A

/-- Bytes 4 to 15 of a notice. -/
def Notice.fields : Notice → List Byte
  | .assemblyExpired st seq => streamNotice st seq
  | .assemblyDrained st seq => streamNotice st seq
  | .sequenceSkipped st seq => streamNotice st seq
  | .recordsExpired i first last => leBytes 1 i.val ++ zeros 3 ++ leBytes 4 first ++ leBytes 4 last
  | .sectorRetired i r => leBytes 1 i.val ++ leBytes 1 r.code ++ zeros 10
  | .weakSector i => leBytes 1 i.val ++ zeros 11
  | .journalFull => zeros 12
  | .journalSpace => zeros 12
  | .anchorFailed => zeros 12
  | .mountDone committed torn members free dirty retired =>
    leBytes 4 committed ++ leBytes 1 torn ++ leBytes 1 members ++ leBytes 1 free ++ leBytes 1 dirty
      ++ leBytes 1 retired ++ zeros 3

/-- A notice entry: 16 bytes. -/
def noticeEntry (n : Notice) (lost : Nat) : List Byte :=
  leBytes 1 n.code ++ leBytes 1 lost ++ zeros 2 ++ n.fields

/-- The status block: 64 bytes. -/
def HostUnit.statusBlock (h : HostUnit) : List Byte :=
  (h.subHead.toList.map (leBytes 2)).flatten ++ leBytes 2 h.completionTail ++ leBytes 2 h.noticeTail
    ++ leBytes 1 h.device.code ++ leBytes 1 h.reason.code ++ leBytes 1 h.badIndex ++ zeros 1
    ++ leBytes 4 h.writeCount.toNat ++ zeros 44

/-! ### QUERY outputs (R38, R57, R131, R183, R191) -/

/-- A sector number, or FFH for none. -/
def sectorOrNone (o : Option SectorNo) : Nat := match o with | some i => i.val | none => 0xFF

/-- The position of a sector in the journal list, FFFFH outside it. -/
def SectorTable.positionOf (t : SectorTable) (i : SectorNo) : Nat := (t.journal.idxOf? i).getD 0xFFFF

/-- The first JSN of the first member with a present range, or 0. -/
def SectorTable.lowestJsn (t : SectorTable) : Nat :=
  (t.journal.findSome? fun i => t.entries[i].range.map fun (r : Nat × Nat) => r.1).getD 0

/-- A sector record. -/
def sectorRecord (t : SectorTable) (i : SectorNo) : List Byte :=
  let e := t.entries[i]
  leBytes 1 i.val ++ leBytes 1 e.state.code ++ [flagByte e.wearEstimated e.weak e.retirePending e.inHand]
    ++ leBytes 1 e.reason.code ++ leBytes 4 e.wear ++ leBytes 4 (e.epoch.getD 0) ++ leBytes 4 (e.baseJsn.getD 0)
    ++ leBytes 4 ((e.range.map fun (r : Nat × Nat) => r.1).getD 0)
    ++ leBytes 4 ((e.range.map fun (r : Nat × Nat) => r.2).getD 0)
    ++ leBytes 2 (e.nextFree.getD 0) ++ leBytes 1 e.corrected ++ leBytes 1 e.pins ++ leBytes 2 (t.positionOf i)
    ++ zeros 2

/-- The summary of QUERY SECTORS. -/
def sectorsSummary (t : SectorTable) : List Byte :=
  ([SectorState.anchor, .free, .opened, .closed, .erasing, .dirty, .retired].map fun st =>
      leBytes 1 (t.inState st).length).flatten ++ zeros 1
    ++ leBytes 1 t.journal.length ++ leBytes 1 (sectorOrNone t.journal.head?) ++ leBytes 1 (sectorOrNone t.openSector)
    ++ leBytes 1 (sectorOrNone t.inHandSector) ++ leBytes 4 t.lowestJsn ++ zeros 16

/-- The output of QUERY SECTORS. -/
def sectorsOutput (t : SectorTable) : List Byte :=
  sectorsSummary t ++ (allSectors.map (sectorRecord t)).flatten

/-- A stream record. -/
def streamRecord (a : Assembly) (i : StreamNo) : List Byte :=
  let e := a.streams[i]
  let count (st : CtxState) : List Byte := leBytes 1 (a.countContexts fun c => c.stream == i && c.state == st)
  leBytes 1 i.val ++ leBytes 1 e.state.code ++ leBytes 1 e.limit ++ leBytes 1 e.ageLimit
    ++ leBytes 2 e.nextAdmission.toNat ++ [e.abandoned] ++ leBytes 1 e.stallAge
    ++ [flagByte e.gapPending e.recovered.isSome false false] ++ zeros 1
    ++ leBytes 2 (e.recovered.getD 0#16).toNat ++ leBytes 4 e.committed
    ++ count .gathering ++ count .aborting ++ count .complete ++ count .queued ++ count .writing ++ zeros 11

/-- The output of QUERY STREAMS. -/
def streamsOutput (a : Assembly) (queued : Nat) : List Byte :=
  leBytes 4 a.tickCounter.toNat ++ leBytes 1 (allContexts.countP fun i => a.contexts[i].isNone) ++ zeros 1
    ++ leBytes 2 a.freeBlocks.length ++ leBytes 1 queued ++ zeros 23
    ++ (allStreams.map (streamRecord a)).flatten

/-- A hold record. -/
def holdRecord (t : HoldTable) (id : Fin 16) : List Byte :=
  let e := t.entries[id]
  leBytes 1 id.val ++ leBytes 1 (holdCode e)
    ++ (match e with
      | none => zeros 14
      | some h => [flagByte h.last.isNone h.waiting.isSome false false] ++ zeros 1 ++ leBytes 4 h.first
          ++ leBytes 4 (h.last.getD 0) ++ leBytes 4 h.owner.toNat)
    ++ zeros 16

/-- The number of sectors in a retired set. -/
def retiredCount (r : BitVec 256) : Nat := allSectors.countP fun i => r.getLsbD i.val

/-- The output of QUERY HOLDS. -/
def holdsOutput (t : HoldTable) (a : Anchor) : List Byte :=
  ([0, 1, 2, 3, 4].map fun k => leBytes 1 (t.entries.toList.countP fun e => holdCode e == k)).flatten
    ++ leBytes 1 a.state.code ++ leBytes 1 a.active.val ++ leBytes 1 a.nextSlot ++ leBytes 4 a.generation
    ++ [flagByte a.failed a.pendingFlag ((a.snapshot.map (·.rolled)).getD false) false]
    ++ leBytes 1 ((a.snapshot.map (·.attempts)).getD 0) ++ leBytes 1 (retiredCount a.retired) ++ zeros 17
    ++ retiredLine a.retired ++ (allHolds.map (holdRecord t)).flatten

/-- The twelve counters of R183, in the order of its table. -/
def State.counters (s : State) : List Nat :=
  [s.assembly.fragmentsAccepted, s.assembly.fragmentsRefused, s.writer.recordsCommitted, s.writer.bytesCommitted,
    s.writer.recordsFailed, s.reclaim.sectorsErased, s.reclaim.sectorsRetired, s.ctrl.suspensions,
    s.ctrl.linesCorrected, s.ctrl.linesUncorrectable, s.reader.completed, s.host.noticesLost]

/-- The output of QUERY STATS. -/
def statsOutput (s : State) : List Byte :=
  (s.counters.map (leBytes 4)).flatten ++ zeros 4 ++ leBytes 1 s.writer.state.code
    ++ leBytes 1 s.writer.full.toNat ++ leBytes 1 s.host.device.code ++ zeros 1
    ++ leBytes 4 (s.writer.nextJsn.getD 0) ++ leBytes 4 (s.writer.nextEpoch.getD 0) ++ zeros 64

/-! ### Registers as read (R185, R186) -/

/-- A read of the register at an offset: `none` outside the window. -/
def HostUnit.readRegister (h : HostUnit) (offset : Nat) : Option Word :=
  match offset with
  | 0x00 => some Config.idRegister
  | 0x04 => some (BitVec.ofNat 32 h.enable.toNat)
  | 0x08 => some (BitVec.ofNat 32 (h.device.code + 256 * h.reason.code + 65536 * h.badIndex))
  | 0x0C => some h.setupLo
  | 0x10 => some h.setupHi
  | 0x14 => some 0#32
  | 0x18 => some (h.intCause.setWidth 32)
  | 0x1C => some (h.intMask.setWidth 32)
  | _ => none

end Sys2Proof.Machine
end

