-- ==== Sys2Proof/Machine/Operands.lean ====
section
/-! DEFINITION. What the part reads from host memory: submission entries (R176, R190) and the setup block
(R173, R189), with every test the Host Ring Unit makes on them. -/

namespace Sys2Proof.Machine

/-! ### Submission entries -/

/-- What the Host Ring Unit makes of a fetched entry (R176). -/
inductive EntryVerdict where
  | badKind
  | badField
  | command (owner : Owner) (cmd : Cmd)
  deriving DecidableEq, Repr

/-- The kind, flag bit 0, and command tag of an entry (R190). -/
def entryKind (l : List Byte) : Nat := fieldAt l 0 1
def entryFlag (l : List Byte) : Bool := fieldAt l 1 1 % 2 == 1
def entryTag (l : List Byte) : BitVec 16 := BitVec.ofNat 16 (fieldAt l 2 2)

/-- A stream number in range. -/
def streamField (l : List Byte) : Option StreamNo := if h : fieldAt l 4 1 < 16 then some ⟨fieldAt l 4 1, h⟩ else none

/-- The buffer address or data address at bytes 16 to 23. -/
def addressField (l : List Byte) : Addr := BitVec.ofNat 64 (fieldAt l 16 8)

/-- An optional value, or BAD_FIELD. -/
def orBadField (o : Option EntryVerdict) : EntryVerdict := o.getD .badField

/-- APPEND (R64). -/
def appendEntry (l : List Byte) : Option EntryVerdict :=
  (streamField l).bind fun st =>
    if fieldAt l 8 2 ≤ 8191 ∧ 1 ≤ fieldAt l 10 2 ∧ fieldAt l 10 2 ≤ 4096 then
      some (.command .assembly (.append st (BitVec.ofNat 16 (fieldAt l 6 2)) (fieldAt l 8 2) (fieldAt l 10 2)
        (entryFlag l) (BitVec.ofNat 32 (fieldAt l 12 4)) (addressField l)))
    else none

/-- OPEN_STREAM (R41). -/
def openStreamEntry (l : List Byte) : Option EntryVerdict :=
  (streamField l).bind fun st =>
    if 1 ≤ fieldAt l 5 1 ∧ fieldAt l 5 1 ≤ 8 then
      some (.command .assembly (.openStream st (fieldAt l 5 1) (fieldAt l 6 1) (entryFlag l)
        (BitVec.ofNat 16 (fieldAt l 8 2))))
    else none

/-- READ (R133). -/
def readEntry (l : List Byte) : Option EntryVerdict :=
  if inJsnRange (fieldAt l 8 4) ∧ 32 ≤ fieldAt l 12 4 then
    some (.command .readUnit (.read (fieldAt l 8 4) (addressField l) (fieldAt l 12 4) (entryFlag l)))
  else none

/-- The stream filter of a SCAN: a stream, or FFH for ALL. -/
def filterField (l : List Byte) : Option (Option StreamNo) :=
  if fieldAt l 4 1 = 0xFF then some none else (streamField l).map some

/-- SCAN (R133). -/
def scanEntry (l : List Byte) : Option EntryVerdict :=
  (filterField l).bind fun f =>
    if inJsnRange (fieldAt l 8 4) ∧ 32 ≤ fieldAt l 12 4 ∧ 1 ≤ fieldAt l 5 1 ∧ fieldAt l 5 1 ≤ 64 then
      some (.command .readUnit (.scan (fieldAt l 8 4) f (fieldAt l 5 1) (addressField l) (fieldAt l 12 4)))
    else none

/-- HOLD (R117). With OPEN set the last JSN is not read. -/
def holdEntry (l : List Byte) : Option EntryVerdict :=
  let first := fieldAt l 8 4
  let last := fieldAt l 12 4
  if inJsnRange first ∧ fieldAt l 4 1 ≤ 1 ∧ (entryFlag l = true ∨ (inJsnRange last ∧ first ≤ last)) then
    some (.command .holdTable (.hold first (if entryFlag l then none else some last) (fieldAt l 4 1 == 1)
      (BitVec.ofNat 32 (fieldAt l 16 4))))
  else none

/-- RELEASE (R119). -/
def releaseEntry (l : List Byte) : Option EntryVerdict :=
  (streamField l).map fun id => .command .holdTable (.release id)

/-- QUERY (R176). -/
def queryEntry (l : List Byte) : Option EntryVerdict :=
  let query (owner : Owner) (subject : Subject) : Option EntryVerdict :=
    some (.command owner (.query subject (entryFlag l) (addressField l) (fieldAt l 12 4)))
  match fieldAt l 4 1 with
  | 0 => query .sectorTable .sectors
  | 1 => query .assembly .streams
  | 2 => query .holdTable .holds
  | 3 => query .hostRing .stats
  | _ => none

/-- The verdict on an entry (R176, R190): reserved fields and fields the kind does not use are not tested. -/
def entryVerdict (l : List Byte) : EntryVerdict :=
  match entryKind l with
  | 0x01 => orBadField (appendEntry l)
  | 0x02 => orBadField (openStreamEntry l)
  | 0x03 => orBadField ((streamField l).map fun st => .command .assembly (.closeStream st (entryFlag l)))
  | 0x04 => orBadField ((streamField l).map fun st =>
      .command .assembly (.abortRecord st (BitVec.ofNat 16 (fieldAt l 6 2))))
  | 0x05 => orBadField (readEntry l)
  | 0x06 => orBadField (scanEntry l)
  | 0x07 => orBadField (holdEntry l)
  | 0x08 => orBadField (releaseEntry l)
  | 0x09 => orBadField (queryEntry l)
  | 0x0A => .command .reclaim .wipe
  | _ => .badKind

/-! ### The setup block -/

/-- Submission ring `i` of a setup block (R189). -/
def ringField (l : List Byte) (i : Nat) : RingSetup :=
  ⟨BitVec.ofNat 64 (fieldAt l (16 * i) 8), fieldAt l (16 * i + 8) 4, fieldAt l (16 * i + 12) 1⟩

/-- The fields of a setup block (R189). -/
def parseSetup (l : List Byte) : Setup where
  rings := tabulate 4 fun i => ringField l i.val
  completionBase := BitVec.ofNat 64 (fieldAt l 64 8)
  completionSize := fieldAt l 72 4
  noticeBase := BitVec.ofNat 64 (fieldAt l 80 8)
  noticeSize := fieldAt l 88 4
  statusAddress := BitVec.ofNat 64 (fieldAt l 96 8)
  tickPeriod := fieldAt l 104 2
  reserve := fieldAt l 106 1

/-- An area of host memory: first byte, and first byte past it. -/
abbrev Area := Nat × Nat

/-- Two areas share a byte. -/
def areasMeet (a b : Area) : Bool := decide (a.1 < b.2) && decide (b.1 < a.2)

/-- The area of a ring. DESIGN CHOICE (log entry 26): one that runs past the top of the 64-bit space is not cut or
wrapped, and nothing refuses it. -/
def ringArea (base : Addr) (size entry : Nat) : Area := (base.toNat, base.toNat + size * entry)

/-- Aligned to 64 bytes. -/
def aligned (a : Addr) : Bool := a.toNat % 64 == 0

/-- The areas of the submission rings in use before ring `i`. -/
def Setup.areasBefore (c : Setup) (i : Nat) : List Area :=
  ((c.rings.toList.take i).filter fun r => r.weight != 0).map fun r => ringArea r.base r.size 64

/-- The area of the completion ring. -/
def Setup.completionArea (c : Setup) : Area := ringArea c.completionBase c.completionSize 16
/-- The area of the notice ring. -/
def Setup.noticeArea (c : Setup) : Area := ringArea c.noticeBase c.noticeSize 16

/-- An area meets no area tested before it. -/
def clearOf (a : Area) (l : List Area) : Bool := !l.any (areasMeet a)

/-- The tests on submission ring `i` in index order: the first that fails. -/
def Setup.ringFault (c : Setup) (i : Fin 4) : Option Nat :=
  let r := c.rings[i]
  if 8 < r.weight || (i.val == 3 && c.rings.toList.all fun r => r.weight == 0) then some (3 * i.val)
  else if r.weight = 0 then none
  else if !aligned r.base then some (3 * i.val + 1)
  else if r.size < 8 || 4096 < r.size || !clearOf (ringArea r.base r.size 64) (c.areasBefore i.val) then
    some (3 * i.val + 2)
  else none

/-- The tests on a ring of 16-byte entries: base index `k`, size index `k + 1`. -/
def ring16Fault (base : Addr) (size most k : Nat) (before : List Area) : Option Nat :=
  if !aligned base then some k
  else if size < 16 || most < size || !clearOf (ringArea base size 16) before then some (k + 1)
  else none

/-- The index of the first field that fails (R173), in index order. -/
def Setup.firstFault (c : Setup) : Option Nat :=
  (((((([0, 1, 2, 3] : List (Fin 4)).findSome? c.ringFault)
    <|> ring16Fault c.completionBase c.completionSize 4096 12 (c.areasBefore 4))
    <|> ring16Fault c.noticeBase c.noticeSize 1024 14 (c.areasBefore 4 ++ [c.completionArea]))
    <|> (if aligned c.statusAddress
          && clearOf (c.statusAddress.toNat, c.statusAddress.toNat + 64)
            (c.areasBefore 4 ++ [c.completionArea, c.noticeArea]) then none else some 16))
    <|> (if 1 ≤ c.tickPeriod ∧ c.tickPeriod ≤ 1000 then none else some 17))
    <|> (if 2 ≤ c.reserve ∧ c.reserve ≤ 16 then none else some 18)

end Sys2Proof.Machine
end

