-- ==== Sys2Proof/Machine/HostRings.lean ====
section
/-! DEFINITION. The Host Ring Unit's own work (R173 to R188): registers, ring positions, fetching and routing, posting,
the status block, QUERY outputs, and the resets. -/

namespace Sys2Proof.Machine

/-! ### Ring positions (R174, R188) -/

/-- How far `new` lies ahead of `old` in a ring of `size` entries. -/
def ringAhead (size old new : Nat) : Nat := (new + size - old) % size

/-- The position after `p`. -/
def ringNext (size p : Nat) : Nat := (p + 1) % size

/-- The states in which RING_INDEX is taken. -/
def DeviceState.takesIndex : DeviceState → Bool
  | .mounting => true
  | .online => true
  | .draining => true
  | .stopped => true
  | .offline => false
  | .setup => false
  | .halted => false

/-- INDEX_ERROR is set (R188). -/
def HostUnit.indexError (h : HostUnit) : HostUnit := h.withCauses causeIndexError

/-- Entries posted in a ring and not released: from the host's head up to the part's tail. -/
def HostUnit.completionsPosted (h : HostUnit) (c : Setup) : Nat :=
  ringAhead c.completionSize h.completionHead h.completionTail
def HostUnit.noticesPosted (h : HostUnit) (c : Setup) : Nat := ringAhead c.noticeSize h.noticeHead h.noticeTail

/-- A submission tail is written. -/
def HostUnit.writeSubmissionTail (h : HostUnit) (c : Setup) (ring : Fin 4) (p : Nat) : HostUnit :=
  if c.rings[ring].weight = 0 ∨ c.rings[ring].size ≤ p then h.indexError
  else { h with subTail := h.subTail.set ring p }

/-- A completion head is written: completions are released. -/
def HostUnit.writeCompletionHead (h : HostUnit) (c : Setup) (p : Nat) : HostUnit :=
  if c.completionSize ≤ p ∨ h.completionsPosted c < ringAhead c.completionSize h.completionHead p then h.indexError
  else { h with completionHead := p }

/-- A notice head is written: notices are released. -/
def HostUnit.writeNoticeHead (h : HostUnit) (c : Setup) (p : Nat) : HostUnit :=
  if c.noticeSize ≤ p ∨ h.noticesPosted c < ringAhead c.noticeSize h.noticeHead p then h.indexError
  else { h with noticeHead := p }

/-- A RING_INDEX write in a state that takes it, with the setup copy in force. -/
def indexWrite (f : HostUnit → Setup → HostUnit) (s : State) : State :=
  match s.host.setup with
  | some c => if s.host.device.takesIndex then s.onHost fun h => f h c else s
  | none => s

/-! ### Register writes (R186, R187) -/

/-- A write to INT_CAUSE. -/
def HostUnit.writeCause (h : HostUnit) (v : Word) : HostUnit := h.judged (h.intCause &&& ~~~(v.setWidth 4)) h.intMask

/-- A write to INT_MASK. -/
def HostUnit.writeMask (h : HostUnit) (v : Word) : HostUnit := h.judged h.intCause (v.setWidth 4)

/-- A write to ID, STATE, SETUP_LO or SETUP_HI. -/
def HostUnit.writePlain (h : HostUnit) (register : PlainRegister) (v : Word) : HostUnit :=
  match register with
  | .id => h
  | .state => h
  | .setupLo => { h with setupLo := v &&& 0xFFFFFFC0#32 }
  | .setupHi => { h with setupHi := v }

/-! ### Setup (R173) -/

/-- The setup block has been read. -/
def setupBlockRead (l : List Byte) (s : State) : State :=
  let c := parseSetup l
  match c.firstFault with
  | some k => enterOffline .setupInvalid k s
  | none =>
    let s := s.onHost fun h => { h with setup := some c, setupStage := .idle, statusMark := true }
    if s.host.enable then
      if s.mount.mounted then enterOnline s else enterMounting s
    else s.onHost fun h => h.changeState .stopped

/-- The read of the setup block ends. -/
def setupReadEnded (answer : Option (List Byte)) (s : State) : State :=
  match answer with
  | some l => setupBlockRead l s
  | none => enterOffline .setupReadError 0 s

/-- The device is reading the setup block. -/
def HostUnit.readingSetup (h : HostUnit) : Bool :=
  match h.setupStage with
  | .reading _ => h.device == .setup
  | .waiting _ => false
  | .idle => false

/-! ### Fetching (R175) -/

/-- Command slots in number order. -/
def allSlots : List SlotNo := List.finRange 64

/-- The lowest-numbered FREE slot. -/
def HostUnit.freeSlot (h : HostUnit) : Option SlotNo := allSlots.find? fun i => h.slots[i] == .free

/-- Slots in use. -/
def HostUnit.slotsInUse (h : HostUnit) : Nat := h.slots.toList.countP fun x => x != .free

/-- Pending entries of a submission ring. -/
def HostUnit.pendingEntries (h : HostUnit) (c : Setup) (ring : Fin 4) : Nat :=
  if c.rings[ring].weight = 0 then 0 else ringAhead c.rings[ring].size h.subHead[ring] h.subTail[ring]

/-- The rings from the one after `r` round to `r` itself. -/
def ringsAfter : Fin 4 → List (Fin 4)
  | 0 => [1, 2, 3, 0]
  | 1 => [2, 3, 0, 1]
  | 2 => [3, 0, 1, 2]
  | 3 => [0, 1, 2, 3]

/-- The ring that yields the next entry, and the entries yielded in its visit with it. -/
def HostUnit.nextRing (h : HostUnit) (c : Setup) : Option (Fin 4 × Nat) :=
  if 0 < h.pendingEntries c h.roundRing ∧ h.roundYield < c.rings[h.roundRing].weight then
    some (h.roundRing, h.roundYield + 1)
  else ((ringsAfter h.roundRing).find? fun r => decide (0 < h.pendingEntries c r)).map fun r => (r, 1)

/-- There is completion credit for one more command. -/
def HostUnit.hasCredit (h : HostUnit) (c : Setup) : Bool :=
  decide (h.slotsInUse + h.completionsPosted c < c.completionSize - 1)

/-- The fetch that can begin now: its slot, its ring, and the entries yielded with it. -/
def HostUnit.nextFetch (h : HostUnit) : Option (SlotNo × Fin 4 × Nat) :=
  match h.setup, h.freeSlot with
  | some c, some i =>
    if h.device = .online ∧ h.fetch = none ∧ h.hasCredit c then (h.nextRing c).map fun x => (i, x) else none
  | _, _ => none

/-- The fetch begins: the slot is claimed. -/
def HostUnit.beginFetch (h : HostUnit) (i : SlotNo) (ring : Fin 4) (yielded : Nat) : HostUnit :=
  { h with slots := h.slots.set i (.fetching ring), fetch := some (i, ring), roundRing := ring, roundYield := yielded }

/-- Where the entry that a fetch reads lies. -/
def HostUnit.fetchAddress (h : HostUnit) : Option Addr :=
  match h.setup, h.fetch with
  | some c, some (_, ring) => some (c.rings[ring].base + BitVec.ofNat 64 (64 * h.subHead[ring]))
  | _, _ => none

/-! ### Routing (R176) -/

/-- A command joins its owner's queue. -/
def route (owner : Owner) (r : Routed) (s : State) : State :=
  match owner with
  | .hostRing => s.onHost fun h => { h with queue := h.queue ++ [r] }
  | .assembly => s.onAssembly fun a => { a with queue := a.queue ++ [r] }
  | .readUnit => s.onReader fun u => { u with queue := u.queue ++ [r] }
  | .holdTable => s.onHolds fun t => { t with queue := t.queue ++ [r] }
  | .sectorTable => s.onTable fun t => { t with queue := t.queue ++ [r] }
  | .reclaim => s.onReclaim fun u => { u with queue := u.queue ++ [r] }

/-- The owner a verdict names. -/
def EntryVerdict.owner : EntryVerdict → Option Owner
  | .badKind => none
  | .badField => none
  | .command owner _ => some owner

/-- A fetched entry is taken: recorded in its slot, and refused or routed. -/
def takeEntry (i : SlotNo) (ring : Fin 4) (l : List Byte) (s : State) : State :=
  let v := entryVerdict l
  let s := s.onHost fun h =>
    { h with slots := h.slots.set i (.taken ring (entryTag l) (BitVec.ofNat 8 (entryKind l)) v.owner) }
  match v with
  | .badKind => complete i .badKind s
  | .badField => complete i .badField s
  | .command owner cmd => route owner ⟨i, cmd⟩ s

/-- The head of a submission ring advances (R175). -/
def HostUnit.advanceHead (h : HostUnit) (c : Setup) (ring : Fin 4) : HostUnit :=
  { h with
    fetch := none
    subHead := h.subHead.set ring (ringNext c.rings[ring].size h.subHead[ring])
    statusMark := true }

/-- The read of a submission entry returns. -/
def fetchEnded (i : SlotNo) (ring : Fin 4) (c : Setup) (answer : Option (List Byte)) (s : State) : State :=
  match answer with
  | none => halt .submissionReadError s
  | some l => takeEntry i ring l (s.onHost fun h => h.advanceHead c ring)

/-! ### Posting (R177, R178) -/

/-- Host writes of entries and of the status block may begin (R177, R181). -/
def DeviceState.writes : DeviceState → Bool
  | .mounting => true
  | .online => true
  | .draining => true
  | .stopped => true
  | .offline => false
  | .setup => false
  | .halted => false

/-- The write of a completion entry begins. -/
def HostUnit.beginCompletion (h : HostUnit) (c : Setup) (i : SlotNo) (status : Status) (r : Results) : HostUnit :=
  { h with ringWrite := some (.completion
      ⟨c.completionBase + BitVec.ofNat 64 (16 * h.completionTail), completionEntry h.slots[i] status r⟩) }

/-- A notice's turn: dropped when it would fill the ring, else its write begins. -/
def HostUnit.beginNotice (h : HostUnit) (c : Setup) (n : Notice) : HostUnit :=
  if h.noticesPosted c + 1 = c.noticeSize then { h.dropNotice with posting := h.posting.tail }
  else { h with ringWrite := some (.notice
      ⟨c.noticeBase + BitVec.ofNat 64 (16 * h.noticeTail), noticeEntry n h.lostCount⟩) }

/-- The oldest entry of the posting queue is taken. -/
def HostUnit.beginPosting (h : HostUnit) : HostUnit :=
  if h.device.writes ∧ h.ringWrite = none then
    match h.setup, h.posting with
    | some c, .outcome i status r :: _ => h.beginCompletion c i status r
    | some c, .notice n :: _ => h.beginNotice c n
    | _, _ => h
  else h

/-- The slot of the outcome at the head of the posting queue becomes FREE (R177). -/
def HostUnit.freePosted (h : HostUnit) : Vector Slot 64 :=
  match h.posting with
  | .outcome i _ _ :: _ => h.slots.set i .free
  | .notice _ :: _ => h.slots
  | [] => h.slots

/-- A completion entry has been written. -/
def HostUnit.completionWritten (h : HostUnit) (c : Setup) : HostUnit :=
  { h with
    ringWrite := none
    completionTail := ringNext c.completionSize h.completionTail
    slots := h.freePosted
    posting := h.posting.tail
    statusMark := true
    completionsSince := true }

/-- A notice entry has been written. -/
def HostUnit.noticeWritten (h : HostUnit) (c : Setup) : HostUnit :=
  { h with
    ringWrite := none
    noticeTail := ringNext c.noticeSize h.noticeTail
    posting := h.posting.tail
    lostCount := 0
    statusMark := true
    noticesSince := true }

/-- The end of an entry write: with a failure the part halts; a SETUP that waited for the end goes on (R173). -/
def entryWriteEnded (f : HostUnit → Setup → HostUnit) (failure : Reason) (ok : Bool) (s : State) : State :=
  match s.host.setup with
  | none => s
  | some c => if ok then resumeSetup (s.onHost fun h => f h c) else halt failure s

/-- The write of the status block begins: the mark clears, and the write count has risen (R177, log entry 16). DESIGN
CHOICE (log entry 16): the 32-bit count goes from FFFFFFFFH to 0, where R177 and R189 say only that it rises by 1. -/
def HostUnit.beginStatus (h : HostUnit) (c : Setup) : HostUnit :=
  let h := { h with statusMark := false, writeCount := h.writeCount + 1#32 }
  { h with
    ringWrite := some (.status ⟨c.statusAddress, h.statusBlock⟩ h.completionsSince h.noticesSince h.stateSince)
    completionsSince := false
    noticesSince := false
    stateSince := false }

/-- The causes that a status block write sets when it is done (R177). -/
def statusCauses (completions notices stateChange : Bool) : BitVec 4 :=
  (if completions then causeCompletion else 0#4) ||| (if notices then causeNotice else 0#4)
    ||| (if stateChange then causeStateChange else 0#4)

/-- A status block write ends. -/
def statusEnded (causes : BitVec 4) (ok : Bool) (s : State) : State :=
  if ok then resumeSetup (s.onHost fun h => { h with ringWrite := none }.withCauses causes)
  else halt .statusWriteError s

/-! ### QUERY outputs (R37, R56, R131, R183) -/

/-- A QUERY is answered: its output is issued as a host write, or it completes SHORT_BUFFER. -/
def answerQuery (slot : SlotNo) (address : Addr) (length : Nat) (output : List Byte) (s : State) : State :=
  if length < output.length then postOutcome slot .shortBuffer { at8 := BitVec.ofNat 32 output.length } s
  else s.onHost fun h => { h with queryWrites := h.queryWrites ++ [⟨slot, address, output⟩] }

/-- Every counter of R183 becomes 0. -/
def clearCounters (s : State) : State :=
  { s with
    assembly := { s.assembly with fragmentsAccepted := 0, fragmentsRefused := 0 }
    writer := { s.writer with recordsCommitted := 0, bytesCommitted := 0, recordsFailed := 0 }
    reclaim := { s.reclaim with sectorsErased := 0, sectorsRetired := 0 }
    ctrl := { s.ctrl with suspensions := 0, linesCorrected := 0, linesUncorrectable := 0 }
    reader := { s.reader with completed := 0 }
    host := { s.host with noticesLost := 0 } }

/-- QUERY STATS is taken (R183): nothing is cleared when the buffer is short. -/
def takeQueryStats (slot : SlotNo) (clear : Bool) (address : Addr) (length : Nat) (s : State) : State :=
  let output := statsOutput s
  answerQuery slot address length output
    (if clear ∧ output.length ≤ length then clearCounters s else s)

/-- The host writes of a QUERY output end. -/
def queryWritten (q : QueryWrite) (ok : Bool) (s : State) : State :=
  let s := s.onHost fun h => { h with queryWrites := h.queryWrites.filter fun x => x.slot != q.slot }
  if ok then postOutcome q.slot .ok { at8 := BitVec.ofNat 32 q.write.bytes.length } s
  else complete q.slot .hostWriteError s

/-! ### The resets (R182) -/

/-- A cold reset: every block at its reset values, with the array as it stands. What waits in the command queue of the
model, and the count of messages sent, stay (log entry 3). DESIGN CHOICE (log entry 5): both resets leave staging
memory at 00H in every byte; the manual says only that its earlier contents are not used (R59). -/
def coldReset (left : Residue) (s : State) : State :=
  { State.reset with
    host := { HostUnit.reset with intMessages := s.host.intMessages }
    array := abandonedArray s.ctrl s.array s.barred left
    barred := abandonedBarred s.ctrl s.array s.barred
    pending := s.pending }

/-- The wear and wear-estimated flag that a soft reset keeps (R19). -/
def keepWear (fresh old : SectorEntry) : SectorEntry :=
  { fresh with wear := old.wear, wearEstimated := old.wearEstimated }

/-- A soft reset: statistics counters and sector wear are kept, and the Mount Unit's reset kind is SOFT. -/
def softReset (left : Residue) (s : State) : State :=
  { coldReset left s with
    host := { HostUnit.reset with intMessages := s.host.intMessages, noticesLost := s.host.noticesLost }
    assembly := { Assembly.reset with
      fragmentsAccepted := s.assembly.fragmentsAccepted, fragmentsRefused := s.assembly.fragmentsRefused }
    writer := { Writer.reset with
      recordsCommitted := s.writer.recordsCommitted, bytesCommitted := s.writer.bytesCommitted,
      recordsFailed := s.writer.recordsFailed }
    table := { SectorTable.reset with
      entries := tabulate 256 fun i => keepWear SectorTable.reset.entries[i] s.table.entries[i] }
    reclaim := { Reclaim.reset with
      sectorsErased := s.reclaim.sectorsErased, sectorsRetired := s.reclaim.sectorsRetired }
    reader := { ReadUnit.reset with completed := s.reader.completed }
    ctrl := { ArrayCtrl.reset with
      linesCorrected := s.ctrl.linesCorrected, linesUncorrectable := s.ctrl.linesUncorrectable,
      suspensions := s.ctrl.suspensions }
    mount := Mount.reset .soft }

end Sys2Proof.Machine
end

