-- ==== Sys2Proof/Machine/JournalSteps.lean ====
section
/-! DEFINITION. The happenings of the Journal Writer, the Reclaim Unit and the Anchor Unit (R84 to R128):
QUEUE_HEAD_TAKEN to ROLLOVER_ERASE_END. -/

namespace Sys2Proof.Machine

/-! ### Outcomes of the array waiting for a requester (R148) -/

/-- The outcome a requester may take: none in HALTED. -/
def State.outcomeFor (s : State) (who : Requester) : Option ArrayOutcome :=
  if s.live then s.ctrl.outcomes.get who else none

/-- The outcome is of a program: whether it went well. -/
def State.programResult (s : State) (who : Requester) : Option Bool :=
  match s.outcomeFor who with
  | some .programmed => some true
  | some (.programFailed _ _) => some false
  | _ => none

/-- The outcome is of an erase: whether it went well. -/
def State.eraseResult (s : State) (who : Requester) : Option Bool :=
  match s.outcomeFor who with
  | some .erased => some true
  | some .eraseFailed => some false
  | _ => none

/-- The outcome is of a read. -/
def State.linesResult (s : State) (who : Requester) : Option (List LineOutcome) :=
  match s.outcomeFor who with
  | some (.lines l) => some l
  | _ => none

/-! ### Journal Writer -/

/-- QUEUE_HEAD_TAKEN (R84). -/
def execQueueHeadTaken (s : State) : Host.Outcome State Fault Refusal :=
  .next (if s.live ∧ s.writer.state = .idle then takeQueueHead s else s)

/-- SPACE_QUESTION_RETRY (R88). -/
def execSpaceQuestionRetry (s : State) : Host.Outcome State Fault Refusal :=
  .next (if s.live ∧ s.writer.state = .waitingSpace ∧ s.writer.spaceSignal then
      askSector (s.onWriter fun w => { w with spaceSignal := false })
    else s)

/-- SECTOR_HEADER_PROGRAMMED (R91). -/
def execSectorHeaderProgrammed (s : State) : Host.Outcome State Fault Refusal :=
  .next (match s.programResult .writer with
    | some ok =>
      if s.writer.state = .opening ∧ s.writer.headerEpoch = none then
        if ok then headerProgrammed (takeOutcome .writer s) else headerProgramFailed (takeOutcome .writer s)
      else s
    | none => s)

/-- PAD_PROGRAMMED (R92). -/
def execPadProgrammed (s : State) : Host.Outcome State Fault Refusal :=
  .next (match s.programResult .writer, s.writer.headerEpoch with
    | some ok, some epoch =>
      if s.writer.state = .opening then padProgrammed epoch ok (takeOutcome .writer s) else s
    | _, _ => s)

/-- BURST_PROGRAMMED (R94, R96). -/
def execBurstProgrammed (s : State) : Host.Outcome State Fault Refusal :=
  .next (match s.programResult .writer, s.recordContext, s.writer.placement with
    | some ok, some (_, c), some pl =>
      if s.writer.state = .writing then
        if ok then burstDone c pl (takeOutcome .writer s) else relocate c pl (takeOutcome .writer s)
      else s
    | _, _, _ => s)

/-- COMMIT_LINE_PROGRAMMED (R95, R96). -/
def execCommitLineProgrammed (s : State) : Host.Outcome State Fault Refusal :=
  .next (match s.programResult .writer, s.recordContext, s.writer.placement with
    | some ok, some (i, c), some pl =>
      if s.writer.state = .committing then
        if ok then commitRecord i c pl (takeOutcome .writer s) else relocate c pl (takeOutcome .writer s)
      else s
    | _, _, _ => s)

/-! ### Reclaim Unit -/

/-- RECLAIM_TEST (R101). -/
def execReclaimTest (s : State) : Host.Outcome State Fault Refusal :=
  .next (if s.live ∧ s.reclaim.state = .idle ∧ s.reclaim.signal then
      reclaimTest (s.onReclaim fun r => { r with signal := false })
    else s)

/-- ERASE_END (R103). -/
def execEraseEnd (s : State) : Host.Outcome State Fault Refusal :=
  .next (match s.eraseResult .reclaim, s.reclaim.erase with
    | some ok, some i => eraseEnded i ok (takeOutcome .reclaim s)
    | _, _ => s)

/-! ### Anchor Unit -/

/-- SNAPSHOT_PROGRAM_END (R124). -/
def execSnapshotProgramEnd (s : State) : Host.Outcome State Fault Refusal :=
  .next (match s.programResult .anchor, s.anchor.snapshot with
    | some ok, some snap =>
      if s.anchor.state = .writing then snapshotPartEnded snap ok (takeOutcome .anchor s) else s
    | _, _ => s)

/-- ROLLOVER_ERASE_END (R126). -/
def execRolloverEraseEnd (s : State) : Host.Outcome State Fault Refusal :=
  .next (match s.eraseResult .anchor, s.anchor.snapshot with
    | some ok, some snap =>
      if s.anchor.state = .rollingOver then rolloverEnded snap ok (takeOutcome .anchor s) else s
    | _, _ => s)

end Sys2Proof.Machine
end

