-- ==== Sys2Proof/Machine/ArraySteps.lean ====
section
/-! DEFINITION. The happenings of the Array Controller and the Mount Unit (R148 to R169): ARRAY_REQUEST to
BLANK_CHECK_END. -/

namespace Sys2Proof.Machine

/-- ARRAY_REQUEST (R148). -/
def execArrayRequest (who : Requester) (s : State) : Host.Outcome State Fault Refusal :=
  .next (match s.ctrl.placed.get who with
    | some op => if s.live then s.onCtrl fun c => c.takeRequest who op else s
    | none => s)

/-- ARRAY_OPERATION_END (R149 to R152, R154). -/
def execArrayOperationEnd (elapsed : Nat) (report : ArrayReport) (s : State) : Host.Outcome State Fault Refusal :=
  .next (operationEnded elapsed report s)

/-- ERASE_STOPPED (R153). -/
def execEraseStopped (elapsed : Nat) (s : State) : Host.Outcome State Fault Refusal := .next (eraseStopped elapsed s)

/-- ERASE_RESUMED (R154). -/
def execEraseResumed (elapsed : Nat) (s : State) : Host.Outcome State Fault Refusal := .next (eraseResumed elapsed s)

/-- ARRAY_TIMEOUT (R156). -/
def execArrayTimeout (elapsed : Nat) (left : Residue) (s : State) : Host.Outcome State Fault Refusal :=
  .next (operationTimedOut elapsed left s)

/-- ANCHOR_SLOT_READ (R160). -/
def execAnchorSlotRead (s : State) : Host.Outcome State Fault Refusal :=
  .next (match s.linesResult .mount, s.mount.position with
    | some l, .slot a slot =>
      if s.host.device = .mounting then slotRead a slot l (takeOutcome .mount s) else s
    | _, _ => s)

/-- MOUNT_LINE_READ (R162, R163). -/
def execMountLineRead (s : State) : Host.Outcome State Fault Refusal :=
  .next (if s.host.device = .mounting then
      match s.linesResult .mount, s.mount.position with
      | some l, .sectorHeader i => mountSectorRead i (firstLine l) (takeOutcome .mount s)
      | some l, .walkHeader i p w => mountHeaderRead i p w (firstLine l) (takeOutcome .mount s)
      | some l, .walkCommit i p h w => mountCommitRead i p h w (firstLine l) (takeOutcome .mount s)
      | _, _ => s
    else s)

/-- BLANK_CHECK_END (R162). -/
def execBlankCheckEnd (s : State) : Host.Outcome State Fault Refusal :=
  .next (if s.host.device = .mounting then
      match s.outcomeFor .mount, s.mount.position with
      | some .blank, .blankCheck i => scanAfter i (setFinding i .blank (takeOutcome .mount s))
      | some .notBlank, .blankCheck i => scanAfter i (setFinding i .dirty (takeOutcome .mount s))
      | _, _ => s
    else s)

end Sys2Proof.Machine
end

