-- ==== Sys2Proof/Machine/AssemblySteps.lean ====
section
/-! DEFINITION. The Assembly Unit's happenings (R51, R68 to R71, R77, R78): TICK to TRANSFER_FAIL. -/

namespace Sys2Proof.Machine

/-- Ticks run (R77, R172). -/
def DeviceState.ticks : DeviceState → Bool
  | .online => true
  | .draining => true
  | .stopped => true
  | .offline => false
  | .setup => false
  | .mounting => false
  | .halted => false

/-- TICK (R77). -/
def execTick (s : State) : Host.Outcome State Fault Refusal :=
  .next (if s.host.device.ticks then takeTick s else s)

/-- The tick that comes brings the context's age to its stream's age limit (R78). -/
def expiresNext (a : Assembly) (c : Context) : Bool :=
  agesOnTick a c && c.age + 1 == a.streams[c.stream].ageLimit

/-- ASSEMBLY_EXPIRED (R78): the expiry alone, with the admission that follows it (log entry 10). -/
def execAssemblyExpired (context : CtxNo) (s : State) : Host.Outcome State Fault Refusal :=
  .next (match s.assembly.contexts[context] with
    | some c =>
      if s.host.device.ticks ∧ expiresNext s.assembly c then admitStream c.stream (expireContext context c s) else s
    | none => s)

/-- The tick that comes brings the stream's stall age to its age limit (R51). -/
def skipsNext (a : Assembly) (st : StreamNo) : Bool :=
  a.streams[st].state == .opened && decide (0 < a.streams[st].ageLimit) && isStalled a st
    && a.streams[st].stallAge + 1 == a.streams[st].ageLimit

/-- SEQUENCE_SKIPPED (R51): the skip alone, with the admission that follows it (log entry 10). -/
def execSequenceSkipped (stream : StreamNo) (s : State) : Host.Outcome State Fault Refusal :=
  .next (if s.host.device.ticks ∧ skipsNext s.assembly stream then admitStream stream (skipPosition stream s) else s)

/-- TRANSFER_END (R68, R69, R71). -/
def execTransferEnd (slot : SlotNo) (data : List Byte) (s : State) : Host.Outcome State Fault Refusal :=
  .next (if s.live then transferEnds slot data s else s)

/-- TRANSFER_FAIL (R70, R71). -/
def execTransferFail (slot : SlotNo) (s : State) : Host.Outcome State Fault Refusal :=
  .next (if s.live then transferFails slot s else s)

end Sys2Proof.Machine
end

