-- ==== Sys2Proof/Machine/Commands.lean ====
section
/-! DEFINITION. The commands of the submission rings, as their owners take them (R176): APPEND to WIPE. A command is
taken when it stands at the head of its owner's queue, in ONLINE and in DRAINING; a row taken on any other occasion
changes nothing (log entry 6). -/

namespace Sys2Proof.Machine

/-! ### The heads of the owners' queues -/

/-- The command the Assembly Unit may take: while it holds an APPEND it takes none (R64). -/
def State.assemblyHead (s : State) : Option Routed :=
  if s.takesCommands ∧ s.assembly.held = none then s.assembly.queue.head? else none

def State.readerHead (s : State) : Option Routed := if s.takesCommands then s.reader.queue.head? else none
def State.holdsHead (s : State) : Option Routed := if s.takesCommands then s.holds.queue.head? else none
def State.tableHead (s : State) : Option Routed := if s.takesCommands then s.table.queue.head? else none
def State.hostHead (s : State) : Option Routed := if s.takesCommands then s.host.queue.head? else none
def State.reclaimHead (s : State) : Option Routed := if s.takesCommands then s.reclaim.queue.head? else none

/-- The head leaves its owner's queue. -/
def popAssembly (s : State) : State := s.onAssembly fun a => { a with queue := a.queue.tail }
def popReader (s : State) : State := s.onReader fun u => { u with queue := u.queue.tail }
def popHolds (s : State) : State := s.onHolds fun t => { t with queue := t.queue.tail }
def popTable (s : State) : State := s.onTable fun t => { t with queue := t.queue.tail }
def popHost (s : State) : State := s.onHost fun h => { h with queue := h.queue.tail }
def popReclaim (s : State) : State := s.onReclaim fun r => { r with queue := r.queue.tail }

/-! ### Assembly Unit -/

/-- APPEND (R64): held, or taken. -/
def execAppend (s : State) : Host.Outcome State Fault Refusal :=
  .next (match s.assemblyHead with
    | some r =>
      match r.fragment with
      | some f =>
        if mustHold s.assembly f then (popAssembly s).onAssembly fun a => { a with held := some r }
        else takeAppend f (popAssembly s)
      | none => s
    | none => s)

/-- OPEN_STREAM (R41). -/
def execOpenStream (s : State) : Host.Outcome State Fault Refusal :=
  .next (match s.assemblyHead with
    | some ⟨slot, .openStream st limit ageLimit explicit first⟩ =>
      takeOpenStream slot st limit ageLimit explicit first (popAssembly s)
    | _ => s)

/-- CLOSE_STREAM (R42, R43). -/
def execCloseStream (s : State) : Host.Outcome State Fault Refusal :=
  .next (match s.assemblyHead with
    | some ⟨slot, .closeStream st abort⟩ => takeCloseStream slot st abort (popAssembly s)
    | _ => s)

/-- ABORT_RECORD (R74, R75). -/
def execAbortRecord (s : State) : Host.Outcome State Fault Refusal :=
  .next (match s.assemblyHead with
    | some ⟨slot, .abortRecord st seq⟩ => takeAbortRecord slot st seq (popAssembly s)
    | _ => s)

/-! ### Read Unit -/

/-- READ (R133). -/
def execRead (s : State) : Host.Outcome State Fault Refusal :=
  .next (match s.readerHead with
    | some ⟨slot, .read jsn address length headerOnly⟩ =>
      takeRead ⟨slot, .read jsn address length headerOnly⟩ (popReader s)
    | _ => s)

/-- SCAN (R133). -/
def execScan (s : State) : Host.Outcome State Fault Refusal :=
  .next (match s.readerHead with
    | some ⟨slot, .scan fromJsn filter maxRecords address length⟩ =>
      takeRead ⟨slot, .scan fromJsn filter maxRecords address length⟩ (popReader s)
    | _ => s)

/-! ### Hold Table -/

/-- HOLD (R117, R118). -/
def execHold (s : State) : Host.Outcome State Fault Refusal :=
  .next (match s.holdsHead with
    | some ⟨slot, .hold first last fixed owner⟩ => takeHold slot first last fixed owner (popHolds s)
    | _ => s)

/-- RELEASE (R119). -/
def execRelease (s : State) : Host.Outcome State Fault Refusal :=
  .next (match s.holdsHead with
    | some ⟨slot, .release id⟩ => takeRelease slot id (popHolds s)
    | _ => s)

/-! ### QUERY -/

/-- QUERY SECTORS (R37, R38). CLEAR is not used by it. -/
def execQuerySectors (s : State) : Host.Outcome State Fault Refusal :=
  .next (match s.tableHead with
    | some ⟨slot, .query .sectors _ address length⟩ =>
      answerQuery slot address length (sectorsOutput s.table) (popTable s)
    | _ => s)

/-- QUERY STREAMS (R56, R57). -/
def execQueryStreams (s : State) : Host.Outcome State Fault Refusal :=
  .next (match s.assemblyHead with
    | some ⟨slot, .query .streams _ address length⟩ =>
      answerQuery slot address length (streamsOutput s.assembly s.writer.queue.length) (popAssembly s)
    | _ => s)

/-- QUERY HOLDS (R131). -/
def execQueryHolds (s : State) : Host.Outcome State Fault Refusal :=
  .next (match s.holdsHead with
    | some ⟨slot, .query .holds _ address length⟩ =>
      answerQuery slot address length (holdsOutput s.holds s.anchor) (popHolds s)
    | _ => s)

/-- QUERY STATS (R183). -/
def execQueryStats (s : State) : Host.Outcome State Fault Refusal :=
  .next (match s.hostHead with
    | some ⟨slot, .query .stats clear address length⟩ => takeQueryStats slot clear address length (popHost s)
    | _ => s)

/-! ### Reclaim Unit -/

/-- WIPE (R109, R110). -/
def execWipe (s : State) : Host.Outcome State Fault Refusal :=
  .next (match s.reclaimHead with
    | some ⟨slot, .wipe⟩ => takeWipe slot (popReclaim s)
    | _ => s)

end Sys2Proof.Machine
end

