-- ==== Sys2Proof/Machine/HostSteps.lean ====
section
/-! DEFINITION. The Host Ring Unit's happenings (R173 to R181): SETUP_READ_END to DRAIN_END, and QUERY_WRITE_END. -/

namespace Sys2Proof.Machine

/-- SETUP_READ_END (R173). -/
def execSetupReadEnd (answer : Option (List Byte)) (s : State) : Host.Outcome State Fault Refusal :=
  .next (if s.host.readingSetup then setupReadEnded answer s else s)

/-- FETCH_BEGIN (R175). -/
def execFetchBegin (s : State) : Host.Outcome State Fault Refusal :=
  .next (match s.host.nextFetch with
    | some (i, ring, yielded) => s.onHost fun h => h.beginFetch i ring yielded
    | none => s)

/-- SUBMISSION_FETCH_END (R175, R176). -/
def execSubmissionFetchEnd (answer : Option (List Byte)) (s : State) : Host.Outcome State Fault Refusal :=
  .next (match s.host.fetch, s.host.setup with
    | some (i, ring), some c => if s.takesCommands then fetchEnded i ring c answer s else s
    | _, _ => s)

/-- POSTING_BEGIN (R177, R178). -/
def execPostingBegin (s : State) : Host.Outcome State Fault Refusal := .next (s.onHost HostUnit.beginPosting)

/-- COMPLETION_WRITE_END (R177). -/
def execCompletionWriteEnd (ok : Bool) (s : State) : Host.Outcome State Fault Refusal :=
  .next (match s.host.ringWrite with
    | some (.completion _) =>
      if s.live then entryWriteEnded HostUnit.completionWritten .completionWriteError ok s else s
    | _ => s)

/-- NOTICE_WRITE_END (R178). -/
def execNoticeWriteEnd (ok : Bool) (s : State) : Host.Outcome State Fault Refusal :=
  .next (match s.host.ringWrite with
    | some (.notice _) => if s.live then entryWriteEnded HostUnit.noticeWritten .noticeWriteError ok s else s
    | _ => s)

/-- STATUS_WRITE_BEGIN (R177). -/
def execStatusWriteBegin (s : State) : Host.Outcome State Fault Refusal :=
  .next (match s.host.setup with
    | some c =>
      if s.host.statusMark ∧ s.host.ringWrite = none ∧ s.host.device.writes then s.onHost fun h => h.beginStatus c
      else s
    | none => s)

/-- STATUS_WRITE_END (R177). -/
def execStatusWriteEnd (ok : Bool) (s : State) : Host.Outcome State Fault Refusal :=
  .next (match s.host.ringWrite with
    | some (.status _ completions notices stateChange) =>
      if s.live then statusEnded (statusCauses completions notices stateChange) ok s else s
    | _ => s)

/-- DRAIN_END (R180). -/
def execDrainEnd (s : State) : Host.Outcome State Fault Refusal :=
  .next (if s.host.device = .draining ∧ drained s then enterStopped s else s)

/-- QUERY_WRITE_END (R37, R56, R131, R183). -/
def execQueryWriteEnd (slot : SlotNo) (ok : Bool) (s : State) : Host.Outcome State Fault Refusal :=
  .next (match s.host.queryWrites.find? fun q => q.slot == slot with
    | some q => if s.live then queryWritten q ok s else s
    | none => s)

end Sys2Proof.Machine
end

