-- ==== Sys2Proof/Machine/ReadSteps.lean ====
section
/-! DEFINITION. The Read Unit's happenings (R133 to R144): READ_BEGIN to IMAGE_WRITE_END. -/

namespace Sys2Proof.Machine

/-- READ_BEGIN (R135). A READ begins in the happening in which it becomes the active read; the row alone begins one
that stands at the head of the FIFO with no read active (log entry 10). -/
def execReadBegin (s : State) : Host.Outcome State Fault Refusal :=
  .next (match s.reader.fifo with
    | ⟨_, .read ..⟩ :: _ => if s.live then nextRead s else s
    | _ => s)

/-- SCAN_BEGIN (R140), as READ_BEGIN for a SCAN (log entry 10). -/
def execScanBegin (s : State) : Host.Outcome State Fault Refusal :=
  .next (match s.reader.fifo with
    | ⟨_, .scan ..⟩ :: _ => if s.live then nextRead s else s
    | _ => s)

/-- READ_UNIT_LINES_READ (R134, R136, R137, R141 to R143). -/
def execReadUnitLinesRead (s : State) : Host.Outcome State Fault Refusal :=
  .next (match s.linesResult .reader, s.reader.pinned, s.reader.stage with
    | some l, some i, some stage => nextRead (linesRead i stage l (takeOutcome .reader s))
    | _, _, _ => s)

/-- IMAGE_WRITE_END (R138, R139, R142). -/
def execImageWriteEnd (ok : Bool) (s : State) : Host.Outcome State Fault Refusal :=
  .next (match s.reader.stage, s.reader.pinned, s.reader.write with
    | some (.image p h short), some i, some w =>
      if s.live then nextRead (imageWritten i p h short ok w.bytes.length s) else s
    | _, _, _ => s)

end Sys2Proof.Machine
end

