-- ==== Sys2Proof/Machine/Registers.lean ====
section
/-! DEFINITION. Writes in the register window and the reset pin (R182, R186 to R188): CTRL_ENABLE_SET to
REGISTER_WRITE. -/

namespace Sys2Proof.Machine

/-- CTRL_ENABLE_SET (R172). -/
def execCtrlEnableSet (s : State) : Host.Outcome State Fault Refusal :=
  let s := s.onHost fun h => { h with enable := true }
  .next (if s.host.device = .offline ∨ s.host.device = .stopped then enterSetup s else s)

/-- CTRL_ENABLE_CLEAR (R172). -/
def execCtrlEnableClear (s : State) : Host.Outcome State Fault Refusal :=
  let s := s.onHost fun h => { h with enable := false }
  .next (if s.host.device = .online then enterDraining s else s)

/-- SOFT_RESET (R182, R186). -/
def execSoftReset (left : Residue) (s : State) : Host.Outcome State Fault Refusal := .next (softReset left s)

/-- COLD_RESET (R182). -/
def execColdReset (left : Residue) (s : State) : Host.Outcome State Fault Refusal := .next (coldReset left s)

/-- RING_INDEX_SUBMISSION (R174). -/
def execRingIndexSubmission (ring : Fin 4) (position : BitVec 12) (s : State) : Host.Outcome State Fault Refusal :=
  .next (indexWrite (fun h c => h.writeSubmissionTail c ring position.toNat) s)

/-- RING_INDEX_COMPLETION (R174). -/
def execRingIndexCompletion (position : BitVec 12) (s : State) : Host.Outcome State Fault Refusal :=
  .next (indexWrite (fun h c => h.writeCompletionHead c position.toNat) s)

/-- RING_INDEX_NOTICE (R174). -/
def execRingIndexNotice (position : BitVec 12) (s : State) : Host.Outcome State Fault Refusal :=
  .next (indexWrite (fun h c => h.writeNoticeHead c position.toNat) s)

/-- RING_INDEX_BAD_SELECTOR (R188). -/
def execRingIndexBadSelector (_seven : Bool) (_position : BitVec 12) (s : State) : Host.Outcome State Fault Refusal :=
  .next (if s.host.device.takesIndex then s.onHost HostUnit.indexError else s)

/-- INT_CAUSE_WRITE (R187). -/
def execIntCauseWrite (value : Word) (s : State) : Host.Outcome State Fault Refusal :=
  .next (s.onHost fun h => h.writeCause value)

/-- INT_MASK_WRITE (R187). -/
def execIntMaskWrite (value : Word) (s : State) : Host.Outcome State Fault Refusal :=
  .next (s.onHost fun h => h.writeMask value)

/-- REGISTER_WRITE (R186). -/
def execRegisterWrite (register : PlainRegister) (value : Word) (s : State) : Host.Outcome State Fault Refusal :=
  .next (s.onHost fun h => h.writePlain register value)

end Sys2Proof.Machine
end

