-- ==== Sys2Proof/Machine/Dispatch.lean ====
section
/-! DEFINITION. The meaning of every command: one arm for each row of the opcode table. -/

namespace Sys2Proof.Machine

def exec (i : Instr) (s : State) : Host.Outcome State Fault Refusal :=
  match i with
  | .append => Sys2Proof.Machine.execAppend s
  | .openStream => Sys2Proof.Machine.execOpenStream s
  | .closeStream => Sys2Proof.Machine.execCloseStream s
  | .abortRecord => Sys2Proof.Machine.execAbortRecord s
  | .read => Sys2Proof.Machine.execRead s
  | .scan => Sys2Proof.Machine.execScan s
  | .hold => Sys2Proof.Machine.execHold s
  | .release => Sys2Proof.Machine.execRelease s
  | .querySectors => Sys2Proof.Machine.execQuerySectors s
  | .queryStreams => Sys2Proof.Machine.execQueryStreams s
  | .queryHolds => Sys2Proof.Machine.execQueryHolds s
  | .queryStats => Sys2Proof.Machine.execQueryStats s
  | .wipe => Sys2Proof.Machine.execWipe s
  | .ctrlEnableSet => Sys2Proof.Machine.execCtrlEnableSet s
  | .ctrlEnableClear => Sys2Proof.Machine.execCtrlEnableClear s
  | .softReset left => Sys2Proof.Machine.execSoftReset left s
  | .coldReset left => Sys2Proof.Machine.execColdReset left s
  | .ringIndexSubmission ring position => Sys2Proof.Machine.execRingIndexSubmission ring position s
  | .ringIndexCompletion position => Sys2Proof.Machine.execRingIndexCompletion position s
  | .ringIndexNotice position => Sys2Proof.Machine.execRingIndexNotice position s
  | .ringIndexBadSelector seven position => Sys2Proof.Machine.execRingIndexBadSelector seven position s
  | .intCauseWrite value => Sys2Proof.Machine.execIntCauseWrite value s
  | .intMaskWrite value => Sys2Proof.Machine.execIntMaskWrite value s
  | .registerWrite register value => Sys2Proof.Machine.execRegisterWrite register value s
  | .setupReadEnd answer => Sys2Proof.Machine.execSetupReadEnd answer s
  | .fetchBegin => Sys2Proof.Machine.execFetchBegin s
  | .submissionFetchEnd answer => Sys2Proof.Machine.execSubmissionFetchEnd answer s
  | .postingBegin => Sys2Proof.Machine.execPostingBegin s
  | .completionWriteEnd ok => Sys2Proof.Machine.execCompletionWriteEnd ok s
  | .noticeWriteEnd ok => Sys2Proof.Machine.execNoticeWriteEnd ok s
  | .statusWriteBegin => Sys2Proof.Machine.execStatusWriteBegin s
  | .statusWriteEnd ok => Sys2Proof.Machine.execStatusWriteEnd ok s
  | .drainEnd => Sys2Proof.Machine.execDrainEnd s
  | .tick => Sys2Proof.Machine.execTick s
  | .assemblyExpired context => Sys2Proof.Machine.execAssemblyExpired context s
  | .sequenceSkipped stream => Sys2Proof.Machine.execSequenceSkipped stream s
  | .transferEnd slot data => Sys2Proof.Machine.execTransferEnd slot data s
  | .transferFail slot => Sys2Proof.Machine.execTransferFail slot s
  | .queueHeadTaken => Sys2Proof.Machine.execQueueHeadTaken s
  | .spaceQuestionRetry => Sys2Proof.Machine.execSpaceQuestionRetry s
  | .sectorHeaderProgrammed => Sys2Proof.Machine.execSectorHeaderProgrammed s
  | .padProgrammed => Sys2Proof.Machine.execPadProgrammed s
  | .burstProgrammed => Sys2Proof.Machine.execBurstProgrammed s
  | .commitLineProgrammed => Sys2Proof.Machine.execCommitLineProgrammed s
  | .reclaimTest => Sys2Proof.Machine.execReclaimTest s
  | .eraseEnd => Sys2Proof.Machine.execEraseEnd s
  | .snapshotProgramEnd => Sys2Proof.Machine.execSnapshotProgramEnd s
  | .rolloverEraseEnd => Sys2Proof.Machine.execRolloverEraseEnd s
  | .readBegin => Sys2Proof.Machine.execReadBegin s
  | .scanBegin => Sys2Proof.Machine.execScanBegin s
  | .readUnitLinesRead => Sys2Proof.Machine.execReadUnitLinesRead s
  | .imageWriteEnd ok => Sys2Proof.Machine.execImageWriteEnd ok s
  | .queryWriteEnd slot ok => Sys2Proof.Machine.execQueryWriteEnd slot ok s
  | .arrayRequest who => Sys2Proof.Machine.execArrayRequest who s
  | .arrayOperationEnd elapsed report => Sys2Proof.Machine.execArrayOperationEnd elapsed report s
  | .eraseStopped elapsed => Sys2Proof.Machine.execEraseStopped elapsed s
  | .eraseResumed elapsed => Sys2Proof.Machine.execEraseResumed elapsed s
  | .arrayTimeout elapsed left => Sys2Proof.Machine.execArrayTimeout elapsed left s
  | .anchorSlotRead => Sys2Proof.Machine.execAnchorSlotRead s
  | .mountLineRead => Sys2Proof.Machine.execMountLineRead s
  | .blankCheckEnd => Sys2Proof.Machine.execBlankCheckEnd s

end Sys2Proof.Machine
end

