-- ==== Sys2Proof/Safety.lean ====
section
/-! DEFINITION. What a good state of the part is, in the terms the statements use. -/

namespace Sys2Proof.Safety

open Sys2Proof.Machine

/-- The array's contents and staging memory stand in their canonical forms. -/
def Canonical (s : State) : Prop := arrayWf s.array = true ∧ stagingWf s.staging = true

/-- A command that resets the whole part (R182). -/
def isReset : Instr → Bool
  | .softReset _ => true
  | .coldReset _ => true
  | _ => false

/-- The states of the device in which owners take the commands in slots: ONLINE and DRAINING. -/
def Takes (s : State) : Prop := s.host.device = .online ∨ s.host.device = .draining

/-- The states in which notices join the posting queue: a ring is in force or was (R178). -/
def Notices (s : State) : Prop := s.host.device ≠ .offline ∧ s.host.device ≠ .setup

/-- The Host Ring Unit as its read of the setup block starts (R173): every ring position, the fetch round and the lost
count are 0. -/
def setUp (address : Addr) (h : HostUnit) : HostUnit :=
  { h with
    setupStage := .reading address
    subHead := Vector.replicate 4 0, subTail := Vector.replicate 4 0
    completionTail := 0, completionHead := 0, noticeTail := 0, noticeHead := 0
    roundRing := 0, roundYield := 0, lostCount := 0 }

/-- A write that ends is not one that an entry to SETUP waits for (R173). -/
def NoneWaits (h : HostUnit) : Prop := ∀ address, h.setupStage = .waiting address → h.device ≠ .setup

/-- The Host Ring Unit with the outcome of a command at the tail of its posting queue (R177). -/
def answered (slot : SlotNo) (status : Status) (r : Results) (h : HostUnit) : HostUnit :=
  { h with posting := h.posting ++ [.outcome slot status r] }

/-- The Host Ring Unit with a notice at the tail of its posting queue (R178). -/
def noticed (n : Notice) (h : HostUnit) : HostUnit := { h with posting := h.posting ++ [.notice n] }

/-- The Host Ring Unit after a notice (R178): at the tail of the posting queue; in OFFLINE and SETUP it is dropped and
counted. -/
def notified (n : Notice) (h : HostUnit) : HostUnit :=
  if h.device = .offline ∨ h.device = .setup then
    { h with lostCount := min (h.lostCount + 1) 255, noticesLost := min (h.noticesLost + 1) 0xFFFFFFFF }
  else noticed n h

/-- The Host Ring Unit with the device gone to OFFLINE or HALTED for a reason: STATE_CHANGE is set at once (R172). -/
def stopped (d : DeviceState) (r : Reason) (index : Nat) (h : HostUnit) : HostUnit :=
  ({ h with device := d, reason := r, badIndex := index } : HostUnit).withCauses causeStateChange

/-- The number of positions of a table that satisfy a test. -/
def howMany (n : Nat) (p : Fin n → Prop) [DecidablePred p] : Nat := (List.finRange n).countP fun i => decide (p i)

/-- The row of the opcode table that stands for a command of the submission rings. -/
def row : Cmd → Instr
  | .append .. => .append
  | .openStream .. => .openStream
  | .closeStream .. => .closeStream
  | .abortRecord .. => .abortRecord
  | .read .. => .read
  | .scan .. => .scan
  | .hold .. => .hold
  | .release _ => .release
  | .query .sectors .. => .querySectors
  | .query .streams .. => .queryStreams
  | .query .holds .. => .queryHolds
  | .query .stats .. => .queryStats
  | .wipe => .wipe

/-- An owner's queue has this command at its head. -/
def HeadIs (queue : List Routed) (slot : SlotNo) (cmd : Cmd) (rest : List Routed) : Prop :=
  queue = ⟨slot, cmd⟩ :: rest

/-- The Array Controller with this request placed by its requester. -/
def asked (who : Requester) (op : ArrayOp) (c : ArrayCtrl) : ArrayCtrl :=
  { c with placed := c.placed.set who (some op) }

/-- The Array Controller with a requester's outcome taken by it. -/
def taken (who : Requester) (c : ArrayCtrl) : ArrayCtrl := { c with outcomes := c.outcomes.set who none }

/-! ### The tests of the setup block, field by field (R173) -/

/-- The area of host memory that a ring in use occupies. -/
def area (base : Addr) (size entry : Nat) : Nat × Nat := (base.toNat, base.toNat + size * entry)

/-- Two areas share no byte. -/
def Apart (a b : Nat × Nat) : Prop := a.2 ≤ b.1 ∨ b.2 ≤ a.1

/-- Submission ring `i` is in use: it has an area. -/
def InUse (c : Setup) (i : Fin 4) : Prop := c.rings[i].weight ≠ 0

/-- An area meets the area of no submission ring in use of number below `n`. -/
def ApartFromRings (c : Setup) (n : Nat) (a : Nat × Nat) : Prop :=
  ∀ j : Fin 4, j.val < n → InUse c j → Apart a (area c.rings[j].base c.rings[j].size 64)

/-- The three tests on submission ring `i`. -/
def ringPasses (c : Setup) (i : Fin 4) : Nat → Prop
  | 0 => c.rings[i].weight ≤ 8 ∧ (i = 3 → ∃ j, InUse c j)
  | 1 => InUse c i → c.rings[i].base.toNat % 64 = 0
  | _ => InUse c i → 8 ≤ c.rings[i].size ∧ c.rings[i].size ≤ 4096 ∧
      ApartFromRings c i.val (area c.rings[i].base c.rings[i].size 64)

/-- The field of an index passes. -/
def fieldPasses (c : Setup) : Nat → Prop
  | 0 => ringPasses c 0 0 | 1 => ringPasses c 0 1 | 2 => ringPasses c 0 2
  | 3 => ringPasses c 1 0 | 4 => ringPasses c 1 1 | 5 => ringPasses c 1 2
  | 6 => ringPasses c 2 0 | 7 => ringPasses c 2 1 | 8 => ringPasses c 2 2
  | 9 => ringPasses c 3 0 | 10 => ringPasses c 3 1 | 11 => ringPasses c 3 2
  | 12 => c.completionBase.toNat % 64 = 0
  | 13 => 16 ≤ c.completionSize ∧ c.completionSize ≤ 4096 ∧
      ApartFromRings c 4 (area c.completionBase c.completionSize 16)
  | 14 => c.noticeBase.toNat % 64 = 0
  | 15 => 16 ≤ c.noticeSize ∧ c.noticeSize ≤ 1024 ∧ ApartFromRings c 4 (area c.noticeBase c.noticeSize 16) ∧
      Apart (area c.noticeBase c.noticeSize 16) (area c.completionBase c.completionSize 16)
  | 16 => c.statusAddress.toNat % 64 = 0 ∧ ApartFromRings c 4 (area c.statusAddress 64 1) ∧
      Apart (area c.statusAddress 64 1) (area c.completionBase c.completionSize 16) ∧
      Apart (area c.statusAddress 64 1) (area c.noticeBase c.noticeSize 16)
  | 17 => 1 ≤ c.tickPeriod ∧ c.tickPeriod ≤ 1000
  | _ => 2 ≤ c.reserve ∧ c.reserve ≤ 16

/-! ### Sectors 0 and 1 (R4, R18) -/

/-- A sector is a journal sector. -/
def IsJournal (i : SectorNo) : Prop := 2 ≤ i.val

/-- The sector that the Mount Unit is scanning. -/
def scanned : ScanPosition → Option SectorNo
  | .none => none
  | .slot _ _ => none
  | .sectorHeader i => some i
  | .blankCheck i => some i
  | .walkHeader i _ _ => some i
  | .walkCommit i _ _ _ => some i

/-- A sector found with a valid header. -/
def isValid : Finding → Bool
  | .valid _ _ _ => true
  | .none => false
  | .retired => false
  | .blank => false
  | .dirty => false

/-- Sectors 0 and 1, and no others, are ANCHOR, and nothing that the blocks hold names them as a journal sector. -/
structure AnchorsApart (s : State) : Prop where
  anchors : ∀ i : SectorNo, s.table.entries[i].state = .anchor ↔ i.val < 2
  journal : ∀ i ∈ s.table.journal, IsJournal i
  inHand : ∀ i, s.writer.sectorInHand = some i → IsJournal i
  placement : ∀ pl, s.writer.placement = some pl → IsJournal pl.sector
  erase : ∀ i, s.reclaim.erase = some i → IsJournal i
  findings : ∀ i : SectorNo, isValid s.mount.findings[i] = true → IsJournal i
  scan : ∀ i, scanned s.mount.position = some i → IsJournal i

/-! ### The journal list (R18) -/

/-- No record is being written or assembled. -/
def NoRecords (s : State) : Prop := s.writer.state = .idle ∧ ∀ i : CtxNo, s.assembly.contexts[i] = none

/-- The expected JSN of a walk counts the committed records from the base JSN, which is 1 or above (R5, R163). -/
def Walk.counted (w : Walk) : Prop := 1 ≤ w.header.baseJsn ∧ w.expected = w.header.baseJsn + w.count

/-- The walk that the Mount Unit is on. -/
def walking : ScanPosition → Option Walk
  | .none => none
  | .slot _ _ => none
  | .sectorHeader _ => none
  | .blankCheck _ => none
  | .walkHeader _ _ w => some w
  | .walkCommit _ _ _ w => some w

/-- The journal list holds exactly the OPEN and CLOSED sectors, the OPEN one last, with rising epochs and rising
ranges; and what the blocks hold keeps it so. -/
structure JournalHeld (s : State) : Prop where
  nodup : s.table.journal.Nodup
  members : ∀ i : SectorNo, i ∈ s.table.journal ↔
    (s.table.entries[i].state = .opened ∨ s.table.entries[i].state = .closed)
  openLast : ∀ i : SectorNo, s.table.entries[i].state = .opened → s.table.journal.getLast? = some i
  epochs : ∀ i ∈ s.table.journal, ∃ e, s.table.entries[i].epoch = some e ∧ e < s.writer.nextEpoch.getD 0
  rising : s.table.journal.Pairwise fun i j => ∀ a b, s.table.entries[i].epoch = some a →
    s.table.entries[j].epoch = some b → a < b
  ranges : ∀ i ∈ s.table.journal, ∀ a b, s.table.entries[i].range = some (a, b) → a ≤ b ∧ b < s.writer.nextJsn.getD 0
  apart : s.table.journal.Pairwise fun i j => ∀ a b c d, s.table.entries[i].range = some (a, b) →
    s.table.entries[j].range = some (c, d) → b < c
  opening : s.writer.state = .opening → s.writer.nextEpoch ≠ none
  hand : ∀ i, s.writer.sectorInHand = some i → s.writer.state = .opening ∧ s.table.entries[i].state = .free
  header : ∀ e, s.writer.headerEpoch = some e → s.writer.state = .opening ∧ e < s.writer.nextEpoch.getD 0 ∧
    ∀ i ∈ s.table.journal, ∀ a, s.table.entries[i].epoch = some a → a < e
  placed : ∀ pl, s.writer.placement = some pl → (s.writer.state = .writing ∨ s.writer.state = .committing) ∧
    s.table.entries[pl.sector].state = .opened
  erasing : ∀ i, s.reclaim.erase = some i → s.table.entries[i].state = .erasing
  wiping : s.reclaim.state = .wiping → s.reclaim.wipeActive = true
  wipe : s.reclaim.wipeActive = true → s.table.journal = [] ∧ NoRecords s ∧
    ∀ st : StreamNo, s.assembly.streams[st].state = .closed
  unmounted : s.mount.mounted = false → s.host.device ≠ .online ∧ s.host.device ≠ .draining ∧ NoRecords s ∧
    s.reclaim.erase = none ∧ s.reclaim.wipeActive = false
  mounting : s.host.device = .mounting → s.mount.mounted = false
  findings : ∀ (i : SectorNo) w e p, s.mount.findings[i] = .valid w e p → Walk.counted w
  scan : ∀ w, walking s.mount.position = some w → Walk.counted w

/-! ### Coverage lists (R63) -/

/-- The coverage list of a context: in order, disjoint and not adjacent, of at most 8 intervals, below 8,192 and the
total; its transfers lie within it and apart. -/
structure Covered (c : Context) : Prop where
  sorted : c.coverage.Pairwise fun a b => a.2 < b.1
  within : ∀ iv ∈ c.coverage, iv.1 < iv.2 ∧ iv.2 ≤ 8192 ∧ ∀ total, c.total = some total → iv.2 ≤ total
  few : c.coverage.length ≤ 8
  pieces : c.pieces ≤ 8
  transfers : ∀ t ∈ c.transfers, 1 ≤ t.length ∧ ∃ iv ∈ c.coverage, iv.1 ≤ t.offset ∧ t.offset + t.length ≤ iv.2
  apart : c.transfers.Pairwise fun a b => a.offset + a.length ≤ b.offset ∨ b.offset + b.length ≤ a.offset

/-- The coverage of every context, and the lengths of the APPENDs that wait to add to it (R64). -/
structure CoverageHeld (s : State) : Prop where
  contexts : ∀ (i : CtxNo) (c : Context), s.assembly.contexts[i] = some c → Covered c
  waiting : ∀ r : Routed, r ∈ s.assembly.queue ∨ s.assembly.held = some r → ∀ st seq offset length last tag address,
    r.cmd = .append st seq offset length last tag address → 1 ≤ length

/-! ### Staging blocks (R62) -/

/-- How often a block stands in the block maps of the contexts. -/
def mappedCount (a : Assembly) (b : BlockNo) : Nat :=
  (a.contexts.toList.map fun e => match e with | some c => (mappedBlocks c.blockMap).count b | none => 0).sum

/-- Every staging block is on the free block list or in the block map of one context, once. -/
def BlocksApart (s : State) : Prop :=
  ∀ b : BlockNo, s.assembly.freeBlocks.count b + mappedCount s.assembly b = 1

/-- The twelve statistics counters stand at FFFFFFFFH at most. -/
def CountersHeld (s : State) : Prop := ∀ n ∈ s.counters, n ≤ 0xFFFFFFFF

/-! ### Contexts and slots -/

/-- Context `i`, and no other, holds this sequence of the stream. -/
def Sole (a : Assembly) (st : StreamNo) (seq : Seq) (i : CtxNo) (c : Context) : Prop :=
  a.contexts[i] = some c ∧ c.stream = st ∧ c.seq = seq ∧
    ∀ (j : CtxNo) (x : Context), a.contexts[j] = some x → x.stream = st → x.seq = seq → j = i

/-- Context `i` holds this sequence of the stream in a given state, and no lower-numbered context does. -/
def First (a : Assembly) (st : StreamNo) (seq : Seq) (state : CtxState) (i : CtxNo) (c : Context) : Prop :=
  a.contexts[i] = some c ∧ c.stream = st ∧ c.seq = seq ∧ c.state = state ∧
    ∀ (j : CtxNo) (x : Context), j < i → a.contexts[j] = some x → x.stream = st → x.seq = seq → x.state ≠ state

/-- No context in the stream's window holds this sequence. -/
def Unmet (a : Assembly) (st : StreamNo) (seq : Seq) : Prop :=
  ∀ (j : CtxNo) (x : Context), a.contexts[j] = some x → x.stream = st → x.seq = seq →
    x.state.inWindow = false ∧ x.transfers.length < 4

/-- No COMPLETE context of the stream holds this sequence. -/
def NotComplete (a : Assembly) (st : StreamNo) (seq : Seq) : Prop :=
  ∀ (j : CtxNo) (x : Context), a.contexts[j] = some x → x.stream = st → x.seq = seq → x.state ≠ .complete

/-- Some context of the stream is not FREE. -/
def Busy (a : Assembly) (st : StreamNo) : Prop := ∃ (i : CtxNo) (c : Context), a.contexts[i] = some c ∧ c.stream = st

/-- The transfer of a slot: it is in flight in context `i` and nowhere else. -/
def InFlight (a : Assembly) (i : CtxNo) (c : Context) (t : Transfer) : Prop :=
  a.contexts[i] = some c ∧ t ∈ c.transfers ∧ (∀ u ∈ c.transfers, u.slot = t.slot → u = t) ∧
    ∀ (j : CtxNo) (x : Context), a.contexts[j] = some x → (∃ u ∈ x.transfers, u.slot = t.slot) → j = i

/-- Transfers but the one of a slot. -/
def without (slot : SlotNo) (l : List Transfer) : List Transfer := l.filter fun t => t.slot != slot

/-- A context of the stream stands at window position `k`, not yet admitted. -/
def HoldsAt (a : Assembly) (st : StreamNo) (k : Nat) : Prop :=
  ∃ (i : CtxNo) (c : Context), a.contexts[i] = some c ∧ c.stream = st ∧
    c.seq = a.streams[st].nextAdmission + BitVec.ofNat 16 k ∧ c.state.inWindow = true

/-- A COMPLETE context of the stream stands at window position `k`. -/
def CompleteAt (a : Assembly) (st : StreamNo) (k : Nat) (i : CtxNo) (c : Context) : Prop :=
  a.contexts[i] = some c ∧ c.stream = st ∧ c.seq = a.streams[st].nextAdmission + BitVec.ofNat 16 k ∧ c.state = .complete

/-- What is handed over when a context is discarded: its deferred fragment completes ABORTED (R61). -/
def discarded (c : Context) : List Posting :=
  match c.deferred with
  | some d => [.outcome d .aborted {}]
  | none => []

/-! ### Admission (R47, R48) -/

/-- One advance of admission: the COMPLETE context at position 0 is queued, or an abandoned position 0 passed over. -/
def Advances (st : StreamNo) (s t : State) : Prop :=
  let e := s.assembly.streams[st]
  let next := { e with nextAdmission := e.nextAdmission + 1#16, abandoned := e.abandoned >>> 1, stallAge := 0 }
  e.state = .opened ∧
  ((∃ i c, CompleteAt s.assembly st 0 i c ∧ (∀ (j : CtxNo) x, j < i → ¬CompleteAt s.assembly st 0 j x) ∧
      t = { s with
        writer := { s.writer with queue := s.writer.queue ++ [i] }
        assembly := { s.assembly with
          contexts := s.assembly.contexts.set i (some { c with state := .queued })
          streams := s.assembly.streams.set st next } }) ∨
    ((∀ (j : CtxNo) x, ¬CompleteAt s.assembly st 0 j x) ∧ e.abandoned.getLsbD 0 = true ∧
      t = { s with assembly := { s.assembly with
        streams := s.assembly.streams.set st { next with gapPending := true } } }))

/-- Admission has nothing to do for the stream. -/
def Rests (st : StreamNo) (s : State) : Prop :=
  s.assembly.streams[st].state = .opened →
    s.assembly.streams[st].abandoned.getLsbD 0 = false ∧ ∀ (j : CtxNo) x, ¬CompleteAt s.assembly st 0 j x

/-- A run of admission of at most `n` advances. -/
def Run (st : StreamNo) : Nat → State → State → Prop
  | 0, s, t => t = s
  | n + 1, s, t => (Rests st s ∧ t = s) ∨ ∃ m, Advances st s m ∧ Run st n m t

/-- Admission for the streams of a list in turn, at most eight advances for each. -/
def RunAll : List StreamNo → State → State → Prop
  | [], s, t => t = s
  | st :: rest, s, t => ∃ m, Run st 8 s m ∧ RunAll rest m t

/-! ### Ticks and the start of DRAINING (R51, R53, R77, R78, R80) -/

/-- A context that ages: GATHERING, no transfer in flight, in an OPEN stream with an age limit. -/
def Ages (a : Assembly) (c : Context) : Prop :=
  c.state = .gathering ∧ c.transfers = [] ∧ a.streams[c.stream].state = .opened ∧ 0 < a.streams[c.stream].ageLimit

/-- The stream is stalled: position 0 empty and not abandoned, and a context at one of the positions 1 to 7. -/
def Stalled (a : Assembly) (st : StreamNo) : Prop :=
  ¬HoldsAt a st 0 ∧ a.streams[st].abandoned.getLsbD 0 = false ∧ ∃ k, 1 ≤ k ∧ k ≤ 7 ∧ HoldsAt a st k

/-- The contexts of a list are discarded, with the postings given for each; of the OPEN streams, the positions of the
discarded contexts are abandoned. -/
structure Discards (gone : CtxNo → Context → Prop) (posts : CtxNo → Option Context → List Posting)
    (kept : Context → Context) (s t : State) : Prop where
  contexts : ∀ i : CtxNo, (∀ c, s.assembly.contexts[i] = some c →
      (gone i c → t.assembly.contexts[i] = none) ∧ (¬gone i c → t.assembly.contexts[i] = some (kept c))) ∧
    (s.assembly.contexts[i] = none → t.assembly.contexts[i] = none)
  posting : t.host.posting = s.host.posting ++
    (List.finRange 32).flatMap fun i : CtxNo => posts i s.assembly.contexts[i]
  streams : ∀ st : StreamNo, t.assembly.streams[st] =
    { s.assembly.streams[st] with abandoned := t.assembly.streams[st].abandoned }
  abandoned : ∀ (st : StreamNo) (k : Nat), k < 8 → (t.assembly.streams[st].abandoned.getLsbD k = true ↔
    s.assembly.streams[st].abandoned.getLsbD k = true ∨ (s.assembly.streams[st].state = .opened ∧
      ∃ (i : CtxNo) (c : Context), s.assembly.contexts[i] = some c ∧ gone i c ∧ c.stream = st ∧
        (c.seq - s.assembly.streams[st].nextAdmission).toNat = k))
  frame : t = { s with
    host := { s.host with posting := t.host.posting }
    assembly := { s.assembly with
      contexts := t.assembly.contexts, streams := t.assembly.streams, freeBlocks := t.assembly.freeBlocks } }

/-- Context ageing at a tick (R78): a context that reaches its stream's age limit is discarded with its notice. -/
def Aged (s t : State) : Prop :=
  let a := s.assembly
  let expires (c : Context) := Ages a c ∧ c.age + 1 = a.streams[c.stream].ageLimit
  open Classical in
  Discards (fun _ c => expires c)
    (fun _ o => match o with
      | some c => if expires c then discarded c ++ [.notice (.assemblyExpired c.stream c.seq)] else []
      | none => [])
    (fun c => if Ages a c then { c with age := c.age + 1 } else c) s t

/-- Stall ageing at a tick (R51): streams 0 to 15 in turn; position 0 of one that reaches its age limit is skipped
with its notice. -/
def StallsAged (s t : State) : Prop :=
  let a := s.assembly
  let ages (st : StreamNo) := a.streams[st].state = .opened ∧ 0 < a.streams[st].ageLimit
  let skips (st : StreamNo) := ages st ∧ Stalled a st ∧ a.streams[st].stallAge + 1 = a.streams[st].ageLimit
  (∀ st : StreamNo, let e := a.streams[st]
    (¬ages st → t.assembly.streams[st] = e) ∧
    (ages st → ¬Stalled a st → t.assembly.streams[st] = { e with stallAge := 0 }) ∧
    (ages st → Stalled a st → ¬skips st → t.assembly.streams[st] = { e with stallAge := e.stallAge + 1 }) ∧
    (skips st → t.assembly.streams[st] =
      { e with stallAge := e.stallAge + 1, abandoned := e.abandoned ||| 1#8 })) ∧
  (open Classical in t.host.posting = s.host.posting ++ (List.finRange 16).flatMap fun st : StreamNo =>
    if skips st then [.notice (.sequenceSkipped st a.streams[st].nextAdmission)] else []) ∧
  t = { s with
    host := { s.host with posting := t.host.posting }, assembly := { s.assembly with streams := t.assembly.streams } }

/-- The contexts at the start of DRAINING (R80): a GATHERING one with transfers becomes ABORTING, any other GATHERING
one is discarded; each, and each ABORTING one, has its notice. -/
def ContextsDrained (s t : State) : Prop :=
  Discards (fun _ c => c.state = .gathering ∧ c.transfers = [])
    (fun _ o => match o with
      | some c =>
        if c.state = .gathering then
          .notice (.assemblyDrained c.stream c.seq) :: (if c.transfers = [] then discarded c else [])
        else if c.state = .aborting then [.notice (.assemblyDrained c.stream c.seq)] else []
      | none => [])
    (fun c => if c.state = .gathering then { c with state := .aborting } else c) s t

/-- The skips at the start of DRAINING (R53): of each OPEN stream, the positions below the highest COMPLETE one that
hold no context and are not abandoned, with their notices, streams 0 to 15 and their positions in turn. -/
def DrainSkipped (s t : State) : Prop :=
  let a := s.assembly
  let skips (st : StreamNo) (k : Nat) : Prop := a.streams[st].state = .opened ∧ ¬HoldsAt a st k ∧
    a.streams[st].abandoned.getLsbD k = false ∧ ∃ h i c, k < h ∧ h ≤ 7 ∧ CompleteAt a st h i c
  (∀ st : StreamNo, t.assembly.streams[st] =
    { a.streams[st] with abandoned := t.assembly.streams[st].abandoned }) ∧
  (∀ (st : StreamNo) (k : Nat), k < 8 → (t.assembly.streams[st].abandoned.getLsbD k = true ↔
    a.streams[st].abandoned.getLsbD k = true ∨ skips st k)) ∧
  (open Classical in t.host.posting = s.host.posting ++ (List.finRange 16).flatMap fun st : StreamNo =>
    (List.range 8).flatMap fun k => if skips st k then
      [.notice (.sequenceSkipped st (a.streams[st].nextAdmission + BitVec.ofNat 16 k))] else []) ∧
  t = { s with
    host := { s.host with posting := t.host.posting }, assembly := { s.assembly with streams := t.assembly.streams } }

/-! ### Ends of streams and held APPENDs (R43, R44, R64) -/

/-- The stream is CLOSED, and its pending close completes OK (R44). -/
def closedStream (st : StreamNo) (s : State) : State :=
  let e := s.assembly.streams[st]
  { s with
    host := match e.pendingClose with
      | some slot => answered slot .ok {} s.host
      | none => s.host
    assembly := { s.assembly with streams := s.assembly.streams.set st { e with
      state := .closed, recovered := some e.nextAdmission, abandoned := 0#8, stallAge := 0, gapPending := false
      pendingClose := none } } }

/-- A CLOSING stream with no context left closes; any other stays as it is. -/
def Closes (st : StreamNo) (s t : State) : Prop :=
  (s.assembly.streams[st].state = .closing → ¬Busy s.assembly st → t = closedStream st s) ∧
  (s.assembly.streams[st].state ≠ .closing ∨ Busy s.assembly st → t = s)

/-- A held APPEND is taken when it can be (R64): what follows is what APPEND would do with it, alone in the queue. -/
def HeldTaken (m : State) (o : Host.Outcome State Fault Refusal) : Prop :=
  (m.assembly.held = none → o = .next m) ∧
  (∀ r, m.assembly.held = some r → row r.cmd = .append → Takes m → ∃ t,
    exec .append { m with assembly := { m.assembly with held := none, queue := [r] } } = .next t ∧
    o = .next { t with assembly := { t.assembly with queue := m.assembly.queue } })

/-! ### Signals and array work -/

/-- The Reclaim Unit after a signal (R101). -/
def signalled (r : Reclaim) : Reclaim := { r with signal := if r.state = .idle then true else r.signal }

/-- An outcome of the array waits for a requester that can take it (R148, R181). -/
def Answers (s : State) (who : Requester) (o : ArrayOutcome) : Prop :=
  s.host.device ≠ .halted ∧ s.ctrl.outcomes.get who = some o

/-! ### Sectors -/

/-- Sector `o`, and no other, is OPEN. -/
def IsOpen (t : SectorTable) (o : SectorNo) : Prop := ∀ k : SectorNo, t.entries[k].state = .opened ↔ k = o

/-- No sector is OPEN. -/
def NoneOpen (t : SectorTable) : Prop := ∀ k : SectorNo, t.entries[k].state ≠ .opened

/-- The FREE sector of lowest wear, the lowest number among equals (R22). -/
def LowestWear (t : SectorTable) (i : SectorNo) : Prop :=
  t.entries[i].state = .free ∧ ∀ k : SectorNo, t.entries[k].state = .free → k ≠ i →
    t.entries[i].wear < t.entries[k].wear ∨ (t.entries[i].wear = t.entries[k].wear ∧ i < k)

/-- No sector is FREE. -/
def NoneFree (t : SectorTable) : Prop := ∀ k : SectorNo, t.entries[k].state ≠ .free

/-- A range meets the range of a hold (R30). -/
def Held (t : HoldTable) (first last : Nat) : Prop :=
  ∃ (id : Fin 16) (h : Hold), t.entries[id] = some h ∧ h.first ≤ last ∧ ∀ l, h.last = some l → first ≤ l

/-- Erasable space is coming when no sector is FREE (R24): one is ERASING or DIRTY, or CLOSED and not held. -/
def SpaceComes (s : State) : Prop :=
  ∃ k : SectorNo, s.table.entries[k].state = .erasing ∨ s.table.entries[k].state = .dirty ∨
    (s.table.entries[k].state = .closed ∧
      ∀ first last, s.table.entries[k].range = some (first, last) → ¬Held s.holds first last)

/-- The first marking for retirement gives the reason (R36). -/
def marked (r : RetireReason) (e : SectorEntry) : SectorEntry :=
  { e with retirePending := true, reason := if e.retirePending then e.reason else r }

/-- The OPEN sector is closed (R25); with `fault` it is marked for retirement. -/
def closedSector (o : SectorNo) (fault : Bool) (s : State) : State :=
  let e := { s.table.entries[o] with state := .closed, nextFree := none }
  { s with
    table := { s.table with entries := s.table.entries.set o (if fault then marked .programFail e else e) }
    reclaim := signalled s.reclaim }

/-- Sector `k` becomes the OPEN one, at the tail of the journal list, with its header at `epoch` and `base` (R22). -/
def openedSector (k : SectorNo) (epoch base : Nat) (s : State) : State :=
  { s with
    table := { s.table with
      entries := s.table.entries.set k { s.table.entries[k] with
        state := .opened, inHand := false, epoch := some epoch, baseJsn := some base, range := none, nextFree := some 1 }
      journal := s.table.journal ++ [k] }
    reclaim := signalled s.reclaim
    writer := { s.writer with sectorInHand := none, headerEpoch := none } }

/-! ### The writer's record (R93 to R97) -/

/-- A record is placed at line `p` of a sector with JSN `n`: its header is fixed, and its first burst asked for. -/
def placedRecord (i : CtxNo) (c : Context) (n : Nat) (sector : SectorNo) (p : Nat) (s : State) : State :=
  let e := s.assembly.streams[c.stream]
  let gap := if c.attempts = 0 then e.gapPending else s.writer.gapMark
  let total := c.total.getD 0
  let F := 2 + (total + 31) / 32
  let payload := stagedBytes c.blockMap s.staging total
  let header := recordHeaderLine ⟨gap, c.stream, c.seq, n, total, c.tag.getD 0#32, s.assembly.tickCounter⟩
  { s with
    assembly := { s.assembly with
      contexts := s.assembly.contexts.set i (some { c with attempts := c.attempts + 1 })
      streams := s.assembly.streams.set c.stream { e with gapPending := if c.attempts = 0 then false else e.gapPending } }
    writer := { s.writer with
      state := .writing, gapMark := gap, placement := some ⟨sector, p, F, p⟩, payloadCrc := crc32 payload
      spaceSignal := false }
    ctrl := asked .writer
      (.programLines sector p (header :: (List.range (min 8 (F - 1) - 1)).map (payloadLine payload))) s.ctrl }

/-- The record of a context fails (R73, R97): its deferred command completes, its context is FREE, and the writer is
IDLE. A CLOSING stream may close with it. -/
def Failed (i : CtxNo) (c : Context) (status : Status) (s : State) : State → Prop :=
  Closes c.stream { s with
    host := match c.deferred with
      | some d => answered d status {} s.host
      | none => s.host
    assembly := { s.assembly with
      contexts := s.assembly.contexts.set i none
      freeBlocks := s.assembly.freeBlocks ++ mappedBlocks c.blockMap
      streams := s.assembly.streams.set c.stream { s.assembly.streams[c.stream] with gapPending := true } }
    writer := { s.writer with
      state := .idle, record := none, placement := none, sectorInHand := none, gapMark := false, headerEpoch := none
      spaceSignal := false, recordsFailed := min (s.writer.recordsFailed + 1) 0xFFFFFFFF } }

/-- A record in hand with what the writer needs: its context, its JSN, the next epoch. -/
structure InHand (s : State) (i : CtxNo) (c : Context) (n epoch : Nat) : Prop where
  record : s.writer.record = some i
  context : s.assembly.contexts[i] = some c
  jsn : s.writer.nextJsn = some n
  epoch : s.writer.nextEpoch = some epoch

/-- What follows when the record in hand finds no room (R86 to R90): a FREE sector is taken in hand and its header
line asked for, or the writer waits for space, or the record fails JOURNAL_EXHAUSTED or JOURNAL_FULL. -/
def SectorAsked (i : CtxNo) (c : Context) (n epoch : Nat) (s t : State) : Prop :=
  (epoch = 0xFFFFFFFF → Failed i c .journalExhausted s t) ∧
  (epoch ≠ 0xFFFFFFFF →
    (∀ k : SectorNo, LowestWear s.table k →
      let e := s.table.entries[k]
      t = { s with
        table := { s.table with entries := s.table.entries.set k { e with inHand := true } }
        writer := { s.writer with
          state := .opening, sectorInHand := some k, headerEpoch := none, placement := none, spaceSignal := false }
        ctrl := asked .writer (.programLines k 0 [sectorHeaderLine ⟨epoch, n, e.wear, e.wearEstimated⟩]) s.ctrl }) ∧
    (NoneFree s.table →
      let waits := SpaceComes s ∧
        (s.host.device = .draining → ∃ k : SectorNo, s.table.entries[k].state = .erasing)
      (waits → t = { s with writer := { s.writer with
        state := .waitingSpace, placement := none, sectorInHand := none, headerEpoch := none, spaceSignal := false } }) ∧
      (¬waits → Notices s → ∃ f, Failed i c .journalFull s f ∧
        t = { f with
          host := if s.writer.full then f.host else noticed .journalFull f.host
          writer := { f.writer with full := true } })))

/-- What follows when a line of the record in hand fails to program (R96): its sector is closed and marked, and the
record is placed again, or fails WRITE_FAILED at its third placement. -/
def Relocated (i : CtxNo) (c : Context) (n epoch : Nat) (pl : Placement) (s t : State) : Prop :=
  let closed := closedSector pl.sector true s
  let s' := { closed with writer := { s.writer with placement := none } }
  (c.attempts < 3 → SectorAsked i c n epoch s' t) ∧ (3 ≤ c.attempts → Failed i c .writeFailed s' t)

/-! ### Reading -/

/-- A pin is released; the last one on a CLOSED sector signals the Reclaim Unit (R29). -/
def unpinned (i : SectorNo) (s : State) : State :=
  let e := s.table.entries[i]
  { s with
    table := { s.table with entries := s.table.entries.set i { e with pins := e.pins - 1 } }
    reclaim := if e.pins - 1 = 0 ∧ e.state = .closed then signalled s.reclaim else s.reclaim }

/-- The active read has ended with an outcome (R139, R144, R146). -/
def endedRead (slot : SlotNo) (status : Status) (r : Results) (s : State) : State :=
  { s with
    host := answered slot status r s.host
    reader := { s.reader with
      active := none, pinned := none, scan := none, stage := none, write := none
      completed := min (s.reader.completed + 1) 0xFFFFFFFF } }

/-- Sector `i` after a report of `n` corrected lines (R35): its count rises to 16 at most, and with the sixteenth it is
weak and marked, with a notice. -/
def reported (i : SectorNo) (n : Nat) (s : State) : State :=
  let e := s.table.entries[i]
  let count := min (e.corrected + n) 16
  let put (x : SectorEntry) : State := { s with table := { s.table with entries := s.table.entries.set i x } }
  if n = 0 ∨ (e.state ≠ .opened ∧ e.state ≠ .closed) then s
  else if count = 16 ∧ e.weak = false then
    { put (marked .weak { e with corrected := 16, weak := true }) with host := notified (.weakSector i) s.host }
  else put { e with corrected := count }

/-- The Read Unit leaves sector `i`: the tally is reported and the pin released (R134, R29). -/
def sectorLeft (i : SectorNo) (s : State) : State :=
  unpinned i { reported i s.reader.tally s with reader := { s.reader with tally := 0 } }

/-- Sector `k` is pinned (R27). -/
def pinned (k : SectorNo) (s : State) : State :=
  let e := s.table.entries[k]
  { s with table := { s.table with entries := s.table.entries.set k { e with pins := e.pins + 1 } } }

/-- With no read active the head of the read FIFO becomes the active read in the same happening (R133, R139, R144):
what follows `u` is what READ_BEGIN or SCAN_BEGIN would do with that head. -/
def Continues (u : State) (o : Host.Outcome State Fault Refusal) : Prop :=
  ∃ t, o = .next t ∧ (u.reader.active ≠ none ∨ u.reader.fifo = [] → t = u) ∧
    (u.reader.active = none → ∀ r rest, u.reader.fifo = r :: rest →
      (row r.cmd = .read → exec .readBegin u = .next t) ∧ (row r.cmd = .scan → exec .scanBegin u = .next t))

/-- The results with which the active read ends (R139, R144): a SCAN's count, bytes placed, next JSN and
EXPIRED_SKIPPED; a READ's are empty. -/
def resultsAt (u : State) (next : Nat) : Results :=
  match u.reader.scan with
  | some g => ⟨BitVec.ofNat 32 next, BitVec.ofNat 32 g.placed, BitVec.ofNat 16 g.count, g.expiredSkipped⟩
  | none => {}

/-- The active read ends while sector `i` is pinned (R134, R139, R144), and the FIFO goes on. -/
def EndsAt (slot : SlotNo) (i : SectorNo) (status : Status) (next : Nat) (u : State)
    (o : Host.Outcome State Fault Refusal) : Prop :=
  Continues (endedRead slot status (resultsAt u next) (sectorLeft i u)) o

/-- The header line at `p` of sector `i` is asked for (R134). -/
def headerAsked (i : SectorNo) (p : Nat) (u : State) : State :=
  { u with
    reader := { u.reader with stage := some (.header p) }, ctrl := asked .reader (.readLines i p 1) u.ctrl }

/-- The walk goes on at line `p`: a SCAN that has reached the next JSN `n` ends there (R141). -/
def WalkGoesOn (slot : SlotNo) (i : SectorNo) (p n : Nat) (u : State) (o : Host.Outcome State Fault Refusal) : Prop :=
  (u.reader.scan = none ∨ u.reader.expected < n → o = .next (headerAsked i p u)) ∧
  (u.reader.scan ≠ none → n ≤ u.reader.expected → EndsAt slot i .ok u.reader.expected u o)

/-- The walk of the pinned sector ends (R136, R143): a READ, and a SCAN short of the sector's last JSN, end with the
status of the decay; else a SCAN goes on in the next member with records, or ends OK. -/
def WalkEnds (slot : SlotNo) (i : SectorNo) (status : Status) (n : Nat) (u : State)
    (o : Host.Outcome State Fault Refusal) : Prop :=
  let at_ := u.reader.expected
  let range (k : SectorNo) := u.table.entries[k].range
  let normal := u.reader.scan ≠ none ∧ ∀ first last, range i = some (first, last) → last < at_
  (¬normal → EndsAt slot i status at_ u o) ∧
  (normal → ∀ before after, u.table.journal = before ++ i :: after → i ∉ before →
    ((∀ k ∈ after, range k = none) → EndsAt slot i .ok at_ u o) ∧
    (∀ mid k rest, after = mid ++ k :: rest → k ≠ i → range k ≠ none → (∀ j ∈ mid, range j = none) →
      let left := sectorLeft i (pinned k u)
      WalkGoesOn slot k 1 n { left with reader := { left.reader with
        pinned := some k, expected := left.table.entries[k].baseJsn.getD 0, tally := 0 } } o))

/-- The walk moves on past a committed record at `p` (R13). -/
def MovesOn (slot : SlotNo) (i : SectorNo) (p : Nat) (h : RecordHeader) (n : Nat) (u : State)
    (o : Host.Outcome State Fault Refusal) : Prop :=
  let next := p + (2 + (h.length + 31) / 32)
  let v := { u with reader := { u.reader with expected := u.reader.expected + 1 } }
  (next = 2048 → WalkEnds slot i .corrupt n v o) ∧ (next ≠ 2048 → WalkGoesOn slot i next n v o)

/-- The record that a SCAN stands at is wanted (R141): from the start JSN on, and of the stream of the filter. -/
def Wanted (filter : Option StreamNo) (g : ScanProgress) (h : RecordHeader) : Prop :=
  g.startJsn ≤ h.jsn ∧ ∀ st, filter = some st → h.stream = st

/-! ### Changes and snapshots (R122 to R128) -/

/-- What a snapshot captures (R116, R123): the FIXING and FIXED holds. -/
def Captured (t : HoldTable) (v : Vector (Option HoldLine) 16) : Prop :=
  ∀ k : Fin 16, v[k] = match t.entries[k] with
    | some x => if x.state = .fixing ∨ x.state = .fixed then some ⟨x.first, x.last, x.owner⟩ else none
    | none => none

/-- A snapshot starts (R123, R124, R126), with the generation above the last: its first request in the next slot, or,
with no slot left, the erase of the other anchor sector. -/
def SnapshotStarts (u t : State) : Prop :=
  let a := u.anchor
  let generation := a.generation + 1
  ∃ v, Captured u.holds v ∧
    (a.nextSlot ≠ 64 → t = { u with
      anchor := { a with
        state := .writing, nextSlot := a.nextSlot + 1
        snapshot := some ⟨v, a.retired, generation, 0, false, a.nextSlot, 0⟩ }
      ctrl := asked .anchor (.programLines (anchorSector a.active) (32 * a.nextSlot)
        ((snapshotLines generation v a.retired).take 8)) u.ctrl }) ∧
    (a.nextSlot = 64 → t = { u with
      anchor := { a with state := .rollingOver, snapshot := some ⟨v, a.retired, generation, 0, true, 0, 0⟩ }
      ctrl := asked .anchor (.eraseSector (anchorSector (otherAnchor a.active))) u.ctrl })

/-- The WIPE completes (R112). -/
def wipeCompleted (status : Status) (u : State) : State :=
  match u.reclaim.wipeSlot with
  | some slot => { u with
      host := answered slot status {} u.host
      reclaim := { u.reclaim with state := .idle, wipeActive := false, wipeSlot := none, signal := true } }
  | none => u

/-- The Anchor Unit takes a change (R122, R128): a retirement joins the retired set; with the anchor failed a wipe
completes ANCHOR_FAILED; an idle anchor starts a snapshot that covers the change, a busy one lets it wait. -/
def ChangeTaken (c : Change) (u t : State) : Prop :=
  let added : BitVec 256 := match c with | .retire i => 1#256 <<< i.val | .hold _ => 0#256 | .wipe => 0#256
  let v := { u with anchor := { u.anchor with retired := u.anchor.retired ||| added } }
  (u.anchor.failed = true → t = if c = .wipe then wipeCompleted .anchorFailed v else v) ∧
  (u.anchor.failed = false → u.anchor.state = .idle →
    SnapshotStarts { v with anchor := { v.anchor with covered := u.anchor.covered ++ [c] } } t) ∧
  (u.anchor.failed = false → u.anchor.state ≠ .idle →
    t = { v with anchor := { v.anchor with waiting := u.anchor.waiting ++ [c], pendingFlag := true } })

/-- The Host Ring Unit with the waiting command of a hold completed. -/
def told (h : Hold) (status : Status) (r : Results) (x : HostUnit) : HostUnit :=
  match h.waiting with
  | some slot => answered slot status r x
  | none => x

/-- A covered change when its snapshot is validated (R125): a FIXING hold is FIXED, an UNFIXING one freed, a wipe
completes OK. -/
def validated (c : Change) (u : State) : State :=
  match c with
  | .retire _ => u
  | .wipe => wipeCompleted .ok u
  | .hold id =>
    let put (x : Option Hold) : HoldTable := { u.holds with entries := u.holds.entries.set id x }
    match u.holds.entries[id] with
    | none => u
    | some h =>
      if h.state = .fixing then { u with
        holds := put (some { h with state := .fixed, waiting := none, effectiveFirst := none })
        host := told h .ok { at4 := BitVec.ofNat 32 (h.effectiveFirst.getD 0), at12 := BitVec.ofNat 16 id.val } u.host }
      else if h.state = .unfixing then
        { u with holds := put none, reclaim := signalled u.reclaim, host := told h .ok {} u.host }
      else u

/-- A change when the anchor fails (R127): a FIXING hold is freed, an UNFIXING one FIXED again, and their commands and
a wipe complete ANCHOR_FAILED. -/
def changeLost (c : Change) (u : State) : State :=
  match c with
  | .retire _ => u
  | .wipe => wipeCompleted .anchorFailed u
  | .hold id =>
    let put (x : Option Hold) : HoldTable := { u.holds with entries := u.holds.entries.set id x }
    match u.holds.entries[id] with
    | none => u
    | some h =>
      if h.state = .fixing then
        { u with holds := put none, reclaim := signalled u.reclaim, host := told h .anchorFailed {} u.host }
      else if h.state = .unfixing then { u with
        holds := put (some { h with state := .fixed, waiting := none }), host := told h .anchorFailed {} u.host }
      else u

/-- The anchor fails (R127). -/
def anchorLost (u : State) : State :=
  let x := (u.anchor.covered ++ u.anchor.waiting).foldl (fun y c => changeLost c y) { u with anchor := { u.anchor with
    failed := true, snapshot := none, pendingFlag := false, state := .idle, covered := [], waiting := [] } }
  { x with host := notified .anchorFailed x.host }

/-! ### Erases of the Reclaim Unit (R30 to R34, R103, R104, R110 to R112) -/

/-- The records of a sector expire (R31, R34). -/
def expired (i : SectorNo) (s : State) : HostUnit :=
  match s.table.entries[i].range with
  | some (first, last) => notified (.recordsExpired i first last) s.host
  | none => s.host

/-- The erase of a victim is asked for (R31, R102). -/
def victimTaken (i : SectorNo) (st : ReclaimState) (s : State) : State :=
  { s with
    host := expired i s
    table := { s.table with
      entries := s.table.entries.set i { s.table.entries[i] with
        state := .erasing, epoch := none, baseJsn := none, range := none }
      journal := s.table.journal.filter fun k => k != i }
    reclaim := { s.reclaim with state := st, erase := some i }
    ctrl := asked .reclaim (.eraseSector i) s.ctrl }

/-- The settlement of the Reclaim Unit's erase (R33, R90, R103, R104, R115): the sector becomes FREE, or RETIRED with
its retirement recorded and noticed; the writer is signalled, the counters rise, a full journal has space again. -/
def Settles (i : SectorNo) (ok : Bool) (s t : State) : Prop :=
  let e := s.table.entries[i]
  let left := { e with corrected := 0, weak := false, retirePending := false }
  let retires : Option RetireReason :=
    if ok = false then some .eraseFail else if e.retirePending = true then some e.reason
    else if 100000 ≤ e.wear + 1 then some .worn else none
  let wear := if ok then e.wear + 1 else e.wear
  let wrote (st : SectorState) (r : RetireReason) : State := { s with
    table := { s.table with entries := s.table.entries.set i { left with state := st, wear := wear, reason := r } }
    writer := { s.writer with spaceSignal := if s.writer.state = .waitingSpace then true else s.writer.spaceSignal } }
  let counted (retired : Nat) (r : Reclaim) : Reclaim := { r with
    sectorsErased := if ok then min (r.sectorsErased + 1) 0xFFFFFFFF else r.sectorsErased
    sectorsRetired := retired, erase := none }
  (retires = none → t = { wrote .free .noReason with
    writer := { (wrote .free .noReason).writer with full := false }
    host := if s.writer.full then notified .journalSpace s.host else s.host
    reclaim := counted s.reclaim.sectorsRetired s.reclaim }) ∧
  (∀ r, retires = some r → ∃ m, ChangeTaken (.retire i) (wrote .retired r) m ∧ t = { m with
    host := notified (.sectorRetired i r) m.host
    reclaim := counted (min (m.reclaim.sectorsRetired + 1) 0xFFFFFFFF) m.reclaim })

/-- A wipe goes on (R110 to R112): the lowest DIRTY sector is erased; with none, numbering starts again, no stream has
a recovered sequence, and the Anchor Unit takes the wipe. -/
def WipeGoesOn (u t : State) : Prop :=
  let dirty (k : SectorNo) := u.table.entries[k].state = .dirty
  (∀ i : SectorNo, dirty i → (∀ k : SectorNo, k < i → ¬dirty k) → t = victimTaken i .wiping u) ∧
  ((∀ k : SectorNo, ¬dirty k) → u.table.journal = [] → ∃ streams : Vector Stream 16,
    (∀ st : StreamNo, streams[st] = { u.assembly.streams[st] with recovered := none }) ∧
    ChangeTaken .wipe { u with
      writer := { u.writer with nextJsn := some 1, nextEpoch := some 1 }
      assembly := { u.assembly with streams := streams }
      reclaim := { u.reclaim with state := .wipeFinishing } } t)

/-! ### What a failed or cut-short operation leaves (R3) -/

/-- What the erase of sector `i` leaves where it failed or was cut short (R3, third row). -/
structure EraseResidue (i : SectorNo) (s : State) (m : List (Nat × Cell)) : Prop where
  outside : ∀ n, inSector i n = false → memGet m n = memGet s.array n
  earlier : ∀ n b, inSector i n = true → memGet m n ≠ none →
    ((n, b) ∈ s.barred ∨ ∃ c, memGet s.array n = some c ∧ readable (cellOutcome (some c)) = some b) →
    readable (cellOutcome (memGet m n)) ≠ some b
  header : IsJournal i → validSectorHeader (cellOutcome (memGet m (lineNo i 0))) = none
  marker : i.val < 2 → ∀ n b, inSector i n = true → readable (cellOutcome (memGet m n)) = some b →
    fieldAt b 0 4 ≠ Config.snapshotMarker

/-- The contents of sector `i` are among those that its lines do not read as from then on (R3). -/
def Bars (i : SectorNo) (s : State) (b : List (Nat × List Byte)) : Prop :=
  ∀ n x, (n, x) ∈ b ↔ (n, x) ∈ s.barred ∨
    (inSector i n = true ∧ ∃ c, memGet s.array n = some c ∧ readable (cellOutcome (some c)) = some x)

/-- What a program of lines of sector `i` leaves where it was cut short (R1, R3, R150): a line that the residue names,
among the blank lines before the first that was not blank, is left so; every other line as it stood. -/
def ProgramResidue (i : SectorNo) (first count : Nat) (left : Residue) (s : State) (m : List (Nat × Cell)) : Prop :=
  ∀ n, memGet m n = memGet s.array n ∨ ∃ j, j < count ∧ n = lineNo i first + j ∧
    (∀ k, k ≤ j → memGet s.array (lineNo i first + k) = none) ∧
    ∃ x, (n, x) ∈ left ∧ (memGet m n = x ∨ memGet m n = some .broken)

/-- How line `n` shows in a read (R149, R3), where the report gives bit errors for it: as the report has it, with its own
bytes or with others that are not barred and pass no check of its own; else UNCORRECTABLE. -/
structure Shown (s : State) (d : List (Nat × LineOutcome)) (n : Nat) (x : LineOutcome) : Prop where
  own : memGet d n = none → x = cellOutcome (memGet s.array n)
  as_given : ∀ o b, memGet d n = some o → o.wf = true → readable o = some b →
    (readable (cellOutcome (memGet s.array n)) = some b ∨ ((n, b) ∉ s.barred ∧ passesCheck n b = false)) → x = o
  none : ∀ o, memGet d n = some o → o.wf = false ∨ readable o = none → x = .uncorrectable
  barred : ∀ o b, memGet d n = some o → readable o = some b → readable (cellOutcome (memGet s.array n)) ≠ some b →
    (n, b) ∈ s.barred ∨ passesCheck n b = true → x = .uncorrectable

/-- A reset cuts the erase of sector `i` short: it is in the array, running or stopped (R157), or the Reclaim Unit has
requested it and the array has not begun it (R32, R100, R105; log entry 24). -/
def CutByReset (c : ArrayCtrl) (i : SectorNo) : Prop :=
  (∃ e, c.erase = some e ∧ e.sector = i) ∨ c.requests.reclaim = some (.eraseSector i) ∨
    c.placed.reclaim = some (.eraseSector i)

/-! ### The array's choice (R152) -/

/-- Places in the rotation Writer, Anchor, Reader. -/
def place : Requester → Nat
  | .writer => 0
  | .anchor => 1
  | .reader => 2
  | .reclaim => 2
  | .mount => 2

/-- How many places after the one after last served a requester stands. -/
def turn (last who : Requester) : Nat := (place who + 2 - place last) % 3

/-- A program or a read. -/
def IsService : ArrayOp → Prop
  | .readLines _ _ _ => True
  | .programLines _ _ _ => True
  | .eraseSector _ => False
  | .blankCheck _ => False

/-- A requester of the rotation has a program or read pending. -/
def Wants (c : ArrayCtrl) (who : Requester) (op : ArrayOp) : Prop :=
  (who = .writer ∨ who = .anchor ∨ who = .reader) ∧ c.requests.get who = some op ∧ IsService op

/-- It is the requester's turn. -/
def Turn (c : ArrayCtrl) (who : Requester) (op : ArrayOp) : Prop :=
  Wants c who op ∧ ∀ other o, Wants c other o → other ≠ who → turn c.lastServed who < turn c.lastServed other

/-- The state of the controller in which an operation runs. -/
def running : ArrayOp → CtrlState
  | .readLines _ _ _ => .reading
  | .programLines _ _ _ => .programming
  | .eraseSector _ => .erasing
  | .blankCheck _ => .blankChecking

/-- The controller starts an operation. -/
def started (who : Requester) (op : ArrayOp) (c : ArrayCtrl) : ArrayCtrl :=
  { c with state := running op, operation := some (who, op), requests := c.requests.set who none }

/-- What a free array does next: mount work, the rotation, the anchor's erase, the Reclaim Unit's erase, nothing. -/
def Picked (c t : ArrayCtrl) : Prop :=
  let r := { c with state := .idle, operation := none, erase := none }
  let erases (who : Requester) (i : SectorNo) : ArrayCtrl :=
    { started who (.eraseSector i) r with erase := some ⟨who, i, 0, 0⟩, eraseTime := 0 }
  let idle := ∀ who op, ¬Wants c who op
  (∀ op, c.requests.mount = some op → t = started .mount op r) ∧
  (c.requests.mount = none →
    (∀ who op, Turn c who op → t = { started who op r with lastServed := who }) ∧
    (idle → ∀ i, c.requests.anchor = some (.eraseSector i) → t = erases .anchor i) ∧
    (idle → (∀ i, c.requests.anchor ≠ some (.eraseSector i)) →
      (∀ i, c.requests.reclaim = some (.eraseSector i) → t = erases .reclaim i) ∧
      ((∀ i, c.requests.reclaim ≠ some (.eraseSector i)) → t = r)))

/-- What the controller does next while an erase stands suspended (R154). -/
def PickedSuspended (c t : ArrayCtrl) (e : HeldErase) : Prop :=
  let resumes := { c with state := .resuming, operation := some (e.requester, .eraseSector e.sector) }
  (e.served < 16 → ∀ who op, Turn c who op →
    t = { started who op c with lastServed := who, erase := some { e with served := e.served + 1 } }) ∧
  (16 ≤ e.served → t = resumes) ∧ ((∀ who op, ¬Wants c who op) → t = resumes)

/-! ### The mount (R160 to R169) -/

/-- The sector is in the retired set found (R161). -/
def retiredBy (m : Mount) (j : SectorNo) : Prop := ∃ x, m.snapshot = some x ∧ x.retired.getLsbD j.val = true

/-- The members of the journal list that a build forms (R164): of the sectors with a valid header, the lowest-numbered
of each epoch, in rising epoch order, without those whose range does not rise above the ranges before it. -/
structure Members (f : Vector Finding 256) (l : List SectorNo) : Prop where
  rising : l.Pairwise fun i j => ∀ w e p w' e' p', f[i] = .valid w e p → f[j] = .valid w' e' p' →
    w.header.epoch < w'.header.epoch
  member : ∀ i : SectorNo, i ∈ l ↔ ∃ w e p, f[i] = .valid w e p ∧
    (∀ (k : SectorNo) w' e' p', k < i → f[k] = .valid w' e' p' → w'.header.epoch ≠ w.header.epoch) ∧
    (w.count = 0 ∨ ∀ k ∈ l, ∀ w' e' p', f[k] = .valid w' e' p' → w'.header.epoch < w.header.epoch → w'.count ≠ 0 →
      w'.expected ≤ w.header.baseJsn)

/-- The least number that is 1 or above and not below any of a set: 1, or one of them (R166). -/
def Highest (p : Nat → Prop) (n : Nat) : Prop := 1 ≤ n ∧ (∀ x, p x → x ≤ n) ∧ (n = 1 ∨ p n)

/-- The walk of a sector ended TORN. -/
def torn (f : Finding) : Bool :=
  match f with
  | .valid _ (.torn _) _ => true
  | _ => false

/-- The committed records that the walk of a sector met. -/
def committedIn (f : Finding) : Nat :=
  match f with
  | .valid w _ _ => w.count
  | _ => 0

/-- The journal sectors as a build leaves them (R165, R167), from the findings, the members, the next JSN and the
entries before. -/
structure EntriesBuilt (f : Vector Finding 256) (kind : ResetKind) (l : List SectorNo) (n : Nat)
    (old new : Vector SectorEntry 256) : Prop where
  anchors : ∀ i : SectorNo, i.val < 2 → new[i] =
    { SectorEntry.reset with state := .anchor, wear := old[i].wear, wearEstimated := old[i].wearEstimated }
  valid : ∀ (i : SectorNo) w e p, IsJournal i → f[i] = .valid w e p →
    let opens := l.getLast? = some i ∧ e = .erased ∧ n = w.expected
    let built := { SectorEntry.reset with wear := w.header.wear, wearEstimated := w.header.wearEstimated }
    let listed := { built with
      epoch := some w.header.epoch, baseJsn := some w.header.baseJsn
      range := if w.count = 0 then none else some (w.header.baseJsn, w.expected - 1) }
    (i ∉ l → new[i] = { built with state := .dirty }) ∧
    (i ∈ l → opens → new[i] = { listed with state := .opened, nextFree := some p }) ∧
    (i ∈ l → ¬opens → new[i] = { listed with state := .closed })
  others : ∀ i : SectorNo, IsJournal i → isValid f[i] = false →
    let estimated := kind = .cold ∧ f[i] ≠ .retired
    (¬estimated → new[i].wear = old[i].wear ∧ new[i].wearEstimated = old[i].wearEstimated) ∧
    (estimated → new[i].wearEstimated = true ∧
      (∀ (k : SectorNo) w e p, f[k] = .valid w e p → w.header.wear ≤ new[i].wear) ∧
      (new[i].wear = 0 ∨ ∃ (k : SectorNo) (w : Walk) (e : WalkEnd) (p : Nat),
        f[k] = .valid w e p ∧ w.header.wear = new[i].wear)) ∧
    new[i] = { SectorEntry.reset with
      wear := new[i].wear, wearEstimated := new[i].wearEstimated
      state := match f[i] with
        | .retired => .retired
        | .blank => if 100000 ≤ new[i].wear then .dirty else .free
        | _ => .dirty }

/-- The handover of a mount (R161, R164 to R169, R172), from the state with every finding in place. -/
structure HandedOver (u t : State) : Prop where
  next : ∃ n epoch, t.writer = { u.writer with nextJsn := some n, nextEpoch := some epoch } ∧
    Highest (fun x => ∃ (i : SectorNo) (w : Walk) (e : WalkEnd) (p : Nat),
      u.mount.findings[i] = .valid w e p ∧ (x = w.expected ∨ x = w.header.baseJsn)) n ∧
    Highest (fun x => ∃ (i : SectorNo) (w : Walk) (e : WalkEnd) (p : Nat),
      u.mount.findings[i] = .valid w e p ∧ x = w.header.epoch + 1) epoch ∧
    EntriesBuilt u.mount.findings u.mount.resetKind t.table.journal n u.table.entries t.table.entries
  members : Members u.mount.findings t.table.journal
  queue : t.table.queue = u.table.queue
  holds : t.holds.queue = u.holds.queue ∧ ∀ id : Fin 16, t.holds.entries[id] = match u.mount.snapshot with
    | some x => x.holds[id].map fun l => ⟨.fixed, l.first, l.last, l.owner, none, none⟩
    | none => none
  anchor : t.anchor = { u.anchor with
      active := t.anchor.active, nextSlot := t.anchor.nextSlot, generation := t.anchor.generation
      retired := match u.mount.snapshot with | some x => x.retired | none => 0#256 } ∧
    (∀ x, u.mount.snapshot = some x → t.anchor.active = x.sector ∧
      (∀ k, u.mount.usedSlots[x.sector] = some k → t.anchor.nextSlot = k + 1)) ∧
    (u.mount.snapshot = none → (t.anchor.active, t.anchor.nextSlot) =
      if u.mount.usedSlots[0] = none then (0, 0) else if u.mount.usedSlots[1] = none then (1, 0) else (0, 64)) ∧
    (let g := t.anchor.generation
     (∀ x ∈ u.mount.generations, x ≤ g) ∧ (∀ x, u.mount.snapshot = some x → x.generation ≤ g) ∧
     (g = 0 ∨ g ∈ u.mount.generations ∨ ∃ x, u.mount.snapshot = some x ∧ x.generation = g))
  streams : ∀ st : StreamNo, t.assembly.streams[st] =
      { u.assembly.streams[st] with recovered := t.assembly.streams[st].recovered } ∧
    (∀ (i : SectorNo) (w : Walk) (e : WalkEnd) (p : Nat) (j : Nat) (q : Seq), i ∈ t.table.journal →
      u.mount.findings[i] = .valid w e p → w.newest[st] = some (j, q) →
      (∀ k ∈ t.table.journal, k ≠ i → ∀ w' e' p' j' q', u.mount.findings[k] = .valid w' e' p' →
        w'.newest[st] = some (j', q') → j' < j) → t.assembly.streams[st].recovered = some (q + 1#16)) ∧
    ((∀ i ∈ t.table.journal, ∀ w e p, u.mount.findings[i] = .valid w e p → w.newest[st] = none) →
      t.assembly.streams[st].recovered = none)
  host : t.host = { noticed (.mountDone
        ((t.table.journal.map fun i => committedIn u.mount.findings[i]).sum)
        (t.table.journal.countP fun i => torn u.mount.findings[i]) t.table.journal.length
        (howMany 256 fun i : SectorNo => t.table.entries[i].state = .free)
        (howMany 256 fun i : SectorNo => t.table.entries[i].state = .dirty)
        (howMany 256 fun i : SectorNo => t.table.entries[i].state = .retired)) u.host with
      device := if u.host.enable then .online else .stopped
      reason := .noReason, badIndex := 0, statusMark := true, stateSince := true }
  mount : t.mount = { u.mount with
    mounted := true, phase := .idle, position := .none
    findings := t.mount.findings, streamFindings := t.mount.streamFindings }
  online : t.assembly = { u.assembly with
      streams := t.assembly.streams, drainMark := if u.host.enable then false else u.assembly.drainMark } ∧
    t.reclaim = if u.host.enable then signalled u.reclaim else u.reclaim
  frame : t = { u with
    host := t.host, assembly := t.assembly, writer := t.writer, table := t.table, reclaim := t.reclaim
    holds := t.holds, anchor := t.anchor, mount := t.mount }

/-- The sector scan goes on at sector number `n` (R162): the sectors of the retired set are passed over, line 0 of the
first other one is asked for, and after sector 255 the mount is built and handed over. -/
def ScanPasses (n : Nat) (u : State) (o : Host.Outcome State Fault Refusal) : Prop :=
  let found (v : Vector Finding 256) (k : Nat) : Prop := ∀ j : SectorNo,
    v[j] = if n ≤ j.val ∧ j.val < k then .retired else u.mount.findings[j]
  (∀ j : SectorNo, n ≤ j.val → ¬retiredBy u.mount j →
    (∀ k : SectorNo, n ≤ k.val → k < j → retiredBy u.mount k) → ∃ v, found v j.val ∧ o = .next { u with
      mount := { u.mount with findings := v, position := .sectorHeader j }
      ctrl := asked .mount (.readLines j 0 1) u.ctrl }) ∧
  ((∀ k : SectorNo, n ≤ k.val → retiredBy u.mount k) →
    (∀ (i : SectorNo) w e p, u.mount.findings[i] = .valid w e p → Walk.counted w) → ∃ v t, found v 256 ∧ o = .next t ∧
      HandedOver { u with mount := { u.mount with findings := v } } t)

/-- The scan of a sector ends with a finding and the stream findings that go with it (R162, R163). -/
def ScanEnds (s : State) (c : Instr) (i : SectorNo) (f : Finding) (streams : Vector (Option (Nat × Seq)) 16) : Prop :=
  (c = .blankCheckEnd ∧ s.mount.position = .blankCheck i ∧ streams = s.mount.streamFindings ∧
    ((Answers s .mount .blank ∧ f = .blank) ∨ (Answers s .mount .notBlank ∧ f = .dirty))) ∨
  (c = .mountLineRead ∧ ∃ o l, Answers s .mount (.lines (o :: l)) ∧
    ((s.mount.position = .sectorHeader i ∧ validSectorHeader o = none ∧
        readable o ≠ some (List.replicate 32 0xFF#8) ∧ f = .dirty ∧ streams = s.mount.streamFindings) ∨
      (∃ p w, s.mount.position = .walkHeader i p w ∧ streams = newerFindings s.mount.streamFindings w.newest ∧
        ∃ e : WalkEnd, f = .valid w e p ∧ ((viewHeader w.expected p o = .erased ∧ e = .erased) ∨
          (viewHeader w.expected p o = .pad ∧ e = .pad) ∨ (viewHeader w.expected p o = .invalid ∧ e = .torn false) ∨
          (viewHeader w.expected p o = .unreadable ∧ e = .torn true))) ∨
      (∃ p h w, s.mount.position = .walkCommit i p h w ∧
        ((validCommit h o = none ∧ f = .valid w (.torn (o == .uncorrectable)) p ∧
            streams = newerFindings s.mount.streamFindings w.newest) ∨
          (validCommit h o ≠ none ∧ p + (2 + (h.length + 31) / 32) = 2048 ∧
            let w' : Walk := ⟨w.header, w.expected + 1, w.count + 1, w.newest.set h.stream (some (h.jsn, h.seq))⟩
            f = .valid w' .full 2048 ∧ streams = newerFindings s.mount.streamFindings w'.newest)))))

/-! ### Occasions -/

/-- The states in which the part writes its rings and takes RING_INDEX (R177, R188). -/
def Writes (s : State) : Prop :=
  s.host.device = .mounting ∨ s.host.device = .online ∨ s.host.device = .draining ∨ s.host.device = .stopped

/-- The states in which ticks run (R172). -/
def Ticks (s : State) : Prop := s.host.device = .online ∨ s.host.device = .draining ∨ s.host.device = .stopped

/-- The head of an owner's queue is a command of this row, and its owner takes commands. -/
def Heads (s : State) (queue : List Routed) (c : Instr) : Prop :=
  Takes s ∧ ∃ r rest, queue = r :: rest ∧ row r.cmd = c

/-- The transfer of a slot is in flight. -/
def Flying (s : State) (slot : SlotNo) : Prop :=
  s.host.device ≠ .halted ∧ ∃ (i : CtxNo) (c : Context), s.assembly.contexts[i] = some c ∧ ∃ t ∈ c.transfers, t.slot = slot

/-- The outcome of a program, or of an erase, waits for a requester. -/
def Programmed (s : State) (who : Requester) : Prop :=
  Answers s who .programmed ∨ ∃ line blank, Answers s who (.programFailed line blank)
def Erased (s : State) (who : Requester) : Prop := Answers s who .erased ∨ Answers s who .eraseFailed

/-- The operation of the array is being carried out. -/
def Running (c : ArrayCtrl) : Prop :=
  c.operation ≠ none ∧ c.state ≠ .resuming ∧ c.state ≠ .idle ∧ c.state ≠ .eraseSuspended

/-- The occasion of a command: the state of the part in which the manual lets it happen. -/
def Occasion (c : Instr) (s : State) : Prop :=
  match c with
  | .append => s.assembly.held = none ∧ Heads s s.assembly.queue c
  | .openStream => s.assembly.held = none ∧ Heads s s.assembly.queue c
  | .closeStream => s.assembly.held = none ∧ Heads s s.assembly.queue c
  | .abortRecord => s.assembly.held = none ∧ Heads s s.assembly.queue c
  | .queryStreams => s.assembly.held = none ∧ Heads s s.assembly.queue c
  | .read => Heads s s.reader.queue c
  | .scan => Heads s s.reader.queue c
  | .hold => Heads s s.holds.queue c
  | .release => Heads s s.holds.queue c
  | .queryHolds => Heads s s.holds.queue c
  | .querySectors => Heads s s.table.queue c
  | .queryStats => Heads s s.host.queue c
  | .wipe => Heads s s.reclaim.queue c
  | .ctrlEnableSet => True
  | .ctrlEnableClear => True
  | .softReset _ => True
  | .coldReset _ => True
  | .ringIndexSubmission _ _ => Writes s
  | .ringIndexCompletion _ => Writes s
  | .ringIndexNotice _ => Writes s
  | .ringIndexBadSelector _ _ => Writes s
  | .intCauseWrite _ => True
  | .intMaskWrite _ => True
  | .registerWrite r _ => r = .setupLo ∨ r = .setupHi
  | .setupReadEnd _ => s.host.device = .setup ∧ ∃ address, s.host.setupStage = .reading address
  | .fetchBegin => s.host.device = .online ∧ s.host.fetch = none ∧ ∃ i : SlotNo, s.host.slots[i] = .free
  | .submissionFetchEnd _ => Takes s ∧ s.host.fetch ≠ none
  | .postingBegin => Writes s ∧ s.host.ringWrite = none ∧ s.host.posting ≠ []
  | .completionWriteEnd _ => s.host.device ≠ .halted ∧ ∃ w, s.host.ringWrite = some (.completion w)
  | .noticeWriteEnd _ => s.host.device ≠ .halted ∧ ∃ w, s.host.ringWrite = some (.notice w)
  | .statusWriteBegin => Writes s ∧ s.host.ringWrite = none ∧ s.host.statusMark = true
  | .statusWriteEnd _ => s.host.device ≠ .halted ∧ ∃ w a b d, s.host.ringWrite = some (.status w a b d)
  | .drainEnd => s.host.device = .draining
  | .tick => Ticks s
  | .assemblyExpired i => Ticks s ∧ ∃ c, s.assembly.contexts[i] = some c ∧ Ages s.assembly c ∧
      c.age + 1 = s.assembly.streams[c.stream].ageLimit
  | .sequenceSkipped st => Ticks s ∧ s.assembly.streams[st].state = .opened ∧ Stalled s.assembly st ∧
      s.assembly.streams[st].stallAge + 1 = s.assembly.streams[st].ageLimit
  | .transferEnd slot _ => Flying s slot
  | .transferFail slot => Flying s slot
  | .queueHeadTaken => s.host.device ≠ .halted ∧ s.writer.state = .idle ∧ s.writer.queue ≠ []
  | .spaceQuestionRetry => s.host.device ≠ .halted ∧ s.writer.state = .waitingSpace ∧ s.writer.spaceSignal = true
  | .sectorHeaderProgrammed => Programmed s .writer ∧ s.writer.state = .opening ∧ s.writer.headerEpoch = none
  | .padProgrammed => Programmed s .writer ∧ s.writer.state = .opening ∧ s.writer.headerEpoch ≠ none
  | .burstProgrammed => Programmed s .writer ∧ s.writer.state = .writing
  | .commitLineProgrammed => Programmed s .writer ∧ s.writer.state = .committing
  | .reclaimTest => s.host.device ≠ .halted ∧ s.reclaim.state = .idle ∧ s.reclaim.signal = true
  | .eraseEnd => Erased s .reclaim ∧ s.reclaim.erase ≠ none
  | .snapshotProgramEnd => Programmed s .anchor ∧ s.anchor.state = .writing
  | .rolloverEraseEnd => Erased s .anchor ∧ s.anchor.state = .rollingOver
  | .readBegin => s.host.device ≠ .halted ∧ s.reader.active = none ∧ ∃ r rest, s.reader.fifo = r :: rest ∧ row r.cmd = .read
  | .scanBegin => s.host.device ≠ .halted ∧ s.reader.active = none ∧ ∃ r rest, s.reader.fifo = r :: rest ∧ row r.cmd = .scan
  | .readUnitLinesRead => (∃ l, Answers s .reader (.lines l)) ∧ s.reader.pinned ≠ none ∧ s.reader.stage ≠ none
  | .imageWriteEnd _ => s.host.device ≠ .halted ∧ s.reader.write ≠ none ∧ ∃ p h short, s.reader.stage = some (.image p h short)
  | .queryWriteEnd slot _ => s.host.device ≠ .halted ∧ ∃ q ∈ s.host.queryWrites, q.slot = slot
  | .arrayRequest who => s.host.device ≠ .halted ∧ s.ctrl.placed.get who ≠ none
  | .arrayOperationEnd _ _ => Running s.ctrl
  | .eraseStopped elapsed => s.ctrl.state = .suspending ∧ s.ctrl.eraseTime + elapsed < 2000000
  | .eraseResumed elapsed => s.ctrl.state = .resuming ∧ s.ctrl.eraseTime + elapsed < 2000000
  | .arrayTimeout _ _ => s.ctrl.operation ≠ none
  | .anchorSlotRead => s.host.device = .mounting ∧ ∃ a k, s.mount.position = .slot a k
  | .mountLineRead => s.host.device = .mounting ∧ ∃ l, Answers s .mount (.lines l)
  | .blankCheckEnd => s.host.device = .mounting ∧ ∃ i, s.mount.position = .blankCheck i

/-! ### The codes of R192 -/

/-- "Values from 0 upward": the name at a code. -/
def deviceStates : List DeviceState := [.offline, .setup, .mounting, .online, .draining, .stopped, .halted]
def reasons : List Reason :=
  [.noReason, .setupReadError, .setupInvalid, .submissionReadError, .completionWriteError, .noticeWriteError,
    .statusWriteError, .arrayTimeout]
def sectorStates : List SectorState := [.anchor, .free, .opened, .closed, .erasing, .dirty, .retired]
def retireReasons : List RetireReason := [.noReason, .worn, .programFail, .eraseFail, .weak]
def streamStates : List StreamState := [.closed, .opened, .closing]
def holdStates : List (Option HoldState) := [none, some .soft, some .fixing, some .fixed, some .unfixing]
def anchorStates : List AnchorState := [.idle, .writing, .rollingOver]
def writerStates : List WriterState := [.idle, .opening, .writing, .committing, .waitingSpace]

/-- The statuses and their codes. -/
def statusCodes : List (Nat × Status) :=
  [(0x00, .ok), (0x01, .accepted), (0x02, .committed), (0x10, .badKind), (0x11, .badField), (0x20, .streamClosed),
    (0x21, .streamOpen), (0x22, .streamBusy), (0x23, .noContext), (0x24, .stale), (0x25, .ahead), (0x26, .abandoned),
    (0x27, .overlap), (0x28, .scattered), (0x29, .beyondEnd), (0x2A, .poolExhausted), (0x30, .hostReadError),
    (0x31, .hostWriteError), (0x32, .aborted), (0x33, .tooLate), (0x40, .journalFull), (0x41, .journalExhausted),
    (0x42, .writeFailed), (0x50, .notYet), (0x51, .expired), (0x52, .shortBuffer), (0x53, .mediaError), (0x54, .corrupt),
    (0x60, .holdTableFull), (0x61, .noSuchHold), (0x62, .holdBusy), (0x63, .nothingToHold), (0x64, .anchorFailed),
    (0x70, .notIdle), (0x71, .wipeActive)]

/-! ### QUERY outputs (R38, R57, R131, R183, R191) -/

/-- The output of QUERY SECTORS: each field at its place. -/
structure SectorsOutput (t : SectorTable) (out : List Byte) : Prop where
  length : out.length = 8224
  counts : ∀ k st, sectorStates[k]? = some st →
    fieldAt out k 1 = howMany 256 (fun i : SectorNo => t.entries[i].state = st) % 256
  members : fieldAt out 8 1 = t.journal.length % 256
  head : fieldAt out 9 1 = match t.journal with | i :: _ => i.val | [] => 0xFF
  opened : (∀ o, IsOpen t o → fieldAt out 10 1 = o.val) ∧ (NoneOpen t → fieldAt out 10 1 = 0xFF)
  inHand : (∀ i : SectorNo, (∀ k : SectorNo, t.entries[k].inHand = true ↔ k = i) → fieldAt out 11 1 = i.val) ∧
    ((∀ k : SectorNo, t.entries[k].inHand = false) → fieldAt out 11 1 = 0xFF)
  lowest : (∀ before i after a b, t.journal = before ++ i :: after → t.entries[i].range = some (a, b) →
      (∀ k ∈ before, t.entries[k].range = none) → fieldAt out 12 4 = a % 2 ^ 32) ∧
    ((∀ k ∈ t.journal, t.entries[k].range = none) → fieldAt out 12 4 = 0)
  reserved : fieldAt out 7 1 = 0 ∧ fieldAt out 16 16 = 0
  records : ∀ i : SectorNo,
    let r := (out.drop (32 + 32 * i.val)).take 32
    let e := t.entries[i]
    fieldAt r 0 1 = i.val ∧ sectorStates[fieldAt r 1 1]? = some e.state ∧
    fieldAt r 2 1 = e.wearEstimated.toNat + 2 * e.weak.toNat + 4 * e.retirePending.toNat + 8 * e.inHand.toNat ∧
    retireReasons[fieldAt r 3 1]? = some e.reason ∧ fieldAt r 4 4 = e.wear % 2 ^ 32 ∧
    fieldAt r 8 4 = e.epoch.getD 0 % 2 ^ 32 ∧ fieldAt r 12 4 = e.baseJsn.getD 0 % 2 ^ 32 ∧
    (∀ a b, e.range = some (a, b) → fieldAt r 16 4 = a % 2 ^ 32 ∧ fieldAt r 20 4 = b % 2 ^ 32) ∧
    (e.range = none → fieldAt r 16 4 = 0 ∧ fieldAt r 20 4 = 0) ∧ fieldAt r 24 2 = e.nextFree.getD 0 % 65536 ∧
    fieldAt r 26 1 = e.corrected % 256 ∧ fieldAt r 27 1 = e.pins % 256 ∧
    (∀ before after, t.journal = before ++ i :: after → i ∉ before → fieldAt r 28 2 = before.length % 65536) ∧
    (i ∉ t.journal → fieldAt r 28 2 = 0xFFFF) ∧ fieldAt r 30 2 = 0

/-- The output of QUERY STREAMS. -/
structure StreamsOutput (a : Assembly) (queued : Nat) (out : List Byte) : Prop where
  length : out.length = 544
  summary : fieldAt out 0 4 = a.tickCounter.toNat ∧ fieldAt out 4 1 = howMany 32 (fun i : CtxNo => a.contexts[i] = none) ∧
    fieldAt out 6 2 = a.freeBlocks.length % 65536 ∧ fieldAt out 8 1 = queued % 256
  reserved : fieldAt out 5 1 = 0 ∧ fieldAt out 9 23 = 0
  records : ∀ i : StreamNo,
    let r := (out.drop (32 + 32 * i.val)).take 32
    let e := a.streams[i]
    let count (st : CtxState) : Nat :=
      howMany 32 fun j : CtxNo => (a.contexts[j].map fun c => (c.stream, c.state)) = some (i, st)
    fieldAt r 0 1 = i.val ∧ streamStates[fieldAt r 1 1]? = some e.state ∧ fieldAt r 2 1 = e.limit % 256 ∧
    fieldAt r 3 1 = e.ageLimit % 256 ∧ fieldAt r 4 2 = e.nextAdmission.toNat ∧ fieldAt r 6 1 = e.abandoned.toNat ∧
    fieldAt r 7 1 = e.stallAge % 256 ∧ fieldAt r 8 1 = e.gapPending.toNat + 2 * e.recovered.isSome.toNat ∧
    fieldAt r 9 1 = 0 ∧ fieldAt r 10 2 = (e.recovered.getD 0#16).toNat ∧ fieldAt r 12 4 = e.committed % 2 ^ 32 ∧
    fieldAt r 16 1 = count .gathering ∧ fieldAt r 17 1 = count .aborting ∧ fieldAt r 18 1 = count .complete ∧
    fieldAt r 19 1 = count .queued ∧ fieldAt r 20 1 = count .writing ∧ fieldAt r 21 11 = 0

/-- The output of QUERY HOLDS. -/
structure HoldsOutput (t : HoldTable) (a : Anchor) (out : List Byte) : Prop where
  length : out.length = 576
  counts : ∀ k st, holdStates[k]? = some st →
    fieldAt out k 1 = howMany 16 fun id : Fin 16 => (t.entries[id].map fun h => h.state) = st
  summary : anchorStates[fieldAt out 5 1]? = some a.state ∧ fieldAt out 6 1 = a.active.val ∧
    fieldAt out 7 1 = a.nextSlot % 256 ∧ fieldAt out 8 4 = a.generation % 2 ^ 32 ∧
    fieldAt out 12 1 = a.failed.toNat + 2 * a.pendingFlag.toNat
      + 4 * (match a.snapshot with | some x => x.rolled | none => false).toNat ∧
    fieldAt out 13 1 = (match a.snapshot with | some x => x.attempts | none => 0) % 256 ∧
    fieldAt out 14 1 = howMany 256 (fun i : SectorNo => a.retired.getLsbD i.val = true) % 256 ∧ fieldAt out 15 17 = 0
  retired : ∀ i : SectorNo, (fieldAt out (32 + i.val / 8) 1).testBit (i.val % 8) = a.retired.getLsbD i.val
  records : ∀ id : Fin 16,
    let r := (out.drop (64 + 32 * id.val)).take 32
    fieldAt r 0 1 = id.val ∧ holdStates[fieldAt r 1 1]? = some (t.entries[id].map fun h => h.state) ∧
    (t.entries[id] = none → fieldAt r 2 30 = 0) ∧
    (∀ h, t.entries[id] = some h → fieldAt r 2 1 = h.last.isNone.toNat + 2 * h.waiting.isSome.toNat ∧
      fieldAt r 3 1 = 0 ∧ fieldAt r 4 4 = h.first % 2 ^ 32 ∧ fieldAt r 8 4 = h.last.getD 0 % 2 ^ 32 ∧
      fieldAt r 12 4 = h.owner.toNat ∧ fieldAt r 16 16 = 0)

/-- The output of QUERY STATS. -/
structure StatsOutput (s : State) (out : List Byte) : Prop where
  length : out.length = 128
  counters : ∀ k n, [s.assembly.fragmentsAccepted, s.assembly.fragmentsRefused, s.writer.recordsCommitted,
      s.writer.bytesCommitted, s.writer.recordsFailed, s.reclaim.sectorsErased, s.reclaim.sectorsRetired,
      s.ctrl.suspensions, s.ctrl.linesCorrected, s.ctrl.linesUncorrectable, s.reader.completed,
      s.host.noticesLost][k]? = some n → fieldAt out (4 * k) 4 = n % 2 ^ 32
  others : writerStates[fieldAt out 52 1]? = some s.writer.state ∧ fieldAt out 53 1 = s.writer.full.toNat ∧
    deviceStates[fieldAt out 54 1]? = some s.host.device ∧ fieldAt out 56 4 = s.writer.nextJsn.getD 0 % 2 ^ 32 ∧
    fieldAt out 60 4 = s.writer.nextEpoch.getD 0 % 2 ^ 32
  reserved : fieldAt out 48 4 = 0 ∧ fieldAt out 55 1 = 0 ∧ fieldAt out 64 64 = 0

end Sys2Proof.Safety
end

