-- ==== Sys2Proof/Certificates/Slice0/Obligations.lean ====
section
/-! DEFINITION. The statements for the provers. Equations of states say an effect and its frame at once: every field
that the right side does not name is unchanged. -/

open Sys2Proof Sys2Proof.Machine Sys2Proof.Safety

/-! ### The machine as a whole -/

/-- A step runs the command at the front of the queue on the state with the queue's rest; with nothing waiting the
block idles (log entry 11). -/
def Obligations.StepRunsFrontCommand : Prop :=
  ∀ s : State,
    (∀ c rest, s.pending = c :: rest → step s = exec c { s with pending := rest }) ∧
    (s.pending = [] → step s = .next s)

/-- The registers as read after either reset (R182, R185): they take their reset values in every state, and ID does
not change. -/
def Obligations.ResetRegisters : Prop :=
  ∀ (left : Residue) (s : State) (c : Instr), c = .coldReset left ∨ c = .softReset left →
    ∃ t, exec c s = .next t ∧ t.host.device = .offline ∧ t.host.reason = .noReason ∧
      t.host.readRegister 0x00 = some 0x10160001#32 ∧ t.host.readRegister 0x04 = some 0#32 ∧
      t.host.readRegister 0x08 = some 0#32 ∧ t.host.readRegister 0x0C = some 0#32 ∧
      t.host.readRegister 0x10 = some 0#32 ∧ t.host.readRegister 0x18 = some 0#32 ∧
      t.host.readRegister 0x1C = some 0xF#32

/-- The Sector Table after either reset (R19, R182): its entries, its lists, no command waiting at it, and that no erase
is started from it. -/
def Obligations.ResetSectorTable : Prop :=
  ∀ (left : Residue) (s : State) (c : Instr), c = .coldReset left ∨ c = .softReset left →
    ∃ t, exec c s = .next t ∧ t.table.journal = [] ∧ t.table.queue = [] ∧ t.table.freeSet = [] ∧
      exec .reclaimTest t = .next t ∧
      ∀ i : SectorNo, t.table.entries[i] =
        { state := if i.val < 2 then .anchor else .dirty
          wear := if c = .coldReset left then 0 else s.table.entries[i].wear
          wearEstimated := if c = .coldReset left then true else s.table.entries[i].wearEstimated
          epoch := none, baseJsn := none, range := none, nextFree := none, corrected := 0, weak := false
          retirePending := false, reason := .noReason, pins := 0, inHand := false }

/-- The blocks after either reset (R40, R59, R83, R100, R116, R121, R132, R147, R159, R171, R182): the Host Ring Unit
at the values of R171, the other blocks at theirs. The two resets differ only in the statistics counters, which soft
reset keeps, in sector wear and in the Mount Unit's reset kind. The values of fields for which the manual gives none
are the model's (log entry 4), and so is 00H in every staging byte (log entry 5). -/
def Obligations.ResetBlocks : Prop :=
  ∀ (left : Residue) (s : State), ∃ cold soft,
    exec (.coldReset left) s = .next cold ∧ exec (.softReset left) s = .next soft ∧
    cold.host = {
      device := .offline, reason := .noReason, badIndex := 0, enable := false, setupLo := 0#32, setupHi := 0#32
      intCause := 0#4, intMask := 0xF#4, intMessages := s.host.intMessages, setup := none, setupStage := .idle
      subHead := Vector.replicate 4 0, subTail := Vector.replicate 4 0, completionTail := 0, completionHead := 0
      noticeTail := 0, noticeHead := 0, slots := Vector.replicate 64 .free, roundRing := 0, roundYield := 0
      fetch := none, posting := [], ringWrite := none, statusMark := false, lostCount := 0, noticesLost := 0
      writeCount := 0#32, completionsSince := false, noticesSince := false, stateSince := false, queue := []
      queryWrites := [] } ∧
    soft.host = { cold.host with noticesLost := s.host.noticesLost } ∧
    cold.counters = List.replicate 12 0 ∧ soft.counters = s.counters ∧
    cold.mount = Mount.reset .cold ∧ soft.mount = Mount.reset .soft ∧
    cold.assembly = Assembly.reset ∧ cold.writer = Writer.reset ∧ cold.reclaim = Reclaim.reset ∧
    cold.holds = HoldTable.reset ∧ cold.anchor = Anchor.reset ∧ cold.reader = ReadUnit.reset ∧
    cold.ctrl = ArrayCtrl.reset ∧
    soft.assembly = { cold.assembly with
      fragmentsAccepted := s.assembly.fragmentsAccepted, fragmentsRefused := s.assembly.fragmentsRefused } ∧
    soft.writer = { cold.writer with
      recordsCommitted := s.writer.recordsCommitted, bytesCommitted := s.writer.bytesCommitted
      recordsFailed := s.writer.recordsFailed } ∧
    soft.reclaim = { cold.reclaim with
      sectorsErased := s.reclaim.sectorsErased, sectorsRetired := s.reclaim.sectorsRetired } ∧
    soft.holds = cold.holds ∧ soft.anchor = cold.anchor ∧
    soft.reader = { cold.reader with completed := s.reader.completed } ∧
    soft.ctrl = { cold.ctrl with
      linesCorrected := s.ctrl.linesCorrected, linesUncorrectable := s.ctrl.linesUncorrectable
      suspensions := s.ctrl.suspensions } ∧
    soft.array = cold.array ∧ soft.barred = cold.barred ∧ cold.staging = [] ∧ soft.staging = [] ∧
    cold.pending = s.pending ∧ soft.pending = s.pending

/-- The array under a reset (R1, R3, R32, R105, R150, R157): lines outside the sectors whose erase is cut short and outside
the lines being programmed are unchanged; the lines being programmed stand as a program cut short leaves them; no line of
a sector whose erase is cut short shows a content it held before, a journal sector there shows no valid header, and an
anchor sector no commit line. That a reset cuts short an erase which the Reclaim Unit has requested and the array has not
begun is read from R32, R100 and R105 by inference (log entry 24). That a program cut short reaches its lines in order and
no further than the first that was not blank, and that a line it reached is left as the reset's operand names it, or
UNCORRECTABLE where that is no whole line, is read from R1, R3 and R150 by inference (log entry 15). -/
def Obligations.ResetKeepsArray : Prop :=
  ∀ (left : Residue) (s : State) (c : Instr), c = .coldReset left ∨ c = .softReset left → Canonical s →
    ∃ t, exec c s = .next t ∧
      (∀ n : Nat, (∀ i, CutByReset s.ctrl i → inSector i n = false) →
        (∀ who i first lines, s.ctrl.operation = some (who, .programLines i first lines) →
          n < lineNo i first ∨ lineNo i first + lines.length ≤ n) →
        memGet t.array n = memGet s.array n) ∧
      (∀ who i first lines, s.ctrl.operation = some (who, .programLines i first lines) →
        ∃ m, ProgramResidue i first lines.length left s m ∧
          ∀ n, (∀ j, CutByReset s.ctrl j → inSector j n = false) → memGet t.array n = memGet m n) ∧
      (∀ i, CutByReset s.ctrl i →
        (∀ n b, inSector i n = true → memGet t.array n ≠ none → (n, b) ∈ t.barred →
          readable (cellOutcome (memGet t.array n)) ≠ some b) ∧
        (IsJournal i → validSectorHeader (cellOutcome (memGet t.array (lineNo i 0))) = none) ∧
        (i.val < 2 → ∀ n b, inSector i n = true → readable (cellOutcome (memGet t.array n)) = some b →
          fieldAt b 0 4 ≠ Config.snapshotMarker)) ∧
      (∀ n x, (n, x) ∈ t.barred ↔ (n, x) ∈ s.barred ∨ ∃ i, CutByReset s.ctrl i ∧ inSector i n = true ∧
        ∃ y, memGet s.array n = some y ∧ readable (cellOutcome (some y)) = some x)

/-- The lists of the blocks are kept by every step: the journal list of R18, whose members are exactly the OPEN and
CLOSED sectors, at most one OPEN and the last, their epochs and record ranges rising; and the coverage lists of R63, in
order, disjoint and not adjacent, of at most 8 intervals, below 8,192 and the total. -/
def Obligations.ListsKept : Prop :=
  (∀ s t : State, AnchorsApart s → JournalHeld s → step s = .next t → JournalHeld t) ∧
  (∀ s t : State, CoverageHeld s → step s = .next t → CoverageHeld t)

/-- No command stops the machine: every command, in every state, has a next state; and a command whose occasion is not
present leaves the state as it is, the model's choice (log entry 6). In HALTED (R157, R181) no command but a reset
changes anything except the registers, and the controller and the array where an operation of the array ends, stops, is
resumed or reaches its limit: the array is left as the same end leaves it in any other device state, within the lines of
that operation and of the erase in hand; no request is taken, no outcome handed over, and nothing started. -/
def Obligations.EveryCommandCompletes : Prop :=
  (∀ (c : Instr) (s : State), ∃ t, exec c s = .next t) ∧
  (∀ (c : Instr) (s : State), ¬Occasion c s → exec c s = .next s) ∧
  (∀ (c : Instr) (s : State), s.host.device = .halted → isReset c = false →
    let ofArray := (∃ e r, c = .arrayOperationEnd e r) ∨ (∃ e, c = .eraseStopped e) ∨ (∃ e, c = .eraseResumed e) ∨
      ∃ e l, c = .arrayTimeout e l
    ∃ t, exec c s = .next t ∧
      t = { s with
        host := { s.host with
          enable := t.host.enable, setupLo := t.host.setupLo, setupHi := t.host.setupHi
          intCause := t.host.intCause, intMask := t.host.intMask, intMessages := t.host.intMessages }
        ctrl := t.ctrl, array := t.array, barred := t.barred } ∧
      (¬ofArray → t.ctrl = s.ctrl ∧ t.array = s.array ∧ t.barred = s.barred) ∧
      (ofArray → t.host = s.host ∧
        t.ctrl = { s.ctrl with
          state := t.ctrl.state, operation := t.ctrl.operation, erase := t.ctrl.erase, eraseTime := t.ctrl.eraseTime
          linesCorrected := t.ctrl.linesCorrected, linesUncorrectable := t.ctrl.linesUncorrectable } ∧
        (t.ctrl.operation = s.ctrl.operation ∨ t.ctrl.operation = none) ∧
        (t.ctrl.erase = s.ctrl.erase ∨ t.ctrl.erase = none) ∧
        (∃ u, exec c { s with host := { s.host with device := .online } } = .next u ∧
          t.array = u.array ∧ t.barred = u.barred) ∧
        (Canonical s → ∀ n : Nat, (∀ e, s.ctrl.erase = some e → inSector e.sector n = false) →
          (∀ who i, s.ctrl.operation = some (who, .eraseSector i) → inSector i n = false) →
          (∀ who i first lines, s.ctrl.operation = some (who, .programLines i first lines) →
            n < lineNo i first ∨ lineNo i first + lines.length ≤ n) →
          memGet t.array n = memGet s.array n)))

/-- The canonical forms of the array's contents and of staging memory are kept by every step. That an unlisted staging
byte is 00H is the model's choice (log entry 5). -/
def Obligations.CanonicalKept : Prop := ∀ s t : State, Canonical s → step s = .next t → Canonical t

/-- The invariants stated here hold after a cold reset. That every line of the array is erased then, and the values of
fields for which the manual gives none, are the model's choice (log entry 4). -/
def Obligations.InvariantsAtReset : Prop :=
  Canonical State.reset ∧ AnchorsApart State.reset ∧ JournalHeld State.reset ∧ BlocksApart State.reset ∧
  CoverageHeld State.reset ∧ CountersHeld State.reset

/-- R18: sectors 0 and 1, and no others, are ANCHOR in every state of the part. -/
def Obligations.AnchorsKept : Prop := ∀ s t : State, AnchorsApart s → step s = .next t → AnchorsApart t

/-- R62: every staging block stays on the free block list or in one block map. -/
def Obligations.BlocksKept : Prop := ∀ s t : State, BlocksApart s → step s = .next t → BlocksApart t

/-- The statistics counters never pass FFFFFFFFH (R81, R99, R115, R146, R158, R171). -/
def Obligations.CountersKept : Prop := ∀ s t : State, CountersHeld s → step s = .next t → CountersHeld t

/-! ### Registers (R172, R174, R186 to R188) -/

/-- The register window (R185, R186). What a read of each register gives, as the state stands, with the codes of R192
for STATE; the command that a write at each offset is, with the bytes not written taken as 0 and SOFT_RESET winning over
ENABLE; and REGISTER_WRITE: SETUP_LO and SETUP_HI are stored in every device state, the low six bits of SETUP_LO as 0, ID
and STATE ignore the write. -/
def Obligations.RegisterWrites : Prop :=
  (∀ h : HostUnit,
    h.readRegister 0x00 = some 0x10160001#32 ∧ h.readRegister 0x14 = some 0#32 ∧
    h.readRegister 0x0C = some h.setupLo ∧ h.readRegister 0x10 = some h.setupHi ∧
    (∃ v, h.readRegister 0x04 = some v ∧ ∀ k : Nat, v.getLsbD k = (decide (k = 0) && h.enable)) ∧
    (∃ v, h.readRegister 0x18 = some v ∧ ∀ k : Nat, v.getLsbD k = h.intCause.getLsbD k) ∧
    (∃ v, h.readRegister 0x1C = some v ∧ ∀ k : Nat, v.getLsbD k = h.intMask.getLsbD k) ∧
    (h.badIndex ≤ 255 → ∃ v, h.readRegister 0x08 = some v ∧
      deviceStates[(v.extractLsb' 0 4).toNat]? = some h.device ∧ v.extractLsb' 4 4 = 0#4 ∧
      reasons[(v.extractLsb' 8 8).toNat]? = some h.reason ∧ (v.extractLsb' 16 8).toNat = h.badIndex ∧
      v.extractLsb' 24 8 = 0#8)) ∧
  (∀ (enables : BitVec 4) (value : Word) (left : Residue), ∃ v : Word,
    (∀ k : Nat, v.getLsbD k = (value.getLsbD k && enables.getLsbD (k / 8))) ∧
    let command (offset : Nat) := registerWriteCommand offset enables value left
    command 0x00 = some (.registerWrite .id v) ∧ command 0x08 = some (.registerWrite .state v) ∧
    command 0x0C = some (.registerWrite .setupLo v) ∧ command 0x10 = some (.registerWrite .setupHi v) ∧
    command 0x14 = some (ringIndexCommand v) ∧ command 0x18 = some (.intCauseWrite v) ∧
    command 0x1C = some (.intMaskWrite v) ∧
    (v.getLsbD 1 = true → command 0x04 = some (.softReset left)) ∧
    (v.getLsbD 1 = false → v.getLsbD 0 = true → command 0x04 = some .ctrlEnableSet) ∧
    (v.getLsbD 1 = false → v.getLsbD 0 = false → command 0x04 = some .ctrlEnableClear)) ∧
  ∀ (v : Word) (s : State),
    exec (.registerWrite .id v) s = .next s ∧ exec (.registerWrite .state v) s = .next s ∧
    exec (.registerWrite .setupHi v) s = .next { s with host := { s.host with setupHi := v } } ∧
    ∃ lo : Word, exec (.registerWrite .setupLo v) s = .next { s with host := { s.host with setupLo := lo } } ∧
      ∀ k : Nat, lo.getLsbD k = (decide (6 ≤ k) && v.getLsbD k)

/-- R187: writes to INT_CAUSE and INT_MASK, in every device state, and a cause set before or after the write that
clears it. -/
def Obligations.InterruptWrites : Prop :=
  ∀ (v : Word) (s : State),
    let fires (cause mask : BitVec 4) (h : HostUnit) : Nat :=
      if h.intCause &&& ~~~h.intMask = 0#4 ∧ cause &&& ~~~mask ≠ 0#4 then h.intMessages + 1 else h.intMessages
    (exec (.intCauseWrite v) s = .next { s with host := { s.host with
      intCause := s.host.intCause &&& ~~~(v.setWidth 4)
      intMessages := fires (s.host.intCause &&& ~~~(v.setWidth 4)) s.host.intMask s.host } }) ∧
    (exec (.intMaskWrite v) s = .next { s with host := { s.host with
      intMask := v.setWidth 4
      intMessages := fires s.host.intCause (v.setWidth 4) s.host } }) ∧
    (∀ k : Nat, k < 4 → v.getLsbD k = true →
      (∃ t, exec (.intCauseWrite v) (s.onHost fun h => h.withCauses (1#4 <<< k)) = .next t ∧
        t.host.intCause.getLsbD k = false) ∧
      (∃ t, exec (.intCauseWrite v) s = .next t ∧ (t.host.withCauses (1#4 <<< k)).intCause.getLsbD k = true ∧
        (t.host.intMask.getLsbD k = false → t.host.intCause &&& ~~~t.host.intMask = 0#4 →
          (t.host.withCauses (1#4 <<< k)).intMessages = t.host.intMessages + 1)))

/-- R188: a RING_INDEX write, by its written value: its ring, the states that take it, and the cases that set
INDEX_ERROR and have no other effect. -/
def Obligations.RingIndexWrites : Prop :=
  ∀ (v : Word) (s : State),
    let selector := (v.extractLsb' 0 3).toNat
    let position := (v.extractLsb' 16 12).toNat
    let taken := s.host.device = .mounting ∨ s.host.device = .online ∨ s.host.device = .draining ∨
      s.host.device = .stopped
    let ahead (size old new : Nat) : Nat := (new + size - old) % size
    let error := { s with host := s.host.withCauses causeIndexError }
    (¬taken → exec (ringIndexCommand v) s = .next s) ∧
    (taken → 6 ≤ selector → exec (ringIndexCommand v) s = .next error) ∧
    (taken → ∀ c : Setup, s.host.setup = some c →
      (∀ ring : Fin 4, selector = ring.val →
        (c.rings[ring].weight = 0 ∨ c.rings[ring].size ≤ position → exec (ringIndexCommand v) s = .next error) ∧
        (c.rings[ring].weight ≠ 0 → position < c.rings[ring].size →
          exec (ringIndexCommand v) s = .next { s with host := { s.host with
            subTail := s.host.subTail.set ring position } })) ∧
      (selector = 4 →
        let bad := c.completionSize ≤ position ∨
          ahead c.completionSize s.host.completionHead s.host.completionTail
            < ahead c.completionSize s.host.completionHead position
        (bad → exec (ringIndexCommand v) s = .next error) ∧
        (¬bad → exec (ringIndexCommand v) s = .next { s with host := { s.host with completionHead := position } })) ∧
      (selector = 5 →
        let bad := c.noticeSize ≤ position ∨
          ahead c.noticeSize s.host.noticeHead s.host.noticeTail < ahead c.noticeSize s.host.noticeHead position
        (bad → exec (ringIndexCommand v) s = .next error) ∧
        (¬bad → exec (ringIndexCommand v) s = .next { s with host := { s.host with noticeHead := position } })))

/-- CTRL_ENABLE_SET (R172, R173, R186): from OFFLINE and STOPPED it enters SETUP, where the ring positions, the fetch
round and the lost count return to 0 and the setup block at the address held is asked for, or, with a host write in
progress, the entry waits; in other states it is stored. That the address is the one held on entry, also when the
entry waits, is read from R186 by inference (log entry 21). -/
def Obligations.EnableSet : Prop :=
  ∀ s : State,
    let address := (s.host.setupHi ++ s.host.setupLo) &&& ~~~63#64
    let entered := { s.host with enable := true, device := .setup, reason := .noReason, badIndex := 0 }
    let starts := s.host.device = .offline ∨ s.host.device = .stopped
    (¬starts → exec .ctrlEnableSet s = .next { s with host := { s.host with enable := true } }) ∧
    (starts → s.host.ringWrite ≠ none →
      exec .ctrlEnableSet s = .next { s with host := { entered with setupStage := .waiting address } }) ∧
    (starts → s.host.ringWrite = none →
      exec .ctrlEnableSet s = .next { s with host := setUp address entered })

/-- CTRL_ENABLE_CLEAR (R47, R48, R53, R64, R80, R89, R172, R180): stored in every state; from ONLINE the part enters
DRAINING with the drain mark set: the GATHERING contexts are discarded or become ABORTING with their notices, the
positions below COMPLETE ones are skipped, admission runs, a held APPEND is refused ABORTED, and a writer in
WAITING_SPACE asks for a sector again. That the writer's question comes after everything the Assembly Unit does, the held
APPEND included, is the model's choice (log entry 9). Where freed blocks join the free block list is the model's
choice (log entry 17). -/
def Obligations.EnableClear : Prop :=
  ∀ s : State,
    (s.host.device ≠ .online →
      exec .ctrlEnableClear s = .next { s with host := { s.host with enable := false } }) ∧
    (s.host.device = .online → ∃ m₁ m₂ m₃ m₄ t, exec .ctrlEnableClear s = .next t ∧
      ContextsDrained { s with
        host := { s.host with
          enable := false, device := .draining, reason := .noReason, badIndex := 0, statusMark := true, stateSince := true }
        assembly := { s.assembly with drainMark := true } } m₁ ∧
      DrainSkipped m₁ m₂ ∧ RunAll (List.finRange 16) m₂ m₃ ∧
      (s.assembly.held = none → m₄ = m₃) ∧
      (∀ slot cmd, s.assembly.held = some ⟨slot, cmd⟩ → row cmd = .append → m₄ = { m₃ with
        host := answered slot .aborted {} m₃.host
        assembly := { m₃.assembly with
          held := none, fragmentsRefused := min (s.assembly.fragmentsRefused + 1) 0xFFFFFFFF } }) ∧
      (s.writer.state ≠ .waitingSpace → t = m₄) ∧
      (s.writer.state = .waitingSpace → ∀ i c n epoch, InHand m₄ i c n epoch → SectorAsked i c n epoch m₄ t) ∧
      t.host.device = .draining ∧ t.host.enable = false ∧ t.host.reason = .noReason ∧ t.host.statusMark = true ∧
      t.assembly.drainMark = true ∧
      (∀ (i : CtxNo) (x : Context), t.assembly.contexts[i] = some x → x.state ≠ .gathering) ∧
      t.reclaim = s.reclaim ∧ t.holds = s.holds ∧ t.anchor = s.anchor ∧ t.reader = s.reader ∧ t.mount = s.mount ∧
      t.array = s.array ∧ t.staging = s.staging ∧ t.pending = s.pending)

/-! ### Setup (R173, R189) -/

/-- The tests of the setup block are made in index order and stop at the first field that fails (R173). That an area past
the top of the address space is neither cut, wrapped nor refused is the model's choice (log entry 26). -/
def Obligations.SetupFieldsInOrder : Prop :=
  ∀ c : Setup,
    (∀ k, c.firstFault = some k ↔ k ≤ 18 ∧ ¬fieldPasses c k ∧ ∀ j, j < k → fieldPasses c j) ∧
    (c.firstFault = none ↔ ∀ j, j ≤ 18 → fieldPasses c j)

/-- The setup block's layout (R189): a 128-byte block that carries a setup in its places is read as that setup. -/
def Obligations.SetupLayout : Prop :=
  ∀ c : Setup,
    (∀ i : Fin 4, c.rings[i].size < 2 ^ 32 ∧ c.rings[i].weight < 256) → c.completionSize < 2 ^ 32 →
    c.noticeSize < 2 ^ 32 → c.tickPeriod < 65536 → c.reserve < 256 →
    ∀ (r0 r1 r2 r3 a b tail : List Byte), r0.length = 3 → r1.length = 3 → r2.length = 3 → r3.length = 3 →
      a.length = 4 → b.length = 4 → tail.length = 21 →
      let ring (i : Fin 4) : List Byte :=
        leBytes 8 c.rings[i].base.toNat ++ leBytes 4 c.rings[i].size ++ leBytes 1 c.rings[i].weight
      let block := ring 0 ++ r0 ++ ring 1 ++ r1 ++ ring 2 ++ r2 ++ ring 3 ++ r3 ++ leBytes 8 c.completionBase.toNat
        ++ leBytes 4 c.completionSize ++ a ++ leBytes 8 c.noticeBase.toNat ++ leBytes 4 c.noticeSize ++ b
        ++ leBytes 8 c.statusAddress.toNat ++ leBytes 2 c.tickPeriod ++ leBytes 1 c.reserve ++ tail
      block.length = 128 ∧ parseSetup block = c

/-- SETUP_READ_END (R172, R173): the read fails, the block is invalid, or its fields become the setup copy and the
state changes by CTRL.ENABLE and the mounted mark. -/
def Obligations.SetupReadEnds : Prop :=
  ∀ (s : State) (address : Addr), s.host.device = .setup → s.host.setupStage = .reading address →
    let ended := { s.host with setupStage := .idle }
    (exec (.setupReadEnd none) s = .next { s with host := stopped .offline .setupReadError 0 ended }) ∧
    (∀ l k, (parseSetup l).firstFault = some k →
      exec (.setupReadEnd (some l)) s = .next { s with host := stopped .offline .setupInvalid k ended }) ∧
    (∀ l, (parseSetup l).firstFault = none →
      let h := { s.host with
        setup := some (parseSetup l), setupStage := .idle, statusMark := true, reason := .noReason, badIndex := 0
        stateSince := true }
      (s.host.enable = false → exec (.setupReadEnd (some l)) s = .next { s with host := { h with device := .stopped } }) ∧
      (s.host.enable = true → s.mount.mounted = true →
        exec (.setupReadEnd (some l)) s = .next { s with
          host := { h with device := .online }
          assembly := { s.assembly with drainMark := false }
          reclaim := { s.reclaim with
            signal := if s.reclaim.state = .idle then true else s.reclaim.signal } }) ∧
      (s.host.enable = true → s.mount.mounted = false →
        exec (.setupReadEnd (some l)) s = .next { s with
          host := { h with device := .mounting }
          mount := { Mount.reset s.mount.resetKind with phase := .anchorScan, position := .slot 0 0 }
          ctrl := asked .mount (.readLines 0 0 19) s.ctrl }))

/-! ### Fetching and routing (R175, R176, R190) -/

/-- FETCH_BEGIN (R175): with a FREE slot, credit and a pending entry, the lowest FREE slot is claimed for the ring
whose turn it is, and the entry is read at the ring's base plus 64 times its head; with no pending entry, or for want of
credit, the round keeps its place. That the round keeps its place is read from R175 by inference (log entry 22), and that
the sum is taken modulo 2^64 is the model's choice (log entry 26). -/
def Obligations.FetchBegins : Prop :=
  ∀ (s : State) (c : Setup) (i : SlotNo), s.host.device = .online → s.host.fetch = none → s.host.setup = some c →
    s.host.slots[i] = .free → (∀ j : SlotNo, j < i → s.host.slots[j] ≠ .free) →
    let credit := s.host.slotsInUse + s.host.completionsPosted c < c.completionSize - 1
    let claims (ring : Fin 4) (yielded : Nat) := { s with host := { s.host with
      slots := s.host.slots.set i (.fetching ring), fetch := some (i, ring), roundRing := ring, roundYield := yielded } }
    let r := s.host.roundRing
    let goesOn := 0 < s.host.pendingEntries c r ∧ s.host.roundYield < c.rings[r].weight
    (∀ ring yielded, (claims ring yielded).host.fetchAddress =
      some (c.rings[ring].base + BitVec.ofNat 64 (64 * s.host.subHead[ring]))) ∧
    (credit → goesOn → exec .fetchBegin s = .next (claims r (s.host.roundYield + 1))) ∧
    (credit → ¬goesOn → ∀ d : Nat, 1 ≤ d → d ≤ 4 → 0 < s.host.pendingEntries c (r + Fin.ofNat 4 d) →
      (∀ e : Nat, 1 ≤ e → e < d → s.host.pendingEntries c (r + Fin.ofNat 4 e) = 0) →
      exec .fetchBegin s = .next (claims (r + Fin.ofNat 4 d) 1)) ∧
    ((∀ ring, s.host.pendingEntries c ring = 0) → exec .fetchBegin s = .next s) ∧
    (¬credit → exec .fetchBegin s = .next s)

/-- SUBMISSION_FETCH_END (R175, R176): a failed read halts the part; else the head advances, the status mark is set,
the slot records the ring, tag, kind and owner, and the command is refused or joins its owner's queue. -/
def Obligations.FetchEnds : Prop :=
  ∀ (s : State) (c : Setup) (i : SlotNo) (ring : Fin 4), Takes s → s.host.setup = some c →
    s.host.fetch = some (i, ring) →
    (exec (.submissionFetchEnd none) s = .next { s with host := stopped .halted .submissionReadError 0 s.host }) ∧
    (∀ l : List Byte,
      let h (owner : Option Owner) : HostUnit := { s.host with
        fetch := none
        subHead := s.host.subHead.set ring ((s.host.subHead[ring] + 1) % c.rings[ring].size)
        statusMark := true
        slots := s.host.slots.set i (.taken ring (BitVec.ofNat 16 (fieldAt l 2 2)) (BitVec.ofNat 8 (fieldAt l 0 1)) owner) }
      (entryVerdict l = .badKind → exec (.submissionFetchEnd (some l)) s =
        .next { s with host := answered i .badKind {} (h none) }) ∧
      (entryVerdict l = .badField → exec (.submissionFetchEnd (some l)) s =
        .next { s with host := answered i .badField {} (h none) }) ∧
      (∀ cmd,
        (entryVerdict l = .command .assembly cmd → exec (.submissionFetchEnd (some l)) s = .next { s with
          host := h (some .assembly), assembly := { s.assembly with queue := s.assembly.queue ++ [⟨i, cmd⟩] } }) ∧
        (entryVerdict l = .command .readUnit cmd → exec (.submissionFetchEnd (some l)) s = .next { s with
          host := h (some .readUnit), reader := { s.reader with queue := s.reader.queue ++ [⟨i, cmd⟩] } }) ∧
        (entryVerdict l = .command .holdTable cmd → exec (.submissionFetchEnd (some l)) s = .next { s with
          host := h (some .holdTable), holds := { s.holds with queue := s.holds.queue ++ [⟨i, cmd⟩] } }) ∧
        (entryVerdict l = .command .sectorTable cmd → exec (.submissionFetchEnd (some l)) s = .next { s with
          host := h (some .sectorTable), table := { s.table with queue := s.table.queue ++ [⟨i, cmd⟩] } }) ∧
        (entryVerdict l = .command .reclaim cmd → exec (.submissionFetchEnd (some l)) s = .next { s with
          host := h (some .reclaim), reclaim := { s.reclaim with queue := s.reclaim.queue ++ [⟨i, cmd⟩] } }) ∧
        (entryVerdict l = .command .hostRing cmd → exec (.submissionFetchEnd (some l)) s = .next { s with
          host := { h (some .hostRing) with queue := s.host.queue ++ [⟨i, cmd⟩] } })))

/-- The submission entries of R190 with the ranges of R41, R42, R64, R74, R117, R119, R133 and R176: every kind, what
it carries, its owner, and when it is refused. -/
def Obligations.EntryVerdicts : Prop :=
  ∀ l : List Byte,
    let f := fieldAt l
    let flag : Bool := f 1 1 % 2 == 1
    let address : Addr := BitVec.ofNat 64 (f 16 8)
    let named (n : Nat) : Prop := 1 ≤ n ∧ n ≤ 0xFFFFFFFE
    (f 0 1 = 0 ∨ 10 < f 0 1 → entryVerdict l = .badKind) ∧
    (f 0 1 = 1 → ∀ st : StreamNo, f 4 1 = st.val → f 8 2 ≤ 8191 → 1 ≤ f 10 2 → f 10 2 ≤ 4096 →
      entryVerdict l = .command .assembly (.append st (BitVec.ofNat 16 (f 6 2)) (f 8 2) (f 10 2) flag
        (BitVec.ofNat 32 (f 12 4)) address)) ∧
    (f 0 1 = 1 → 16 ≤ f 4 1 ∨ 8191 < f 8 2 ∨ f 10 2 = 0 ∨ 4096 < f 10 2 → entryVerdict l = .badField) ∧
    (f 0 1 = 2 → ∀ st : StreamNo, f 4 1 = st.val → 1 ≤ f 5 1 → f 5 1 ≤ 8 →
      entryVerdict l = .command .assembly (.openStream st (f 5 1) (f 6 1) flag (BitVec.ofNat 16 (f 8 2)))) ∧
    (f 0 1 = 2 → 16 ≤ f 4 1 ∨ f 5 1 = 0 ∨ 8 < f 5 1 → entryVerdict l = .badField) ∧
    (f 0 1 = 3 → ∀ st : StreamNo, f 4 1 = st.val → entryVerdict l = .command .assembly (.closeStream st flag)) ∧
    (f 0 1 = 4 → ∀ st : StreamNo, f 4 1 = st.val →
      entryVerdict l = .command .assembly (.abortRecord st (BitVec.ofNat 16 (f 6 2)))) ∧
    (f 0 1 = 5 → named (f 8 4) → 32 ≤ f 12 4 →
      entryVerdict l = .command .readUnit (.read (f 8 4) address (f 12 4) flag)) ∧
    (f 0 1 = 5 → ¬named (f 8 4) ∨ f 12 4 < 32 → entryVerdict l = .badField) ∧
    (f 0 1 = 6 → named (f 8 4) → 32 ≤ f 12 4 → 1 ≤ f 5 1 → f 5 1 ≤ 64 →
      (f 4 1 = 0xFF → entryVerdict l = .command .readUnit (.scan (f 8 4) none (f 5 1) address (f 12 4))) ∧
      (∀ st : StreamNo, f 4 1 = st.val →
        entryVerdict l = .command .readUnit (.scan (f 8 4) (some st) (f 5 1) address (f 12 4)))) ∧
    (f 0 1 = 6 → ¬named (f 8 4) ∨ f 12 4 < 32 ∨ f 5 1 = 0 ∨ 64 < f 5 1 ∨ (16 ≤ f 4 1 ∧ f 4 1 ≠ 0xFF) →
      entryVerdict l = .badField) ∧
    (f 0 1 = 7 → named (f 8 4) → f 4 1 ≤ 1 →
      (flag = true → entryVerdict l =
        .command .holdTable (.hold (f 8 4) none (f 4 1 == 1) (BitVec.ofNat 32 (f 16 4)))) ∧
      (flag = false → named (f 12 4) → f 8 4 ≤ f 12 4 → entryVerdict l =
        .command .holdTable (.hold (f 8 4) (some (f 12 4)) (f 4 1 == 1) (BitVec.ofNat 32 (f 16 4))))) ∧
    (f 0 1 = 7 → ¬named (f 8 4) ∨ 1 < f 4 1 ∨ (flag = false ∧ (¬named (f 12 4) ∨ f 12 4 < f 8 4)) →
      entryVerdict l = .badField) ∧
    (f 0 1 = 8 → ∀ id : Fin 16, f 4 1 = id.val → entryVerdict l = .command .holdTable (.release id)) ∧
    (f 0 1 = 9 → f 4 1 = 0 → entryVerdict l = .command .sectorTable (.query .sectors flag address (f 12 4))) ∧
    (f 0 1 = 9 → f 4 1 = 1 → entryVerdict l = .command .assembly (.query .streams flag address (f 12 4))) ∧
    (f 0 1 = 9 → f 4 1 = 2 → entryVerdict l = .command .holdTable (.query .holds flag address (f 12 4))) ∧
    (f 0 1 = 9 → f 4 1 = 3 → entryVerdict l = .command .hostRing (.query .stats flag address (f 12 4))) ∧
    (f 0 1 = 9 → 4 ≤ f 4 1 → entryVerdict l = .badField) ∧
    (f 0 1 = 3 ∨ f 0 1 = 4 ∨ f 0 1 = 8 → 16 ≤ f 4 1 → entryVerdict l = .badField) ∧
    (f 0 1 = 10 → entryVerdict l = .command .reclaim .wipe)

/-! ### Posting and the status block (R177 to R180) -/

/-- POSTING_BEGIN (R177, R178): the oldest entry of the posting queue is taken to be written; a notice that would fill
the notice ring is dropped and counted; while a write is in progress or the device does not write, nothing begins.
That a status block write bars it too is read by inference (log entry 20), and that the address of an entry is taken
modulo 2^64 is the model's choice (log entry 26). -/
def Obligations.PostingBegins : Prop :=
  ∀ (s : State) (c : Setup), s.host.setup = some c →
    let writes := s.host.device = .mounting ∨ s.host.device = .online ∨ s.host.device = .draining ∨
      s.host.device = .stopped
    (¬writes ∨ s.host.ringWrite ≠ none ∨ s.host.posting = [] → exec .postingBegin s = .next s) ∧
    (writes → s.host.ringWrite = none →
      (∀ i status r rest, s.host.posting = .outcome i status r :: rest →
        exec .postingBegin s = .next { s with host := { s.host with
          ringWrite := some (.completion ⟨c.completionBase + BitVec.ofNat 64 (16 * s.host.completionTail),
            completionEntry s.host.slots[i] status r⟩) } }) ∧
      (∀ n rest, s.host.posting = .notice n :: rest →
        let filled := (s.host.noticeTail + c.noticeSize - s.host.noticeHead) % c.noticeSize + 1 = c.noticeSize
        (filled → exec .postingBegin s = .next { s with host := { s.host with
          posting := rest, lostCount := min (s.host.lostCount + 1) 255
          noticesLost := min (s.host.noticesLost + 1) 0xFFFFFFFF } }) ∧
        (¬filled → exec .postingBegin s = .next { s with host := { s.host with
          ringWrite := some (.notice ⟨c.noticeBase + BitVec.ofNat 64 (16 * s.host.noticeTail),
            noticeEntry n s.host.lostCount⟩) } })))

/-- The ring entries of R190 and the status block of R189, with the codes of R192: sizes, places, and reserved bytes
as 0 (R184). -/
def Obligations.EntryLayouts : Prop :=
  (∀ (ring : Fin 4) (tag : BitVec 16) (kind : Byte) (owner : Option Owner) (status : Status) (r : Results),
    let e := completionEntry (.taken ring tag kind owner) status r
    e.length = 16 ∧ fieldAt e 0 1 = ring.val ∧ (fieldAt e 1 1, status) ∈ statusCodes ∧ fieldAt e 2 2 = tag.toNat ∧
    fieldAt e 4 4 = r.at4.toNat ∧ fieldAt e 8 4 = r.at8.toNat ∧ fieldAt e 12 2 = r.at12.toNat ∧
    fieldAt e 14 1 = r.at14.toNat ∧ fieldAt e 15 1 = 0) ∧
  (∀ (n : Notice) (lost : Nat), lost ≤ 255 →
    let e := noticeEntry n lost
    let f (i k : Nat) : Nat := fieldAt e i k
    e.length = 16 ∧ f 1 1 = lost ∧ f 2 2 = 0 ∧
    match n with
    | .assemblyExpired st seq => f 0 1 = 0x01 ∧ f 4 1 = st.val ∧ f 5 1 = 0 ∧ f 6 2 = seq.toNat ∧ f 8 8 = 0
    | .assemblyDrained st seq => f 0 1 = 0x02 ∧ f 4 1 = st.val ∧ f 5 1 = 0 ∧ f 6 2 = seq.toNat ∧ f 8 8 = 0
    | .sequenceSkipped st seq => f 0 1 = 0x03 ∧ f 4 1 = st.val ∧ f 5 1 = 0 ∧ f 6 2 = seq.toNat ∧ f 8 8 = 0
    | .recordsExpired i first last => f 0 1 = 0x04 ∧ f 4 1 = i.val ∧ f 5 3 = 0 ∧ f 8 4 = first % 2 ^ 32 ∧
        f 12 4 = last % 2 ^ 32
    | .sectorRetired i r => f 0 1 = 0x05 ∧ f 4 1 = i.val ∧ retireReasons[f 5 1]? = some r ∧ f 6 10 = 0
    | .weakSector i => f 0 1 = 0x06 ∧ f 4 1 = i.val ∧ f 5 11 = 0
    | .journalFull => f 0 1 = 0x07 ∧ f 4 12 = 0
    | .journalSpace => f 0 1 = 0x08 ∧ f 4 12 = 0
    | .anchorFailed => f 0 1 = 0x09 ∧ f 4 12 = 0
    | .mountDone committed torn members free dirty retired => f 0 1 = 0x0A ∧ f 4 4 = committed % 2 ^ 32 ∧
        f 8 1 = torn % 256 ∧ f 9 1 = members % 256 ∧ f 10 1 = free % 256 ∧ f 11 1 = dirty % 256 ∧
        f 12 1 = retired % 256 ∧ f 13 3 = 0) ∧
  (∀ h : HostUnit,
      let b := h.statusBlock
      b.length = 64 ∧ (∀ i : Fin 4, fieldAt b (2 * i.val) 2 = h.subHead[i] % 65536) ∧
      fieldAt b 8 2 = h.completionTail % 65536 ∧ fieldAt b 10 2 = h.noticeTail % 65536 ∧
      deviceStates[fieldAt b 12 1]? = some h.device ∧ reasons[fieldAt b 13 1]? = some h.reason ∧
      fieldAt b 14 1 = h.badIndex % 256 ∧ fieldAt b 15 1 = 0 ∧ fieldAt b 16 4 = h.writeCount.toNat ∧ fieldAt b 20 44 = 0)

/-- COMPLETION_WRITE_END and NOTICE_WRITE_END (R177, R178, R173): a failure halts the part; else the tail advances, a
command's slot becomes FREE, the lost count returns to 0 with a notice, the status mark is set; and a SETUP that was
waiting for the write goes on to its read, at the address that the registers held on entry, which is read from R186 by
inference (log entry 21). -/
def Obligations.EntryWritesEnd : Prop :=
  ∀ (s : State) (c : Setup), s.host.setup = some c → s.host.device ≠ .halted →
    let halts (r : Reason) := { s with host := stopped .halted r 0 s.host }
    (∀ w i status r rest, s.host.ringWrite = some (.completion w) → s.host.posting = .outcome i status r :: rest →
      let h := { s.host with
        ringWrite := none, completionTail := (s.host.completionTail + 1) % c.completionSize
        slots := s.host.slots.set i .free, posting := rest, statusMark := true, completionsSince := true }
      exec (.completionWriteEnd false) s = .next (halts .completionWriteError) ∧
      (NoneWaits s.host → exec (.completionWriteEnd true) s = .next { s with host := h }) ∧
      (∀ address, s.host.setupStage = .waiting address → s.host.device = .setup →
        exec (.completionWriteEnd true) s = .next { s with host := setUp address h })) ∧
    (∀ w n rest, s.host.ringWrite = some (.notice w) → s.host.posting = .notice n :: rest →
      let h := { s.host with
        ringWrite := none, noticeTail := (s.host.noticeTail + 1) % c.noticeSize, posting := rest
        lostCount := 0, statusMark := true, noticesSince := true }
      exec (.noticeWriteEnd false) s = .next (halts .noticeWriteError) ∧
      (NoneWaits s.host → exec (.noticeWriteEnd true) s = .next { s with host := h }) ∧
      (∀ address, s.host.setupStage = .waiting address → s.host.device = .setup →
        exec (.noticeWriteEnd true) s = .next { s with host := setUp address h }))

/-- STATUS_WRITE_BEGIN and STATUS_WRITE_END (R177, R173): the mark clears and the status block is written as things
stand, the write count risen by 1; when the write is done, the causes it carries are set, and a SETUP that was waiting for
the write goes on to its read; a failure halts the part. That the count rises as the write begins is read from R177 by
inference, and that it goes from FFFFFFFFH to 0 is the model's choice (log entry 16). That the setup block is read at the
address which the registers held on entry is read from R186 by inference (log entry 21). -/
def Obligations.StatusWrites : Prop :=
  ∀ (s : State) (c : Setup), s.host.setup = some c →
    let writes := s.host.device = .mounting ∨ s.host.device = .online ∨ s.host.device = .draining ∨
      s.host.device = .stopped
    (writes → s.host.ringWrite = none → s.host.statusMark = true →
      let h := { s.host with statusMark := false, writeCount := s.host.writeCount + 1#32 }
      exec .statusWriteBegin s = .next { s with host := { h with
        ringWrite := some (.status ⟨c.statusAddress, h.statusBlock⟩ s.host.completionsSince s.host.noticesSince
          s.host.stateSince)
        completionsSince := false, noticesSince := false, stateSince := false } }) ∧
    (¬writes ∨ s.host.ringWrite ≠ none ∨ s.host.statusMark = false → exec .statusWriteBegin s = .next s) ∧
    (∀ w a b d, s.host.ringWrite = some (.status w a b d) → s.host.device ≠ .halted →
      exec (.statusWriteEnd false) s = .next { s with host := stopped .halted .statusWriteError 0 s.host } ∧
      ∃ causes : BitVec 4,
        causes.getLsbD 0 = a ∧ causes.getLsbD 1 = b ∧ causes.getLsbD 2 = d ∧ causes.getLsbD 3 = false ∧
        let h := ({ s.host with ringWrite := none } : HostUnit).withCauses causes
        (NoneWaits s.host → exec (.statusWriteEnd true) s = .next { s with host := h }) ∧
        ∀ address, s.host.setupStage = .waiting address → s.host.device = .setup →
          exec (.statusWriteEnd true) s = .next { s with host := setUp address h })

/-- DRAIN_END (R172, R173, R180): when everything R180 lists has come to rest, DRAINING ends in STOPPED, or with
CTRL.ENABLE set passes on to SETUP, which begins its read, or waits for a host write in progress; a request or outcome of
the array on its way is array work too (log entry 8). That the setup block is read at the address which the registers
hold on entry is read from R186 by inference (log entry 21). -/
def Obligations.DrainEnds : Prop :=
  ∀ s : State, s.host.device = .draining →
    let rest := (∀ i : SlotNo, s.host.slots[i] = .free) ∧ s.host.posting = [] ∧ s.host.fetch = none ∧
      s.writer.queue = [] ∧ s.writer.state = .idle ∧ s.anchor.state = .idle ∧ s.reader.active = none ∧
      s.reader.fifo = [] ∧ s.ctrl.state = .idle ∧ s.ctrl.placed = .empty ∧ s.ctrl.outcomes = .empty
    (¬rest → exec .drainEnd s = .next s) ∧
    let address := (s.host.setupHi ++ s.host.setupLo) &&& ~~~63#64
    let left (d : DeviceState) := { s.host with
      device := d, reason := .noReason, badIndex := 0, statusMark := true, stateSince := true }
    (rest → s.host.enable = false → exec .drainEnd s = .next { s with host := left .stopped }) ∧
    (rest → s.host.enable = true → s.host.ringWrite ≠ none →
      exec .drainEnd s = .next { s with host := { left .setup with setupStage := .waiting address } }) ∧
    (rest → s.host.enable = true → s.host.ringWrite = none →
      exec .drainEnd s = .next { s with host := setUp address (left .setup) })

/-! ### QUERY (R37, R56, R131, R183) -/

/-- QUERY_SECTORS, QUERY_STREAMS, QUERY_HOLDS and QUERY_STATS (R37, R38, R56, R57, R131, R183, R191, R192):
SHORT_BUFFER with the needed length, or the output, each field at its place, is given to be written; with CLEAR, QUERY
STATS then sets every counter to 0. Which bits of a wear or generation past FFFFFFFFH the output carries is the
model's choice (log entry 23). -/
def Obligations.QueriesTaken : Prop :=
  ∀ (s : State) (slot : SlotNo) (clear : Bool) (address : Addr) (length : Nat) (rest : List Routed), Takes s →
    let short (needed : Nat) := answered slot .shortBuffer { at8 := BitVec.ofNat 32 needed } s.host
    let written (bytes : List Byte) := { s.host with
      queryWrites := s.host.queryWrites ++ [⟨slot, address, bytes⟩] }
    (HeadIs s.table.queue slot (.query .sectors clear address length) rest →
      (length < 8224 → exec .querySectors s = .next { s with host := short 8224, table := { s.table with queue := rest } }) ∧
      (8224 ≤ length → ∃ out, SectorsOutput s.table out ∧ exec .querySectors s = .next { s with
        host := written out, table := { s.table with queue := rest } })) ∧
    (s.assembly.held = none → HeadIs s.assembly.queue slot (.query .streams clear address length) rest →
      (length < 544 → exec .queryStreams s =
        .next { s with host := short 544, assembly := { s.assembly with queue := rest } }) ∧
      (544 ≤ length → ∃ out, StreamsOutput s.assembly s.writer.queue.length out ∧ exec .queryStreams s = .next { s with
        host := written out, assembly := { s.assembly with queue := rest } })) ∧
    (HeadIs s.holds.queue slot (.query .holds clear address length) rest →
      (length < 576 → exec .queryHolds s = .next { s with host := short 576, holds := { s.holds with queue := rest } }) ∧
      (576 ≤ length → ∃ out, HoldsOutput s.holds s.anchor out ∧ exec .queryHolds s = .next { s with
        host := written out, holds := { s.holds with queue := rest } })) ∧
    (HeadIs s.host.queue slot (.query .stats clear address length) rest →
      (length < 128 → exec .queryStats s = .next { s with host := { short 128 with queue := rest } }) ∧
      (128 ≤ length → ∃ out, StatsOutput s out ∧
        (clear = false → exec .queryStats s = .next { s with host := { written out with queue := rest } }) ∧
        (clear = true → exec .queryStats s = .next { s with
          host := { written out with queue := rest, noticesLost := 0 }
          assembly := { s.assembly with fragmentsAccepted := 0, fragmentsRefused := 0 }
          writer := { s.writer with recordsCommitted := 0, bytesCommitted := 0, recordsFailed := 0 }
          reclaim := { s.reclaim with sectorsErased := 0, sectorsRetired := 0 }
          ctrl := { s.ctrl with suspensions := 0, linesCorrected := 0, linesUncorrectable := 0 }
          reader := { s.reader with completed := 0 } })))

/-- QUERY_WRITE_END: OK with the bytes written, or HOST_WRITE_ERROR. -/
def Obligations.QueryWriteEnds : Prop :=
  ∀ (s : State) (before after : List QueryWrite) (slot : SlotNo) (w : BusWrite), s.host.device ≠ .halted →
    s.host.queryWrites = before ++ ⟨slot, w⟩ :: after → (∀ q ∈ before ++ after, q.slot ≠ slot) →
    let h := { s.host with queryWrites := before ++ after }
    exec (.queryWriteEnd slot true) s =
      .next { s with host := answered slot .ok { at8 := BitVec.ofNat 32 w.bytes.length } h } ∧
    exec (.queryWriteEnd slot false) s = .next { s with host := answered slot .hostWriteError {} h }

/-! ### The Assembly Unit's commands (R41 to R48, R60 to R67, R74, R75) -/

/-- APPEND (R60, R64 to R67, R81): held while a context of its sequence has four transfers in flight; else the tests in their order,
each with its refusal, and the fragment's acceptance with the blocks it needs. Which free blocks are taken is the
model's choice (log entry 17). -/
def Obligations.AppendTaken : Prop :=
  ∀ (s : State) (slot : SlotNo) (st : StreamNo) (seq : Seq) (offset length : Nat) (last : Bool) (tag : Word)
    (address : Addr) (rest : List Routed), Takes s → s.assembly.held = none →
    HeadIs s.assembly.queue slot (.append st seq offset length last tag address) rest →
    let a := s.assembly
    let e := a.streams[st]
    let d := (seq - e.nextAdmission).toNat
    let upTo := offset + length
    let early : Option Status :=
      if a.drainMark = true then some .aborted else if e.state ≠ .opened then some .streamClosed
      else if 32768 ≤ d then some .stale else if 8 ≤ d then some .ahead
      else if e.abandoned.getLsbD d = true then some .abandoned else none
    let late (c : Context) : Option Status :=
      if 8192 < upTo then some .beyondEnd
      else if ∃ iv ∈ c.coverage, iv.1 < upTo ∧ offset < iv.2 then some .overlap
      else if 8 < c.pieces + 1 then some .scattered
      else if c.total.getD upTo < upTo ∨ (last = true ∧ ∃ iv ∈ c.coverage, upTo < iv.2) then some .beyondEnd
      else if a.freeBlocks.length < (absentEntries c.blockMap offset length).length then some .poolExhausted else none
    let refused (r : Status) := { s with
      host := answered slot r {} s.host
      assembly := { a with queue := rest, fragmentsRefused := min (a.fragmentsRefused + 1) 0xFFFFFFFF } }
    let accepted (i : CtxNo) (c : Context) :=
      let filled := fillEntries c.blockMap (absentEntries c.blockMap offset length) a.freeBlocks
      { s with assembly := { a with
        queue := rest, freeBlocks := filled.2, fragmentsAccepted := min (a.fragmentsAccepted + 1) 0xFFFFFFFF
        contexts := a.contexts.set i (some { c with
          blockMap := filled.1, coverage := addInterval offset upTo c.coverage
          transfers := c.transfers ++ [⟨slot, offset, length, last, address⟩], age := 0
          total := if last then some upTo else c.total, tag := if last then some tag else c.tag }) } }
    let judged (verdict : Option Status) (i : CtxNo) (c : Context) : Prop :=
      (verdict = none → exec .append s = .next (accepted i c)) ∧
      ∀ r, verdict = some r → exec .append s = .next (refused r)
    let fresh : Context := ⟨.gathering, st, seq, none, none, [], [], Vector.replicate 16 none, 0, none, 0⟩
    let room := a.countContexts (fun c => c.stream == st) < e.limit
    (∀ (i : CtxNo) c, a.contexts[i] = some c → c.stream = st → c.seq = seq → a.drainMark = false →
      4 ≤ c.transfers.length → exec .append s = .next { s with
        assembly := { a with queue := rest, held := some ⟨slot, .append st seq offset length last tag address⟩ } }) ∧
    (∀ i c, Sole a st seq i c → c.state.inWindow = true → a.drainMark = true ∨ c.transfers.length < 4 →
      judged ((early.or (if c.state = .aborting then some .aborted else none)).or (late c)) i c) ∧
    (Unmet a st seq →
      (¬room → exec .append s = .next (refused (early.getD .streamBusy))) ∧
      (room → (∀ i : CtxNo, a.contexts[i] ≠ none) → exec .append s = .next (refused (early.getD .noContext))) ∧
      (room → ∀ i : CtxNo, a.contexts[i] = none → (∀ j : CtxNo, j < i → a.contexts[j] ≠ none) →
        judged (early.or (late fresh)) i fresh))

/-- OPEN_STREAM (R41): refused while a wipe is active or unless the stream is CLOSED; else the stream opens with the
command's limits at the number given, or at the one recovered. -/
def Obligations.OpenStreamTaken : Prop :=
  ∀ (s : State) (slot : SlotNo) (st : StreamNo) (limit ageLimit : Nat) (explicit : Bool) (first : Seq)
    (rest : List Routed), Takes s → s.assembly.held = none →
    HeadIs s.assembly.queue slot (.openStream st limit ageLimit explicit first) rest →
    let a := s.assembly
    let e := a.streams[st]
    let refused (r : Status) := { s with host := answered slot r {} s.host, assembly := { a with queue := rest } }
    let number : Seq := if explicit then first else e.recovered.getD 0#16
    (s.reclaim.wipeActive = true → exec .openStream s = .next (refused .wipeActive)) ∧
    (s.reclaim.wipeActive = false → e.state ≠ .closed → exec .openStream s = .next (refused .streamOpen)) ∧
    (s.reclaim.wipeActive = false → e.state = .closed → exec .openStream s = .next { s with
      host := answered slot .ok { at4 := number.setWidth 32 } s.host
      assembly := { a with queue := rest, streams := a.streams.set st { e with
        state := .opened, nextAdmission := number, limit := limit, ageLimit := ageLimit, abandoned := 0#8
        stallAge := 0, gapPending := false, committed := 0 } } })

/-- CLOSE_STREAM (R42 to R44): refused, or the stream becomes CLOSED; with ABORT and contexts left, each context goes
as R43 says, and the stream is CLOSING with the command as its pending close, or CLOSED if none is left. -/
def Obligations.CloseStreamTaken : Prop :=
  ∀ (s : State) (slot : SlotNo) (st : StreamNo) (abort : Bool) (rest : List Routed), Takes s →
    s.assembly.held = none → HeadIs s.assembly.queue slot (.closeStream st abort) rest →
    let a := s.assembly
    let e := a.streams[st]
    let refused (r : Status) := { s with host := answered slot r {} s.host, assembly := { a with queue := rest } }
    let closed := { e with
      state := .closed, recovered := some e.nextAdmission, abandoned := 0#8, stallAge := 0, gapPending := false
      pendingClose := none }
    (e.state = .closed → exec .closeStream s = .next (refused .streamClosed)) ∧
    (e.state = .closing → exec .closeStream s = .next (refused .streamBusy)) ∧
    (e.state = .opened → Busy a st → abort = false → exec .closeStream s = .next (refused .streamBusy)) ∧
    (e.state = .opened → ¬Busy a st → e.pendingClose = none → exec .closeStream s = .next { s with
      host := answered slot .ok {} s.host, assembly := { a with queue := rest, streams := a.streams.set st closed } }) ∧
    (e.state = .opened → Busy a st → abort = true → ∃ t, exec .closeStream s = .next t ∧
      (∀ (i : CtxNo) (c : Context), a.contexts[i] = some c → t.assembly.contexts[i] =
        if c.stream ≠ st then some c
        else if c.state = .gathering ∧ c.transfers ≠ [] then some { c with state := .aborting }
        else if c.state = .aborting ∨ c.state = .writing then some c else none) ∧
      (∀ i : CtxNo, a.contexts[i] = none → t.assembly.contexts[i] = none) ∧
      (∀ (i : CtxNo) (c : Context) (d : SlotNo), a.contexts[i] = some c → c.stream = st →
        c.state = .complete ∨ c.state = .queued → c.deferred = some d → .outcome d .aborted {} ∈ t.host.posting) ∧
      (Busy t.assembly st → t.assembly.streams[st] = { e with state := .closing, pendingClose := some slot }) ∧
      (¬Busy t.assembly st → t.assembly.streams[st] = closed ∧ .outcome slot .ok {} ∈ t.host.posting) ∧
      (∀ k : StreamNo, k ≠ st → t.assembly.streams[k] = a.streams[k]) ∧
      t = { s with
        host := { s.host with posting := t.host.posting }
        assembly := { a with
          queue := rest, contexts := t.assembly.contexts, streams := t.assembly.streams
          freeBlocks := t.assembly.freeBlocks }
        writer := { s.writer with queue := s.writer.queue.filter fun i =>
          match a.contexts[i] with
          | some c => !(c.stream == st && c.state == .queued)
          | none => true } })

/-- ABORT_RECORD (R74, R75): the refusals, an admitted record that is QUEUED, and a window position in every
condition: an ABORTING context keeps its state, a GATHERING one with transfers becomes ABORTING, any other is
discarded, a COMPLETE one with its deferred fragment ABORTED; the position is abandoned, and admission goes on. That the
ABORTED of the deferred fragment is posted before the OK of the command is the model's choice (log entry 25), and so is
that the lowest-numbered of several QUEUED contexts with the one sequence is removed (log entry 27). Where freed
blocks join the free block list is the model's choice (log entry 17). -/
def Obligations.AbortRecordTaken : Prop :=
  ∀ (s : State) (slot : SlotNo) (st : StreamNo) (seq : Seq) (rest : List Routed), Takes s → s.assembly.held = none →
    HeadIs s.assembly.queue slot (.abortRecord st seq) rest →
    let a := s.assembly
    let e := a.streams[st]
    let d := (seq - e.nextAdmission).toNat
    let answer (r : Status) := { s with host := answered slot r {} s.host, assembly := { a with queue := rest } }
    let inWindow := ∀ (j : CtxNo) (x : Context), a.contexts[j] = some x → x.stream = st → x.seq = seq →
      x.state.inWindow = true
    let marked := { e with abandoned := e.abandoned ||| (1#8 <<< d) }
    (e.state ≠ .opened → exec .abortRecord s = .next (answer .streamClosed)) ∧
    (e.state = .opened →
      (∀ i c, First a st seq .writing i c → exec .abortRecord s = .next (answer .tooLate)) ∧
      (∀ i c, First a st seq .queued i c → (∀ j x, ¬First a st seq .writing j x) → exec .abortRecord s = .next { s with
        host := answered slot .ok {} { s.host with posting := s.host.posting ++ discarded c }
        writer := { s.writer with queue := s.writer.queue.filter fun k => k != i }
        assembly := { a with
          queue := rest, contexts := a.contexts.set i none, freeBlocks := a.freeBlocks ++ mappedBlocks c.blockMap
          streams := a.streams.set st { e with gapPending := true } } }) ∧
      (inWindow → 32768 ≤ d → exec .abortRecord s = .next (answer .stale)) ∧
      (inWindow → 8 ≤ d → d < 32768 → exec .abortRecord s = .next (answer .ahead)) ∧
      (d < 8 →
        (∀ i c, Sole a st seq i c → c.state = .gathering → c.transfers ≠ [] → exec .abortRecord s = .next { s with
          host := answered slot .ok {} s.host
          assembly := { a with queue := rest, contexts := a.contexts.set i (some { c with state := .aborting }) } }) ∧
        (∀ i c, Sole a st seq i c → c.state = .aborting → exec .abortRecord s = .next (answer .ok)) ∧
        (∀ i c, Sole a st seq i c → (c.state = .gathering ∧ c.transfers = []) ∨ c.state = .complete →
          ∃ t, exec .abortRecord s = .next t ∧ Run st 8 { s with
            host := answered slot .ok {} { s.host with posting := s.host.posting ++ discarded c }
            assembly := { a with
              queue := rest, contexts := a.contexts.set i none, freeBlocks := a.freeBlocks ++ mappedBlocks c.blockMap
              streams := a.streams.set st marked } } t) ∧
        ((∀ (j : CtxNo) (x : Context), a.contexts[j] = some x → x.stream = st → x.seq ≠ seq) →
          (e.abandoned.getLsbD d = true → exec .abortRecord s = .next (answer .ok)) ∧
          (e.abandoned.getLsbD d = false → ∃ t, exec .abortRecord s = .next t ∧ Run st 8 { s with
            host := answered slot .ok {} s.host
            assembly := { a with queue := rest, streams := a.streams.set st marked } } t))))

/-! ### READ, SCAN, HOLD, RELEASE and WIPE as they are taken (R109, R110, R117 to R119, R133) -/

/-- READ and SCAN (R133): refused while a wipe is active, else placed at the tail of the read FIFO, which the head
leaves at once when no read is active. -/
def Obligations.ReadsTaken : Prop :=
  ∀ (s : State) (slot : SlotNo) (rest : List Routed) (address : Addr) (length : Nat), Takes s →
    let refused := { s with host := answered slot .wipeActive {} s.host, reader := { s.reader with queue := rest } }
    let placed (c : Cmd) := { s with reader := { s.reader with queue := rest, fifo := s.reader.fifo ++ [⟨slot, c⟩] } }
    (∀ jsn header, HeadIs s.reader.queue slot (.read jsn address length header) rest →
      (s.reclaim.wipeActive = true → exec .read s = .next refused) ∧
      (s.reclaim.wipeActive = false → Continues (placed (.read jsn address length header)) (exec .read s))) ∧
    (∀ jsn filter most, HeadIs s.reader.queue slot (.scan jsn filter most address length) rest →
      (s.reclaim.wipeActive = true → exec .scan s = .next refused) ∧
      (s.reclaim.wipeActive = false → Continues (placed (.scan jsn filter most address length)) (exec .scan s)))

/-- HOLD (R117, R118, R122, R123): the refusals in order; a SOFT hold takes effect at once with its effective first
JSN, a FIXED one becomes FIXING, and the Anchor Unit takes its change: it waits for the next snapshot, or starts one.
What the generation becomes past FFFFFFFFH is the model's choice (log entry 23). -/
def Obligations.HoldTaken : Prop :=
  ∀ (s : State) (slot : SlotNo) (first : Nat) (last : Option Nat) (fixed : Bool) (owner : Word) (rest : List Routed)
    (n : Nat), Takes s → HeadIs s.holds.queue slot (.hold first last fixed owner) rest → s.writer.nextJsn = some n →
    let t := s.holds
    let refused (r : Status) := { s with host := answered slot r {} s.host, holds := { t with queue := rest } }
    let barred := fixed = true ∧ s.anchor.failed = true
    let nothing := ∃ l, last = some l ∧ l < n ∧ ∀ i ∈ s.table.journal, ∀ a b, s.table.entries[i].range = some (a, b) →
      b < first ∨ l < a
    let surviving (j : Nat) : Prop := ∃ before i after a b, s.table.journal = before ++ i :: after ∧
      s.table.entries[i].range = some (a, b) ∧ first ≤ b ∧ j = max first a ∧
      ∀ k ∈ before, ∀ a b, s.table.entries[k].range = some (a, b) → b < first
    let noneSurvives := ∀ i ∈ s.table.journal, ∀ a b, s.table.entries[i].range = some (a, b) → b < first
    (s.reclaim.wipeActive = true → exec .hold s = .next (refused .wipeActive)) ∧
    (s.reclaim.wipeActive = false →
      (barred → exec .hold s = .next (refused .anchorFailed)) ∧
      (¬barred → nothing → exec .hold s = .next (refused .nothingToHold)) ∧
      (¬barred → ¬nothing → (∀ id : Fin 16, t.entries[id] ≠ none) → exec .hold s = .next (refused .holdTableFull)) ∧
      (¬barred → ¬nothing → ∀ id : Fin 16, t.entries[id] = none → (∀ k : Fin 16, k < id → t.entries[k] ≠ none) →
        ∀ j, surviving j ∨ (noneSurvives ∧ j = n) →
        (fixed = false → exec .hold s = .next { s with
          host := answered slot .ok { at4 := BitVec.ofNat 32 j, at12 := BitVec.ofNat 16 id.val } s.host
          holds := { t with queue := rest, entries := t.entries.set id (some ⟨.soft, first, last, owner, none, none⟩) } }) ∧
        (fixed = true → ∃ u, exec .hold s = .next u ∧ ChangeTaken (.hold id) { s with holds := { t with
          queue := rest
          entries := t.entries.set id (some ⟨.fixing, first, last, owner, some slot, some j⟩) } } u)))

/-- RELEASE (R119, R120, R122 to R124): NO_SUCH_HOLD, HOLD_BUSY, a SOFT hold freed at once with the Reclaim Unit
signalled, and a FIXED one that becomes UNFIXING: the Anchor Unit takes its change, which waits for the next snapshot,
or starts one. What the generation becomes past FFFFFFFFH is the model's choice (log entry 23). That what a signal
starts is a happening of its own is read by inference (log entry 7). -/
def Obligations.ReleaseTaken : Prop :=
  ∀ (s : State) (slot : SlotNo) (id : Fin 16) (rest : List Routed), Takes s →
    HeadIs s.holds.queue slot (.release id) rest →
    let t := s.holds
    let answer (r : Status) := { s with host := answered slot r {} s.host, holds := { t with queue := rest } }
    (t.entries[id] = none → exec .release s = .next (answer .noSuchHold)) ∧
    (∀ h, t.entries[id] = some h →
      (h.state = .fixing ∨ h.state = .unfixing → exec .release s = .next (answer .holdBusy)) ∧
      (h.state = .soft → exec .release s = .next { s with
        host := answered slot .ok {} s.host, reclaim := signalled s.reclaim
        holds := { t with queue := rest, entries := t.entries.set id none } }) ∧
      (h.state = .fixed → s.anchor.failed = true → exec .release s = .next (answer .anchorFailed)) ∧
      (h.state = .fixed → s.anchor.failed = false → ∃ u, exec .release s = .next u ∧
        ChangeTaken (.hold id) { s with holds := { t with
          queue := rest, entries := t.entries.set id (some { h with state := .unfixing, waiting := some slot }) } } u))

/-- WIPE (R34, R109 to R111): refused WIPE_ACTIVE or NOT_IDLE; else the wipe is active, every record expires with its
notice, and every member of the journal list is DIRTY; with an erase in progress the wipe waits for its end, else it
goes on at once. What the generation becomes past FFFFFFFFH is the model's choice (log entry 23); that the reclaim
test after a wipe comes through a signal is read from R112 by inference (log entry 19). -/
def Obligations.WipeTaken : Prop :=
  ∀ (s : State) (slot : SlotNo) (rest : List Routed), Takes s → HeadIs s.reclaim.queue slot .wipe rest →
    let refused (r : Status) := { s with host := answered slot r {} s.host, reclaim := { s.reclaim with queue := rest } }
    let free := s.host.device = .online ∧ (∀ st : StreamNo, s.assembly.streams[st].state = .closed) ∧
      (∀ i : CtxNo, s.assembly.contexts[i] = none) ∧ (∀ id : Fin 16, s.holds.entries[id] = none) ∧
      s.reader.active = none ∧ s.reader.fifo = [] ∧ s.writer.state = .idle
    let expiries : List Posting := s.table.journal.filterMap fun i =>
      s.table.entries[i].range.map fun (r : Nat × Nat) => .notice (.recordsExpired i r.1 r.2)
    (s.reclaim.wipeActive = true → exec .wipe s = .next (refused .wipeActive)) ∧
    (s.reclaim.wipeActive = false → ¬free → exec .wipe s = .next (refused .notIdle)) ∧
    (s.reclaim.wipeActive = false → free → s.table.journal.Nodup → ∃ entries t, exec .wipe s = .next t ∧
      (∀ k : SectorNo, (entries : Vector SectorEntry 256)[k] = if k ∈ s.table.journal then { s.table.entries[k] with
        state := .dirty, epoch := none, baseJsn := none, range := none, nextFree := none } else s.table.entries[k]) ∧
      let begun := { s with
        host := { s.host with posting := s.host.posting ++ expiries }
        table := { s.table with entries := entries, journal := [] }
        reclaim := { s.reclaim with
          queue := rest, wipeActive := true, wipeSlot := some slot, signal := false, state := .wiping } }
      (s.reclaim.erase ≠ none → t = begun) ∧ (s.reclaim.erase = none → WipeGoesOn begun t))

/-! ### Ticks and transfers (R51, R68 to R71, R77, R78) -/

/-- TICK (R47, R48, R51, R77, R78): only in ONLINE, DRAINING and STOPPED; in the order of R77 the tick counter rises by
1, the contexts age, the stalls age, and admission runs for every stream. Every context that ages rises by 1 in age
or, at its stream's limit, is discarded with its notice. Contexts that do not age keep their age. -/
def Obligations.TickTaken : Prop :=
  ∀ s : State,
    let ticks := s.host.device = .online ∨ s.host.device = .draining ∨ s.host.device = .stopped
    let ages (c : Context) := c.state = .gathering ∧ c.transfers = [] ∧ s.assembly.streams[c.stream].state = .opened ∧
      0 < s.assembly.streams[c.stream].ageLimit
    (¬ticks → exec .tick s = .next s) ∧
    (ticks → ∃ m₁ m₂ t, exec .tick s = .next t ∧ t.assembly.tickCounter = s.assembly.tickCounter + 1#32 ∧
      Aged { s with assembly := { s.assembly with tickCounter := s.assembly.tickCounter + 1#32 } } m₁ ∧
      StallsAged m₁ m₂ ∧ RunAll (List.finRange 16) m₂ t ∧
      (∀ i : CtxNo, s.assembly.contexts[i] = none → t.assembly.contexts[i] = none) ∧
      (∀ (i : CtxNo) (c : Context), s.assembly.contexts[i] = some c →
        (ages c → c.age + 1 = s.assembly.streams[c.stream].ageLimit → t.assembly.contexts[i] = none ∧
          .notice (.assemblyExpired c.stream c.seq) ∈ t.host.posting) ∧
        (ages c → c.age + 1 ≠ s.assembly.streams[c.stream].ageLimit →
          t.assembly.contexts[i] = some { c with age := c.age + 1 }) ∧
        (¬ages c → c.state ≠ .complete → t.assembly.contexts[i] = some c) ∧
        (c.state = .complete → t.assembly.contexts[i] = some c ∨
          (t.assembly.contexts[i] = some { c with state := .queued } ∧ i ∈ t.writer.queue))) ∧
      t = { s with
        host := { s.host with posting := t.host.posting }
        writer := { s.writer with queue := t.writer.queue }
        assembly := { s.assembly with
          tickCounter := t.assembly.tickCounter, contexts := t.assembly.contexts, streams := t.assembly.streams
          freeBlocks := t.assembly.freeBlocks } })

/-- ASSEMBLY_EXPIRED (R78) and SEQUENCE_SKIPPED (R51), each taken alone when the next tick would bring it (log entry
10): the context is discarded, or the stalled position passed over, with the notice and the abandoned position. Where
freed blocks join the free block list is the model's choice (log entry 17). -/
def Obligations.ExpiriesAndSkips : Prop :=
  ∀ s : State, s.host.device = .online ∨ s.host.device = .draining ∨ s.host.device = .stopped →
    let a := s.assembly
    (∀ (i : CtxNo) (c : Context), a.contexts[i] = some c → c.state = .gathering → c.transfers = [] → c.deferred = none →
      let e := a.streams[c.stream]
      let d := (c.seq - e.nextAdmission).toNat
      e.state = .opened → 0 < e.ageLimit → c.age + 1 = e.ageLimit → 0 < d → e.abandoned.getLsbD 0 = false →
      NotComplete a c.stream e.nextAdmission →
      exec (.assemblyExpired i) s = .next { s with
        host := noticed (.assemblyExpired c.stream c.seq) s.host
        assembly := { a with
          contexts := a.contexts.set i none, freeBlocks := a.freeBlocks ++ mappedBlocks c.blockMap
          streams := a.streams.set c.stream { e with abandoned := e.abandoned ||| (1#8 <<< d) } } }) ∧
    (∀ st : StreamNo,
      let e := a.streams[st]
      let at_ (k : Nat) : Seq := e.nextAdmission + BitVec.ofNat 16 k
      let holds (k : Nat) : Prop := ∃ (i : CtxNo) (c : Context), a.contexts[i] = some c ∧ c.stream = st ∧
        c.seq = at_ k ∧ c.state.inWindow = true
      e.state = .opened → 0 < e.ageLimit → e.stallAge + 1 = e.ageLimit → ¬holds 0 →
      e.abandoned.getLsbD 0 = false → (∃ k, 1 ≤ k ∧ k ≤ 7 ∧ holds k) → e.abandoned.getLsbD 1 = false →
      NotComplete a st (at_ 1) →
      exec (.sequenceSkipped st) s = .next { s with
        host := noticed (.sequenceSkipped st e.nextAdmission) s.host
        assembly := { a with streams := a.streams.set st { e with
          nextAdmission := at_ 1, abandoned := (e.abandoned ||| 1#8) >>> 1, stallAge := 0, gapPending := true } } })

/-- TRANSFER_END (R47, R60, R64, R68, R69, R71): the bytes are in staging memory; the fragment completes ACCEPTED, or
its record is complete and admission runs; a transfer of an ABORTING context completes ABORTED, and with the last one
the context is discarded: the position in an OPEN stream is abandoned and admission runs, a CLOSING stream may close.
An APPEND that was held is then taken if nothing holds it (log entry 9). Where freed blocks join the free block list
is the model's choice (log entry 17). -/
def Obligations.TransfersEnd : Prop :=
  ∀ (s : State) (i : CtxNo) (c : Context) (tr : Transfer) (data : List Byte), s.host.device ≠ .halted →
    InFlight s.assembly i c tr → data.length = tr.length →
    let a := s.assembly
    let e := a.streams[c.stream]
    let left := { c with transfers := without tr.slot c.transfers }
    let staged := stagingWrite c.blockMap s.staging tr.offset data
    let put (h : HostUnit) (x : Context) :=
      { s with staging := staged, host := h, assembly := { a with contexts := a.contexts.set i (some x) } }
    let complete := left.transfers = [] ∧ ∃ total, c.total = some total ∧ c.coverage = [(0, total)]
    let whole := { left with state := .complete, deferred := some tr.slot }
    let ended := answered tr.slot .aborted {} s.host
    let gone (x : Stream) := { s with
      staging := staged, host := { ended with posting := ended.posting ++ discarded c }
      assembly := { a with
        contexts := a.contexts.set i none, freeBlocks := a.freeBlocks ++ mappedBlocks c.blockMap
        streams := a.streams.set c.stream x } }
    let leads (m : State) : Prop := HeldTaken m (exec (.transferEnd tr.slot data) s)
    (c.state = .gathering → ¬complete → leads (put (answered tr.slot .accepted {} s.host) left)) ∧
    (c.state = .gathering → complete → ∃ m, Run c.stream 8 (put s.host whole) m ∧ leads m) ∧
    (c.state = .aborting → left.transfers ≠ [] → leads (put ended left)) ∧
    (c.state = .aborting → left.transfers = [] → e.state = .opened →
      let d := (c.seq - e.nextAdmission).toNat
      ∃ m, Run c.stream 8 (gone { e with abandoned := e.abandoned ||| (1#8 <<< d) }) m ∧ leads m) ∧
    (c.state = .aborting → left.transfers = [] → e.state ≠ .opened → ∃ m, Closes c.stream (gone e) m ∧ leads m)

/-- Staging memory (R68, R73): the bytes of a transfer are what the context's record reads there afterwards, and no
other byte of a record whose blocks are its own changes. -/
def Obligations.StagedBytesKept : Prop :=
  ∀ (map : Vector (Option BlockNo) 16) (m : List Host.Cell) (first : Nat) (data : List Byte) (n : Nat),
    stagingWf m = true → (mappedBlocks map).Nodup → first + data.length ≤ n → n ≤ 8192 →
    (∀ k : Fin 16, 512 * k.val < first + data.length → first < 512 * (k.val + 1) → map[k] ≠ none) →
    let bytes := stagedBytes map (stagingWrite map m first data) n
    bytes.length = n ∧ (bytes.drop first).take data.length = data ∧
    (∀ k, k < first ∨ (first + data.length ≤ k ∧ k < n) → bytes[k]? = (stagedBytes map m n)[k]?) ∧
    ∀ other : Vector (Option BlockNo) 16, (∀ b ∈ mappedBlocks other, b ∉ mappedBlocks map) →
      stagedBytes other (stagingWrite map m first data) n = stagedBytes other m n

/-- TRANSFER_FAIL (R60, R64, R70, R71): the fragment completes HOST_READ_ERROR and its bytes are no longer covered;
blocks that hold no covered byte are freed, and a context with nothing covered is discarded. An ABORTING one goes on as
at an end, and so does an APPEND that was held (log entry 9). That staging memory is unchanged is read by inference
(log entry 18). Where freed blocks join the free block list is the model's choice (log entry 17). -/
def Obligations.TransfersFail : Prop :=
  ∀ (s : State) (i : CtxNo) (c : Context) (tr : Transfer), s.host.device ≠ .halted → InFlight s.assembly i c tr →
    let a := s.assembly
    let e := a.streams[c.stream]
    let coverage := removeInterval tr.offset (tr.offset + tr.length) c.coverage
    let emptied := emptiedEntries coverage tr.offset tr.length
    let freed := emptied.filterMap fun k => c.blockMap[k]
    let left := { c with
      transfers := without tr.slot c.transfers, coverage := coverage, blockMap := clearEntries c.blockMap emptied
      total := if tr.last then none else c.total, tag := if tr.last then none else c.tag }
    let failed := answered tr.slot .hostReadError {} s.host
    let ended := answered tr.slot .aborted {} s.host
    let gone (x : Stream) := { s with
      host := { ended with posting := ended.posting ++ discarded c }
      assembly := { a with
        contexts := a.contexts.set i none, freeBlocks := a.freeBlocks ++ mappedBlocks c.blockMap
        streams := a.streams.set c.stream x } }
    let leads (m : State) : Prop := HeldTaken m (exec (.transferFail tr.slot) s)
    (c.state ≠ .aborting → coverage ≠ [] → leads { s with
      host := failed
      assembly := { a with contexts := a.contexts.set i (some left), freeBlocks := a.freeBlocks ++ freed } }) ∧
    (c.state ≠ .aborting → coverage = [] → leads { s with
      host := { failed with posting := failed.posting ++ discarded c }
      assembly := { a with
        contexts := a.contexts.set i none, freeBlocks := a.freeBlocks ++ freed ++ mappedBlocks left.blockMap } }) ∧
    (c.state = .aborting → without tr.slot c.transfers ≠ [] → leads { s with
      host := ended
      assembly := { a with contexts := a.contexts.set i (some { c with transfers := without tr.slot c.transfers }) } }) ∧
    (c.state = .aborting → without tr.slot c.transfers = [] → e.state = .opened →
      let d := (c.seq - e.nextAdmission).toNat
      ∃ m, Run c.stream 8 (gone { e with abandoned := e.abandoned ||| (1#8 <<< d) }) m ∧ leads m) ∧
    (c.state = .aborting → without tr.slot c.transfers = [] → e.state ≠ .opened →
      ∃ m, Closes c.stream (gone e) m ∧ leads m)

/-! ### The Journal Writer (R84 to R97) -/

/-- QUEUE_HEAD_TAKEN (R84, R85, R87, R93, R94): the record becomes WRITING; with no JSN left it fails
JOURNAL_EXHAUSTED; with room in the OPEN sector its first burst is asked for; without room a sector is. That it is a
happening of its own is the model's choice (log entry 7). Where freed blocks join the free block list is the model's
choice (log entry 17). -/
def Obligations.QueueHeadTaken : Prop :=
  ∀ (s : State) (i : CtxNo) (rest : List CtxNo) (c : Context) (n epoch : Nat), s.host.device ≠ .halted →
    s.writer.state = .idle → s.writer.queue = i :: rest → s.assembly.contexts[i] = some c →
    s.writer.nextJsn = some n → s.writer.nextEpoch = some epoch →
    let c' := { c with state := .writing }
    let s' := { s with
      writer := { s.writer with queue := rest, record := some i }
      assembly := { s.assembly with contexts := s.assembly.contexts.set i (some c') } }
    let F := 2 + (c.total.getD 0 + 31) / 32
    (n = 0xFFFFFFFF → ∃ t, exec .queueHeadTaken s = .next t ∧ Failed i c' .journalExhausted s' t) ∧
    (n ≠ 0xFFFFFFFF →
      (∀ o p, IsOpen s.table o → s.table.entries[o].nextFree = some p → p + F ≤ 2048 →
        exec .queueHeadTaken s = .next (placedRecord i c' n o p s')) ∧
      (NoneOpen s.table ∨ (∃ o p, IsOpen s.table o ∧ s.table.entries[o].nextFree = some p ∧ 2048 < p + F) →
        ∃ t, exec .queueHeadTaken s = .next t ∧ SectorAsked i c' n epoch s' t))

/-- SPACE_QUESTION_RETRY (R88, R89, R90): a writer in WAITING_SPACE that the Sector Table has signalled asks for a
sector again. That the signal waits for a happening of its own is the model's choice (log entry 7). Where freed
blocks join the free block list is the model's choice (log entry 17). -/
def Obligations.SpaceAskedAgain : Prop :=
  ∀ (s : State) (i : CtxNo) (c : Context) (n epoch : Nat), s.host.device ≠ .halted →
    (s.writer.state = .waitingSpace ∧ s.writer.spaceSignal = true → InHand s i c n epoch →
      ∃ t, exec .spaceQuestionRetry s = .next t ∧
        SectorAsked i c n epoch { s with writer := { s.writer with spaceSignal := false } } t) ∧
    (s.writer.state ≠ .waitingSpace ∨ s.writer.spaceSignal = false → exec .spaceQuestionRetry s = .next s)

/-- SECTOR_HEADER_PROGRAMMED and PAD_PROGRAMMED (R23, R25, R91, R92): an OPEN sector with room left is given a PAD
first; else, and after the PAD, it is closed, the sector in hand becomes OPEN and the record is placed at line 1. A
header that fails gives its sector back as DIRTY and marked, and the writer asks again; the epoch is used up. Where
freed blocks join the free block list is the model's choice (log entry 17). That what a signal starts is a happening
of its own is read by inference (log entry 7). -/
def Obligations.HeadersProgrammed : Prop :=
  ∀ (s : State) (i : CtxNo) (c : Context) (n epoch : Nat) (k : SectorNo), InHand s i c n epoch →
    s.writer.state = .opening → s.writer.sectorInHand = some k → s.table.entries[k].state = .free →
    c.total.getD 0 ≤ 8192 →
    let s' := { s with ctrl := taken .writer s.ctrl, writer := { s.writer with nextEpoch := some (epoch + 1) } }
    (s.writer.headerEpoch = none → Answers s .writer .programmed →
      (∀ o p, IsOpen s.table o → s.table.entries[o].nextFree = some p → p ≤ 2047 →
        exec .sectorHeaderProgrammed s = .next { s' with
          ctrl := asked .writer (.programLines o p [padLine n]) s'.ctrl
          writer := { s'.writer with headerEpoch := some epoch } }) ∧
      (∀ o, IsOpen s.table o → s.table.entries[o].nextFree = some 2048 → exec .sectorHeaderProgrammed s =
        .next (placedRecord i c n k 1 (openedSector k epoch n (closedSector o false s')))) ∧
      (NoneOpen s.table → exec .sectorHeaderProgrammed s = .next (placedRecord i c n k 1 (openedSector k epoch n s')))) ∧
    (∀ line blank, s.writer.headerEpoch = none → Answers s .writer (.programFailed line blank) →
      let back := { marked .programFail s.table.entries[k] with state := .dirty, inHand := false }
      let given := { s' with
        table := { s.table with entries := s.table.entries.set k back }
        reclaim := signalled s.reclaim, writer := { s'.writer with sectorInHand := none } }
      ∃ t, exec .sectorHeaderProgrammed s = .next t ∧ SectorAsked i c n (epoch + 1) given t) ∧
    (∀ o used, s.writer.headerEpoch = some used → IsOpen s.table o →
      let opens (fault : Bool) : State := placedRecord i c n k 1
        (openedSector k used n (closedSector o fault { s with ctrl := taken .writer s.ctrl }))
      (Answers s .writer .programmed → exec .padProgrammed s = .next (opens false)) ∧
      (∀ line blank, Answers s .writer (.programFailed line blank) → exec .padProgrammed s = .next (opens true)))

/-- BURST_PROGRAMMED (R94, R96): the next burst of at most eight lines, or, when every line before it stands, the
commit line with the writer COMMITTING; a failure closes the sector and places the record again or fails it. Where
freed blocks join the free block list is the model's choice (log entry 17). That what a signal starts is a happening
of its own is read by inference (log entry 7). -/
def Obligations.BurstsProgrammed : Prop :=
  ∀ (s : State) (i : CtxNo) (c : Context) (n epoch : Nat) (pl : Placement), InHand s i c n epoch →
    s.writer.state = .writing → s.writer.placement = some pl →
    let total := c.total.getD 0
    let commitAt := pl.position + pl.footprint - 1
    let next := pl.nextLine + min 8 (commitAt - pl.nextLine)
    let payload := stagedBytes c.blockMap s.staging total
    let s' := { s with ctrl := taken .writer s.ctrl }
    (Answers s .writer .programmed → pl.nextLine ≤ commitAt →
      (next < commitAt → exec .burstProgrammed s = .next { s' with
        writer := { s.writer with placement := some { pl with nextLine := next } }
        ctrl := asked .writer (.programLines pl.sector next
          ((List.range (min 8 (commitAt - next))).map fun k => payloadLine payload (next - pl.position - 1 + k)))
          s'.ctrl }) ∧
      (next = commitAt → exec .burstProgrammed s = .next { s' with
        writer := { s.writer with state := .committing, placement := some { pl with nextLine := next } }
        ctrl := asked .writer (.programLines pl.sector commitAt [commitLine n total s.writer.payloadCrc]) s'.ctrl })) ∧
    (∀ line blank, Answers s .writer (.programFailed line blank) → IsOpen s.table pl.sector →
      ∃ t, exec .burstProgrammed s = .next t ∧ Relocated i c n epoch pl s' t)

/-- COMMIT_LINE_PROGRAMMED (R25, R73, R95, R96): the record is committed with the next JSN: its sector's range ends
with it, its deferred command completes COMMITTED with the JSN, its context is free, the counters rise, and the writer
is IDLE. A failure closes the sector and places the record again or fails it. Where freed blocks join the free block
list is the model's choice (log entry 17). That what a signal starts is a happening of its own is read by inference
(log entry 7). -/
def Obligations.RecordsCommitted : Prop :=
  ∀ (s : State) (i : CtxNo) (c : Context) (n epoch : Nat) (pl : Placement), InHand s i c n epoch →
    s.writer.state = .committing → s.writer.placement = some pl →
    let a := s.assembly
    let e := a.streams[c.stream]
    let sector := s.table.entries[pl.sector]
    let s' := { s with ctrl := taken .writer s.ctrl }
    (Answers s .writer .programmed → ∃ t, exec .commitLineProgrammed s = .next t ∧ Closes c.stream { s' with
      host := match c.deferred with
        | some d => answered d .committed { at4 := BitVec.ofNat 32 n } s.host
        | none => s.host
      table := { s.table with entries := s.table.entries.set pl.sector { sector with
        nextFree := some (pl.position + pl.footprint)
        range := some (match sector.range with | some r => r.1 | none => n, n) } }
      assembly := { a with
        contexts := a.contexts.set i none, freeBlocks := a.freeBlocks ++ mappedBlocks c.blockMap
        streams := a.streams.set c.stream { e with committed := min (e.committed + 1) 0xFFFFFFFF } }
      writer := { s.writer with
        nextJsn := some (n + 1), state := .idle, record := none, placement := none, sectorInHand := none
        gapMark := false, headerEpoch := none, spaceSignal := false
        recordsCommitted := min (s.writer.recordsCommitted + 1) 0xFFFFFFFF
        bytesCommitted := min (s.writer.bytesCommitted + c.total.getD 0) 0xFFFFFFFF } } t) ∧
    (∀ line blank, Answers s .writer (.programFailed line blank) → IsOpen s.table pl.sector →
      ∃ t, exec .commitLineProgrammed s = .next t ∧ Relocated i c n epoch pl s' t)

/-! ### Reclaim and anchor (R30 to R33, R101 to R104, R124 to R127) -/

/-- RECLAIM_TEST (R30, R31, R88, R101, R102): with the test passed the victim is the lowest DIRTY sector, or the
oldest member of the journal list that is CLOSED, not pinned and not held; its records expire and its erase is asked
for; with no victim a waiting writer is signalled. With the test not passed, nothing is begun. That the signal waits
for a happening of its own is the model's choice (log entry 7). -/
def Obligations.ReclaimTested : Prop :=
  ∀ (s : State) (c : Setup), s.host.device ≠ .halted → s.reclaim.state = .idle → s.reclaim.signal = true →
    s.host.setup = some c →
    let tested := { s with reclaim := { s.reclaim with signal := false } }
    let dirty (k : SectorNo) := s.table.entries[k].state = .dirty
    let passes := s.host.device = .online ∧ s.reclaim.wipeActive = false ∧
      (s.table.freeSet.length < c.reserve ∨ ∃ k : SectorNo, dirty k)
    let may (k : SectorNo) := s.table.entries[k].state = .closed ∧ s.table.entries[k].pins = 0 ∧
      ∀ a b, s.table.entries[k].range = some (a, b) → ¬Held s.holds a b
    let takes (i : SectorNo) := { s with
      host := match s.table.entries[i].range with
        | some (first, last) => noticed (.recordsExpired i first last) s.host
        | none => s.host
      table := { s.table with
        entries := s.table.entries.set i { s.table.entries[i] with
          state := .erasing, epoch := none, baseJsn := none, range := none }
        journal := s.table.journal.filter fun k => k != i }
      reclaim := { s.reclaim with signal := false, state := .reclaiming, erase := some i }
      ctrl := asked .reclaim (.eraseSector i) s.ctrl }
    (¬passes → exec .reclaimTest s = .next tested) ∧
    (passes →
      (∀ i : SectorNo, dirty i → (∀ k : SectorNo, k < i → ¬dirty k) → exec .reclaimTest s = .next (takes i)) ∧
      ((∀ k : SectorNo, ¬dirty k) →
        (∀ before i after, s.table.journal = before ++ i :: after → may i → (∀ k ∈ before, ¬may k) →
          exec .reclaimTest s = .next (takes i)) ∧
        ((∀ k ∈ s.table.journal, ¬may k) → exec .reclaimTest s = .next { tested with
          writer := { s.writer with
            spaceSignal := if s.writer.state = .waitingSpace then true else s.writer.spaceSignal } })))

/-- ERASE_END (R33, R90, R103, R104, R111, R115): the sector erased becomes FREE with its wear risen by 1, or RETIRED as
worn, for the reason it was marked for, or as failed (its wear unchanged); a retirement is recorded and noticed; the
counters rise; and a full journal has space again. Then a wipe goes on, or the reclaim test is made again in the same
happening: what follows is what RECLAIM_TEST would do. What wear becomes past FFFFFFFFH is the model's choice (log
entry 23); that the reclaim test after a wipe which ends so comes through a signal is read from R112 by inference (log
entry 19). That what a signal starts is a happening of its own is read by inference (log entry 7). -/
def Obligations.ErasesSettled : Prop :=
  ∀ (s : State) (i : SectorNo) (ok : Bool), s.reclaim.erase = some i → s.table.entries[i].state = .erasing →
    i ∉ s.table.journal → Notices s → Answers s .reclaim (if ok then .erased else .eraseFailed) →
    let e := s.table.entries[i]
    let left := { e with corrected := 0, weak := false, retirePending := false }
    let outcome : SectorState × Nat × RetireReason :=
      if ok = false then (.retired, e.wear, .eraseFail)
      else if e.retirePending = true then (.retired, e.wear + 1, e.reason)
      else if 100000 ≤ e.wear + 1 then (.retired, e.wear + 1, .worn) else (.free, e.wear + 1, .noReason)
    ∃ u t, exec .eraseEnd s = .next t ∧ Settles i ok { s with ctrl := taken .reclaim s.ctrl } u ∧
      (s.reclaim.state = .wiping → WipeGoesOn u t) ∧
      (s.reclaim.state = .reclaiming → s.reclaim.signal = false →
        exec .reclaimTest { u with reclaim := { u.reclaim with state := .idle, signal := true } } = .next t) ∧
      (s.reclaim.state = .idle ∨ s.reclaim.state = .wipeFinishing → t = u) ∧
      t.table.entries[i] = { left with state := outcome.1, wear := outcome.2.1, reason := outcome.2.2 } ∧
      t.reclaim.sectorsErased = (if ok then min (s.reclaim.sectorsErased + 1) 0xFFFFFFFF else s.reclaim.sectorsErased) ∧
      (outcome.1 = .retired → t.reclaim.sectorsRetired = min (s.reclaim.sectorsRetired + 1) 0xFFFFFFFF ∧
        t.anchor.retired.getLsbD i.val = true ∧ .notice (.sectorRetired i outcome.2.2) ∈ t.host.posting) ∧
      (outcome.1 = .free → t.reclaim.sectorsRetired = s.reclaim.sectorsRetired ∧ t.writer.full = false ∧
        (s.writer.full = true → .notice .journalSpace ∈ t.host.posting)) ∧
      (∀ k : SectorNo, k ≠ i → t.table.entries[k].wear = s.table.entries[k].wear) ∧
      t.reader = s.reader ∧ t.mount = s.mount ∧ t.array = s.array ∧ t.staging = s.staging ∧ t.pending = s.pending

/-- SNAPSHOT_PROGRAM_END and ROLLOVER_ERASE_END (R21, R112, R124 to R128): the four requests of a snapshot in turn;
with the last its generation is in force and every change it covers is settled, a FIXING hold being FIXED, an UNFIXING
one freed, a wipe completed, and the changes that waited start the next snapshot; a failed program takes the next slot,
then the other sector, then fails the anchor, which settles every change the other way; a rollover erase begins slot 0
of the other sector. What wear and the generation become past FFFFFFFFH is the model's choice (log entry 23); that
the reclaim test after a wipe comes through a signal is read from R112 by inference (log entry 19). That what a
signal starts is a happening of its own is read by inference (log entry 7). -/
def Obligations.SnapshotsWritten : Prop :=
  ∀ (s : State) (snap : Snapshot), s.anchor.snapshot = some snap →
    let lines := snapshotLines snap.generation snap.holds snap.retired
    let s' := { s with ctrl := taken .anchor s.ctrl }
    let asks (first count : Nat) : ArrayCtrl := asked .anchor (.programLines (anchorSector s.anchor.active)
      (32 * snap.slot + first) ((lines.drop first).take count)) s'.ctrl
    let part (k : Fin 4) := { s.anchor with snapshot := some { snap with request := k } }
    let begins (tries slot : Nat) (active : Fin 2) (x : State) : State := { x with
      anchor := { s.anchor with
        active := active, nextSlot := slot + 1, state := .writing
        snapshot := some { snap with attempts := tries, slot := slot, request := 0 } }
      ctrl := asked .anchor (.programLines (anchorSector active) (32 * slot) (lines.take 8)) x.ctrl }
    (s.anchor.state = .writing → Answers s .anchor .programmed →
      (snap.request = 0 → exec .snapshotProgramEnd s = .next { s with anchor := part 1, ctrl := asks 8 8 }) ∧
      (snap.request = 1 → exec .snapshotProgramEnd s = .next { s with anchor := part 2, ctrl := asks 16 2 }) ∧
      (snap.request = 2 → exec .snapshotProgramEnd s = .next { s with anchor := part 3, ctrl := asks 18 1 }) ∧
      (snap.request = 3 →
        let u := s.anchor.covered.foldl (fun x c => validated c x) { s' with anchor := { s.anchor with
          generation := snap.generation, snapshot := none, covered := [], state := .idle } }
        (s.anchor.pendingFlag = false → exec .snapshotProgramEnd s = .next u) ∧
        (s.anchor.pendingFlag = true → ∃ t, exec .snapshotProgramEnd s = .next t ∧ SnapshotStarts { u with
          anchor := { u.anchor with covered := s.anchor.waiting, waiting := [], pendingFlag := false } } t))) ∧
    (∀ line blank, s.anchor.state = .writing → Answers s .anchor (.programFailed line blank) →
      (snap.attempts + 1 < 3 → s.anchor.nextSlot ≤ 63 → exec .snapshotProgramEnd s =
        .next (begins (snap.attempts + 1) s.anchor.nextSlot s.anchor.active s')) ∧
      (3 ≤ snap.attempts + 1 ∨ 63 < s.anchor.nextSlot →
        (snap.rolled = false → exec .snapshotProgramEnd s = .next { s with
          anchor := { s.anchor with
            state := .rollingOver, snapshot := some { snap with attempts := snap.attempts + 1, rolled := true } }
          ctrl := asked .anchor (.eraseSector (anchorSector (otherAnchor s.anchor.active))) s'.ctrl }) ∧
        (snap.rolled = true → exec .snapshotProgramEnd s = .next (anchorLost s')))) ∧
    (s.anchor.state = .rollingOver →
      let other := otherAnchor s.anchor.active
      let e := s.table.entries[anchorSector other]
      (Answers s .anchor .erased → exec .rolloverEraseEnd s = .next (begins 0 0 other { s' with
        table := { s.table with entries := s.table.entries.set (anchorSector other) { e with wear := e.wear + 1 } } })) ∧
      (Answers s .anchor .eraseFailed → exec .rolloverEraseEnd s = .next (anchorLost s')))

/-! ### The Read Unit (R134 to R144) -/

/-- READ_BEGIN and SCAN_BEGIN (R26, R27, R135, R139, R140, R144): NOT_YET, EXPIRED, or the member that holds the JSN is
pinned and its first header line asked for; a SCAN begins in the member with the lowest surviving JSN, or ends OK at
once. A read that ends at once lets the next one begin. The rows taken alone are the model's choice (log entry 10). -/
def Obligations.ReadsBegin : Prop :=
  ∀ (s : State) (slot : SlotNo) (rest : List Routed) (address : Addr) (length n : Nat), s.host.device ≠ .halted →
    s.reader.active = none → s.reader.pinned = none → s.writer.nextJsn = some n →
    let begun (c : Cmd) (g : Option ScanProgress) :=
      { s with reader := { s.reader with fifo := rest, active := some ⟨slot, c⟩, scan := g } }
    let pins (i : SectorNo) (x : State) : State :=
      let e := s.table.entries[i]
      { x with
        table := { s.table with entries := s.table.entries.set i { e with pins := e.pins + 1 } }
        reader := { x.reader with
          pinned := some i, expected := e.baseJsn.getD 0, tally := 0, stage := some (.header 1) }
        ctrl := asked .reader (.readLines i 1 1) s.ctrl }
    let ends (status : Status) (r : Results) (c : Cmd) (o : Host.Outcome State Fault Refusal) : Prop :=
      Continues (endedRead slot status r (begun c none)) o
    (∀ jsn header, s.reader.fifo = ⟨slot, .read jsn address length header⟩ :: rest →
      let c : Cmd := .read jsn address length header
      let has (i : SectorNo) := ∃ a b, s.table.entries[i].range = some (a, b) ∧ a ≤ jsn ∧ jsn ≤ b
      (n ≤ jsn → ends .notYet {} c (exec .readBegin s)) ∧
      (jsn < n → (∀ i ∈ s.table.journal, ¬has i) → ends .expired {} c (exec .readBegin s)) ∧
      (jsn < n → ∀ before i after, s.table.journal = before ++ i :: after → has i → (∀ k ∈ before, ¬has k) →
        exec .readBegin s = .next (pins i (begun c none)))) ∧
    (∀ f filter most, s.reader.fifo = ⟨slot, .scan f filter most address length⟩ :: rest →
      let c : Cmd := .scan f filter most address length
      let below (i : SectorNo) := ∀ a b, s.table.entries[i].range = some (a, b) → b < f
      ((∀ i ∈ s.table.journal, below i) → f < n →
        ends .ok { at4 := BitVec.ofNat 32 n, at14 := true } c (exec .scanBegin s)) ∧
      ((∀ i ∈ s.table.journal, below i) → n ≤ f → ends .ok { at4 := BitVec.ofNat 32 f } c (exec .scanBegin s)) ∧
      (∀ before i after a b, s.table.journal = before ++ i :: after → s.table.entries[i].range = some (a, b) → f ≤ b →
        (∀ k ∈ before, below k) → s.table.entries[i].baseJsn.getD 0 < n →
        exec .scanBegin s = .next (pins i (begun c (some ⟨0, 0, decide (f < a), max f a⟩)))))

/-- READ_UNIT_LINES_READ (R13, R29, R35, R134, R136, R137, R139, R141 to R144): a valid header asks for its commit line;
a valid commit line of the record a READ wants, or of one that a SCAN wants and has room for, begins its check, of
another moves on; the payload runs of up to 64 lines are gathered, and with its CRC right the image goes to the host;
what has decayed ends the read CORRUPT, what cannot be read MEDIA_ERROR, and a SCAN whose sector ends normally goes on
in the next one. With the end, corrected lines are reported, the pin is released and the FIFO goes on.That an
image's address is taken modulo 2^64 is the model's choice (log entry 26). That what a signal starts is a happening
of its own is read by inference (log entry 7). -/
def Obligations.WalkedLines : Prop :=
  ∀ (s : State) (l : List LineOutcome) (i : SectorNo) (slot : SlotNo) (cmd : Cmd) (n : Nat),
    Answers s .reader (.lines l) → s.reader.pinned = some i → s.reader.active = some ⟨slot, cmd⟩ →
    s.writer.nextJsn = some n →
    (row cmd = .read ∧ s.reader.scan = none) ∨ (row cmd = .scan ∧ s.reader.scan ≠ none) →
    let o := exec .readUnitLinesRead s
    let s' := { s with
      ctrl := taken .reader s.ctrl, reader := { s.reader with tally := s.reader.tally + correctedLines l } }
    let asks (first count : Nat) (u : ReadUnit) :=
      { s' with reader := u, ctrl := asked .reader (.readLines i first count) s'.ctrl }
    let check (p : Nat) (h : RecordHeader) (crc : Word) (got : Nat) (image : List Byte) : State :=
      asks (p + 1 + got) (min 64 ((h.length + 31) / 32 - got))
        { s'.reader with image := image, stage := some (.payload p h crc got) }
    (∀ p x, s.reader.stage = some (.header p) → l = [x] →
      (∀ h, viewHeader s.reader.expected p x = .data h →
        o = .next (asks (p + (2 + (h.length + 31) / 32) - 1) 1 { s'.reader with stage := some (.commit p h) })) ∧
      (viewHeader s.reader.expected p x = .erased ∨ viewHeader s.reader.expected p x = .pad ∨
        viewHeader s.reader.expected p x = .invalid → WalkEnds slot i .corrupt n s' o) ∧
      (viewHeader s.reader.expected p x = .unreadable → WalkEnds slot i .mediaError n s' o)) ∧
    (∀ p h x, s.reader.stage = some (.commit p h) → l = [x] →
      (∀ crc, validCommit h x = some crc →
        (∀ jsn address length header, cmd = .read jsn address length header →
          (h.jsn = jsn → o = .next (check p h crc 0 (descriptor h))) ∧ (h.jsn ≠ jsn → MovesOn slot i p h n s' o)) ∧
        (∀ f filter most address length g, cmd = .scan f filter most address length → s.reader.scan = some g →
          let fits := g.placed + (32 + 8 * ((h.length + 7) / 8)) ≤ length
          (¬Wanted filter g h → MovesOn slot i p h n s' o) ∧
          (Wanted filter g h → fits ∨ g.count = 0 → o = .next (check p h crc 0 (descriptor h))) ∧
          (Wanted filter g h → ¬fits → g.count ≠ 0 → EndsAt slot i .ok h.jsn s' o))) ∧
      (validCommit h x = none → WalkEnds slot i (if x = .uncorrectable then .mediaError else .corrupt) n s' o)) ∧
    (∀ p h crc got, s.reader.stage = some (.payload p h crc got) →
      (allReadable l = none → EndsAt slot i .mediaError h.jsn s' o) ∧
      (∀ lines, allReadable l = some lines →
        let image := s.reader.image ++ lines.flatten
        let payload := (image.drop 32).take h.length
        let all := 32 + 8 * ((h.length + 7) / 8)
        let whole := toLength all (descriptor h ++ payload)
        let writes (short : Bool) (address : Addr) (bytes : List Byte) := { s' with reader := { s'.reader with
          image := image, stage := some (.image p h short), write := some ⟨address, bytes⟩ } }
        (got + l.length < (h.length + 31) / 32 → o = .next (check p h crc (got + l.length) image)) ∧
        ((h.length + 31) / 32 ≤ got + l.length →
          (crc32 payload ≠ crc →
            EndsAt slot i .corrupt h.jsn { s' with reader := { s'.reader with image := image } } o) ∧
          (crc32 payload = crc →
            (∀ jsn address length header, cmd = .read jsn address length header →
              (header = true → o = .next (writes false address (descriptor h))) ∧
              (header = false → all ≤ length → o = .next (writes false address whole)) ∧
              (header = false → length < all → o = .next (writes true address (descriptor h)))) ∧
            (∀ f filter most address length g, cmd = .scan f filter most address length → s.reader.scan = some g →
              (g.placed + all ≤ length → o = .next (writes false (address + BitVec.ofNat 64 g.placed) whole)) ∧
              (length < g.placed + all → o = .next (writes true address (descriptor h))))))))

/-- IMAGE_WRITE_END (R29, R35, R138, R139, R141 to R144): the READ ends OK with the bytes written, SHORT_BUFFER with
the length needed, or HOST_WRITE_ERROR; a SCAN counts the record and ends at its limit or walks on, to the end of its
sector and into the next one; corrected lines are reported, and the FIFO goes on. That what a signal starts is a
happening of its own is read by inference (log entry 7). -/
def Obligations.ImagesWritten : Prop :=
  ∀ (s : State) (i : SectorNo) (p : Nat) (h : RecordHeader) (short : Bool) (w : BusWrite) (slot : SlotNo) (n : Nat),
    s.host.device ≠ .halted → s.reader.stage = some (.image p h short) → s.reader.pinned = some i →
    s.reader.write = some w → s.writer.nextJsn = some n →
    let all := BitVec.ofNat 32 (32 + 8 * ((h.length + 7) / 8))
    let ends (status : Status) (r : Results) (ok : Bool) : Prop :=
      Continues (endedRead slot status r (sectorLeft i s)) (exec (.imageWriteEnd ok) s)
    (∀ jsn address length header, s.reader.active = some ⟨slot, .read jsn address length header⟩ →
      s.reader.scan = none →
      ends .hostWriteError {} false ∧
      (short = true → ends .shortBuffer { at8 := all } true) ∧
      (short = false → ends .ok { at8 := BitVec.ofNat 32 w.bytes.length } true)) ∧
    (∀ from_ filter most address length g, s.reader.active = some ⟨slot, .scan from_ filter most address length⟩ →
      s.reader.scan = some g →
      ends .hostWriteError {} false ∧
      (short = true → ends .shortBuffer ⟨BitVec.ofNat 32 h.jsn, all, 0#16, g.expiredSkipped⟩ true) ∧
      (short = false → g.count + 1 = most →
        ends .ok ⟨BitVec.ofNat 32 (h.jsn + 1), BitVec.ofNat 32 (g.placed + w.bytes.length),
          BitVec.ofNat 16 most, g.expiredSkipped⟩ true) ∧
      (short = false → g.count + 1 ≠ most → MovesOn slot i p h n { s with reader := { s.reader with
        write := none, stage := none
        scan := some { g with count := g.count + 1, placed := g.placed + w.bytes.length } } }
        (exec (.imageWriteEnd true) s)))

/-! ### The Array Controller (R148 to R157) -/

/-- ARRAY_REQUEST (R148, R152, R153): a request is pending once taken; a free array makes its choice, one with a
suspended erase serves or resumes; an erase in progress is suspended for a program or read of the Journal Writer, the
Anchor Unit or the Read Unit, at most eight times; while anything else runs the request waits. -/
def Obligations.RequestsTaken : Prop :=
  ∀ (s : State) (who : Requester) (op : ArrayOp), s.host.device ≠ .halted → s.ctrl.placed.get who = some op →
    let c := { s.ctrl with placed := s.ctrl.placed.set who none, requests := s.ctrl.requests.set who (some op) }
    let does (t : ArrayCtrl) : Prop := exec (.arrayRequest who) s = .next { s with ctrl := t }
    (s.ctrl.state = .reading ∨ s.ctrl.state = .programming ∨ s.ctrl.state = .suspending ∨ s.ctrl.state = .resuming ∨
      s.ctrl.state = .blankChecking → does c) ∧
    (s.ctrl.state = .idle → ∃ t, does t ∧ Picked c t) ∧
    (∀ e, s.ctrl.erase = some e →
      (s.ctrl.state = .eraseSuspended → ∃ t, does t ∧ PickedSuspended c t e) ∧
      (s.ctrl.state = .erasing →
        (IsService op → who ≠ .mount → e.suspends < 8 → does { c with
          state := .suspending, erase := some { e with suspends := e.suspends + 1, served := 0 }
          suspensions := min (c.suspensions + 1) 0xFFFFFFFF }) ∧
        (¬IsService op ∨ who = .mount ∨ 8 ≤ e.suspends → does c)))

/-- ARRAY_OPERATION_END (R1, R3, R149 to R152, R154, R158): what each operation does to the array, the outcome handed
to its requester, and the controller's next choice; an erase may end so while it is being suspended. The time elapsed,
the bit errors of a report and what a failure leaves are operands, the model's choice (log entries 14 and 15), and so is
how a content that is not a line's own is kept from passing a check of its line, or the check of its snapshot: the line
shows as UNCORRECTABLE (log entry 15). That a failed snapshot commit line does not carry the fields it was to receive is
read from R15 by inference (log entry 15). -/
def Obligations.OperationsEnd : Prop :=
  ∀ (s : State) (elapsed : Nat) (who : Requester) (op : ArrayOp), Canonical s → s.host.device ≠ .halted →
    s.ctrl.operation = some (who, op) →
    s.ctrl.state = running op ∨ (s.ctrl.state = .suspending ∧ ∃ i, op = .eraseSector i) →
    let c := s.ctrl
    let at_ (i : SectorNo) (k : Nat) : Option Cell := memGet s.array (lineNo i k)
    let ends (report : ArrayReport) (o : ArrayOutcome) (corrected broken : Nat)
        (holds : List (Nat × Cell) → List (Nat × List Byte) → Prop) : Prop :=
      ∃ x m b, exec (.arrayOperationEnd elapsed report) s = .next { s with ctrl := x, array := m, barred := b } ∧
        holds m b ∧
        let c' := { c with
          outcomes := c.outcomes.set who (some o)
          linesCorrected := min (c.linesCorrected + corrected) 0xFFFFFFFF
          linesUncorrectable := min (c.linesUncorrectable + broken) 0xFFFFFFFF }
        let r : ArrayCtrl := match o with
          | .lines _ => c'
          | _ => { c with outcomes := c.outcomes.set who (some o) }
        (IsService op → ∀ e, c.erase = some e → PickedSuspended r x e) ∧
        (¬IsService op ∨ c.erase = none → Picked r x)
    let same (m : List (Nat × Cell)) (b : List (Nat × List Byte)) : Prop := m = s.array ∧ b = s.barred
    let disturbs (d : List (Nat × LineOutcome)) (n : Nat) : Prop :=
      ∃ o, memGet d n = some o ∧ o ≠ .clean (List.replicate 32 0xFF#8)
    (∀ i first lines, op = .programLines i first lines → elapsed < 10000 →
      let inside (count n : Nat) : Prop := lineNo i first ≤ n ∧ n < lineNo i first + count
      let written (count : Nat) (m : List (Nat × Cell)) : Prop :=
        (∀ j, j < count → memGet m (lineNo i (first + j)) = some (.clean (lines.getD j []))) ∧
        ∀ n, ¬inside count n → (count < lines.length → n ≠ lineNo i (first + count)) → memGet m n = memGet s.array n
      (∀ d, (∀ j, j < lines.length → at_ i (first + j) = none ∧ ¬disturbs d (lineNo i (first + j))) →
        ends (.done d) .programmed 0 0 fun m b => written lines.length m ∧ b = s.barred) ∧
      (∀ k, k < lines.length →
        (∀ d, (∀ j, j < k → at_ i (first + j) = none ∧ ¬disturbs d (lineNo i (first + j))) →
          at_ i (first + k) ≠ none ∨ disturbs d (lineNo i (first + k)) →
          ends (.done d) (.programFailed (first + k) true) 0 0 fun m b =>
            written k m ∧ memGet m (lineNo i (first + k)) = at_ i (first + k) ∧ b = s.barred) ∧
        ((∀ j, j < k → at_ i (first + j) = none) → at_ i (first + k) = none → ∀ left,
          ends (.programFails (lineNo i (first + k)) left) (.programFailed (first + k) false) 0 0 fun m b =>
            written k m ∧ readable (cellOutcome (memGet m (lineNo i (first + k)))) ≠ some (lines.getD k []) ∧
            (lineNo i (first + k) < 4096 → fieldAt (lines.getD k []) 0 4 = Config.snapshotMarker → ∀ x,
              readable (cellOutcome (memGet m (lineNo i (first + k)))) = some x →
              x.take 12 ≠ (lines.getD k []).take 12) ∧
            b = (lineNo i (first + k), lines.getD k []) :: s.barred))) ∧
    (∀ i, op = .eraseSector i → c.eraseTime + elapsed < 2000000 →
      (∀ d, ends (.done d) .erased 0 0 fun m b =>
        (∀ n, memGet m n = if inSector i n then none else memGet s.array n) ∧
        ∀ n x, (n, x) ∈ b ↔ (n, x) ∈ s.barred ∧ inSector i n = false) ∧
      ∀ left, ends (.eraseFails left) .eraseFailed 0 0 fun m b =>
        EraseResidue i s m ∧ Bars i s b ∧ ∃ n, inSector i n = true ∧ memGet m n ≠ none) ∧
    (∀ i first count, op = .readLines i first count → elapsed < 1000 →
      let own (k : Nat) : LineOutcome := cellOutcome (at_ i (first + k))
      (let l := (List.range count).map own
       ends (.done []) (.lines l) (correctedLines l) (uncorrectableLines l) same) ∧
      ∀ d, ∃ shown l, shown.length = count ∧ l.length = count ∧
        ends (.done d) (.lines l) (correctedLines l) (uncorrectableLines l) same ∧
        (∀ k x, shown[k]? = some x → Shown s d (lineNo i (first + k)) x) ∧
        let stated := validSnapshot ((List.range count).map own)
        let caught := i.val < 2 ∧ validSnapshot shown ≠ none ∧ validSnapshot shown ≠ stated
        (¬caught → l = shown) ∧
        (caught → validSnapshot l = none ∧ ∀ k x, shown[k]? = some x →
          l[k]? = some (if readable (own k) = readable x then x else .uncorrectable))) ∧
    (∀ i, op = .blankCheck i → elapsed < 1000 → ∀ d,
      ((∀ n, inSector i n = true → memGet s.array n = none ∧ ¬disturbs d n) → ends (.done d) .blank 0 0 same) ∧
      (∀ n, inSector i n = true → memGet s.array n ≠ none ∨ disturbs d n → ends (.done d) .notBlank 0 0 same))

/-- ERASE_STOPPED, ERASE_RESUMED and ARRAY_TIMEOUT (R1, R3, R153, R154, R156, R181): a stopped erase, of whose sector
nothing is readable, gives way to the rotation or is resumed; a resumed one is suspended again for a pending program or
read, at most eight times; an operation that reaches its limit, also while it is suspended or resumed, halts the part
and leaves the array as an operation that was cut short. The time elapsed and what is left are operands, the model's
choice (log entries 14 and 15), and so is how a line of a stopped erase reads (log entry 15). -/
def Obligations.ErasesSuspended : Prop :=
  ∀ (s : State) (elapsed : Nat) (e : HeldErase), s.host.device ≠ .halted →
    let c := { s.ctrl with eraseTime := s.ctrl.eraseTime + elapsed }
    (s.ctrl.erase = some e → s.ctrl.eraseTime + elapsed < 2000000 →
      (s.ctrl.state = .suspending →
        ∃ t m b, exec (.eraseStopped elapsed) s = .next { s with ctrl := t, array := m, barred := b } ∧
          PickedSuspended c t e ∧
          (Canonical s → Bars e.sector s b ∧
            ∀ n, memGet m n = if inSector e.sector n then some .broken else memGet s.array n)) ∧
      (s.ctrl.state = .resuming →
        let wanted := ∃ who op, Wants s.ctrl who op
        (wanted → e.suspends < 8 → exec (.eraseResumed elapsed) s = .next { s with ctrl := { c with
          state := .suspending, erase := some { e with suspends := e.suspends + 1, served := 0 }
          suspensions := min (c.suspensions + 1) 0xFFFFFFFF } }) ∧
        (¬wanted ∨ 8 ≤ e.suspends →
          exec (.eraseResumed elapsed) s = .next { s with ctrl := { c with state := .erasing } }))) ∧
    (∀ who op left, s.ctrl.operation = some (who, op) →
      s.ctrl.state = running op ∨
        ((s.ctrl.state = .suspending ∨ s.ctrl.state = .resuming) ∧ ∃ i, op = .eraseSector i) →
      let limit := match op with
        | .readLines _ _ _ => 1000
        | .programLines _ _ _ => 10000
        | .eraseSector _ => 2000000
        | .blankCheck _ => 1000
      let time := match op with
        | .eraseSector _ => s.ctrl.eraseTime + elapsed
        | _ => elapsed
      (time < limit → exec (.arrayTimeout elapsed left) s = .next s) ∧
      (limit ≤ time → ∃ x m b, exec (.arrayTimeout elapsed left) s = .next { s with
          host := stopped .halted .arrayTimeout 0 s.host, ctrl := x, array := m, barred := b } ∧
        (IsService op → s.ctrl.erase ≠ none →
          x = { s.ctrl with state := .eraseSuspended, operation := none }) ∧
        (¬IsService op ∨ s.ctrl.erase = none → x = { s.ctrl with
          state := .idle, operation := none, erase := none, eraseTime := x.eraseTime }) ∧
        ((∀ i, op ≠ .eraseSector i) → x.eraseTime = s.ctrl.eraseTime) ∧
        (∀ i, op = .eraseSector i → x.eraseTime = 2000000 ∧
          (Canonical s → EraseResidue i s m ∧ Bars i s b)) ∧
        (∀ i first lines, op = .programLines i first lines → b = s.barred ∧
          (Canonical s → ProgramResidue i first lines.length left s m)) ∧
        ((∃ i first count, op = .readLines i first count) ∨ (∃ i, op = .blankCheck i) → m = s.array ∧ b = s.barred)))

/-! ### The Mount Unit (R13, R160 to R169) -/

/-- ANCHOR_SLOT_READ, MOUNT_LINE_READ and BLANK_CHECK_END (R13, R160 to R163): what is found, and the read that is
asked for next: the next slot, the other anchor sector after slot 63, the first journal sector that is not retired after
that, the next line of a walk, or the next sector. After the last sector the mount is built and handed over. That the scan
position after the handover is none is the model's choice (log entry 4). That what a signal starts is a happening of
its own is read by inference (log entry 7). -/
def Obligations.MountScans : Prop :=
  ∀ (s : State), s.host.device = .mounting →
    let asks (op : ArrayOp) (m : Mount) := { s with mount := m, ctrl := asked .mount op (taken .mount s.ctrl) }
    (∀ (a : Fin 2) (k : Nat) (o : LineOutcome) (l : List LineOutcome), s.mount.position = .slot a k →
      Answers s .mount (.lines (o :: l)) → ∃ m : Mount,
      (k < 63 → exec .anchorSlotRead s =
        .next (asks (.readLines (anchorSector a) (32 * (k + 1)) 19) { m with position := .slot a (k + 1) })) ∧
      (63 ≤ k → a = 0 → exec .anchorSlotRead s = .next (asks (.readLines 1 0 19) { m with position := .slot 1 0 })) ∧
      (63 ≤ k → a = 1 → ScanPasses 2 { s with mount := { m with phase := .sectorScan }, ctrl := taken .mount s.ctrl }
        (exec .anchorSlotRead s)) ∧
      m = { s.mount with usedSlots := m.usedSlots, generations := m.generations, snapshot := m.snapshot } ∧
      (readable o = some (List.replicate 32 0xFF#8) → m = s.mount) ∧
      (readable o ≠ some (List.replicate 32 0xFF#8) → m.usedSlots = s.mount.usedSlots.set a (some k) ∧
        (∀ g, g ∈ m.generations ↔ g ∈ s.mount.generations ∨ slotGeneration o = some g) ∧
        (∀ g holds retired, validSnapshot (o :: l) = some (g, holds, retired) →
          ((∀ f, s.mount.snapshot = some f → f.generation ≤ g) → m.snapshot = some ⟨a, k, g, holds, retired⟩) ∧
          (∀ f, s.mount.snapshot = some f → g < f.generation → m.snapshot = some f)) ∧
        (validSnapshot (o :: l) = none → m.snapshot = s.mount.snapshot))) ∧
    (∀ o l, Answers s .mount (.lines (o :: l)) →
      (∀ i, s.mount.position = .sectorHeader i →
        (∀ h, validSectorHeader o = some h → exec .mountLineRead s = .next (asks (.readLines i 1 1) { s.mount with
          position := .walkHeader i 1 ⟨h, h.baseJsn, 0, Vector.replicate 16 none⟩ })) ∧
        (readable o = some (List.replicate 32 0xFF#8) → exec .mountLineRead s =
          .next (asks (.blankCheck i) { s.mount with position := .blankCheck i }))) ∧
      (∀ i p w, s.mount.position = .walkHeader i p w → ∀ h, viewHeader w.expected p o = .data h →
        exec .mountLineRead s = .next (asks (.readLines i (p + (2 + (h.length + 31) / 32) - 1) 1)
          { s.mount with position := .walkCommit i p h w })) ∧
      (∀ i p h w, s.mount.position = .walkCommit i p h w →
        let next := p + (2 + (h.length + 31) / 32)
        let w' : Walk := ⟨w.header, w.expected + 1, w.count + 1, w.newest.set h.stream (some (h.jsn, h.seq))⟩
        validCommit h o ≠ none → next ≠ 2048 → exec .mountLineRead s =
          .next (asks (.readLines i next 1) { s.mount with position := .walkHeader i next w' }))) ∧
    (∀ c i f streams, ScanEnds s c i f streams → ScanPasses (i.val + 1)
      { s with
        mount := { s.mount with findings := s.mount.findings.set i f, streamFindings := streams }
        ctrl := taken .mount s.ctrl }
      (exec c s))

/-- The handover of a mount (R20, R161, R164 to R169, R172), when the scan of the last sector that is not retired ends
in any of its ways: what the blocks hold when the part leaves MOUNTING. That the scan position is none then is the model's
choice (log entry 4). That what a signal starts is a happening of its own is read by inference (log entry 7). -/
def Obligations.MountHandsOver : Prop :=
  ∀ (s : State) (c : Instr) (i : SectorNo) (f : Finding) (streams : Vector (Option (Nat × Seq)) 16),
    s.host.device = .mounting → ScanEnds s c i f streams → (∀ k : SectorNo, i < k → retiredBy s.mount k) →
    let scanned := { s.mount with findings := s.mount.findings.set i f, streamFindings := streams }
    (∀ (k : SectorNo) w e p, scanned.findings[k] = .valid w e p → Walk.counted w) →
    ∃ findings t, exec c s = .next t ∧
      (∀ k : SectorNo, findings[k] = if i < k then .retired else scanned.findings[k]) ∧
      HandedOver { s with mount := { scanned with findings := findings }, ctrl := taken .mount s.ctrl } t ∧
      (s.host.enable = true → t.host.device = .online) ∧ (s.host.enable = false → t.host.device = .stopped) ∧
      t.mount.mounted = true ∧ t.mount.phase = .idle

/-! ### The lines of the medium (R5, R8 to R12, R14, R15) -/

/-- Every line and slot the part writes reads back as what it was written from: sector headers, record headers at any
position where the record fits, PADs, commit lines and snapshots. The places of the fields are the model's choice (log
entry 1). -/
def Obligations.LinesReadBack : Prop :=
  (∀ h : SectorHeader, 1 ≤ h.epoch ∧ h.epoch ≤ 0xFFFFFFFE → 1 ≤ h.baseJsn ∧ h.baseJsn ≤ 0xFFFFFFFE → h.wear < 2 ^ 32 →
    (sectorHeaderLine h).length = 32 ∧ validSectorHeader (.clean (sectorHeaderLine h)) = some h) ∧
  (∀ (h : RecordHeader) (p : Nat), 1 ≤ h.jsn → h.jsn ≤ 0xFFFFFFFE → 1 ≤ h.length → h.length ≤ 8192 →
    p + (2 + (h.length + 31) / 32) ≤ 2048 →
    (recordHeaderLine h).length = 32 ∧ viewHeader h.jsn p (.clean (recordHeaderLine h)) = .data h ∧
    ∀ crc : Word, (commitLine h.jsn h.length crc).length = 32 ∧
      validCommit h (.clean (commitLine h.jsn h.length crc)) = some crc) ∧
  (∀ (n p : Nat), n < 2 ^ 32 → (padLine n).length = 32 ∧ viewHeader n p (.clean (padLine n)) = .pad) ∧
  (∀ (g : Nat) (holds : Vector (Option HoldLine) 16) (retired : BitVec 256), g < 2 ^ 32 →
    (∀ (id : Fin 16) (h : HoldLine), holds[id] = some h → 1 ≤ h.first ∧ h.first ≤ 0xFFFFFFFE ∧
      ∀ l, h.last = some l → h.first ≤ l ∧ l ≤ 0xFFFFFFFE) →
    retired.getLsbD 0 = false → retired.getLsbD 1 = false →
    (snapshotLines g holds retired).length = 19 ∧ (∀ l ∈ snapshotLines g holds retired, l.length = 32) ∧
    validSnapshot ((snapshotLines g holds retired).map .clean) = some (g, holds, retired))
end

