-- ==== Sys2Proof/Laws/Lists.lean ====
section
/-! SUPPORT. The first, the only and the next element that a search finds. -/

namespace Sys2Proof.Laws

/-- A search of all numbers finds the only one that passes. -/
theorem find_unique {n : Nat} {p : Fin n → Bool} {o : Fin n} (h : ∀ k, p k = true ↔ k = o) :
    (List.finRange n).find? p = some o := by
  rcases hf : (List.finRange n).find? p with _ | x
  · have := (List.find?_eq_none.mp hf) o (List.mem_finRange o)
    simp [h] at this
  · have := List.find?_some hf
    simp [h] at this; rw [this]

/-- A search of all numbers finds the lowest that passes. -/
theorem find_first {n : Nat} {p : Fin n → Bool} {i : Fin n} (hi : p i = true) (h : ∀ j, j < i → p j = false) :
   (List.finRange n).find? p = some i := by
  rcases hf : (List.finRange n).find? p with _ | x
  · have := (List.find?_eq_none.mp hf) i (List.mem_finRange i); simp [hi] at this
  · obtain ⟨hp, as, bs, he, hn⟩ := List.find?_eq_some_iff_append.mp hf
    have hs : List.Pairwise (· < ·) (as ++ x :: bs) := he ▸ List.pairwise_lt_finRange n
    have hx : ¬ x < i := fun hlt => by simp [h x hlt] at hp
    have hi' : ¬ i < x := by
      intro hlt
      have hm : i ∈ as ++ x :: bs := he ▸ List.mem_finRange i
      rcases List.mem_append.mp hm with hm | hm
      · have := hn i hm; simp [hi] at this
      · rcases List.mem_cons.mp hm with rfl | hm
        · exact absurd hlt (lt_irrefl _)
        · have := (List.pairwise_cons.mp (List.pairwise_append.mp hs).2.1).1 i hm
          omega
    congr 1; omega

/-- The first number that answers. -/
theorem findSome_first {α n} {f : Fin n → Option α} {i : Fin n} {v : α} (hi : f i = some v) (h : ∀ j, j < i → f j = none) :
   (List.finRange n).findSome? f = some v := by
  rw [List.findSome?_eq_some_iff]
  obtain ⟨as, bs, he⟩ := List.append_of_mem (List.mem_finRange i)
  refine ⟨as, i, bs, he, hi, fun j hj => h j ?_⟩
  have hs : List.Pairwise (· < ·) (as ++ i :: bs) := he ▸ List.pairwise_lt_finRange n
  exact (List.pairwise_append.mp hs).2.2 j hj i (by simp)

/-- A search of all numbers finds the only one with a value. -/
theorem findSome_unique {α n} {f : Fin n → Option α} {i : Fin n} {v : α} (hi : f i = some v) (h : ∀ j, j ≠ i → f j = none) :
    (List.finRange n).findSome? f = some v := by
  rcases hf : (List.finRange n).findSome? f with _ | y
  · have := (List.findSome?_eq_none_iff.mp hf) i (List.mem_finRange i); simp [hi] at this
  · obtain ⟨x, _, hx⟩ := List.exists_of_findSome?_eq_some hf
    by_cases e : x = i
    · subst e; rw [hi] at hx; exact hx.symm
    · simp [h x e] at hx

/-- A search finds the first that passes. -/
theorem find_append {α} {p : α → Bool} {before after : List α} {i} (hi : p i = true) (h : ∀ k ∈ before, p k = false) :
   (before ++ i :: after).find? p = some i := by
  rw [List.find?_append, List.find?_eq_none.mpr (by intro x hx; simp [h x hx])]
  simp [hi]

end Sys2Proof.Laws
end

