-- ==== Sys2Proof/Laws/State.lean ====
section
/-! SUPPORT. One lemma for each field of `State` and each update of one block, so that no proof unfolds a record
update. -/

namespace Sys2Proof.Machine

variable (s : State)

/-! ### `onHost` -/

@[simp] theorem State.onHost_host (f : HostUnit → HostUnit) : (s.onHost f).host = f s.host := rfl
@[simp] theorem State.onHost_assembly (f : HostUnit → HostUnit) : (s.onHost f).assembly = s.assembly := rfl
@[simp] theorem State.onHost_writer (f : HostUnit → HostUnit) : (s.onHost f).writer = s.writer := rfl
@[simp] theorem State.onHost_table (f : HostUnit → HostUnit) : (s.onHost f).table = s.table := rfl
@[simp] theorem State.onHost_reclaim (f : HostUnit → HostUnit) : (s.onHost f).reclaim = s.reclaim := rfl
@[simp] theorem State.onHost_holds (f : HostUnit → HostUnit) : (s.onHost f).holds = s.holds := rfl
@[simp] theorem State.onHost_anchor (f : HostUnit → HostUnit) : (s.onHost f).anchor = s.anchor := rfl
@[simp] theorem State.onHost_reader (f : HostUnit → HostUnit) : (s.onHost f).reader = s.reader := rfl
@[simp] theorem State.onHost_ctrl (f : HostUnit → HostUnit) : (s.onHost f).ctrl = s.ctrl := rfl
@[simp] theorem State.onHost_mount (f : HostUnit → HostUnit) : (s.onHost f).mount = s.mount := rfl
@[simp] theorem State.onHost_array (f : HostUnit → HostUnit) : (s.onHost f).array = s.array := rfl
@[simp] theorem State.onHost_barred (f : HostUnit → HostUnit) : (s.onHost f).barred = s.barred := rfl
@[simp] theorem State.onHost_staging (f : HostUnit → HostUnit) : (s.onHost f).staging = s.staging := rfl
@[simp] theorem State.onHost_pending (f : HostUnit → HostUnit) : (s.onHost f).pending = s.pending := rfl

/-! ### `onAssembly` -/

@[simp] theorem State.onAssembly_host (f : Assembly → Assembly) : (s.onAssembly f).host = s.host := rfl
@[simp] theorem State.onAssembly_assembly (f : Assembly → Assembly) : (s.onAssembly f).assembly = f s.assembly := rfl
@[simp] theorem State.onAssembly_writer (f : Assembly → Assembly) : (s.onAssembly f).writer = s.writer := rfl
@[simp] theorem State.onAssembly_table (f : Assembly → Assembly) : (s.onAssembly f).table = s.table := rfl
@[simp] theorem State.onAssembly_reclaim (f : Assembly → Assembly) : (s.onAssembly f).reclaim = s.reclaim := rfl
@[simp] theorem State.onAssembly_holds (f : Assembly → Assembly) : (s.onAssembly f).holds = s.holds := rfl
@[simp] theorem State.onAssembly_anchor (f : Assembly → Assembly) : (s.onAssembly f).anchor = s.anchor := rfl
@[simp] theorem State.onAssembly_reader (f : Assembly → Assembly) : (s.onAssembly f).reader = s.reader := rfl
@[simp] theorem State.onAssembly_ctrl (f : Assembly → Assembly) : (s.onAssembly f).ctrl = s.ctrl := rfl
@[simp] theorem State.onAssembly_mount (f : Assembly → Assembly) : (s.onAssembly f).mount = s.mount := rfl
@[simp] theorem State.onAssembly_array (f : Assembly → Assembly) : (s.onAssembly f).array = s.array := rfl
@[simp] theorem State.onAssembly_barred (f : Assembly → Assembly) : (s.onAssembly f).barred = s.barred := rfl
@[simp] theorem State.onAssembly_staging (f : Assembly → Assembly) : (s.onAssembly f).staging = s.staging := rfl
@[simp] theorem State.onAssembly_pending (f : Assembly → Assembly) : (s.onAssembly f).pending = s.pending := rfl

/-! ### `onWriter` -/

@[simp] theorem State.onWriter_host (f : Writer → Writer) : (s.onWriter f).host = s.host := rfl
@[simp] theorem State.onWriter_assembly (f : Writer → Writer) : (s.onWriter f).assembly = s.assembly := rfl
@[simp] theorem State.onWriter_writer (f : Writer → Writer) : (s.onWriter f).writer = f s.writer := rfl
@[simp] theorem State.onWriter_table (f : Writer → Writer) : (s.onWriter f).table = s.table := rfl
@[simp] theorem State.onWriter_reclaim (f : Writer → Writer) : (s.onWriter f).reclaim = s.reclaim := rfl
@[simp] theorem State.onWriter_holds (f : Writer → Writer) : (s.onWriter f).holds = s.holds := rfl
@[simp] theorem State.onWriter_anchor (f : Writer → Writer) : (s.onWriter f).anchor = s.anchor := rfl
@[simp] theorem State.onWriter_reader (f : Writer → Writer) : (s.onWriter f).reader = s.reader := rfl
@[simp] theorem State.onWriter_ctrl (f : Writer → Writer) : (s.onWriter f).ctrl = s.ctrl := rfl
@[simp] theorem State.onWriter_mount (f : Writer → Writer) : (s.onWriter f).mount = s.mount := rfl
@[simp] theorem State.onWriter_array (f : Writer → Writer) : (s.onWriter f).array = s.array := rfl
@[simp] theorem State.onWriter_barred (f : Writer → Writer) : (s.onWriter f).barred = s.barred := rfl
@[simp] theorem State.onWriter_staging (f : Writer → Writer) : (s.onWriter f).staging = s.staging := rfl
@[simp] theorem State.onWriter_pending (f : Writer → Writer) : (s.onWriter f).pending = s.pending := rfl

/-! ### `onTable` -/

@[simp] theorem State.onTable_host (f : SectorTable → SectorTable) : (s.onTable f).host = s.host := rfl
@[simp] theorem State.onTable_assembly (f : SectorTable → SectorTable) : (s.onTable f).assembly = s.assembly := rfl
@[simp] theorem State.onTable_writer (f : SectorTable → SectorTable) : (s.onTable f).writer = s.writer := rfl
@[simp] theorem State.onTable_table (f : SectorTable → SectorTable) : (s.onTable f).table = f s.table := rfl
@[simp] theorem State.onTable_reclaim (f : SectorTable → SectorTable) : (s.onTable f).reclaim = s.reclaim := rfl
@[simp] theorem State.onTable_holds (f : SectorTable → SectorTable) : (s.onTable f).holds = s.holds := rfl
@[simp] theorem State.onTable_anchor (f : SectorTable → SectorTable) : (s.onTable f).anchor = s.anchor := rfl
@[simp] theorem State.onTable_reader (f : SectorTable → SectorTable) : (s.onTable f).reader = s.reader := rfl
@[simp] theorem State.onTable_ctrl (f : SectorTable → SectorTable) : (s.onTable f).ctrl = s.ctrl := rfl
@[simp] theorem State.onTable_mount (f : SectorTable → SectorTable) : (s.onTable f).mount = s.mount := rfl
@[simp] theorem State.onTable_array (f : SectorTable → SectorTable) : (s.onTable f).array = s.array := rfl
@[simp] theorem State.onTable_barred (f : SectorTable → SectorTable) : (s.onTable f).barred = s.barred := rfl
@[simp] theorem State.onTable_staging (f : SectorTable → SectorTable) : (s.onTable f).staging = s.staging := rfl
@[simp] theorem State.onTable_pending (f : SectorTable → SectorTable) : (s.onTable f).pending = s.pending := rfl

/-! ### `onReclaim` -/

@[simp] theorem State.onReclaim_host (f : Reclaim → Reclaim) : (s.onReclaim f).host = s.host := rfl
@[simp] theorem State.onReclaim_assembly (f : Reclaim → Reclaim) : (s.onReclaim f).assembly = s.assembly := rfl
@[simp] theorem State.onReclaim_writer (f : Reclaim → Reclaim) : (s.onReclaim f).writer = s.writer := rfl
@[simp] theorem State.onReclaim_table (f : Reclaim → Reclaim) : (s.onReclaim f).table = s.table := rfl
@[simp] theorem State.onReclaim_reclaim (f : Reclaim → Reclaim) : (s.onReclaim f).reclaim = f s.reclaim := rfl
@[simp] theorem State.onReclaim_holds (f : Reclaim → Reclaim) : (s.onReclaim f).holds = s.holds := rfl
@[simp] theorem State.onReclaim_anchor (f : Reclaim → Reclaim) : (s.onReclaim f).anchor = s.anchor := rfl
@[simp] theorem State.onReclaim_reader (f : Reclaim → Reclaim) : (s.onReclaim f).reader = s.reader := rfl
@[simp] theorem State.onReclaim_ctrl (f : Reclaim → Reclaim) : (s.onReclaim f).ctrl = s.ctrl := rfl
@[simp] theorem State.onReclaim_mount (f : Reclaim → Reclaim) : (s.onReclaim f).mount = s.mount := rfl
@[simp] theorem State.onReclaim_array (f : Reclaim → Reclaim) : (s.onReclaim f).array = s.array := rfl
@[simp] theorem State.onReclaim_barred (f : Reclaim → Reclaim) : (s.onReclaim f).barred = s.barred := rfl
@[simp] theorem State.onReclaim_staging (f : Reclaim → Reclaim) : (s.onReclaim f).staging = s.staging := rfl
@[simp] theorem State.onReclaim_pending (f : Reclaim → Reclaim) : (s.onReclaim f).pending = s.pending := rfl

/-! ### `onHolds` -/

@[simp] theorem State.onHolds_host (f : HoldTable → HoldTable) : (s.onHolds f).host = s.host := rfl
@[simp] theorem State.onHolds_assembly (f : HoldTable → HoldTable) : (s.onHolds f).assembly = s.assembly := rfl
@[simp] theorem State.onHolds_writer (f : HoldTable → HoldTable) : (s.onHolds f).writer = s.writer := rfl
@[simp] theorem State.onHolds_table (f : HoldTable → HoldTable) : (s.onHolds f).table = s.table := rfl
@[simp] theorem State.onHolds_reclaim (f : HoldTable → HoldTable) : (s.onHolds f).reclaim = s.reclaim := rfl
@[simp] theorem State.onHolds_holds (f : HoldTable → HoldTable) : (s.onHolds f).holds = f s.holds := rfl
@[simp] theorem State.onHolds_anchor (f : HoldTable → HoldTable) : (s.onHolds f).anchor = s.anchor := rfl
@[simp] theorem State.onHolds_reader (f : HoldTable → HoldTable) : (s.onHolds f).reader = s.reader := rfl
@[simp] theorem State.onHolds_ctrl (f : HoldTable → HoldTable) : (s.onHolds f).ctrl = s.ctrl := rfl
@[simp] theorem State.onHolds_mount (f : HoldTable → HoldTable) : (s.onHolds f).mount = s.mount := rfl
@[simp] theorem State.onHolds_array (f : HoldTable → HoldTable) : (s.onHolds f).array = s.array := rfl
@[simp] theorem State.onHolds_barred (f : HoldTable → HoldTable) : (s.onHolds f).barred = s.barred := rfl
@[simp] theorem State.onHolds_staging (f : HoldTable → HoldTable) : (s.onHolds f).staging = s.staging := rfl
@[simp] theorem State.onHolds_pending (f : HoldTable → HoldTable) : (s.onHolds f).pending = s.pending := rfl

/-! ### `onAnchor` -/

@[simp] theorem State.onAnchor_host (f : Anchor → Anchor) : (s.onAnchor f).host = s.host := rfl
@[simp] theorem State.onAnchor_assembly (f : Anchor → Anchor) : (s.onAnchor f).assembly = s.assembly := rfl
@[simp] theorem State.onAnchor_writer (f : Anchor → Anchor) : (s.onAnchor f).writer = s.writer := rfl
@[simp] theorem State.onAnchor_table (f : Anchor → Anchor) : (s.onAnchor f).table = s.table := rfl
@[simp] theorem State.onAnchor_reclaim (f : Anchor → Anchor) : (s.onAnchor f).reclaim = s.reclaim := rfl
@[simp] theorem State.onAnchor_holds (f : Anchor → Anchor) : (s.onAnchor f).holds = s.holds := rfl
@[simp] theorem State.onAnchor_anchor (f : Anchor → Anchor) : (s.onAnchor f).anchor = f s.anchor := rfl
@[simp] theorem State.onAnchor_reader (f : Anchor → Anchor) : (s.onAnchor f).reader = s.reader := rfl
@[simp] theorem State.onAnchor_ctrl (f : Anchor → Anchor) : (s.onAnchor f).ctrl = s.ctrl := rfl
@[simp] theorem State.onAnchor_mount (f : Anchor → Anchor) : (s.onAnchor f).mount = s.mount := rfl
@[simp] theorem State.onAnchor_array (f : Anchor → Anchor) : (s.onAnchor f).array = s.array := rfl
@[simp] theorem State.onAnchor_barred (f : Anchor → Anchor) : (s.onAnchor f).barred = s.barred := rfl
@[simp] theorem State.onAnchor_staging (f : Anchor → Anchor) : (s.onAnchor f).staging = s.staging := rfl
@[simp] theorem State.onAnchor_pending (f : Anchor → Anchor) : (s.onAnchor f).pending = s.pending := rfl

/-! ### `onReader` -/

@[simp] theorem State.onReader_host (f : ReadUnit → ReadUnit) : (s.onReader f).host = s.host := rfl
@[simp] theorem State.onReader_assembly (f : ReadUnit → ReadUnit) : (s.onReader f).assembly = s.assembly := rfl
@[simp] theorem State.onReader_writer (f : ReadUnit → ReadUnit) : (s.onReader f).writer = s.writer := rfl
@[simp] theorem State.onReader_table (f : ReadUnit → ReadUnit) : (s.onReader f).table = s.table := rfl
@[simp] theorem State.onReader_reclaim (f : ReadUnit → ReadUnit) : (s.onReader f).reclaim = s.reclaim := rfl
@[simp] theorem State.onReader_holds (f : ReadUnit → ReadUnit) : (s.onReader f).holds = s.holds := rfl
@[simp] theorem State.onReader_anchor (f : ReadUnit → ReadUnit) : (s.onReader f).anchor = s.anchor := rfl
@[simp] theorem State.onReader_reader (f : ReadUnit → ReadUnit) : (s.onReader f).reader = f s.reader := rfl
@[simp] theorem State.onReader_ctrl (f : ReadUnit → ReadUnit) : (s.onReader f).ctrl = s.ctrl := rfl
@[simp] theorem State.onReader_mount (f : ReadUnit → ReadUnit) : (s.onReader f).mount = s.mount := rfl
@[simp] theorem State.onReader_array (f : ReadUnit → ReadUnit) : (s.onReader f).array = s.array := rfl
@[simp] theorem State.onReader_barred (f : ReadUnit → ReadUnit) : (s.onReader f).barred = s.barred := rfl
@[simp] theorem State.onReader_staging (f : ReadUnit → ReadUnit) : (s.onReader f).staging = s.staging := rfl
@[simp] theorem State.onReader_pending (f : ReadUnit → ReadUnit) : (s.onReader f).pending = s.pending := rfl

/-! ### `onCtrl` -/

@[simp] theorem State.onCtrl_host (f : ArrayCtrl → ArrayCtrl) : (s.onCtrl f).host = s.host := rfl
@[simp] theorem State.onCtrl_assembly (f : ArrayCtrl → ArrayCtrl) : (s.onCtrl f).assembly = s.assembly := rfl
@[simp] theorem State.onCtrl_writer (f : ArrayCtrl → ArrayCtrl) : (s.onCtrl f).writer = s.writer := rfl
@[simp] theorem State.onCtrl_table (f : ArrayCtrl → ArrayCtrl) : (s.onCtrl f).table = s.table := rfl
@[simp] theorem State.onCtrl_reclaim (f : ArrayCtrl → ArrayCtrl) : (s.onCtrl f).reclaim = s.reclaim := rfl
@[simp] theorem State.onCtrl_holds (f : ArrayCtrl → ArrayCtrl) : (s.onCtrl f).holds = s.holds := rfl
@[simp] theorem State.onCtrl_anchor (f : ArrayCtrl → ArrayCtrl) : (s.onCtrl f).anchor = s.anchor := rfl
@[simp] theorem State.onCtrl_reader (f : ArrayCtrl → ArrayCtrl) : (s.onCtrl f).reader = s.reader := rfl
@[simp] theorem State.onCtrl_ctrl (f : ArrayCtrl → ArrayCtrl) : (s.onCtrl f).ctrl = f s.ctrl := rfl
@[simp] theorem State.onCtrl_mount (f : ArrayCtrl → ArrayCtrl) : (s.onCtrl f).mount = s.mount := rfl
@[simp] theorem State.onCtrl_array (f : ArrayCtrl → ArrayCtrl) : (s.onCtrl f).array = s.array := rfl
@[simp] theorem State.onCtrl_barred (f : ArrayCtrl → ArrayCtrl) : (s.onCtrl f).barred = s.barred := rfl
@[simp] theorem State.onCtrl_staging (f : ArrayCtrl → ArrayCtrl) : (s.onCtrl f).staging = s.staging := rfl
@[simp] theorem State.onCtrl_pending (f : ArrayCtrl → ArrayCtrl) : (s.onCtrl f).pending = s.pending := rfl

/-! ### `onMount` -/

@[simp] theorem State.onMount_host (f : Mount → Mount) : (s.onMount f).host = s.host := rfl
@[simp] theorem State.onMount_assembly (f : Mount → Mount) : (s.onMount f).assembly = s.assembly := rfl
@[simp] theorem State.onMount_writer (f : Mount → Mount) : (s.onMount f).writer = s.writer := rfl
@[simp] theorem State.onMount_table (f : Mount → Mount) : (s.onMount f).table = s.table := rfl
@[simp] theorem State.onMount_reclaim (f : Mount → Mount) : (s.onMount f).reclaim = s.reclaim := rfl
@[simp] theorem State.onMount_holds (f : Mount → Mount) : (s.onMount f).holds = s.holds := rfl
@[simp] theorem State.onMount_anchor (f : Mount → Mount) : (s.onMount f).anchor = s.anchor := rfl
@[simp] theorem State.onMount_reader (f : Mount → Mount) : (s.onMount f).reader = s.reader := rfl
@[simp] theorem State.onMount_ctrl (f : Mount → Mount) : (s.onMount f).ctrl = s.ctrl := rfl
@[simp] theorem State.onMount_mount (f : Mount → Mount) : (s.onMount f).mount = f s.mount := rfl
@[simp] theorem State.onMount_array (f : Mount → Mount) : (s.onMount f).array = s.array := rfl
@[simp] theorem State.onMount_barred (f : Mount → Mount) : (s.onMount f).barred = s.barred := rfl
@[simp] theorem State.onMount_staging (f : Mount → Mount) : (s.onMount f).staging = s.staging := rfl
@[simp] theorem State.onMount_pending (f : Mount → Mount) : (s.onMount f).pending = s.pending := rfl

/-! ### `onArray` -/

@[simp] theorem State.onArray_host (f : List (Nat × Cell) → List (Nat × Cell)) : (s.onArray f).host = s.host := rfl
@[simp] theorem State.onArray_assembly (f : List (Nat × Cell) → List (Nat × Cell)) : (s.onArray f).assembly = s.assembly := rfl
@[simp] theorem State.onArray_writer (f : List (Nat × Cell) → List (Nat × Cell)) : (s.onArray f).writer = s.writer := rfl
@[simp] theorem State.onArray_table (f : List (Nat × Cell) → List (Nat × Cell)) : (s.onArray f).table = s.table := rfl
@[simp] theorem State.onArray_reclaim (f : List (Nat × Cell) → List (Nat × Cell)) : (s.onArray f).reclaim = s.reclaim := rfl
@[simp] theorem State.onArray_holds (f : List (Nat × Cell) → List (Nat × Cell)) : (s.onArray f).holds = s.holds := rfl
@[simp] theorem State.onArray_anchor (f : List (Nat × Cell) → List (Nat × Cell)) : (s.onArray f).anchor = s.anchor := rfl
@[simp] theorem State.onArray_reader (f : List (Nat × Cell) → List (Nat × Cell)) : (s.onArray f).reader = s.reader := rfl
@[simp] theorem State.onArray_ctrl (f : List (Nat × Cell) → List (Nat × Cell)) : (s.onArray f).ctrl = s.ctrl := rfl
@[simp] theorem State.onArray_mount (f : List (Nat × Cell) → List (Nat × Cell)) : (s.onArray f).mount = s.mount := rfl
@[simp] theorem State.onArray_array (f : List (Nat × Cell) → List (Nat × Cell)) : (s.onArray f).array = f s.array := rfl
@[simp] theorem State.onArray_barred (f : List (Nat × Cell) → List (Nat × Cell)) : (s.onArray f).barred = s.barred := rfl
@[simp] theorem State.onArray_staging (f : List (Nat × Cell) → List (Nat × Cell)) : (s.onArray f).staging = s.staging := rfl
@[simp] theorem State.onArray_pending (f : List (Nat × Cell) → List (Nat × Cell)) : (s.onArray f).pending = s.pending := rfl

/-! ### `onBarred` -/

@[simp] theorem State.onBarred_host (f : List (Nat × List Byte) → List (Nat × List Byte)) : (s.onBarred f).host = s.host := rfl
@[simp] theorem State.onBarred_assembly (f : List (Nat × List Byte) → List (Nat × List Byte)) : (s.onBarred f).assembly = s.assembly := rfl
@[simp] theorem State.onBarred_writer (f : List (Nat × List Byte) → List (Nat × List Byte)) : (s.onBarred f).writer = s.writer := rfl
@[simp] theorem State.onBarred_table (f : List (Nat × List Byte) → List (Nat × List Byte)) : (s.onBarred f).table = s.table := rfl
@[simp] theorem State.onBarred_reclaim (f : List (Nat × List Byte) → List (Nat × List Byte)) : (s.onBarred f).reclaim = s.reclaim := rfl
@[simp] theorem State.onBarred_holds (f : List (Nat × List Byte) → List (Nat × List Byte)) : (s.onBarred f).holds = s.holds := rfl
@[simp] theorem State.onBarred_anchor (f : List (Nat × List Byte) → List (Nat × List Byte)) : (s.onBarred f).anchor = s.anchor := rfl
@[simp] theorem State.onBarred_reader (f : List (Nat × List Byte) → List (Nat × List Byte)) : (s.onBarred f).reader = s.reader := rfl
@[simp] theorem State.onBarred_ctrl (f : List (Nat × List Byte) → List (Nat × List Byte)) : (s.onBarred f).ctrl = s.ctrl := rfl
@[simp] theorem State.onBarred_mount (f : List (Nat × List Byte) → List (Nat × List Byte)) : (s.onBarred f).mount = s.mount := rfl
@[simp] theorem State.onBarred_array (f : List (Nat × List Byte) → List (Nat × List Byte)) : (s.onBarred f).array = s.array := rfl
@[simp] theorem State.onBarred_barred (f : List (Nat × List Byte) → List (Nat × List Byte)) : (s.onBarred f).barred = f s.barred := rfl
@[simp] theorem State.onBarred_staging (f : List (Nat × List Byte) → List (Nat × List Byte)) : (s.onBarred f).staging = s.staging := rfl
@[simp] theorem State.onBarred_pending (f : List (Nat × List Byte) → List (Nat × List Byte)) : (s.onBarred f).pending = s.pending := rfl

/-! ### `onStaging` -/

@[simp] theorem State.onStaging_host (f : List Host.Cell → List Host.Cell) : (s.onStaging f).host = s.host := rfl
@[simp] theorem State.onStaging_assembly (f : List Host.Cell → List Host.Cell) : (s.onStaging f).assembly = s.assembly := rfl
@[simp] theorem State.onStaging_writer (f : List Host.Cell → List Host.Cell) : (s.onStaging f).writer = s.writer := rfl
@[simp] theorem State.onStaging_table (f : List Host.Cell → List Host.Cell) : (s.onStaging f).table = s.table := rfl
@[simp] theorem State.onStaging_reclaim (f : List Host.Cell → List Host.Cell) : (s.onStaging f).reclaim = s.reclaim := rfl
@[simp] theorem State.onStaging_holds (f : List Host.Cell → List Host.Cell) : (s.onStaging f).holds = s.holds := rfl
@[simp] theorem State.onStaging_anchor (f : List Host.Cell → List Host.Cell) : (s.onStaging f).anchor = s.anchor := rfl
@[simp] theorem State.onStaging_reader (f : List Host.Cell → List Host.Cell) : (s.onStaging f).reader = s.reader := rfl
@[simp] theorem State.onStaging_ctrl (f : List Host.Cell → List Host.Cell) : (s.onStaging f).ctrl = s.ctrl := rfl
@[simp] theorem State.onStaging_mount (f : List Host.Cell → List Host.Cell) : (s.onStaging f).mount = s.mount := rfl
@[simp] theorem State.onStaging_array (f : List Host.Cell → List Host.Cell) : (s.onStaging f).array = s.array := rfl
@[simp] theorem State.onStaging_barred (f : List Host.Cell → List Host.Cell) : (s.onStaging f).barred = s.barred := rfl
@[simp] theorem State.onStaging_staging (f : List Host.Cell → List Host.Cell) : (s.onStaging f).staging = f s.staging := rfl
@[simp] theorem State.onStaging_pending (f : List Host.Cell → List Host.Cell) : (s.onStaging f).pending = s.pending := rfl

end Sys2Proof.Machine
end

