-- ==== Sys2Proof/Laws/Ops.lean ====
section
/-! SUPPORT. What each shared operation can do, said once. -/

namespace Sys2Proof.Machine

/-! ### Handing outcomes and notices (R177, R178) -/

theorem postOutcome_eq (slot : SlotNo) (status : Status) (r : Results) (s : State) :
    postOutcome slot status r s =
      { s with host := { s.host with posting := s.host.posting ++ [.outcome slot status r] } } := rfl

theorem complete_eq (slot : SlotNo) (status : Status) (s : State) :
    complete slot status s =
      { s with host := { s.host with posting := s.host.posting ++ [.outcome slot status {}] } } := rfl

/-- Handing a notice changes the Host Ring Unit alone. -/
theorem postNotice_eq (n : Notice) (s : State) : ∃ h, postNotice n s = { s with host := h } := by
  unfold postNotice
  split
  · exact ⟨_, rfl⟩
  · exact ⟨_, rfl⟩

theorem postNotice_posted {n : Notice} {s : State} (h1 : s.host.device ≠ .offline) (h2 : s.host.device ≠ .setup) :
    postNotice n s = { s with host := { s.host with posting := s.host.posting ++ [.notice n] } } := by
  simp [postNotice, h1, h2, State.onHost]

theorem postNotice_dropped {n : Notice} {s : State} (h : s.host.device = .offline ∨ s.host.device = .setup) :
    postNotice n s = { s with host := s.host.dropNotice } := by
  simp [postNotice, h, State.onHost]

/-! ### Requests and outcomes of the array (R148) -/

theorem placeRequest_eq (who : Requester) (op : ArrayOp) (s : State) :
    placeRequest who op s = { s with ctrl := { s.ctrl with placed := s.ctrl.placed.set who (some op) } } := rfl

theorem takeOutcome_eq (who : Requester) (s : State) :
    takeOutcome who s = { s with ctrl := { s.ctrl with outcomes := s.ctrl.outcomes.set who none } } := rfl

/-! ### Signals -/

theorem signalReclaim_cases (s : State) :
    signalReclaim s = s ∨ signalReclaim s = { s with reclaim := { s.reclaim with signal := true } } := by
  unfold signalReclaim
  split
  · exact .inr rfl
  · exact .inl rfl

theorem signalWriter_cases (s : State) :
    signalWriter s = s ∨ signalWriter s = { s with writer := { s.writer with spaceSignal := true } } := by
  unfold signalWriter
  split
  · exact .inr rfl
  · exact .inl rfl

/-- Halting changes the Host Ring Unit alone, and nothing of a part already halted (R181). -/
theorem halt_cases (r : Reason) (s : State) :
    (s.host.device = .halted ∧ halt r s = s) ∨
      (s.host.device ≠ .halted ∧ halt r s = { s with host := s.host.stopWith .halted r 0 }) := by
  unfold halt
  split
  · next h => exact .inl ⟨h, rfl⟩
  · next h => exact .inr ⟨h, rfl⟩

/-! ### The interrupt (R179, R187) -/

theorem judged_eq (h : HostUnit) (cause mask : BitVec 4) :
    h.judged cause mask = { h with
      intCause := cause
      intMask := mask
      intMessages := if !h.raised && (cause &&& ~~~mask != 0#4) then h.intMessages + 1 else h.intMessages } := by
  have hr : ({ h with intCause := cause, intMask := mask } : HostUnit).raised = (cause &&& ~~~mask != 0#4) := rfl
  simp only [HostUnit.judged, hr]
  by_cases hc : (!h.raised && (cause &&& ~~~mask != 0#4)) = true
  · simp only [hc, if_true]
  · simp only [hc]
    rfl

@[simp] theorem judged_device (h : HostUnit) (c m : BitVec 4) : (h.judged c m).device = h.device := by
  rw [judged_eq]

@[simp] theorem withCauses_device (h : HostUnit) (c : BitVec 4) : (h.withCauses c).device = h.device := judged_device ..

@[simp] theorem judged_setupStage (h : HostUnit) (c m : BitVec 4) : (h.judged c m).setupStage = h.setupStage := by
  rw [judged_eq]

@[simp] theorem withCauses_setupStage (h : HostUnit) (c : BitVec 4) : (h.withCauses c).setupStage = h.setupStage :=
  judged_setupStage ..

/-- A write has ended that no entry to SETUP waits for (R173). -/
theorem resumeSetup_none {s : State} (h : Safety.NoneWaits s.host) : resumeSetup s = s := by
  unfold resumeSetup; split
  · next hs => rw [if_neg (h _ hs)]
  · rfl
  · rfl

/-- The write has ended that an entry to SETUP waits for: its read starts (R173). -/
theorem resumeSetup_waits {s : State} {address : Addr} (h : s.host.setupStage = .waiting address)
    (hd : s.host.device = .setup) : resumeSetup s = { s with host := Safety.setUp address s.host } := by
  simp only [resumeSetup, h, hd, if_true]; rfl

@[simp] theorem stopWith_device (h : HostUnit) (d : DeviceState) (r : Reason) (k : Nat) :
    (h.stopWith d r k).device = d := by
  simp [HostUnit.stopWith]

end Sys2Proof.Machine
end

