-- ==== Sys2Proof/Laws/Tables.lean ====
section
/-! SUPPORT. What the table operations read back: `tableMod`, `tableMap`, `tabulate`, and the per-requester values. -/

namespace Sys2Proof.Machine

theorem tableMod_get_self {α : Type} {n : Nat} (v : Vector α n) (i : Fin n) (f : α → α) :
    (tableMod v i f)[i] = f v[i] := by
  simp [tableMod]

theorem tableMod_get_ne {α : Type} {n : Nat} (v : Vector α n) (i j : Fin n) (f : α → α) (h : j ≠ i) :
    (tableMod v i f)[j] = v[j] := by
  have h' : i.val ≠ j.val := fun e => h (Fin.ext e.symm)
  simp [tableMod, h']

theorem tableMod_get {α : Type} {n : Nat} (v : Vector α n) (i j : Fin n) (f : α → α) :
    (tableMod v i f)[j] = if j = i then f v[j] else v[j] := by
  split
  · next h => subst h; exact tableMod_get_self v j f
  · next h => exact tableMod_get_ne v i j f h

theorem tableMap_get {α β : Type} {n : Nat} (f : α → β) (v : Vector α n) (i : Fin n) :
    (tableMap f v)[i] = f v[i] := by
  simp [tableMap]

theorem tabulate_get {α : Type} {n : Nat} (f : Fin n → α) (i : Fin n) : (tabulate n f)[i] = f i := by
  simp [tabulate]

/-- Writing one entry of a table leaves the others. -/
theorem tableSet_get {α : Type} {n : Nat} (v : Vector α n) (i j : Fin n) (a : α) :
    (v.set i a)[j] = if j = i then a else v[j] := by
  by_cases h : j = i
  · subst h; simp
  · have h' : i.val ≠ j.val := fun e => h (Fin.ext e.symm)
    simp [h, h']

theorem PerRequester.get_set {α : Type} (p : PerRequester α) (a b : Requester) (v : Option α) :
    (p.set a v).get b = if b = a then v else p.get b := by
  cases a <;> cases b <;> simp [PerRequester.set, PerRequester.get]

@[simp] theorem PerRequester.get_empty {α : Type} (a : Requester) : (PerRequester.empty : PerRequester α).get a = none := by
  cases a <;> rfl

end Sys2Proof.Machine
end

