-- ==== Sys2Proof/Laws/Sectors.lean ====
section
/-! SUPPORT. The Sector Table's questions and claims (R17 to R38): what each finds and what each writes. -/

namespace Sys2Proof.Laws

open Sys2Proof.Machine Sys2Proof.Safety

/-- A signal of R101. -/
theorem signalReclaim_eq (s : State) : signalReclaim s = { s with reclaim := signalled s.reclaim } := by
  unfold signalReclaim signalled
  split <;> simp [*, State.onReclaim]

/-- A notice joins the posting queue outside OFFLINE and SETUP. -/
theorem postNotice_noticed {n : Notice} {s : State} (h : Notices s) : postNotice n s = { s with host := noticed n s.host } := by
  simp [postNotice, h.1, h.2, State.onHost, noticed]

/-- The OPEN sector is found. -/
theorem openSector_isOpen {t : SectorTable} {o} (h : IsOpen t o) : t.openSector = some o := by
  apply find_unique; intro k; simpa using h k

/-- No OPEN sector is found. -/
theorem openSector_none {t : SectorTable} (h : NoneOpen t) : t.openSector = none := by
  simp only [SectorTable.openSector, List.find?_eq_none]; intro k _; simpa using h k

/-- A choice is made from every list but the empty one. -/
theorem lowestWear_none {t : SectorTable} : ∀ l, lowestWear t l = none ↔ l = []
  | [] => by simp [lowestWear]
  | i :: r => by
    simp only [lowestWear]; rcases lowestWear t r <;> simp
    split <;> simp

/-- The choice of R22 within a list in number order. -/
theorem lowestWear_spec {t : SectorTable} : ∀ l i, List.Pairwise (· < ·) l → lowestWear t l = some i → i ∈ l ∧
    ∀ k ∈ l, k ≠ i → t.entries[i].wear < t.entries[k].wear ∨ (t.entries[i].wear = t.entries[k].wear ∧ i < k)
  | [], i, _, h => by simp [lowestWear] at h
  | j :: r, i, hp, h => by
    simp only [lowestWear] at h
    rcases hr : lowestWear t r with _ | x
    · rw [hr] at h; rw [lowestWear_none] at hr; subst hr; simp_all
    · rw [hr] at h
      have hp' := List.pairwise_cons.mp hp
      have ih := lowestWear_spec r x hp'.2 hr
      simp only at h
      split at h
      · next hlt => 
        cases h
        refine ⟨by simp [ih.1], ?_⟩
        intro k hk hne
        rcases List.mem_cons.mp hk with rfl | hk
        · exact .inl hlt
        · exact ih.2 k hk hne
      · next hlt =>
        cases h
        refine ⟨by simp, ?_⟩
        intro k hk hne
        rcases List.mem_cons.mp hk with rfl | hk
        · exact absurd rfl hne
        · have := hp'.1 k hk
          by_cases hkx : k = x
          · subst hkx
            rcases Nat.lt_or_ge t.entries[j].wear t.entries[k].wear with h | h
            · exact .inl h
            · exact .inr ⟨by omega, this⟩
          · have := ih.2 k hk hkx
            rcases this with h | h
            · exact .inl (by omega)
            · rcases Nat.lt_or_ge t.entries[j].wear t.entries[k].wear with h | h
              · exact .inl h
              · exact .inr ⟨by omega, hp'.1 k hk⟩

/-- R22 chooses the FREE sector of lowest wear. -/
theorem chooseFree_lowest {t : SectorTable} {k} (h : LowestWear t k) : t.chooseFree = some k := by
  have hm : ∀ x, x ∈ t.freeSet ↔ t.entries[x].state = .free := by
    intro x; simp [SectorTable.freeSet, SectorTable.inState, allSectors]
  have hp : List.Pairwise (· < ·) t.freeSet := by
    unfold SectorTable.freeSet SectorTable.inState allSectors
    exact List.Pairwise.filter _ (List.pairwise_lt_finRange 256)
  unfold SectorTable.chooseFree
  rcases hc : lowestWear t t.freeSet with _ | x
  · rw [lowestWear_none] at hc; have := (hm k).mpr h.1; simp [hc] at this
  · have hx := lowestWear_spec _ _ hp hc
    by_cases e : k = x
    · rw [e]
    · exfalso
      have a := h.2 x ((hm x).mp hx.1) (fun q => e q.symm)
      have b := hx.2 k ((hm k).mpr h.1) e
      rcases a with a | a <;> rcases b with b | b <;> simp only [Fin.getElem_fin, Fin.lt_def] at * <;> omega

/-- Without a FREE sector the free set is empty. -/
theorem freeSet_none {t : SectorTable} (h : NoneFree t) : t.freeSet = [] := by
  simp only [SectorTable.freeSet, SectorTable.inState, List.filter_eq_nil_iff]; intro k _; simpa using h k

/-- Without a FREE sector nothing is chosen. -/
theorem chooseFree_none {t : SectorTable} (h : NoneFree t) : t.chooseFree = none := by
  simp [SectorTable.chooseFree, freeSet_none h, lowestWear]

/-- A range is held when a hold meets it (R30). -/
theorem heldRange_iff (t : HoldTable) (a b) : heldRange t (some (a,b)) = true ↔ Held t a b := by
  simp only [heldRange, Held, List.any_eq_true]
  constructor
  · rintro ⟨x, hx, h⟩
    obtain ⟨i, hi, rfl⟩ := List.mem_iff_getElem.mp hx
    have hi' : i < 16 := by simpa using hi
    simp only [Vector.getElem_toList] at h
    rcases he : t.entries[i] with _ | hd
    · simp [he] at h
    · simp [he, rangeMeets] at h
      refine ⟨⟨i, hi'⟩, hd, he, h.1, ?_⟩
      intro l hl; rw [hl] at h; simpa using h.2
  · rintro ⟨id, hd, he, h1, h2⟩
    refine ⟨t.entries[id], by simp, ?_⟩
    rw [he]; simp only [rangeMeets, h1]
    rcases hl : hd.last with _ | l <;> simp
    exact h2 l hl

/-- The same for a range that may be absent. -/
theorem heldRange_opt (t : HoldTable) (r : Option (Nat × Nat)) :
   heldRange t r = false ↔ ∀ a b, r = some (a,b) → ¬ Held t a b := by
  rcases r with _ | ⟨a,b⟩
  · simp [heldRange, rangeMeets]
    rw [← Bool.not_eq_true, Vector.any_eq_true]
    rintro ⟨k, hk, h⟩; split at h <;> simp at h
  · have := heldRange_iff t a b
    constructor
    · rintro h x y hxy; cases hxy; rw [← this, h]; simp
    · intro h; have := h a b rfl; rw [← heldRange_iff] at this; simpa using this

/-- The space outlook of R24. -/
theorem spaceComing_iff {s : State} (h : NoneFree s.table) : spaceComing s.table s.holds = true ↔ SpaceComes s := by
  simp only [spaceComing, freeSet_none h, SpaceComes]
  simp [allSectors, ← heldRange_opt]
  constructor
  · rintro ⟨x, h⟩; refine ⟨x, ?_⟩; tauto
  · rintro ⟨x, h⟩; refine ⟨x, ?_⟩; tauto

/-- Some sector is ERASING. -/
theorem someErasing_iff (s : State) : s.someErasing = true ↔ ∃ k : SectorNo, s.table.entries[k].state = .erasing := by
  simp [State.someErasing, SectorTable.inState, allSectors]

/-- The members of a state's list. -/
theorem mem_inState (t : SectorTable) (st) (k) : k ∈ t.inState st ↔ t.entries[k].state = st := by
  simp [SectorTable.inState, allSectors]

/-- RECORDS_EXPIRED for a present range. -/
theorem expireRange_eq {i : SectorNo} {s : State} (hn : Notices s) : expireRange i s = { s with host := match s.table.entries[i].range with
        | some (first, last) => noticed (.recordsExpired i first last) s.host
        | none => s.host } := by
  simp only [expireRange]
  split
  · next h => simp only [h]
  · next f l h => simp only [h]; rw [postNotice_noticed hn]

/-- R26: the first member whose range ends at or above a JSN. -/
theorem lowest_some {t : SectorTable} {f : Nat} {before after i a b} (hj : t.journal = before ++ i :: after)
   (hr : t.entries[i].range = some (a, b)) (hf : f ≤ b) (hb : ∀ k ∈ before, ∀ a b, t.entries[k].range = some (a, b) → b < f) :
   t.lowestSurviving f = some (i, max f a) := by
  simp only [SectorTable.lowestSurviving, hj, List.findSome?_append]
  rw [List.findSome?_eq_none_iff.mpr]
  · simp only [Fin.getElem_fin] at hr
    simp [hr, hf]
  · intro k hk
    rcases hx : t.entries[k].range with _ | ⟨x, y⟩ <;> simp only [Fin.getElem_fin] at hx <;> simp [hx]
    exact hb k hk x y hx

/-- R26: no member ends at or above the JSN. -/
theorem lowest_none {t : SectorTable} {f : Nat} (hb : ∀ k ∈ t.journal, ∀ a b, t.entries[k].range = some (a, b) → b < f) :
   t.lowestSurviving f = none := by
  simp only [SectorTable.lowestSurviving, List.findSome?_eq_none_iff]
  intro k hk
  rcases hx : t.entries[k].range with _ | ⟨x, y⟩ <;> simp only [Fin.getElem_fin] at hx <;> simp [hx]
  exact hb k hk x y hx

/-- R27: the member whose range holds a JSN. -/
theorem locate_some {t : SectorTable} {j before i after} (hj : t.journal = before ++ i :: after)
   (hi : ∃ a b, t.entries[i].range = some (a, b) ∧ a ≤ j ∧ j ≤ b) (hb : ∀ k ∈ before, ¬ ∃ a b, t.entries[k].range = some (a, b) ∧ a ≤ j ∧ j ≤ b) :
   t.locate j = some i := by
  simp only [SectorTable.locate, hj]
  apply find_append
  · obtain ⟨a, b, h, h1, h2⟩ := hi
    simp only [Fin.getElem_fin] at h; simp [h, h1, h2]
  · intro k hk
    have := hb k hk
    rcases hr : t.entries[k].range with _ | ⟨a, b⟩ <;> simp only [Fin.getElem_fin] at hr <;> simp [hr]
    intro h1; by_contra h2
    exact this ⟨a, b, hr, h1, by omega⟩

/-- R27: no member holds it. -/
theorem locate_none {t : SectorTable} {j} (hb : ∀ k ∈ t.journal, ¬ ∃ a b, t.entries[k].range = some (a, b) ∧ a ≤ j ∧ j ≤ b) :
   t.locate j = none := by
  simp only [SectorTable.locate, List.find?_eq_none]
  intro k hk
  have := hb k hk
  rcases hr : t.entries[k].range with _ | ⟨a, b⟩ <;> simp only [Fin.getElem_fin] at hr <;> simp [hr]
  intro h1; by_contra h2
  exact this ⟨a, b, hr, h1, by omega⟩

/-- A pin is released (R29). -/
theorem unpin_eq (i : SectorNo) (s : State) : unpinSector i s = unpinned i s := by
  simp only [unpinSector, signalReclaim_eq, modEntry, State.onTable, tableMod, unpinned, tableSet_get, if_true]
  by_cases h : s.table.entries[i].pins - 1 = 0 ∧ s.table.entries[i].state = .closed
  · rw [if_pos h, if_pos h]
  · rw [if_neg h, if_neg h]

/-- A corrected-line report of an OPEN or CLOSED sector (R35). -/
theorem report_spec (i : SectorNo) (n : Nat) (s : State) (hs : s.table.entries[i].state = .opened ∨ s.table.entries[i].state = .closed) (hnot : Notices s) :
   let e := s.table.entries[i]
   let t := correctedReport i n s
   t.table.entries[i].pins = e.pins ∧ t.table.entries[i].corrected = min (e.corrected + n) 16 ∧
        (16 ≤ e.corrected + n → e.weak = false → t.table.entries[i].weak = true ∧
          t.table.entries[i].retirePending = true ∧ .notice (.weakSector i) ∈ t.host.posting) ∧
        (e.corrected + n < 16 → t.table.entries[i].weak = e.weak ∧
          t.table.entries[i].retirePending = e.retirePending) := by
  intro e t
  have ht : t = (if min (e.corrected + n) Config.weakThreshold = Config.weakThreshold ∧ e.weak = false then
      postNotice (.weakSector i)
        (modEntry i (fun x => { x with corrected := min (e.corrected + n) Config.weakThreshold, weak := true }.retireLater .weak) s)
    else modEntry i (fun x => { x with corrected := min (e.corrected + n) Config.weakThreshold }) s) := by
    simp only [t, correctedReport]; rw [if_pos hs]
  rw [ht]; clear ht
  clear_value t
  split
  · next hc =>
    rw [postNotice_noticed (by exact hnot)]
    simp only [Config.weakThreshold] at hc
    simp only [modEntry, State.onTable, tableMod, noticed, tableSet_get, if_true, SectorEntry.retireLater, Config.weakThreshold]
    refine ⟨?_, ?_, ?_, ?_⟩
    · split <;> rfl
    · split <;> rfl
    · intro _ _; refine ⟨?_, ?_, by simp⟩ <;> split <;> simp_all
    · intro hlt; exact absurd hc.1 (by omega)
  · next hc =>
    simp only [modEntry, State.onTable, tableMod, noticed, tableSet_get, if_true, Config.weakThreshold]
    refine ⟨rfl, by trivial, ?_, fun _ => ⟨rfl, rfl⟩⟩
    intro h1 h2; exact absurd ⟨by simp only [Config.weakThreshold]; omega, h2⟩ hc

/-- The close claim (R25). -/
theorem closeClaim_eq (o : SectorNo) (s : State) (k : CloseKind) :
   closeClaim o k s = closedSector o (match k with | .padded => false | .full => false | .padFailed => true | .recordFailed => true) s := by
  rw [closeClaim, signalReclaim_eq]
  rcases k <;> simp [closedSector, modEntry, tableMod, State.onTable, SectorEntry.retireLater, marked] <;> split <;> simp_all

/-- The open claim, with the writer's sector no longer in hand (R22). -/
theorem openClaim_eq {k : SectorNo} {ep n} {s : State} (h : NoneOpen s.table) :
   (openClaim k ep n s).onWriter (fun w => { w with sectorInHand := none, headerEpoch := none }) = openedSector k ep n s := by
  simp only [openClaim, openSector_none h, signalReclaim_eq]
  simp [openedSector, modEntry, tableMod, State.onTable, State.onWriter]

/-- The sector opened is the OPEN one. -/
theorem opened_isOpen {k : SectorNo} {ep n} {s : State} (h : NoneOpen s.table) : IsOpen (openedSector k ep n s).table k := by
  intro j
  simp only [openedSector, tableSet_get]
  split
  · simp [*]
  · have := h j; simp_all

/-- After a close no sector is OPEN. -/
theorem closed_none {o : SectorNo} {f} {s : State} (h : IsOpen s.table o) : NoneOpen (closedSector o f s).table := by
  intro j
  simp only [closedSector, tableSet_get]
  split
  · cases f <;> simp [marked]
  · have := h j; simp_all

end Sys2Proof.Laws
end

