-- ==== Sys2Proof/Laws/Anchors.lean ====
section
/-! SUPPORT. The Hold Table, the Anchor Unit and the Reclaim Unit: their queues, changes, failures, a wipe's start (R34, R112, R122 to R128). -/

namespace Sys2Proof.Laws

open Sys2Proof.Machine Sys2Proof.Safety

/-- The reclaim reserve in force. -/
theorem reserve_of {s : State} {c} (h : s.host.setup = some c) : s.reserve = c.reserve := by simp [State.reserve, h]

/-- What the failure of one change leaves as it was. -/
theorem changeFailed_keeps (c : Change) (s : State) : (changeFailed c s).anchor = s.anchor ∧ (changeFailed c s).table = s.table ∧ (changeFailed c s).host.device = s.host.device := by
  rcases c with id | i | _
  · simp only [changeFailed]
    split
    · simp
    · next h _ =>
      split <;> simp only [completeWaiting] <;> (try split) <;> simp [postOutcome, State.onHost, setHold, State.onHolds, freeHold, signalReclaim_eq]
  · simp [changeFailed]
  · simp only [changeFailed, completeWipe]
    split <;> simp [complete, postOutcome, State.onHost, State.onReclaim, signalReclaim_eq]

/-- The same for every change. -/
theorem foldFailed_keeps (l : List Change) (s : State) : (l.foldl (fun s c => changeFailed c s) s).anchor = s.anchor ∧ (l.foldl (fun s c => changeFailed c s) s).table = s.table ∧ (l.foldl (fun s c => changeFailed c s) s).host.device = s.host.device := by
  induction l generalizing s with
  | nil => simp
  | cons c l ih =>
    have h := changeFailed_keeps c s
    have := ih (changeFailed c s)
    simp only [List.foldl_cons, this, h]; simp

/-- The anchor fails (R127). -/
theorem anchorFails_spec (s : State) (hn : Notices s) : (anchorFails s).anchor.failed = true ∧ (anchorFails s).anchor.state = .idle ∧ (anchorFails s).anchor.snapshot = none ∧ (anchorFails s).anchor.active = s.anchor.active ∧ (anchorFails s).table = s.table ∧ .notice .anchorFailed ∈ (anchorFails s).host.posting := by
  simp only [anchorFails]
  have h := foldFailed_keeps (s.anchor.covered ++ s.anchor.waiting) (s.onAnchor fun a => { a with
    failed := true, snapshot := none, pendingFlag := false, state := .idle, covered := [], waiting := [] })
  rw [postNotice_noticed ⟨by rw [h.2.2]; exact hn.1, by rw [h.2.2]; exact hn.2⟩]
  refine ⟨?_, ?_, ?_, ?_, ?_, ?_⟩
  · have := congrArg Anchor.failed h.1; exact this
  · have := congrArg Anchor.state h.1; exact this
  · have := congrArg Anchor.snapshot h.1; exact this
  · have := congrArg Anchor.active h.1; exact this
  · exact h.2.1
  · simp [noticed]

/-- What no step after the settlement of sector `i` changes. -/
structure Keeps (i : SectorNo) (s t : State) : Prop where
  entry : t.table.entries[i] = s.table.entries[i]
  erased : t.reclaim.sectorsErased = s.reclaim.sectorsErased
  retired : t.reclaim.sectorsRetired = s.reclaim.sectorsRetired
  bits : ∀ k, s.anchor.retired.getLsbD k = true → t.anchor.retired.getLsbD k = true
  posting : ∃ l, t.host.posting = s.host.posting ++ l
  full : t.writer.full = s.writer.full
  wear : ∀ k : SectorNo, t.table.entries[k].wear = s.table.entries[k].wear
  reader : t.reader = s.reader
  mount : t.mount = s.mount
  array : t.array = s.array
  staging : t.staging = s.staging
  pending : t.pending = s.pending

theorem Keeps.refl (i s) : Keeps i s s := ⟨rfl, rfl, rfl, fun _ h => h, ⟨[], by simp⟩, rfl, fun _ => rfl, rfl, rfl, rfl, rfl, rfl⟩

theorem Keeps.trans {i s t u} (a : Keeps i s t) (b : Keeps i t u) : Keeps i s u := by
  obtain ⟨l, hl⟩ := a.posting
  obtain ⟨m, hm⟩ := b.posting
  exact ⟨b.entry.trans a.entry, b.erased.trans a.erased, b.retired.trans a.retired, fun k h => b.bits k (a.bits k h), ⟨l ++ m, by rw [hm, hl, List.append_assoc]⟩,
   b.full.trans a.full, fun k => (b.wear k).trans (a.wear k), b.reader.trans a.reader, b.mount.trans a.mount, b.array.trans a.array, b.staging.trans a.staging, b.pending.trans a.pending⟩

theorem Keeps.mk' {i s t} (ht : t.table = s.table) (h1 : t.reclaim.sectorsErased = s.reclaim.sectorsErased) (h2 : t.reclaim.sectorsRetired = s.reclaim.sectorsRetired)
   (h3 : ∀ k, s.anchor.retired.getLsbD k = true → t.anchor.retired.getLsbD k = true) (h4 : ∃ l, t.host.posting = s.host.posting ++ l)
   (h5 : t.writer.full = s.writer.full) (h6 : t.reader = s.reader) (h7 : t.mount = s.mount) (h8 : t.array = s.array) (h9 : t.staging = s.staging) (h10 : t.pending = s.pending) : Keeps i s t :=
  ⟨by rw [ht], h1, h2, h3, h4, h5, fun k => by rw [ht], h6, h7, h8, h9, h10⟩

theorem postNotice_keeps (i n s) : Keeps i s (postNotice n s) := by
  simp only [postNotice]; split
  · exact .mk' rfl rfl rfl (fun _ h => h) ⟨[], by simp [State.onHost, HostUnit.dropNotice]⟩ rfl rfl rfl rfl rfl rfl
  · exact .mk' rfl rfl rfl (fun _ h => h) ⟨_, rfl⟩ rfl rfl rfl rfl rfl rfl

theorem expire_keeps (i j s) : Keeps i s (expireRange j s) := by
  simp only [expireRange]; split
  · exact .refl ..
  · exact postNotice_keeps ..

theorem modEntry_keeps {i j : SectorNo} {f} (s : State) (h : j ≠ i) (hw : ∀ e, (f e).wear = e.wear) : Keeps i s (modEntry j f s) := by
  refine ⟨?_, rfl, rfl, fun _ h => h, ⟨[], by simp [modEntry, State.onTable]⟩, rfl, ?_, rfl, rfl, rfl, rfl, rfl⟩
  · simp only [modEntry, State.onTable]; exact tableMod_get_ne _ _ _ _ h.symm
  · intro k; simp only [modEntry, State.onTable, tableMod_get]; split <;> simp [hw]

theorem eraseVictim_keeps {i j : SectorNo} {st} (s : State) (h : j ≠ i) : Keeps i s (eraseVictim j st s) := by
  simp only [eraseVictim, takeVictim]
  refine .trans (expire_keeps i j s) (.trans (modEntry_keeps (j := j) _ h (f := (fun e => { e with state := .erasing, epoch := none, baseJsn := none, range := none })) (fun _ => rfl)) ?_)
  exact ⟨rfl, rfl, rfl, fun _ h => h, ⟨[], by simp [placeRequest, State.onCtrl, State.onReclaim, State.onTable]⟩, rfl, fun _ => rfl, rfl, rfl, rfl, rfl, rfl⟩

theorem signalReclaim_keeps (i s) : Keeps i s (signalReclaim s) := by
  rw [signalReclaim_eq]; exact .mk' rfl rfl rfl (fun _ h => h) ⟨[], by simp⟩ rfl rfl rfl rfl rfl rfl

theorem signalWriter_keeps (i s) : Keeps i s (signalWriter s) := by
  simp only [signalWriter]; split
  · exact .mk' rfl rfl rfl (fun _ h => h) ⟨[], by simp [State.onWriter]⟩ rfl rfl rfl rfl rfl rfl
  · exact .refl ..

theorem startSnapshot_keeps (i s) : Keeps i s (startSnapshot s) := by
  simp only [startSnapshot, beginRollover, beginAttempt, requestPart]
  split <;> exact .mk' rfl rfl rfl (fun _ h => h) ⟨[], by simp [placeRequest, State.onCtrl, State.onAnchor]⟩ rfl rfl rfl rfl rfl rfl

theorem completeWipe_keeps (i st s) : Keeps i s (completeWipe st s) := by
  simp only [completeWipe]; split
  · refine .trans ?_ (signalReclaim_keeps i _)
    exact .mk' rfl rfl rfl (fun _ h => h) ⟨_, rfl⟩ rfl rfl rfl rfl rfl rfl
  · exact .refl ..

/-- A change is taken; a retire request joins the retired set (R122). -/
theorem takeChange_keeps (i c s) : Keeps i s (takeChange c s) ∧ ∀ k : SectorNo, c = .retire k → (takeChange c s).anchor.retired.getLsbD k.val = true := by
  have h0 : Keeps i s (s.onAnchor fun a => { a with retired := c.addRetired a.retired }) := by
    refine .mk' rfl rfl rfl ?_ ⟨[], by simp [State.onAnchor]⟩ rfl rfl rfl rfl rfl rfl
    intro k hk; rcases c <;> simp [State.onAnchor, Change.addRetired, hk]
  have hb : ∀ k : SectorNo, c = .retire k → (s.onAnchor fun a => { a with retired := c.addRetired a.retired }).anchor.retired.getLsbD k.val = true := by
    rintro k rfl; simp [State.onAnchor, Change.addRetired]
  simp only [takeChange]
  generalize (s.onAnchor fun a => { a with retired := c.addRetired a.retired }) = s1 at *
  have key : ∀ t, Keeps i s1 t → Keeps i s t ∧ ∀ k : SectorNo, c = .retire k → t.anchor.retired.getLsbD k.val = true := 
    fun t ht => ⟨h0.trans ht, fun k hk => ht.bits _ (hb k hk)⟩
  split
  · split
    · exact key _ (completeWipe_keeps ..)
    · exact key _ (.refl ..)
    · exact key _ (.refl ..)
  · split
    · refine key _ (.trans ?_ (startSnapshot_keeps ..))
      exact .mk' rfl rfl rfl (fun _ h => h) ⟨[], by simp [State.onAnchor]⟩ rfl rfl rfl rfl rfl rfl
    · exact key _ (.mk' rfl rfl rfl (fun _ h => h) ⟨[], by simp [State.onAnchor]⟩ rfl rfl rfl rfl rfl rfl)
    · exact key _ (.mk' rfl rfl rfl (fun _ h => h) ⟨[], by simp [State.onAnchor]⟩ rfl rfl rfl rfl rfl rfl)

theorem startSnapshot_frame (s) : (startSnapshot s).host = s.host ∧ (startSnapshot s).table = s.table := by
  simp only [startSnapshot, beginRollover, beginAttempt, requestPart]
  split <;> exact ⟨rfl, rfl⟩

theorem retire_frame (i s) : (takeChange (.retire i) s).host.device = s.host.device ∧ (takeChange (.retire i) s).table = s.table := by
  simp only [takeChange]
  split
  · exact ⟨rfl, rfl⟩
  · split
    · simp only [startSnapshot_frame]; exact ⟨rfl, rfl⟩
    · exact ⟨rfl, rfl⟩
    · exact ⟨rfl, rfl⟩

/-- The victim is neither clean nor outside the journal list (R30). -/
theorem victim_ne {t : SectorTable} {h : HoldTable} {i j : SectorNo} (hd : t.entries[i].state ≠ .dirty) (hj : i ∉ t.journal) (hv : chooseVictim t h = some j) : j ≠ i := by
  simp only [chooseVictim] at hv
  split at hv
  · next k hk =>
    cases hv
    have := List.find?_some hk
    rintro rfl; simp at this; exact hd this
  · have := List.mem_of_find?_eq_some hv
    rintro rfl; exact hj this

theorem finishWipe_keeps (i s) : Keeps i s (finishWipe s) := by
  simp only [finishWipe]
  refine .trans ?_ (takeChange_keeps i .wipe _).1
  exact .mk' rfl rfl rfl (fun _ h => h) ⟨[], by simp [State.onReclaim, State.onAssembly, State.onWriter]⟩ rfl rfl rfl rfl rfl rfl

/-- An entry at a wipe's start (R34). -/
def wiped (e : SectorEntry) : SectorEntry := { e with state := .dirty, epoch := none, baseJsn := none, range := none, nextFree := none }

/-- The RECORDS_EXPIRED notices of members. -/
def exps (t : SectorTable) (l : List SectorNo) : List Posting := l.filterMap fun i => t.entries[i].range.map fun (r : Nat × Nat) => .notice (.recordsExpired i r.1 r.2)

/-- One member at a wipe's start. -/
theorem wipeMember_eq {i : SectorNo} {s : State} (hn : Notices s) : wipeMember i s = { s with
   host := { s.host with posting := s.host.posting ++ exps s.table [i] }
   table := { s.table with entries := s.table.entries.set i (wiped s.table.entries[i]) } } := by
  simp only [wipeMember, expireRange_eq hn]
  rcases hr : s.table.entries[i].range with _ | ⟨a, b⟩ <;> simp only [Fin.getElem_fin] at hr <;>
  simp [exps, hr, modEntry, tableMod, State.onTable, wiped, noticed]

/-- The wipe start claim, member by member. -/
theorem wipeFold (l : List SectorNo) : ∀ (s : State), l.Nodup → Notices s → ∃ es : Vector SectorEntry 256, l.foldl (fun s i => wipeMember i s) s = { s with
   host := { s.host with posting := s.host.posting ++ exps s.table l }
   table := { s.table with entries := es } } ∧ ∀ k : SectorNo, es[k] = if k ∈ l then wiped s.table.entries[k] else s.table.entries[k] := by
  induction l with
  | nil => intro s _ _; exact ⟨s.table.entries, by simp [exps], by simp⟩
  | cons i l ih =>
    intro s hnd hn
    obtain ⟨hi, hl⟩ := List.nodup_cons.mp hnd
    rw [List.foldl_cons, wipeMember_eq hn]
    obtain ⟨es, h1, h2⟩ := ih { s with
      host := { s.host with posting := s.host.posting ++ exps s.table [i] }
      table := { s.table with entries := s.table.entries.set i (wiped s.table.entries[i]) } } hl hn
    refine ⟨es, ?_, ?_⟩
    · rw [h1]
      have : exps s.table (i :: l) = exps s.table [i] ++ exps { s.table with entries := s.table.entries.set i (wiped s.table.entries[i]) } l := by
        have hx : exps { s.table with entries := s.table.entries.set i (wiped s.table.entries[i]) } l = exps s.table l := by
          simp only [exps]
          apply List.filterMap_congr
          intro k hk
          have hne : k ≠ i := fun e => hi (e ▸ hk)
          simp only [tableSet_get, hne, if_false]
        rw [hx]
        simp only [exps]
        rw [← List.filterMap_append]; rfl
      rw [this, List.append_assoc]
    · intro k
      rw [h2 k]
      simp only [tableSet_get, List.mem_cons]
      by_cases hk : k = i
      · subst hk; simp [hi]
      · simp [hk]

theorem startSnapshot_frame2 (s) : ∃ a c, startSnapshot s = { s with anchor := a, ctrl := c } ∧ a.covered = s.anchor.covered := by
  simp only [startSnapshot, beginRollover, beginAttempt, requestPart]
  split <;> exact ⟨_, _, rfl, rfl⟩

theorem wipeChange_frame (s4) : (takeChange .wipe s4).table = s4.table ∧ (takeChange .wipe s4).writer = s4.writer ∧ (takeChange .wipe s4).assembly = s4.assembly := by
  simp only [takeChange]
  split
  · simp only [completeWipe]; split
    · simp [signalReclaim_eq, complete, postOutcome, State.onHost, State.onReclaim, State.onAnchor]
    · exact ⟨rfl, rfl, rfl⟩
  · split
    · obtain ⟨a, c, h, _⟩ := startSnapshot_frame2 (State.onAnchor (fun a => { a with covered := a.covered ++ [Change.wipe] }) (State.onAnchor (fun a => { a with retired := Change.addRetired Change.wipe a.retired }) s4))
      rw [h]; exact ⟨rfl, rfl, rfl⟩
    · exact ⟨rfl, rfl, rfl⟩
    · exact ⟨rfl, rfl, rfl⟩

/-- The wipe request joins the covered or the waiting changes. -/
theorem wipeChange_ok (s4) (hf : s4.anchor.failed = false) : (takeChange .wipe s4).reclaim = s4.reclaim ∧ (takeChange .wipe s4).host = s4.host ∧ (.wipe ∈ (takeChange .wipe s4).anchor.covered ∨ .wipe ∈ (takeChange .wipe s4).anchor.waiting) := by
  simp only [takeChange]
  rw [if_neg (by show ¬ s4.anchor.failed = true; simp [hf])]
  split
  · obtain ⟨a, c, h, h2⟩ := startSnapshot_frame2 (State.onAnchor (fun a => { a with covered := a.covered ++ [Change.wipe] }) (State.onAnchor (fun a => { a with retired := Change.addRetired Change.wipe a.retired }) s4))
    rw [h]; refine ⟨rfl, rfl, .inl ?_⟩
    simp only [h2, State.onAnchor]; simp
  · exact ⟨rfl, rfl, .inr (by simp [State.onAnchor])⟩
  · exact ⟨rfl, rfl, .inr (by simp [State.onAnchor])⟩

end Sys2Proof.Laws
end

