-- ==== Sys2Proof/Laws/Memory.lean ====
section
/-! SUPPORT. The sparse memories: read after write, and the canonical form, which every operation keeps. -/

namespace Sys2Proof.Machine

variable {α : Type}

/-! ### Rising addresses -/

/-- A lower bound may be lowered. -/
theorem risingFrom_mono {lo hi : Nat} {m : List (Nat × α)} (h : lo ≤ hi) (r : risingFrom (some hi) m = true) :
    risingFrom (some lo) m = true := by
  cases m with
  | nil => rfl
  | cons e t => simp [risingFrom] at r ⊢; exact ⟨by omega, r.2⟩

theorem risingFrom_none {lo : Nat} {m : List (Nat × α)} (r : risingFrom (some lo) m = true) :
    risingFrom none m = true := by
  cases m with
  | nil => rfl
  | cons e t => simp [risingFrom] at r ⊢; exact r.2

/-- Nothing is listed at or below the bound. -/
theorem memGet_below {lo k : Nat} {m : List (Nat × α)} (r : risingFrom (some lo) m = true) (h : k ≤ lo) :
    memGet m k = none := by
  induction m generalizing lo with
  | nil => rfl
  | cons e t ih =>
    simp [risingFrom] at r
    have : e.1 ≠ k := by omega
    simp [memGet, this]
    exact ih r.2 (by omega)

theorem risingFrom_memPut {lo : Nat} {m : List (Nat × α)} {k : Nat} (v : α) (h : lo < k)
    (r : risingFrom (some lo) m = true) : risingFrom (some lo) (memPut m k v) = true := by
  induction m generalizing lo with
  | nil => simpa [memPut, risingFrom] using h
  | cons e t ih =>
    obtain ⟨a, w⟩ := e
    simp [risingFrom] at r
    simp only [memPut]
    split
    · next hk => simp [risingFrom, h, hk, r.2]
    · split
      · next hk => subst hk; simp [risingFrom, h, r.2]
      · next h1 h2 => simp [risingFrom, r.1]; exact ih (by omega) r.2

/-- Listing a value keeps the canonical form. -/
theorem rising_memPut {m : List (Nat × α)} {k : Nat} (v : α) (r : risingFrom none m = true) :
    risingFrom none (memPut m k v) = true := by
  cases m with
  | nil => rfl
  | cons e t =>
    obtain ⟨a, w⟩ := e
    simp [risingFrom] at r
    simp only [memPut]
    split
    · next hk => simp [risingFrom, hk, r]
    · split
      · next hk => subst hk; simp [risingFrom, r]
      · next h1 h2 => simp [risingFrom]; exact risingFrom_memPut v (by omega) r

theorem risingFrom_filter {lo : Option Nat} {m : List (Nat × α)} (p : Nat × α → Bool)
    (r : risingFrom lo m = true) : risingFrom lo (m.filter p) = true := by
  induction m generalizing lo with
  | nil => exact r
  | cons e t ih =>
    obtain ⟨a, w⟩ := e
    simp [risingFrom] at r
    simp only [List.filter_cons]
    split
    · simp [risingFrom, r.1]; exact ih r.2
    · cases lo with
      | none => exact risingFrom_none (ih r.2)
      | some l => simp at r; exact risingFrom_mono (Nat.le_of_lt r.1) (ih r.2)

theorem rising_memDrop {m : List (Nat × α)} (k : Nat) (r : risingFrom none m = true) :
    risingFrom none (memDrop m k) = true := risingFrom_filter _ r

theorem rising_memSet {m : List (Nat × α)} (k : Nat) (v : Option α) (r : risingFrom none m = true) :
    risingFrom none (memSet m k v) = true := by
  cases v with
  | none => exact rising_memDrop k r
  | some v => exact rising_memPut v r

/-! ### Read after write -/

theorem memGet_memPut (m : List (Nat × α)) (k j : Nat) (v : α) (r : risingFrom none m = true) :
    memGet (memPut m k v) j = if j = k then some v else memGet m j := by
  induction m with
  | nil =>
    by_cases h : k = j
    · subst h; simp [memPut, memGet]
    · simp [memPut, memGet, h, Ne.symm h]
  | cons e t ih =>
    obtain ⟨a, w⟩ := e
    simp [risingFrom] at r
    have iht := ih (risingFrom_none r)
    simp only [memPut]
    split
    · by_cases hj : j = k
      · subst hj; simp [memGet]
      · simp [memGet, hj, Ne.symm hj]
    · split
      · next hk =>
        subst hk
        by_cases hj : j = k
        · subst hj; simp [memGet]
        · simp [memGet, hj, Ne.symm hj]
      · next h1 h2 =>
        simp only [memGet, iht]
        by_cases hj : j = k
        · subst hj; simp [Ne.symm h2]
        · simp [hj]

theorem memGet_memDrop (m : List (Nat × α)) (k j : Nat) :
    memGet (memDrop m k) j = if j = k then none else memGet m j := by
  induction m with
  | nil => simp [memDrop, memGet]
  | cons e t ih =>
    obtain ⟨a, w⟩ := e
    simp only [memDrop] at ih ⊢
    by_cases ha : a = k
    · subst ha
      simp [ih, memGet]
      by_cases hj : j = a
      · simp [hj]
      · simp [hj, Ne.symm hj]
    · simp only [List.filter_cons]
      simp [ha, memGet, ih]
      by_cases hj : j = k
      · subst hj; simp [ha]
      · simp [hj]

/-- A line or byte that was just set reads so, and every other one as before. -/
theorem memGet_memSet (m : List (Nat × α)) (k j : Nat) (v : Option α) (r : risingFrom none m = true) :
    memGet (memSet m k v) j = if j = k then v else memGet m j := by
  cases v with
  | none => exact memGet_memDrop m k j
  | some v => exact memGet_memPut m k j v r

/-! ### The array -/

theorem arrayWf_erase {m : List (Nat × Cell)} (i : SectorNo) (h : arrayWf m = true) : arrayWf (eraseLines m i) = true :=
  risingFrom_filter _ h

theorem arrayWf_foldl (f : List (Nat × Cell) → Nat × Option Cell → List (Nat × Cell))
    (hf : ∀ m e, arrayWf m = true → arrayWf (f m e) = true) (l : Residue) (m : List (Nat × Cell))
    (h : arrayWf m = true) : arrayWf (l.foldl f m) = true := by
  induction l generalizing m with
  | nil => exact h
  | cons e t ih => exact ih (f m e) (hf m e h)

theorem arrayWf_cutErase {m : List (Nat × Cell)} (barred : List (Nat × List Byte)) (i : SectorNo) (left : Residue)
    (h : arrayWf m = true) : arrayWf (cutErase m barred i left) = true := by
  refine arrayWf_foldl _ (fun m' e hm => ?_) left _ (arrayWf_erase i h)
  split
  · exact rising_memSet _ _ hm
  · exact hm

theorem arrayWf_failErase {m : List (Nat × Cell)} (barred : List (Nat × List Byte)) (i : SectorNo) (left : Residue)
    (h : arrayWf m = true) : arrayWf (failErase m barred i left) = true := by
  have hc := arrayWf_cutErase barred i left h
  simp only [failErase]
  split
  · exact hc
  · exact rising_memPut _ hc

theorem arrayWf_cutProgram {m : List (Nat × Cell)} (first count : Nat) (left : Residue) (h : arrayWf m = true) :
    arrayWf (cutProgram m first count left) = true := by
  refine arrayWf_foldl _ (fun m' e hm => ?_) left _ h
  split
  · exact rising_memSet _ _ hm
  · exact hm

theorem arrayWf_cutShort {m : List (Nat × Cell)} (barred : List (Nat × List Byte)) (op : ArrayOp) (left : Residue)
    (h : arrayWf m = true) : arrayWf (cutShort m barred op left) = true := by
  cases op with
  | readLines => exact h
  | blankCheck => exact h
  | programLines => exact arrayWf_cutProgram _ _ left h
  | eraseSector => exact arrayWf_cutErase _ _ left h

/-- Lists whose addresses rise, one above the other. -/
theorem risingFrom_append {m n : List (Nat × α)} {lo : Option Nat} {b : Nat} (hm : risingFrom lo m = true)
    (hb : ∀ e ∈ m, e.1 < b) (hl : ∀ l, lo = some l → l < b) (hn : risingFrom none n = true) (hk : ∀ e ∈ n, b ≤ e.1) :
    risingFrom lo (m ++ n) = true := by
  induction m generalizing lo with
  | nil =>
    cases n with
    | nil => rfl
    | cons e t =>
      have := hk e (by simp)
      cases lo with
      | none => exact hn
      | some l => have := hl l rfl; simp [risingFrom] at hn ⊢; exact ⟨by omega, hn⟩
  | cons e t ih =>
    simp only [risingFrom, List.cons_append, Bool.and_eq_true] at hm ⊢
    exact ⟨hm.1, ih hm.2 (fun x hx => hb x (by simp [hx])) (fun l h => by cases h; exact hb e (by simp))⟩

theorem risingFrom_range (v : α) (base n : Nat) :
    risingFrom none ((List.range n).map fun k => (base + k, v)) = true := by
  induction n with
  | zero => rfl
  | succ n ih =>
    rw [List.range_succ, List.map_append]
    refine risingFrom_append (b := base + n) ih (fun e he => ?_) (by simp) rfl (fun e he => ?_)
    · simp at he; obtain ⟨k, hk, rfl⟩ := he; simpa using hk
    · simp at he; subst he; simp

/-- Stopping an erase keeps the canonical form (R153). -/
theorem arrayWf_stopErase {m : List (Nat × Cell)} (i : SectorNo) (h : arrayWf m = true) :
    arrayWf (stopErase m i) = true := by
  have hr : arrayWf ((List.range Config.linesPerSector).map fun k => (lineNo i k, Cell.broken)) = true := by
    have : (fun k => (lineNo i k, Cell.broken)) = fun k => (lineNo i 0 + k, Cell.broken) := by
      funext k; simp [lineNo]
    rw [this]; exact risingFrom_range _ _ _
  refine risingFrom_append (b := lineNo i 0 + Config.linesPerSector) ?_ (fun e he => ?_) (by simp)
    (risingFrom_filter _ h) (fun e he => by simpa using (List.mem_filter.mp he).2)
  · refine risingFrom_append (b := lineNo i 0) (risingFrom_filter _ h)
      (fun e he => by simpa using (List.mem_filter.mp he).2) (by simp) hr (fun e he => ?_)
    simp at he; obtain ⟨k, _, rfl⟩ := he; simp [lineNo]
  · rcases List.mem_append.mp he with he | he
    · have := (List.mem_filter.mp he).2; simp at this; omega
    · simp at he; obtain ⟨k, hk, rfl⟩ := he; simp [lineNo, hk]

theorem memGet_append (m n : List (Nat × α)) (k : Nat) : memGet (m ++ n) k = (memGet m k).or (memGet n k) := by
  induction m with
  | nil => rfl
  | cons e t ih =>
    obtain ⟨a, v⟩ := e
    simp only [List.cons_append, memGet]
    split <;> simp [ih]

theorem memGet_filter (p : Nat → Bool) (m : List (Nat × α)) (k : Nat) :
    memGet (m.filter fun e => p e.1) k = if p k then memGet m k else none := by
  induction m with
  | nil => simp [memGet]
  | cons e t ih =>
    obtain ⟨a, v⟩ := e
    simp only [List.filter_cons, memGet]
    by_cases ha : p a = true
    · simp only [ha, if_true, memGet, ih]
      by_cases hk : a = k
      · subst hk; simp [ha]
      · simp [hk]
    · rw [if_neg ha, ih]
      by_cases hk : a = k
      · subst hk; simp [ha]
      · simp [hk]

theorem memGet_range (v : α) (base n k : Nat) :
    memGet ((List.range n).map fun j => (base + j, v)) k = if base ≤ k ∧ k < base + n then some v else none := by
  induction n with
  | zero => rw [if_neg (by omega)]; rfl
  | succ n ih =>
    rw [List.range_succ, List.map_append, memGet_append, ih]
    simp only [List.map_cons, List.map_nil, memGet]
    split_ifs <;> first | rfl | (exfalso; omega)

/-- Every line of the sector of a stopped erase reads UNCORRECTABLE, and every other line as before (R153). -/
theorem memGet_stopErase (m : List (Nat × Cell)) (i : SectorNo) (k : Nat) :
    memGet (stopErase m i) k = if inSector i k then some .broken else memGet m k := by
  have : (fun k => (lineNo i k, Cell.broken)) = fun k => (lineNo i 0 + k, Cell.broken) := by
    funext k; simp [lineNo]
  simp only [stopErase, memGet_append, this, memGet_range]
  rw [memGet_filter (fun a => decide (a < lineNo i 0)), memGet_filter (fun a => decide (lineNo i 0 + Config.linesPerSector ≤ a))]
  simp only [inSector, decide_eq_true_eq, Bool.and_eq_true]
  split_ifs <;> first | rfl | (exfalso; omega) | (cases memGet m k <;> rfl)

/-- Every line of an erased sector is blank, and every other line as before (R1). -/
theorem memGet_eraseLines (m : List (Nat × Cell)) (i : SectorNo) (k : Nat) :
    memGet (eraseLines m i) k = if inSector i k then none else memGet m k := by
  simp only [eraseLines, memGet_filter (fun a => !inSector i a)]
  cases inSector i k <;> rfl

/-! ### Staging memory -/

theorem stagingWf_put {m : List Host.Cell} (a : Nat) (b : Byte) (h : stagingWf m = true) :
    stagingWf (stagingPut m a b) = true := by
  simp only [stagingWf, Bool.and_eq_true] at h ⊢
  refine ⟨rising_memSet a _ h.1, ?_⟩
  have hall := h.2
  simp only [stagingPut]
  split
  · simp only [memSet, memDrop, List.all_eq_true, List.mem_filter] at hall ⊢
    exact fun e he => hall e he.1
  · next hb =>
    simp only [memSet]
    clear h
    induction m with
    | nil => simp [memPut, hb]
    | cons e t ih =>
      simp only [List.all_cons, Bool.and_eq_true] at hall
      simp only [memPut]
      split
      · simp [hb, hall.1]; simpa using hall.2
      · split
        · simp [hb]; simpa using hall.2
        · simp only [List.all_cons, Bool.and_eq_true]; exact ⟨hall.1, ih hall.2⟩

theorem stagingWf_write (map : Vector (Option BlockNo) 16) (data : List Byte) (m : List Host.Cell) (i : Nat)
    (h : stagingWf m = true) : stagingWf (stagingWrite map m i data) = true := by
  induction data generalizing m i with
  | nil => exact h
  | cons b t ih =>
    simp only [stagingWrite]
    split
    · exact ih _ _ (stagingWf_put _ b h)
    · exact ih _ _ h

/-- A staging byte that was just written reads so, and every other one as before. -/
theorem stagingByte_put (m : List Host.Cell) (a j : Nat) (b : Byte) (h : stagingWf m = true) :
    stagingByte (stagingPut m a b) j = if j = a then b else stagingByte m j := by
  simp only [stagingWf, Bool.and_eq_true] at h
  simp only [stagingByte, stagingPut, memGet_memSet _ _ _ _ h.1]
  by_cases hj : j = a
  · subst hj
    by_cases hb : b = 0#8
    · simp [hb]
    · simp [hb]
  · simp [hj]

end Sys2Proof.Machine
end

