-- ==== Sys2Proof/Laws/Arbitration.lean ====
section
/-! SUPPORT. The Array Controller: its choices (R152, R154) and what programs and erases do to the array (R1, R3, R150, R151). -/

namespace Sys2Proof.Laws

open Sys2Proof.Machine Sys2Proof.Safety

theorem isService_iff (op : ArrayOp) : op.isService = true ↔ IsService op := by cases op <;> simp [ArrayOp.isService, IsService]

theorem service_some {c : ArrayCtrl} {who op} (hw : who = .writer ∨ who = .anchor ∨ who = .reader) : c.service who = some op ↔ Wants c who op := by
  simp only [ArrayCtrl.service, Option.filter_eq_some_iff, isService_iff, Wants]
  exact ⟨fun h => ⟨hw, h⟩, fun h => h.2⟩

theorem service_none {c : ArrayCtrl} {who} (hw : who = .writer ∨ who = .anchor ∨ who = .reader) : c.service who = none ↔ ∀ op, ¬ Wants c who op := by
  rw [Option.eq_none_iff_forall_ne_some]
  exact ⟨fun h op w => h op ((service_some hw).mpr w), fun h op w => h op ((service_some hw).mp w)⟩

/-- The rotation serves whose turn it is. -/
theorem next_turn {c : ArrayCtrl} {who op} (h : Turn c who op) : c.nextService = some (who, op) := by
  obtain ⟨hw, hlt⟩ := h
  have hs := (service_some hw.1).mpr hw
  have key : ∀ other, (other = .writer ∨ other = .anchor ∨ other = .reader) → other ≠ who → turn c.lastServed other < turn c.lastServed who → c.service other = none := by
    intro other ho hne hl
    rw [service_none ho]
    intro o hwo
    have := hlt other o hwo hne; omega
  unfold ArrayCtrl.nextService
  rcases hl : c.lastServed <;> rcases hw.1 with rfl | rfl | rfl <;> rw [hl] at key <;>
  simp only [rotationAfter, List.findSome?_cons] <;>
  first
  | (simp [hs]; done)
  | (rw [key _ (by simp) (by simp) (by decide)]; simp [hs]; done)
  | (rw [key .anchor (by simp) (by simp) (by decide), key .reader (by simp) (by simp) (by decide)]; simp [hs]; done)
  | (rw [key .reader (by simp) (by simp) (by decide), key .writer (by simp) (by simp) (by decide)]; simp [hs]; done)
  | (rw [key .writer (by simp) (by simp) (by decide), key .anchor (by simp) (by simp) (by decide)]; simp [hs])

/-- The rotation finds nothing. -/
theorem next_none {c : ArrayCtrl} (h : ∀ who op, ¬ Wants c who op) : c.nextService = none := by
  have key : ∀ other, (other = .writer ∨ other = .anchor ∨ other = .reader) → c.service other = none := by
    intro other ho; rw [service_none ho]; exact h other
  unfold ArrayCtrl.nextService
  rcases c.lastServed <;> simp only [rotationAfter, List.findSome?_cons, List.findSome?_nil] <;>
  rw [key .writer (by simp), key .anchor (by simp), key .reader (by simp)] <;> rfl

/-- The rotation finds something when something is wanted. -/
theorem next_wanted {c : ArrayCtrl} : c.nextService.isSome = true ↔ ∃ who op, Wants c who op := by
  constructor
  · intro h
    by_contra hn; push Not at hn
    rw [next_none hn] at h; simp at h
  · rintro ⟨who, op, h⟩
    have hs := (service_some h.1).mpr h
    unfold ArrayCtrl.nextService
    rcases c.lastServed <;> simp only [rotationAfter, List.findSome?_cons, List.findSome?_nil] <;>
    rcases h.1 with rfl | rfl | rfl <;> rw [hs] <;>
    cases c.service .writer <;> cases c.service .anchor <;> cases c.service .reader <;> simp

theorem erase_some {c : ArrayCtrl} {who i} (h : c.requests.get who = some (.eraseSector i)) : c.pendingErase who = some i := by
  simp [ArrayCtrl.pendingErase, h]

theorem erase_none {c : ArrayCtrl} {who} (h : ∀ i, c.requests.get who ≠ some (.eraseSector i)) : c.pendingErase who = none := by
  unfold ArrayCtrl.pendingErase
  split
  · next i hi => exact absurd hi (h i)
  · rfl

/-- A request starts. -/
theorem begin_started (c : ArrayCtrl) (who op) : c.begin who op = started who op c := by
  cases op <;> rfl

/-- The choice of a free array (R152). -/
theorem choose_picked (c : ArrayCtrl) : Picked c c.choose := by
  unfold Picked; intro r erases idle
  refine ⟨?_, ?_⟩
  · intro op h
    simp only [ArrayCtrl.choose]
    rw [show c.rest.requests.mount = some op from h]
    simp only [begin_started]; rfl
  · intro h
    have h0 : c.choose = match c.rest.nextService with
      | some (who, op) => c.rest.serve who op
      | none => match c.rest.pendingErase .anchor with
        | some i => c.rest.beginErase .anchor i
        | none => match c.rest.pendingErase .reclaim with
          | some i => c.rest.beginErase .reclaim i
          | none => c.rest := by
      simp only [ArrayCtrl.choose]
      rw [show c.rest.requests.mount = none from h]
      all_goals rfl
    rw [h0]
    refine ⟨?_, ?_, ?_⟩
    · intro who op ht
      have : c.rest.nextService = some (who, op) := next_turn (c := c.rest) ht
      rw [this]; simp only [ArrayCtrl.serve, begin_started]; rfl
    · intro hi i hr
      have : c.rest.nextService = none := next_none (c := c.rest) hi
      rw [this, erase_some (c := c.rest) (who := .anchor) hr]
      simp only [ArrayCtrl.beginErase, begin_started]; rfl
    · intro hi hna
      have : c.rest.nextService = none := next_none (c := c.rest) hi
      rw [this, erase_none (c := c.rest) (who := .anchor) hna]
      refine ⟨?_, ?_⟩
      · intro i hr
        rw [erase_some (c := c.rest) (who := .reclaim) hr]
        simp only [ArrayCtrl.beginErase, begin_started]; rfl
      · intro hn
        rw [erase_none (c := c.rest) (who := .reclaim) hn]; rfl

/-- The choice with an erase suspended (R154). -/
theorem suspended_picked (c : ArrayCtrl) (e) (h : c.erase = some e) : PickedSuspended c c.chooseSuspended e := by
  unfold PickedSuspended; intro resumes
  have hx : ({ c with erase := some e } : ArrayCtrl) = c := by rw [← h]
  have h0 : c.chooseSuspended = match c.nextService with
    | some (who, op) =>
      if e.served < Config.maxServed then { c.serve who op with erase := some { e with served := e.served + 1 } }
      else resumes
    | none => resumes := by
    simp only [ArrayCtrl.chooseSuspended, h, hx]; rcases c.nextService with _ | ⟨w, o⟩ <;> simp [resumes, h]
  rw [h0]
  refine ⟨?_, ?_, ?_⟩
  · intro hlt who op ht
    rw [next_turn ht]; simp only
    rw [if_pos (show e.served < Config.maxServed from hlt)]; simp only [ArrayCtrl.serve, begin_started]
  · intro hge
    rcases c.nextService with _ | ⟨w, o⟩
    · rfl
    · simp only; rw [if_neg (by simp only [Config.maxServed]; omega)]
  · intro hi; rw [next_none hi]

/-- The first `k` blank lines of a program are written, and no other (R150). -/
theorem cells_spec (i : SectorNo) (raw : List (Nat × LineOutcome)) (fails : Option (Nat × Option Cell)) : ∀ (lines : List (List Byte)) (m : List (Nat × Cell)) (first k : Nat), arrayWf m = true →
    k ≤ lines.length → (∀ j, j < k → memGet m (lineNo i (first + j)) = none) → (∀ j, j < k → rawErrors raw (lineNo i (first + j)) = false) → (∀ x, fails = some x → ∀ j, j < k → x.1 ≠ lineNo i (first + j)) →
    ∃ m', arrayWf m' = true ∧ programCells i raw fails m first lines = programCells i raw fails m' (first + k) (lines.drop k) ∧
      (∀ j, j < k → memGet m' (lineNo i (first + j)) = some (.clean (lines.getD j []))) ∧
      ∀ n, ¬ (lineNo i first ≤ n ∧ n < lineNo i first + k) → memGet m' n = memGet m n
  | lines, m, first, 0, hm, _, _, _, _ => ⟨m, hm, by simp, by simp, by simp⟩
  | [], m, first, k+1, hm, hk, _, _, _ => by simp at hk
  | b :: t, m, first, k+1, hm, hk, hb, hr, hf => by
    have h0 := hb 0 (by omega)
    have hw : arrayWf (memPut m (lineNo i first) (.clean b)) = true := rising_memPut _ hm
    obtain ⟨m', h1, h2, h3, h4⟩ := cells_spec i raw fails t (memPut m (lineNo i first) (.clean b)) (first + 1) k hw (by simpa using hk) (by
      intro j hj
      have := hb (j+1) (by omega)
      rw [memGet_memPut _ _ _ _ hm, if_neg (by simp only [lineNo]; omega)]
      rw [← this]; congr 2; omega) (by
      intro j hj
      have := hr (j+1) (by omega)
      rw [← this]; congr 2; omega) (by
      intro x hx j hj
      have := hf x hx (j+1) (by omega)
      rw [show first + 1 + j = first + (j+1) by omega]; exact this)
    refine ⟨m', h1, ?_, ?_, ?_⟩
    · rw [show first + (k+1) = first + 1 + k by omega, List.drop_succ_cons, ← h2]
      simp only [programCells]
      have hr0 := hr 0 (by omega)
      rw [Nat.add_zero] at h0 hr0
      rw [if_neg (by simp [testsBlank, isBlank, h0, hr0])]
      cases fails with
      | none => rfl
      | some x =>
        have := hf x rfl 0 (by omega)
        simp only; rw [if_neg (by simpa using this)]
    · intro j hj
      rcases j with _ | j
      · rw [h4 _ (by simp only [lineNo]; omega), memGet_memPut _ _ _ _ hm]; simp
      · have := h3 j (by omega)
        rw [show first + (j+1) = first + 1 + j by omega, this]; simp
    · intro n hn
      rw [h4 _ (by simp only [lineNo] at hn ⊢; omega), memGet_memPut _ _ _ _ hm, if_neg (by simp only [lineNo] at hn ⊢; omega)]

/-- What a cut-short erase leaves at a line of its sector. -/
theorem cutErase_in {P : Option Cell → Prop} (m : List (Nat × Cell)) (barred : List (Nat × List Byte)) (i : SectorNo)
    (left : Residue) (hm : arrayWf m = true) (n : Nat) (h : inSector i n = true) (h0 : P none)
    (hp : ∀ c, P (failedEraseCell i n (barSector m i barred) c)) : P (memGet (cutErase m barred i left) n) := by
  have key : ∀ (l : Residue) (acc : List (Nat × Cell)), arrayWf acc = true → P (memGet acc n) →
      P (memGet (l.foldl (fun acc e => if inSector i e.1 then memSet acc e.1 (failedEraseCell i e.1 (barSector m i barred) e.2) else acc) acc) n) := by
    intro l
    induction l with
    | nil => intro acc _ h; exact h
    | cons e t ih =>
      intro acc ha hacc
      rw [List.foldl_cons]
      by_cases he : inSector i e.1 = true
      · rw [if_pos he]
        apply ih _ (rising_memSet _ _ ha)
        rw [memGet_memSet _ _ _ _ ha]
        split
        · next heq => rw [← heq]; exact hp _
        · exact hacc
      · rw [if_neg he]; exact ih _ ha hacc
  apply key left (eraseLines m i) (arrayWf_erase i hm)
  rw [memGet_eraseLines, if_pos h]; exact h0

/-- A cut-short erase leaves every other sector (R3). -/
theorem cutErase_out (m : List (Nat × Cell)) (barred : List (Nat × List Byte)) (i : SectorNo) (left : Residue)
    (hm : arrayWf m = true) (n : Nat) (h : inSector i n = false) : memGet (cutErase m barred i left) n = memGet m n := by
  have key : ∀ (l : Residue) (acc : List (Nat × Cell)), arrayWf acc = true → memGet (l.foldl (fun acc e => if inSector i e.1 then memSet acc e.1 (failedEraseCell i e.1 (barSector m i barred) e.2) else acc) acc) n = memGet acc n := by
    intro l
    induction l with
    | nil => intro acc _; rfl
    | cons e t ih =>
      intro acc ha
      rw [List.foldl_cons]
      by_cases he : inSector i e.1 = true
      · rw [if_pos he, ih _ (rising_memSet _ _ ha), memGet_memSet _ _ _ _ ha, if_neg (by intro hh; subst hh; simp [he] at h)]
      · rw [if_neg he, ih _ ha]
  have := key left (eraseLines m i) (arrayWf_erase i hm)
  rw [memGet_eraseLines, h] at this
  exact this

/-- What holds of a blank line, a broken line and every line a residue can leave holds of the lines of a failed
erase. -/
theorem failErase_in {P : Option Cell → Prop} (m : List (Nat × Cell)) (barred : List (Nat × List Byte)) (i : SectorNo)
    (left : Residue) (hm : arrayWf m = true) (n : Nat) (h : inSector i n = true) (h0 : P none) (h1 : P (some .broken))
    (hp : ∀ c, P (failedEraseCell i n (barSector m i barred) c)) : P (memGet (failErase m barred i left) n) := by
  have hc := cutErase_in m barred i left hm n h h0 hp
  simp only [failErase]
  split
  · exact hc
  · rw [memGet_memPut _ _ _ _ (arrayWf_cutErase barred i left hm)]
    split
    · exact h1
    · exact hc

/-- A failed erase leaves every other sector (R3). -/
theorem failErase_out (m : List (Nat × Cell)) (barred : List (Nat × List Byte)) (i : SectorNo) (left : Residue)
    (hm : arrayWf m = true) (n : Nat) (h : inSector i n = false) : memGet (failErase m barred i left) n = memGet m n := by
  simp only [failErase]
  split
  · exact cutErase_out m barred i left hm n h
  · rw [memGet_memPut _ _ _ _ (arrayWf_cutErase barred i left hm), if_neg, cutErase_out m barred i left hm n h]
    rintro rfl; simp [inSector, Config.linesPerSector] at h

theorem header_blank : validSectorHeader (cellOutcome none) = none := by decide +kernel

/-- No residue shows a valid header (R3). -/
theorem failedEraseCell_header (i : SectorNo) (h : IsJournal i) (barred) (c) :
    validSectorHeader (cellOutcome (failedEraseCell i (lineNo i 0) barred c)) = none := by
  unfold failedEraseCell
  rcases wholeCell c with _ | c
  · exact header_blank
  · dsimp only
    split_ifs with hn
    · rfl
    · have h' : 2 ≤ i.val := h
      by_contra hcon
      apply hn
      rw [show (validSectorHeader (cellOutcome (some c))).isSome = true by rw [Option.isSome_iff_ne_none]; exact hcon]
      simp [h']

theorem inSector_zero (i : SectorNo) : inSector i (lineNo i 0) = true := by simp [inSector, Config.linesPerSector]

/-- After a cut-short or failed erase a journal sector shows no valid header (R3). -/
theorem cutErase_header (m : List (Nat × Cell)) (barred : List (Nat × List Byte)) (i : SectorNo) (left : Residue)
    (hm : arrayWf m = true) (h : IsJournal i) :
    validSectorHeader (cellOutcome (memGet (cutErase m barred i left) (lineNo i 0))) = none :=
  cutErase_in (P := fun c => validSectorHeader (cellOutcome c) = none) m barred i left hm _ (inSector_zero i)
    header_blank (failedEraseCell_header i h _)

theorem failErase_header (m : List (Nat × Cell)) (barred : List (Nat × List Byte)) (i : SectorNo) (left : Residue)
    (hm : arrayWf m = true) (h : IsJournal i) :
    validSectorHeader (cellOutcome (memGet (failErase m barred i left) (lineNo i 0))) = none :=
  failErase_in (P := fun c => validSectorHeader (cellOutcome c) = none) m barred i left hm _ (inSector_zero i)
    header_blank rfl (failedEraseCell_header i h _)

/-- A failed erase leaves some line of its sector not blank (R151). -/
theorem failErase_listed (m : List (Nat × Cell)) (barred : List (Nat × List Byte)) (i : SectorNo) (left : Residue)
    (hm : arrayWf m = true) : ∃ n, inSector i n = true ∧ memGet (failErase m barred i left) n ≠ none := by
  have hc := arrayWf_cutErase barred i left hm
  have look : ∀ (l : List (Nat × Cell)) (e), e ∈ l → memGet l e.1 ≠ none := by
    intro l
    induction l with
    | nil => intro e he; simp at he
    | cons x t ih =>
      obtain ⟨a, v⟩ := x
      intro e he
      simp only [memGet]
      split
      · simp
      · next hne =>
        rcases List.mem_cons.mp he with rfl | he
        · exact absurd rfl hne
        · exact ih e he
  simp only [failErase]
  split
  · next h =>
    simp only [sectorListed, List.any_eq_true] at h
    obtain ⟨e, he, hi⟩ := h
    exact ⟨e.1, hi, look _ e he⟩
  · exact ⟨lineNo i 0, inSector_zero i, by rw [memGet_memPut _ _ _ _ hc]; simp⟩

/-! ### What a failed or cut-short operation leaves (R3) -/

/-- The bytes that a cell reads as. -/
theorem readable_cell (c : Cell) : readable (cellOutcome (some c)) = cellBytes c := by cases c <;> rfl

/-- What stands listed in a canonical memory is what is found there. -/
theorem mem_iff_memGet {α : Type} (m : List (Nat × α)) (hm : risingFrom none m = true) (n : Nat) (c : α) :
    (n, c) ∈ m ↔ memGet m n = some c := by
  induction m with
  | nil => simp [memGet]
  | cons e t ih =>
    obtain ⟨a, v⟩ := e
    have hr : risingFrom (some a) t = true := by simpa [risingFrom] using hm
    simp only [List.mem_cons, Prod.mk.injEq, memGet]
    by_cases h : a = n
    · subst h
      have hn := memGet_below hr (le_refl a)
      rw [if_pos rfl]
      constructor
      · rintro (⟨-, rfl⟩ | h)
        · rfl
        · rw [(ih (risingFrom_none hr)).mp h] at hn; cases hn
      · rintro h; cases h; exact .inl ⟨rfl, rfl⟩
    · rw [if_neg h, ← ih (risingFrom_none hr)]
      constructor
      · rintro (⟨h', -⟩ | h')
        · exact absurd h'.symm h
        · exact h'
      · exact .inr

/-- The contents of a sector are barred from its lines. -/
theorem barSector_bars (s : State) (i : SectorNo) (hm : arrayWf s.array = true) :
    Bars i s (barSector s.array i s.barred) := by
  intro n x
  simp only [barSector, List.mem_append, List.mem_filterMap, readable_cell]
  constructor
  · rintro (⟨⟨a, c⟩, he, h⟩ | h)
    · split at h
      · next hi =>
        obtain ⟨b, hb, h2⟩ := Option.map_eq_some_iff.mp h
        cases h2
        exact .inr ⟨hi, c, (mem_iff_memGet _ hm _ _).mp he, hb⟩
      · cases h
    · exact .inl h
  · rintro (h | ⟨hi, c, hc, hx⟩)
    · exact .inr h
    · exact .inl ⟨(n, c), (mem_iff_memGet _ hm _ _).mpr hc, by simp [hi, hx]⟩

/-- A line of a sector does not read as a content barred from it, nor, in an anchor sector, as a commit line. -/
theorem failedEraseCell_reads (i : SectorNo) (n : Nat) (barred : List (Nat × List Byte)) (c : Option Cell)
    (b : List Byte) (h : readable (cellOutcome (failedEraseCell i n barred c)) = some b) :
    (failedEraseCell i n barred c ≠ none → (n, b) ∉ barred) ∧ (i.val < 2 → fieldAt b 0 4 ≠ Config.snapshotMarker) := by
  rcases hw : wholeCell c with _ | x
  · have he : failedEraseCell i n barred c = none := by simp only [failedEraseCell, hw]
    rw [he] at h ⊢
    refine ⟨fun h => absurd rfl h, fun _ => ?_⟩
    have : b = erasedBytes := by simpa [cellOutcome, readable] using h.symm
    subst this; decide +kernel
  · by_cases hc : (match cellBytes x with | some b => barred.contains (n, b) | none => false)
        || (decide (2 ≤ i.val) && decide (n = lineNo i 0) && (validSectorHeader (cellOutcome (some x))).isSome)
        || (decide (i.val < 2) && (match cellBytes x with | some b => fieldAt b 0 4 == Config.snapshotMarker | none => false))
    · have he : failedEraseCell i n barred c = some .broken := by simp only [failedEraseCell, hw]; exact if_pos hc
      rw [he] at h; simp [cellOutcome, readable] at h
    · have he : failedEraseCell i n barred c = some x := by simp only [failedEraseCell, hw]; exact if_neg hc
      rw [he, readable_cell] at h
      rw [h] at hc
      simp only [Bool.or_eq_true, List.contains_eq_mem, decide_eq_true_eq, Bool.and_eq_true, beq_iff_eq, not_or] at hc
      exact ⟨fun _ => hc.1.1, fun hi hf => hc.2 ⟨hi, hf⟩⟩

/-- What an erase leaves that was cut short, and one that failed. -/
theorem cutErase_residue (s : State) (i : SectorNo) (left : Residue) (hm : arrayWf s.array = true) :
    EraseResidue i s (cutErase s.array s.barred i left) := by
  refine ⟨fun n h => cutErase_out _ _ i left hm n h, ?_, fun h => cutErase_header _ _ i left hm h, ?_⟩
  · intro n b hi
    refine cutErase_in (P := fun c => c ≠ none → _ → readable (cellOutcome c) ≠ some b) _ _ i left hm n hi
      (fun h => absurd rfl h) ?_
    intro c hne hb hr
    exact (failedEraseCell_reads i n _ c b hr).1 hne ((barSector_bars s i hm n b).mpr (by tauto))
  · intro h n b hi
    refine cutErase_in (P := fun c => readable (cellOutcome c) = some b → _) _ _ i left hm n hi ?_ ?_
    · intro hr
      have : b = erasedBytes := by simpa [cellOutcome, readable] using hr.symm
      subst this; decide +kernel
    · intro c hr; exact (failedEraseCell_reads i n _ c b hr).2 h

theorem failErase_residue (s : State) (i : SectorNo) (left : Residue) (hm : arrayWf s.array = true) :
    EraseResidue i s (failErase s.array s.barred i left) := by
  refine ⟨fun n h => failErase_out _ _ i left hm n h, ?_, fun h => failErase_header _ _ i left hm h, ?_⟩
  · intro n b hi
    refine failErase_in (P := fun c => c ≠ none → _ → readable (cellOutcome c) ≠ some b) _ _ i left hm n hi
      (fun h => absurd rfl h) (fun _ _ h => by simp [cellOutcome, readable] at h) ?_
    intro c hne hb hr
    exact (failedEraseCell_reads i n _ c b hr).1 hne ((barSector_bars s i hm n b).mpr (by tauto))
  · intro h n b hi
    refine failErase_in (P := fun c => readable (cellOutcome c) = some b → _) _ _ i left hm n hi ?_
      (fun h => by simp [cellOutcome, readable] at h) ?_
    · intro hr
      have : b = erasedBytes := by simpa [cellOutcome, readable] using hr.symm
      subst this; decide +kernel
    · intro c hr; exact (failedEraseCell_reads i n _ c b hr).2 h

/-- The blank run is blank. -/
theorem blankRun_blank (m : List (Nat × Cell)) (k : Nat) : ∀ first, blankRun m first k ≤ k ∧
    ∀ j, j < blankRun m first k → memGet m (first + j) = none := by
  induction k with
  | zero => intro first; simp [blankRun]
  | succ k ih =>
    intro first
    simp only [blankRun]
    split
    · next h =>
      refine ⟨by have := (ih (first + 1)).1; omega, fun j hj => ?_⟩
      rcases j with _ | j
      · simpa [isBlank] using h
      · have := (ih (first + 1)).2 j (by omega)
        rw [← this]; congr 1; omega
    · exact ⟨by omega, fun j hj => by omega⟩

/-- What a program leaves that was cut short. -/
theorem cutProgram_residue (s : State) (i : SectorNo) (first count : Nat) (left : Residue)
    (hm : arrayWf s.array = true) :
    ProgramResidue i first count left s (cutProgram s.array (lineNo i first) count left) := by
  intro n
  obtain ⟨hle, hblank⟩ := blankRun_blank s.array count (lineNo i first)
  have key : ∀ (l : Residue) (acc : List (Nat × Cell)), arrayWf acc = true → (∀ e ∈ l, e ∈ left) →
      (memGet acc n = memGet s.array n ∨ ∃ j, j < count ∧ n = lineNo i first + j ∧
        (∀ k, k ≤ j → memGet s.array (lineNo i first + k) = none) ∧
        ∃ x, (n, x) ∈ left ∧ (memGet acc n = x ∨ memGet acc n = some .broken)) →
      (fun m => memGet m n = memGet s.array n ∨ ∃ j, j < count ∧ n = lineNo i first + j ∧
        (∀ k, k ≤ j → memGet s.array (lineNo i first + k) = none) ∧
        ∃ x, (n, x) ∈ left ∧ (memGet m n = x ∨ memGet m n = some .broken))
        (l.foldl (fun acc e => if lineNo i first ≤ e.1 ∧ e.1 < lineNo i first + blankRun s.array (lineNo i first) count
          then memSet acc e.1 (wholeCell e.2) else acc) acc) := by
    intro l
    induction l with
    | nil => intro acc _ _ h; exact h
    | cons e t ih =>
      intro acc ha hl hacc
      rw [List.foldl_cons]
      by_cases he : lineNo i first ≤ e.1 ∧ e.1 < lineNo i first + blankRun s.array (lineNo i first) count
      · rw [if_pos he]
        refine ih _ (rising_memSet _ _ ha) (fun x hx => hl x (List.mem_cons_of_mem _ hx)) ?_
        rw [memGet_memSet _ _ _ _ ha]
        by_cases hn : n = e.1
        · rw [if_pos hn]
          refine .inr ⟨e.1 - lineNo i first, by omega, by omega, fun k hk => hblank k (by omega), e.2, ?_, ?_⟩
          · rw [hn]; exact hl e (by simp)
          · rcases e.2 with _ | c
            · exact .inl rfl
            · simp only [wholeCell]; split
              · exact .inl rfl
              · exact .inr rfl
        · rw [if_neg hn]; exact hacc
      · rw [if_neg he]; exact ih _ ha (fun x hx => hl x (List.mem_cons_of_mem _ hx)) hacc
  exact key left s.array hm (fun _ h => h) (.inl rfl)

/-- A failed commit line does not carry the marker, echo and CRC it was to receive (R15). -/
theorem failedProgramCell_commit {n : Nat} {intended x : List Byte} {left : Option Cell} (hn : n < 4096)
    (hi : fieldAt intended 0 4 = Config.snapshotMarker)
    (h : readable (cellOutcome (failedProgramCell n intended left)) = some x) : x.take 12 ≠ intended.take 12 := by
  have hn' : n < 2 * Config.linesPerSector := hn
  have he : erasedBytes.take 12 ≠ intended.take 12 := by
    intro h
    have h4 : (intended.take 12).take 4 = erasedBytes.take 4 := by rw [← h]; rfl
    rw [List.take_take] at h4
    have : fieldAt intended 0 4 = fieldAt erasedBytes 0 4 := by
      simp only [fieldAt, List.drop_zero]
      rw [show min 4 12 = 4 from rfl] at h4; rw [h4]
    rw [hi] at this; revert this; decide
  rcases hw : wholeCell left with _ | c
  · simp only [failedProgramCell, hw] at h
    split at h
    · simp [cellOutcome, readable] at h
    · have : x = erasedBytes := by simpa [cellOutcome, readable] using h.symm
      subst this; exact he
  · rcases hb : cellBytes c with _ | b
    · simp [failedProgramCell, hw, hb, readable_cell] at h
    simp only [failedProgramCell, hw, hb] at h
    split at h
    · simp [cellOutcome, readable] at h
    · next hc =>
      rw [readable_cell, hb] at h
      cases h
      simp only [Bool.or_eq_true, Bool.and_eq_true, decide_eq_true_eq, commitsAs, beq_iff_eq, hi, not_or, true_and] at hc
      exact fun ht => hc.2 ⟨hn', ht⟩

/-! ### What a read gives (R149) -/

@[simp] theorem readLines_length (m barred d) (i : SectorNo) (first count : Nat) :
    (readLines m barred d i first count).length = count := by
  simp only [readLines]; split <;> simp

/-- How each line shows. -/
theorem readLine_shown (s : State) (d : List (Nat × LineOutcome)) (n : Nat) :
    Shown s d n (readLine s.array s.barred d n) := by
  refine ⟨fun h => by simp only [readLine, h, Option.map_none], fun o b h hw hb hp => ?_, fun o h ho => ?_,
    fun o b h hb hne hp => ?_⟩
  · have hm : readable (cellOutcome (memGet s.array n)) = some b ∨ mayMisread s.barred n b = true := by
      rcases hp with h | ⟨h1, h2⟩
      · exact .inl h
      · exact .inr (by simp [mayMisread, h1, h2])
    simp only [readLine, h, Option.map_some, wholeOutcome, hw, if_true, hb, if_pos hm]
  · rcases ho with ho | ho
    · simp [readLine, h, wholeOutcome, ho, readable]
    · have : readable (wholeOutcome o) = none := by unfold wholeOutcome; split <;> [exact ho; rfl]
      simp only [readLine, h, Option.map_some, this]
  · have hm : ¬(readable (cellOutcome (memGet s.array n)) = some b ∨ mayMisread s.barred n b = true) := by
      rintro (h' | h')
      · exact hne h'
      · simp only [mayMisread, Bool.and_eq_true, Bool.not_eq_true', List.contains_eq_mem, decide_eq_false_iff_not] at h'
        rcases hp with hp | hp
        · exact h'.1 hp
        · rw [hp] at h'; exact absurd h'.2 (by decide)
    by_cases hw : o.wf = true
    · simp only [readLine, h, Option.map_some, wholeOutcome, hw, if_true, hb, if_neg hm]
    · simp [readLine, h, wholeOutcome, hw, readable]

/-- Lists of the same bytes are the same to the snapshot check. -/
theorem validSnapshot_readable {l l' : List LineOutcome} (h : l.map readable = l'.map readable) :
    validSnapshot l = validSnapshot l' := by
  have key : ∀ l l' : List LineOutcome, l.map readable = l'.map readable → allReadable l = allReadable l' := by
    intro l
    induction l with
    | nil => intro l' h; cases l' <;> simp at h; rfl
    | cons x t ih =>
      intro l' h
      rcases l' with _ | ⟨y, t'⟩
      · simp at h
      · simp only [List.map_cons, List.cons.injEq] at h
        simp only [allReadable, h.1, ih t' h.2]
  simp only [validSnapshot, key l l' h]

/-- A line that is not readable spoils the snapshot. -/
theorem validSnapshot_none {l : List LineOutcome} {x : LineOutcome} (hx : x ∈ l) (h : readable x = none) :
    validSnapshot l = none := by
  have key : ∀ l : List LineOutcome, x ∈ l → allReadable l = none := by
    intro l
    induction l with
    | nil => intro hx; simp at hx
    | cons y t ih =>
      intro hx
      rcases List.mem_cons.mp hx with rfl | hx
      · simp only [allReadable, h]
      · simp only [allReadable, ih hx]; split <;> simp_all
  simp only [validSnapshot, key l hx]

/-- What catches a false snapshot leaves none. -/
theorem caught_none {own shown : List LineOutcome} (hl : own.length = shown.length)
    (h : validSnapshot shown ≠ validSnapshot own) :
    validSnapshot (List.zipWith (fun o x => if readable o = readable x then x else .uncorrectable) own shown) = none := by
  have : ∃ k, ∃ (ho : k < own.length) (hs : k < shown.length), readable own[k] ≠ readable shown[k] := by
    by_contra hn
    push Not at hn
    refine h (validSnapshot_readable (List.ext_getElem (by simp [hl]) fun k h1 h2 => ?_))
    simp only [List.length_map] at h1 h2
    simpa using (hn k h2 h1).symm
  obtain ⟨k, ho, hs, hne⟩ := this
  refine validSnapshot_none (x := .uncorrectable) (List.mem_iff_getElem.mpr ⟨k, by simp; omega, ?_⟩) rfl
  rw [List.getElem_zipWith, if_neg hne]

/-- A read of an anchor sector shows no valid snapshot but the one that its lines state (R15, R149). -/
theorem readLines_snapshot (m barred d) (i : SectorNo) (first count : Nat) (hi : i.val < 2) :
    validSnapshot (readLines m barred d i first count) = none ∨
      validSnapshot (readLines m barred d i first count)
        = validSnapshot ((List.range count).map fun k => cellOutcome (memGet m (lineNo i (first + k)))) := by
  simp only [readLines]
  split
  · next h => exact .inl (caught_none (by simp) h.2.2)
  · next h =>
    by_contra hn
    push Not at hn
    exact h ⟨hi, hn.1, hn.2⟩

/-! ### What a reset leaves of the array (R3, R105, R157) -/

theorem erases_iff {op : Option ArrayOp} {i : SectorNo} :
    op.bind ArrayOp.erases = some i ↔ op = some (.eraseSector i) := by
  rcases op with _ | op <;> [simp; cases op <;> simp [ArrayOp.erases, eq_comm]]

/-- The sectors of the abandoned erases. -/
theorem mem_abandonedErases {c : ArrayCtrl} {i : SectorNo} : i ∈ c.abandonedErases ↔ CutByReset c i := by
  simp only [ArrayCtrl.abandonedErases, List.mem_append, Option.mem_toList, Option.map_eq_some_iff, erases_iff,
    CutByReset, or_assoc]

/-- The lines being programmed as the reset leaves them. -/
def programmedArray (c : ArrayCtrl) (m : List (Nat × Cell)) (left : Residue) : List (Nat × Cell) :=
  match c.operation with
  | some (_, .programLines i first lines) => cutProgram m (lineNo i first) lines.length left
  | _ => m

theorem abandonedArray_eq (c : ArrayCtrl) (m : List (Nat × Cell)) (barred : List (Nat × List Byte)) (left : Residue) :
    abandonedArray c m barred left = c.abandonedErases.foldl
      (fun acc i => cutErase acc (abandonedBarred c m barred) i left) (programmedArray c m left) := rfl

theorem arrayWf_programmed (c : ArrayCtrl) {m : List (Nat × Cell)} (left : Residue) (h : arrayWf m = true) :
    arrayWf (programmedArray c m left) = true := by
  unfold programmedArray; split
  · exact arrayWf_cutProgram _ _ left h
  · exact h

/-- Erases cut short one after the other keep the canonical form. -/
theorem arrayWf_cuts (barred : List (Nat × List Byte)) (left : Residue) (l : List SectorNo) {m : List (Nat × Cell)}
    (h : arrayWf m = true) : arrayWf (l.foldl (fun acc i => cutErase acc barred i left) m) = true := by
  induction l generalizing m with
  | nil => exact h
  | cons i t ih => exact ih (arrayWf_cutErase barred i left h)

/-- A reset keeps the canonical form of the array. -/
theorem arrayWf_abandonedArray (c : ArrayCtrl) {m : List (Nat × Cell)} (barred : List (Nat × List Byte))
    (left : Residue) (h : arrayWf m = true) : arrayWf (abandonedArray c m barred left) = true := by
  rw [abandonedArray_eq]; exact arrayWf_cuts _ left _ (arrayWf_programmed c left h)

/-- A reset leaves every line outside the sectors of the abandoned erases as the program leaves it. -/
theorem abandonedArray_out (c : ArrayCtrl) {m : List (Nat × Cell)} (barred : List (Nat × List Byte)) (left : Residue)
    (hm : arrayWf m = true) (n : Nat) (h : ∀ i, CutByReset c i → inSector i n = false) :
    memGet (abandonedArray c m barred left) n = memGet (programmedArray c m left) n := by
  have key : ∀ (l : List SectorNo) (acc : List (Nat × Cell)), arrayWf acc = true → (∀ i ∈ l, inSector i n = false) →
      memGet (l.foldl (fun acc i => cutErase acc (abandonedBarred c m barred) i left) acc) n = memGet acc n := by
    intro l
    induction l with
    | nil => intro acc _ _; rfl
    | cons i t ih =>
      intro acc ha hl
      rw [List.foldl_cons, ih _ (arrayWf_cutErase _ i left ha) (fun j hj => hl j (List.mem_cons_of_mem _ hj)),
        cutErase_out _ _ i left ha n (hl i (by simp))]
  rw [abandonedArray_eq]
  exact key _ _ (arrayWf_programmed c left hm) fun i hi => h i (mem_abandonedErases.mp hi)

theorem inSector_unique {i j : SectorNo} {n : Nat} (hi : inSector i n = true) (hj : inSector j n = true) : i = j := by
  simp [inSector, lineNo, Config.linesPerSector] at hi hj; ext; omega

/-- What holds of a blank line and of every line that a residue can leave holds of the lines of an abandoned erase. -/
theorem abandonedArray_in {P : Option Cell → Prop} (c : ArrayCtrl) {m : List (Nat × Cell)}
    (barred : List (Nat × List Byte)) (left : Residue) (hm : arrayWf m = true) (i : SectorNo) (n : Nat)
    (h : CutByReset c i) (hn : inSector i n = true) (h0 : P none)
    (hp : ∀ bars, (∀ e ∈ abandonedBarred c m barred, e ∈ bars) → ∀ x, P (failedEraseCell i n bars x)) :
    P (memGet (abandonedArray c m barred left) n) := by
  have key : ∀ (l : List SectorNo) (acc : List (Nat × Cell)), arrayWf acc = true → (i ∈ l ∨ P (memGet acc n)) →
      P (memGet (l.foldl (fun acc i => cutErase acc (abandonedBarred c m barred) i left) acc) n) := by
    intro l
    induction l with
    | nil => intro acc _ h; exact h.resolve_left (by simp)
    | cons j t ih =>
      intro acc ha h
      rw [List.foldl_cons]
      refine ih _ (arrayWf_cutErase _ j left ha) ?_
      by_cases hj : inSector j n = true
      · cases inSector_unique hn hj
        exact .inr (cutErase_in acc _ i left ha n hn h0 (hp _ fun e he => List.mem_append_right _ he))
      · rcases h with h | h
        · refine .inl ((List.mem_cons.mp h).resolve_left ?_)
          rintro rfl; exact hj hn
        · rw [cutErase_out acc _ j left ha n (by simpa using hj)]; exact .inr h
  rw [abandonedArray_eq]
  exact key _ _ (arrayWf_programmed c left hm) (.inl (mem_abandonedErases.mpr h))

/-- The contents barred after a reset: those of before, and what the sectors of the abandoned erases held. -/
theorem mem_abandonedBarred (c : ArrayCtrl) {m : List (Nat × Cell)} (barred : List (Nat × List Byte))
    (hm : arrayWf m = true) (n : Nat) (x : List Byte) :
    (n, x) ∈ abandonedBarred c m barred ↔ (n, x) ∈ barred ∨ ∃ i, CutByReset c i ∧ inSector i n = true ∧
      ∃ y, memGet m n = some y ∧ readable (cellOutcome (some y)) = some x := by
  have key : ∀ (l : List SectorNo) (b : List (Nat × List Byte)), (n, x) ∈ l.foldl (fun b i => barSector m i b) b ↔
      (n, x) ∈ b ∨ ∃ i ∈ l, inSector i n = true ∧ ∃ y, memGet m n = some y ∧ readable (cellOutcome (some y)) = some x := by
    intro l
    induction l with
    | nil => intro b; simp
    | cons i t ih =>
      intro b
      have hb : (n, x) ∈ barSector m i b ↔ _ :=
        barSector_bars { State.reset with array := m, barred := b } i hm n x
      rw [List.foldl_cons, ih, hb]
      simp only [List.mem_cons, exists_eq_or_imp, or_assoc]
  rw [abandonedBarred, key]
  simp only [mem_abandonedErases]

end Sys2Proof.Laws
end

