-- ==== Sys2Proof/Laws/Reading.lean ====
section
/-! SUPPORT. The Read Unit: the end of an active read, and what follows it (R133, R139, R144). -/

namespace Sys2Proof.Laws

open Sys2Proof.Machine Sys2Proof.Safety

/-- The part is not HALTED. -/
theorem live_of {s : State} (h : s.host.device ≠ .halted) : s.live = true := by simpa [State.live] using h

/-- A read without a pin ends. -/
theorem finish_plain {s : State} {st slot cmd r} (ha : s.reader.active = some ⟨slot, cmd⟩) (hp : s.reader.pinned = none) :
    finishRead st r s = endedRead slot st r s := by
  simp [finishRead, ha, hp, endedRead, postOutcome, State.onHost, State.onReader, answered, saturate]

/-- A notice joins the posting queue, or is dropped and counted. -/
theorem postNotice_notified (n : Notice) (s : State) : postNotice n s = { s with host := notified n s.host } := by
  simp only [postNotice, notified]
  split <;> simp_all [State.onHost, HostUnit.dropNotice, noticed, saturate]

@[simp] theorem reported_reader (i : SectorNo) (n : Nat) (s : State) : (reported i n s).reader = s.reader := by
  simp only [reported]; split_ifs <;> rfl

/-- A corrected-line report. -/
theorem correctedReport_reported (i : SectorNo) (n : Nat) (hn : 0 < n) (s : State) :
    correctedReport i n s = reported i n s := by
  simp only [correctedReport, reported, Config.weakThreshold, postNotice_notified, modEntry, State.onTable, tableMod]
  by_cases h : s.table.entries[i].state = .opened ∨ s.table.entries[i].state = .closed
  · have h' : ¬(n = 0 ∨ (s.table.entries[i].state ≠ .opened ∧ s.table.entries[i].state ≠ .closed)) := by
      rintro (h' | h')
      · omega
      · exact h.elim h'.1 h'.2
    rw [if_pos h, if_neg h']
    by_cases hc : min (s.table.entries[i].corrected + n) 16 = 16 ∧ s.table.entries[i].weak = false
    · rw [if_pos hc, if_pos hc, hc.1]
      simp only [SectorEntry.retireLater, marked]
      split <;> simp_all
    · rw [if_neg hc, if_neg hc]
  · rw [if_neg h, if_pos (Or.inr (by simpa using h))]

/-- The tally is reported and the pin released. -/
theorem reportAndUnpin_left (i : SectorNo) (s : State) : reportAndUnpin i s = sectorLeft i s := by
  simp only [reportAndUnpin, sectorLeft, unpin_eq]
  congr 1
  by_cases h : 0 < s.reader.tally
  · rw [if_pos h, correctedReport_reported i _ h]; simp [State.onReader]
  · have h0 : s.reader.tally = 0 := by omega
    rw [if_neg h]; simp [State.onReader, reported, h0]

@[simp] theorem sectorLeft_reader (i : SectorNo) (s : State) :
    (sectorLeft i s).reader = { s.reader with tally := 0 } := by simp [sectorLeft, unpinned]

/-- A read with a pin ends. -/
theorem finish_pinned {s : State} {st slot cmd r i} (ha : s.reader.active = some ⟨slot, cmd⟩)
    (hp : s.reader.pinned = some i) : finishRead st r s = endedRead slot st r (sectorLeft i s) := by
  simp only [finishRead, ha, hp, reportAndUnpin_left]
  simp [endedRead, postOutcome, State.onHost, State.onReader, answered, saturate]

/-- What follows a happening of the Read Unit. -/
theorem nextRead_continues {u : State} (hl : u.live = true) : Continues u (.next (nextRead u)) := by
  refine ⟨_, rfl, ?_, ?_⟩
  · rintro (h | h)
    · simp [nextRead, h]
    · simp only [nextRead, h, beginHeads]; simp
  · intro _ r rest hf
    obtain ⟨slot, cmd⟩ := r
    constructor <;> intro hr
    · cases cmd with
      | read => simp only [exec, execReadBegin, hf, hl, if_true]
      | query subject => cases subject <;> exact Instr.noConfusion hr
      | _ => exact Instr.noConfusion hr
    · cases cmd with
      | scan => simp only [exec, execScanBegin, hf, hl, if_true]
      | query subject => cases subject <;> exact Instr.noConfusion hr
      | _ => exact Instr.noConfusion hr

/-- The active read ends while a sector is pinned, and the FIFO goes on. -/
theorem ends_at {s : State} {st slot cmd r i n} (hl : s.live = true) (ha : s.reader.active = some ⟨slot, cmd⟩)
    (hp : s.reader.pinned = some i) (hr : r = resultsAt s n) :
    EndsAt slot i st n s (.next (nextRead (finishRead st r s))) := by
  rw [finish_pinned ha hp, hr]
  refine nextRead_continues ?_
  have : (sectorLeft i s).host.device = s.host.device := by
    simp only [sectorLeft, unpinned, reported]
    split_ifs <;> (try simp only [notified]) <;> (try split_ifs) <;> rfl
  simpa [State.live, endedRead, answered, this] using hl

/-- A read that is active lets no other begin. -/
theorem nextRead_active {u : State} (h : u.reader.active.isSome = true) : nextRead u = u := by
  cases hh : u.reader.active <;> simp_all [nextRead]

/-! ### The walk (R13, R136, R141, R143) -/

variable {u : State} {slot : SlotNo} {cmd : Cmd} {i : SectorNo} {n p : Nat} {h : RecordHeader}

/-- A header line is asked for. -/
theorem requestLine_header : requestLine i p (.header p) u = headerAsked i p u := by
  simp [requestLine, placeRequest, State.onReader, State.onCtrl, headerAsked, asked]

/-- A SCAN ends. -/
theorem finishScan_ends {st j} (hl : u.live = true) (ha : u.reader.active = some ⟨slot, cmd⟩) (hp : u.reader.pinned = some i)
   (hs : u.reader.scan.isSome = true) : EndsAt slot i st j u (.next (nextRead (finishScan st j u))) := by
  cases hg : u.reader.scan with
  | none => simp [hg] at hs
  | some g => 
    simp only [finishScan, hg]
    exact ends_at hl ha hp (by simp [resultsAt, hg])

/-- A READ ends. -/
theorem finishRead_ends {st j} (hl : u.live = true) (ha : u.reader.active = some ⟨slot, cmd⟩) (hp : u.reader.pinned = some i)
   (hs : u.reader.scan = none) : EndsAt slot i st j u (.next (nextRead (finishRead st {} u))) :=
    ends_at hl ha hp (by simp [resultsAt, hs])

/-- The walk goes on at a line, or has reached the next JSN. -/
theorem walk_goesOn (hl : u.live = true) (ha : u.reader.active = some ⟨slot, cmd⟩) (hp : u.reader.pinned = some i)
   (hn : u.writer.nextJsn = some n) : 
    WalkGoesOn slot i p n u (.next (nextRead (if u.reader.scan.isSome then scanHeader i p u else requestLine i p (.header p) u))) := by
  have hj : u.writer.jsn = n := by simp [Writer.jsn, hn]
  have hid : nextRead (headerAsked i p u) = headerAsked i p u := nextRead_active (by simp [headerAsked, ha])
  refine ⟨?_, ?_⟩
  · intro hc
    by_cases hs : u.reader.scan.isSome = true
    · rw [if_pos hs]
      have : u.reader.expected < n := by rcases hc with hc | hc; · simp [hc] at hs
                                         · exact hc
      rw [scanHeader, if_neg (by omega), requestLine_header, hid]
    · rw [if_neg hs, requestLine_header, hid]
  · intro hs he
    have hs : u.reader.scan.isSome = true := by cases hg : u.reader.scan <;> simp_all
    rw [if_pos hs, scanHeader, if_pos (by omega)]
    exact finishScan_ends hl ha hp hs

/-- No member after a sector has records. -/
theorem nextAfter_none {t : SectorTable} {before after} (hj : t.journal = before ++ i :: after) (hb : i ∉ before) 
  (hn : ∀ k ∈ after, t.entries[k].range = none) : t.nextAfter i = none := by
  have hd : (t.journal.dropWhile fun k => k != i) = i :: after := by
    rw [hj, List.dropWhile_append_of_pos (by intro k hk; simp; rintro rfl; exact hb hk)]; simp
  simp only [SectorTable.nextAfter, hd, List.drop_one, List.tail_cons, List.find?_eq_none]
  intro k hk; rw [hn k hk]; simp

/-- The first member after a sector that has records. -/
theorem nextAfter_some {t : SectorTable} {before mid k rest} (hj : t.journal = before ++ i :: (mid ++ k :: rest)) (hb : i ∉ before) 
  (hk : t.entries[k].range ≠ none) (hn : ∀ k ∈ mid, t.entries[k].range = none) : t.nextAfter i = some k := by
  have hd : (t.journal.dropWhile fun k => k != i) = i :: (mid ++ k :: rest) := by
    rw [hj, List.dropWhile_append_of_pos (by intro k hk; simp; rintro rfl; exact hb hk)]; simp
  simp only [SectorTable.nextAfter, hd, List.drop_one, List.tail_cons]
  rw [List.find?_append, List.find?_eq_none.mpr (by intro j hj; rw [hn j hj]; simp), Option.none_or, List.find?_cons]
  cases hr : t.entries[k].range <;> simp_all

/-- A pin is taken. -/
theorem pin_pinned (k : SectorNo) : pinSector k u = pinned k u := by simp [pinSector, modEntry, tableMod, State.onTable, pinned]

/-- Leaving a sector halts nothing. -/
@[simp] theorem sectorLeft_live (hl : u.live = true) : (sectorLeft i u).live = true := by
  have : (sectorLeft i u).host.device = u.host.device := by
    simp only [sectorLeft, unpinned, reported]
    split_ifs <;> (try simp only [notified]) <;> (try split_ifs) <;> rfl
  simpa [State.live, this] using hl

/-- Leaving a sector leaves the writer as it is. -/
@[simp] theorem sectorLeft_writer : (sectorLeft i u).writer = u.writer := by
  simp only [sectorLeft, unpinned, reported]; split_ifs <;> rfl

/-- The walk of the pinned sector ends. -/
theorem walkEnded_ends {e} (hl : u.live = true) (ha : u.reader.active = some ⟨slot, cmd⟩) (hp : u.reader.pinned = some i)
   (hn : u.writer.nextJsn = some n) : WalkEnds slot i (decayStatus e) n u (.next (nextRead (walkEnded e i u))) := by
  refine ⟨?_, ?_⟩
  · intro hno
    by_cases hs : u.reader.scan.isSome = true
    · have hs' : u.reader.scan ≠ none := by cases hg : u.reader.scan <;> simp_all
      simp only [walkEnded, if_pos hs]
      rcases hr : u.table.entries[i].range with _ | ⟨f, l⟩
      · exact absurd ⟨hs', fun a b hab => by have := hr.symm.trans hab; simp at this⟩ hno
      · simp only
        rw [if_neg (by intro hlt; exact hno ⟨hs', fun a b hab => by have := hr.symm.trans hab; simp at this; omega⟩)]
        exact finishScan_ends hl ha hp hs
    · have hs' : u.reader.scan = none := by cases hg : u.reader.scan <;> simp_all
      simp only [walkEnded, if_neg hs]
      exact finishRead_ends hl ha hp hs'
  · rintro ⟨hs, hr⟩ before after hj hb
    have hs' : u.reader.scan.isSome = true := by cases hg : u.reader.scan <;> simp_all
    have e1 : walkEnded e i u = scanHandover i u := by
      simp only [walkEnded, if_pos hs']
      rcases hrr : u.table.entries[i].range with _ | ⟨f, l⟩
      · rfl
      · simp only; rw [if_pos (hr f l hrr)]
    rw [e1]
    refine ⟨?_, ?_⟩
    · intro hk
      simp only [scanHandover, nextAfter_none hj hb hk]
      exact finishScan_ends hl ha hp hs'
    · intro mid k rest hm hki hkr hmr left
      subst hm
      simp only [scanHandover, nextAfter_some hj hb hkr hmr, pin_pinned, reportAndUnpin_left]
      let v : State := { left with reader := { left.reader with pinned := some k, expected := left.table.entries[k].baseJsn.getD 0, tally := 0 } }
      have hv : holdPinned k (sectorLeft i (pinned k u)) = v := rfl
      rw [hv]
      have hpl : (pinned k u).live = true := hl
      have := walk_goesOn (u := v) (slot := slot) (cmd := cmd) (i := k) (n := n) (p := 1)
        (by have := sectorLeft_live (i := i) hpl; simpa [State.live, v] using this) (by simp [v, left, pinned, ha]) rfl (by simp [v, left, pinned, hn])
      rw [if_pos (by simp [v, left, pinned, hs'])] at this
      exact this

/-- The walk moves on past a record. -/
theorem moveOn_moves (hl : u.live = true) (ha : u.reader.active = some ⟨slot, cmd⟩) (hp : u.reader.pinned = some i)
   (hn : u.writer.nextJsn = some n) : MovesOn slot i p h n u (.next (nextRead (moveOn i p h u))) := by
  unfold MovesOn
  intro next v
  let w : State := u.onReader fun r => { r with expected := r.expected + 1 }
  have hw : w = v := rfl
  refine ⟨?_, ?_⟩
  · intro hx
    have : moveOn i p h u = walkEnded .full i v := by
      simp only [moveOn]; rw [if_pos (show p + footprint h.length = 2048 from hx)]; rfl
    rw [this]; exact walkEnded_ends (e := .full) hl ha hp hn
  · intro hx
    have : moveOn i p h u = if v.reader.scan.isSome then scanHeader i next v else requestLine i next (.header next) v := by
      simp only [moveOn]; rw [if_neg (show ¬ p + footprint h.length = 2048 from hx)]; rfl
    rw [this]; exact walk_goesOn hl ha hp hn

end Sys2Proof.Laws
end

