-- ==== Sys2Proof/Laws/Changes.lean ====
section
/-! SUPPORT. What the Anchor Unit does with a change, a validation and a failure (R122 to R128), and how an erase and a
wipe go on (R33, R103, R104, R110 to R112): each operation once, in the terms of the statements. -/

namespace Sys2Proof.Laws

open Sys2Proof.Machine Sys2Proof.Safety

/-- What a snapshot captures. -/
theorem captured_map (t : HoldTable) : Captured t (tableMap captureHold t.entries) := by
  intro k
  rw [tableMap_get]
  rcases t.entries[k] with _ | x
  · rfl
  · rcases hx : x.state <;> simp [captureHold, hx]

/-- A snapshot starts. -/
theorem startSnapshot_starts (u : State) : SnapshotStarts u (startSnapshot u) := by
  refine ⟨_, captured_map u.holds, ?_, ?_⟩ <;> intro h
  · simp [startSnapshot, h, beginAttempt, requestPart, placeRequest, State.onCtrl, State.onAnchor, asked, snapshotPart]
  · simp [startSnapshot, h, beginRollover, placeRequest, State.onCtrl, State.onAnchor, asked]

/-- A wipe completes. -/
theorem completeWipe_completed (st : Status) (u : State) : completeWipe st u = wipeCompleted st u := by
  simp only [completeWipe, wipeCompleted]
  cases u.reclaim.wipeSlot <;>
    simp [signalReclaim_eq, complete, postOutcome, State.onHost, State.onReclaim, answered, signalled]

/-- The Anchor Unit takes a change. -/
theorem takeChange_taken (c : Change) (u : State) : ChangeTaken c u (takeChange c u) := by
  have hr : c.addRetired u.anchor.retired = u.anchor.retired |||
      (match c with | .retire i => 1#256 <<< i.val | .hold _ => 0#256 | .wipe => 0#256) := by
    cases c <;> simp [Change.addRetired]
  refine ⟨?_, ?_, ?_⟩
  · intro hf
    cases c <;> simp [takeChange, State.onAnchor, hf, Change.addRetired, completeWipe_completed]
  · intro hf hs
    have e : takeChange c u = startSnapshot { u with anchor := { u.anchor with
        retired := c.addRetired u.anchor.retired, covered := u.anchor.covered ++ [c] } } := by
      simp [takeChange, State.onAnchor, hf, hs]
    rw [e, hr]; exact startSnapshot_starts _
  · intro hf hs
    have e : takeChange c u = { u with anchor := { u.anchor with
        retired := c.addRetired u.anchor.retired, waiting := u.anchor.waiting ++ [c], pendingFlag := true } } := by
      rcases hst : u.anchor.state with _ | _ | _
      · exact absurd hst hs
      · simp [takeChange, State.onAnchor, hf, hst]
      · simp [takeChange, State.onAnchor, hf, hst]
    rw [e, hr] <;> rfl

/-- A covered change when its snapshot is validated. -/
theorem changeValidated_validated (c : Change) (u : State) : changeValidated c u = validated c u := by
  cases c with
  | retire i => rfl
  | wipe => exact completeWipe_completed _ _
  | hold id =>
    simp only [changeValidated, validated]
    rcases u.holds.entries[id] with _ | h
    · rfl
    · simp only [completeWaiting, told]
      rcases hs : h.state <;> simp <;> cases hw : h.waiting <;>
        simp [postOutcome, State.onHost, setHold, State.onHolds, freeHold, signalReclaim_eq, answered, holdResults]

/-- A change when the anchor fails. -/
theorem changeFailed_lost (c : Change) (u : State) : changeFailed c u = changeLost c u := by
  cases c with
  | retire i => rfl
  | wipe => exact completeWipe_completed _ _
  | hold id =>
    simp only [changeFailed, changeLost]
    rcases u.holds.entries[id] with _ | h
    · rfl
    · simp only [completeWaiting, told]
      rcases hs : h.state <;> simp <;> cases hw : h.waiting <;>
        simp [postOutcome, State.onHost, setHold, State.onHolds, freeHold, signalReclaim_eq, answered]

/-- The anchor fails. -/
theorem anchorFails_lost (u : State) : anchorFails u = anchorLost u := by
  simp only [anchorFails, anchorLost, postNotice_notified, State.onAnchor]
  rw [show (fun s c => changeFailed c s) = fun y c => changeLost c y from by
    funext y c; exact changeFailed_lost c y]

/-- A victim is taken and its erase asked for. -/
theorem eraseVictim_taken (i : SectorNo) (st : ReclaimState) (u : State) :
    eraseVictim i st u = victimTaken i st u := by
  simp only [eraseVictim, takeVictim, expireRange, victimTaken, expired]
  rcases hr : u.table.entries[i].range with _ | ⟨a, b⟩
  · simp [modEntry, tableMod, State.onTable, State.onReclaim, placeRequest, State.onCtrl, asked]
  · simp [postNotice_notified, modEntry, tableMod, State.onTable, State.onReclaim, placeRequest, State.onCtrl, asked]

/-- An erase is settled. -/
theorem settleSector_settles (i : SectorNo) (ok : Bool) (s : State) : Settles i ok s (settleSector i ok s) := by
  have ho : (settlementOf s.table.entries[i] ok).retires =
      if ok = false then some .eraseFail else if s.table.entries[i].retirePending = true then
        some s.table.entries[i].reason else if 100000 ≤ s.table.entries[i].wear + 1 then some .worn else none := by
    cases ok
    · rfl
    · simp only [settlementOf, Bool.not_true, Bool.false_eq_true, if_false, Bool.true_eq_false]
      by_cases h1 : s.table.entries[i].retirePending = true
      · rw [if_pos h1, if_pos h1]; rfl
      · rw [if_neg h1, if_neg h1]
        by_cases h2 : Config.wearLimit ≤ s.table.entries[i].wear + 1
        · rw [if_pos h2, if_pos (show 100000 ≤ _ from h2)]; rfl
        · rw [if_neg h2, if_neg (show ¬100000 ≤ _ from h2)]; rfl
  refine ⟨?_, ?_⟩
  · intro h
    have ho' := ho.trans h
    have hok : ok = true := by cases ok <;> simp_all
    have hset : settlementOf s.table.entries[i] ok = .toFree := by
      cases hq : settlementOf s.table.entries[i] ok <;> simp_all [Settlement.retires]
    subst hok
    simp only [settleSector, hset, settleErase, Settlement.retires, spaceRegained, signalWriter, modEntry, State.onTable,
      tableMod, SectorEntry.settled, State.onWriter, State.onReclaim, postNotice_notified]
    have hid : s.writer.full = false → s.writer = { s.writer with full := false } := fun hf => by rw [← hf]
    by_cases hw : s.writer.state = .waitingSpace <;> by_cases hf : s.writer.full = true
    · simp [hw, hf, saturate]
    · simp [hw, hf, saturate]
    · simp [hw, hf, saturate]
    · simp [hw, hf, saturate]; exact hid (by simpa using hf)
  · intro r h
    have ho' := ho.trans h
    refine ⟨_, takeChange_taken (.retire i) _, ?_⟩
    have hsi : (settlementOf s.table.entries[i] ok).retires.isSome = true := by rw [ho']; rfl
    simp only [settleSector, ho', retireSector, postNotice_notified, State.onReclaim, saturate]
    have : settleErase i (settlementOf s.table.entries[i] ok) s = { s with
        table := { s.table with entries := s.table.entries.set i { s.table.entries[i] with
          corrected := 0, weak := false, retirePending := false, state := .retired
          wear := if ok then s.table.entries[i].wear + 1 else s.table.entries[i].wear, reason := r } }
        writer := { s.writer with
          spaceSignal := if s.writer.state = .waitingSpace then true else s.writer.spaceSignal } } := by
      simp only [settleErase, signalWriter, modEntry, State.onTable, tableMod, State.onWriter]
      have : (s.table.entries[i]).settled (settlementOf s.table.entries[i] ok) = { s.table.entries[i] with
          corrected := 0, weak := false, retirePending := false, state := .retired
          wear := if ok then s.table.entries[i].wear + 1 else s.table.entries[i].wear, reason := r } := by
        revert ho'
        cases ok
        · simp only [settlementOf, Bool.not_false, if_true, Settlement.retires, Option.some.injEq]
          rintro rfl; rfl
        · simp only [settlementOf, Bool.not_true, Bool.false_eq_true, if_false]
          by_cases h1 : s.table.entries[i].retirePending = true
          · rw [if_pos h1]; simp only [Settlement.retires, Option.some.injEq]; rintro rfl; rfl
          · rw [if_neg h1]
            by_cases h2 : Config.wearLimit ≤ s.table.entries[i].wear + 1
            · rw [if_pos h2]; simp only [Settlement.retires, Option.some.injEq]; rintro rfl; rfl
            · rw [if_neg h2]; simp [Settlement.retires]
      rw [this]
      by_cases hw : s.writer.state = .waitingSpace <;> simp [hw]
    rw [this]
    cases ok <;> simp

/-- The victim when a sector is DIRTY. -/
theorem chooseVictim_dirty {t : SectorTable} {h : HoldTable} {i : SectorNo} (hd : t.entries[i].state = .dirty)
    (hl : ∀ k : SectorNo, k < i → t.entries[k].state ≠ .dirty) : chooseVictim t h = some i := by
  have : allSectors.find? (fun k => t.entries[k].state == .dirty) = some i := by
    apply find_first
    · rw [hd]; rfl
    · intro k hk; simpa using hl k hk
  simp only [chooseVictim, this]

/-- No victim when no sector is DIRTY and the journal list is empty. -/
theorem chooseVictim_none {t : SectorTable} {h : HoldTable} (hd : ∀ k : SectorNo, t.entries[k].state ≠ .dirty)
    (hj : t.journal = []) : chooseVictim t h = none := by
  have : allSectors.find? (fun k => t.entries[k].state == .dirty) = none := by
    rw [List.find?_eq_none]; intro k _; simpa using hd k
  simp only [chooseVictim, this, hj, List.find?_nil]

/-- A wipe goes on. -/
theorem continueWipe_goesOn (u : State) : WipeGoesOn u (continueWipe u) := by
  refine ⟨?_, ?_⟩
  · intro i hd hl
    simp only [continueWipe, chooseVictim_dirty hd hl, eraseVictim_taken]
  · intro hd hj
    refine ⟨tableMap (fun e => { e with recovered := none }) u.assembly.streams, fun st => tableMap_get _ _ _, ?_⟩
    have : continueWipe u = finishWipe u := by simp only [continueWipe, chooseVictim_none hd hj]
    rw [this]
    exact takeChange_taken .wipe _

/-- A validated change leaves the Anchor Unit as it is. -/
theorem changeValidated_anchor (c : Change) (s : State) : (changeValidated c s).anchor = s.anchor := by
  rcases c with id | i | _
  · simp only [changeValidated]
    split
    · simp
    · next h _ =>
      split <;> simp only [completeWaiting] <;> (try split) <;> simp [postOutcome, State.onHost, setHold, State.onHolds, freeHold, signalReclaim_eq]
  · simp [changeValidated]
  · simp only [changeValidated, completeWipe]
    split <;> simp [complete, postOutcome, State.onHost, State.onReclaim, signalReclaim_eq]

/-- The same for every change. -/
theorem foldValidated_anchor (l : List Change) (s : State) : (l.foldl (fun s c => changeValidated c s) s).anchor = s.anchor := by
  induction l generalizing s with
  | nil => rfl
  | cons c l ih => simp only [List.foldl_cons, ih, changeValidated_anchor]

/-- Taking a retirement leaves the Reclaim Unit as it is. -/
theorem retire_reclaim (i s) : (takeChange (.retire i) s).reclaim = s.reclaim ∧ (takeChange (.retire i) s).host.device = s.host.device := by
  refine ⟨?_, (retire_frame i s).1⟩
  simp only [takeChange]
  split
  · rfl
  · split
    · obtain ⟨a, c, h, _⟩ := startSnapshot_frame2 (State.onAnchor (fun a => { a with covered := a.covered ++ [Change.retire i] }) (State.onAnchor (fun a => { a with retired := Change.addRetired (Change.retire i) a.retired }) s))
      rw [h]; rfl
    · rfl
    · rfl

/-- What a settlement leaves for what follows it. -/
theorem settle_frame (i ok s) : (settleSector i ok s).reclaim.state = s.reclaim.state ∧ (settleSector i ok s).reclaim.signal = s.reclaim.signal ∧ (settleSector i ok s).host.device = s.host.device := by
  have h1 : ∀ o, (settleErase i o s).reclaim = s.reclaim ∧ (settleErase i o s).host = s.host := by
    intro o; simp only [settleErase, signalWriter]; split <;> exact ⟨rfl, rfl⟩
  generalize hO : settlementOf s.table.entries[i] ok = o
  rcases hr : o.retires with _ | r
  · simp only [settleSector, hO, hr, spaceRegained, postNotice_notified, State.onWriter, State.onReclaim]
    split <;> simp only [h1, notified] <;> (try split_ifs) <;> simp [noticed, h1]
  · simp only [settleSector, hO, hr, retireSector, postNotice_notified, State.onReclaim, retire_reclaim, h1, notified]
    split_ifs <;> simp [noticed, retire_reclaim, h1]

end Sys2Proof.Laws
end

