-- ==== Sys2Proof/Laws/Contexts.lean ====
section
/-! SUPPORT. The Assembly Unit: its queue, the contexts it finds, the tests of a fragment, admission (R45 to R78). -/

namespace Sys2Proof.Laws

open Sys2Proof.Machine Sys2Proof.Safety

/-- Owners take commands in ONLINE and DRAINING. -/
theorem takes_iff {s : State} (h : Takes s) : s.takesCommands = true := by
  rcases h with h | h <;> simp [State.takesCommands, h]

/-- The Assembly Unit takes the head of its queue. -/
theorem assemblyHead_of {s : State} (h : Takes s) (hh : s.assembly.held = none) {slot cmd rest}
   (hd : HeadIs s.assembly.queue slot cmd rest) : s.assemblyHead = some ⟨slot, cmd⟩ := by
  unfold HeadIs at hd
  simp [State.assemblyHead, takes_iff h, hh, hd]

/-- Taking it leaves the rest. -/
theorem popAssembly_of {s : State} {slot cmd rest}
   (hd : HeadIs s.assembly.queue slot cmd rest) : popAssembly s = { s with assembly := { s.assembly with queue := rest } } := by
  unfold HeadIs at hd
  simp [popAssembly, State.onAssembly, hd]

/-- No context passes. -/
theorem findContext_none {a : Assembly} {p} (h : ∀ (j : CtxNo) x, a.contexts[j] = some x → p x = false) : a.findContext p = none := by
  simp only [Assembly.findContext, List.findSome?_eq_none_iff]
  intro j _
  rcases hx : a.contexts[j] with _ | x
  · rfl
  · simp [h j x hx]

/-- The only context that passes is found. -/
theorem findContext_unique {a : Assembly} {p} {i : CtxNo} {c} (hi : a.contexts[i] = some c) (hp : p c = true)
   (h : ∀ (j : CtxNo) x, a.contexts[j] = some x → p x = true → j = i) : a.findContext p = some (i, c) := by
  apply findSome_unique
  · show (match a.contexts[i] with | some c => if p c = true then some (i, c) else none | none => none) = _
    rw [hi]; simp [hp]
  · intro j hj
    show (match a.contexts[j] with | some c => if p c = true then some (j, c) else none | none => none) = _
    rcases hx : a.contexts[j] with _ | x
    · rfl
    · by_cases hpx : p x = true
      · exact absurd (h j x hx hpx) hj
      · simp [hpx]

/-- The context that alone holds a sequence is found. -/
theorem contextOf_sole {a : Assembly} {st seq i c} {p} (h : Sole a st seq i c) (hp : p c.state = true) :
    a.contextOf st seq p = some (i, c) := by
  apply findContext_unique h.1
  · simp [h.2.1, h.2.2.1, hp]
  · intro j x hx hh
    simp at hh
    exact h.2.2.2 j x hx hh.1.1 hh.1.2

/-- No context holds the sequence in these states. -/
theorem contextOf_none {a : Assembly} {st seq} {p : CtxState → Bool}
   (h : ∀ (j : CtxNo) x, a.contexts[j] = some x → x.stream = st → x.seq = seq → p x.state = false) :
    a.contextOf st seq p = none := by
  apply findContext_none
  intro j x hx
  by_cases h1 : x.stream = st
  · by_cases h2 : x.seq = seq
    · simp [h j x hx h1 h2]
    · simp [h2]
  · simp [h1]

/-- It is not found in states it is not in. -/
theorem contextOf_sole_none {a : Assembly} {st seq i c} {p : CtxState → Bool} (h : Sole a st seq i c) (hp : p c.state = false) :
    a.contextOf st seq p = none := by
  apply contextOf_none
  intro j x hx h1 h2
  have := h.2.2.2 j x hx h1 h2
  subst this
  have := h.1.symm.trans hx
  cases this; exact hp

/-- The lowest-numbered context with the sequence in a state is found. -/
theorem contextOf_first {a : Assembly} {st seq i c} {q : CtxState} (h : First a st seq q i c) :
    a.contextOf st seq (· == q) = some (i, c) := by
  obtain ⟨hi, h1, h2, h3, hlt⟩ := h
  apply findSome_first
  · show (match a.contexts[i] with
      | some c => if c.stream == st && c.seq == seq && c.state == q then some (i, c) else none | none => none) = _
    rw [hi]; simp [h1, h2, h3]
  · intro j hj
    show (match a.contexts[j] with
      | some c => if c.stream == st && c.seq == seq && c.state == q then some (j, c) else none | none => none) = _
    rcases hx : a.contexts[j] with _ | x
    · rfl
    · by_cases e1 : x.stream = st
      · by_cases e2 : x.seq = seq
        · simp [hlt j x hj hx e1 e2]
        · simp [e2]
      · simp [e1]

/-- Where a context with the sequence stands in a state, a lowest-numbered one does. -/
theorem exists_first {a : Assembly} {st seq} {q : CtxState} (i : CtxNo) (c : Context) (hi : a.contexts[i] = some c)
    (h1 : c.stream = st) (h2 : c.seq = seq) (h3 : c.state = q) : ∃ j x, First a st seq q j x := by
  induction i using WellFoundedLT.induction generalizing c with
  | _ i ih =>
    by_cases h : ∃ (j : CtxNo) (x : Context), j < i ∧ a.contexts[j] = some x ∧ x.stream = st ∧ x.seq = seq ∧ x.state = q
    · obtain ⟨j, x, hj, hx, e1, e2, e3⟩ := h
      exact ih j hj x hx e1 e2 e3
    · exact ⟨i, c, hi, h1, h2, h3, fun j x hj hx e1 e2 e3 => h ⟨j, x, hj, hx, e1, e2, e3⟩⟩

/-- No context with the sequence stands in a state. -/
theorem contextOf_no_first {a : Assembly} {st seq} {q : CtxState} (h : ∀ i c, ¬First a st seq q i c) :
    a.contextOf st seq (· == q) = none := by
  refine contextOf_none fun j x hx h1 h2 => ?_
  by_contra hq
  obtain ⟨i, c, hf⟩ := exists_first (q := q) j x hx h1 h2 (by simpa using hq)
  exact h i c hf

/-- ABORT_RECORD of a sequence that a WRITING context holds (R74, case 2). -/
theorem takeAbortRecord_writing {s : State} {slot st seq i c} (ho : s.assembly.streams[st].state = .opened)
    (h : First s.assembly st seq .writing i c) : takeAbortRecord slot st seq s = complete slot .tooLate s := by
  rw [takeAbortRecord, if_neg (not_not_intro ho), contextOf_first h]; rfl

/-- ABORT_RECORD of a sequence that a QUEUED context holds, and no WRITING one (R74, case 3). -/
theorem takeAbortRecord_queued {s : State} {slot st seq i c} (ho : s.assembly.streams[st].state = .opened)
    (hn : ∀ j x, ¬First s.assembly st seq .writing j x) (h : First s.assembly st seq .queued i c) :
    takeAbortRecord slot st seq s = abortQueued slot st i c s := by
  rw [takeAbortRecord, if_neg (not_not_intro ho), contextOf_no_first hn, contextOf_first h]; rfl

/-- ABORT_RECORD of a sequence that no admitted record holds (R74, cases 4 and 5). -/
theorem takeAbortRecord_window {s : State} {slot st seq} (ho : s.assembly.streams[st].state = .opened)
    (hw : ∀ j x, ¬First s.assembly st seq .writing j x) (hq : ∀ j x, ¬First s.assembly st seq .queued j x) :
    takeAbortRecord slot st seq s = abortInWindow slot st seq s := by
  rw [takeAbortRecord, if_neg (not_not_intro ho), contextOf_no_first hw, contextOf_no_first hq]; rfl

/-- No context is FREE. -/
theorem freeContext_none {a : Assembly} (h : ∀ i : CtxNo, a.contexts[i] ≠ none) : a.freeContext = none := by
  simp only [Assembly.freeContext, List.find?_eq_none]
  intro i _; simpa using h i

/-- The lowest-numbered FREE context (R60). -/
theorem freeContext_some {a : Assembly} {i : CtxNo} (hi : a.contexts[i] = none) (h : ∀ j : CtxNo, j < i → a.contexts[j] ≠ none) :
    a.freeContext = some i := by
  apply find_first
  · simpa using hi
  · intro j hj; have := h j hj; simpa [Option.isSome_iff_ne_none] using this

/-- The range tests of R66 and the staging test of R67, in order. -/
theorem frag_eq (c : Context) (fb offset length : Nat) (last : Bool) : fragmentRefusal c fb offset length last =
      if 8192 < offset + length then some .beyondEnd
      else if ∃ iv ∈ c.coverage, iv.1 < offset + length ∧ offset < iv.2 then some .overlap
      else if 8 < c.pieces + 1 then some .scattered
      else if c.total.getD (offset + length) < offset + length ∨ (last = true ∧ ∃ iv ∈ c.coverage, offset + length < iv.2) then some .beyondEnd
      else if fb < (absentEntries c.blockMap offset length).length then some .poolExhausted else none := by
  have h1 : (covers c.coverage offset (offset+length)) = true ↔ ∃ iv ∈ c.coverage, iv.1 < offset + length ∧ offset < iv.2 := by
    simp [covers]
  have h2 : ((match c.total with | some total => decide (total < offset + length) | none => false)
      || (last && c.coverage.any fun iv => decide (offset + length < iv.2))) = true ↔ (c.total.getD (offset + length) < offset + length ∨ (last = true ∧ ∃ iv ∈ c.coverage, offset + length < iv.2)) := by
    rcases c.total with _ | t <;> simp
  simp only [fragmentRefusal, Config.maxPayload, Config.maxPieces, h1]
  by_cases a1 : 8192 < offset + length
  · simp [a1]
  by_cases a2 : ∃ iv ∈ c.coverage, iv.1 < offset + length ∧ offset < iv.2
  · simp only [a1, a2, if_true, if_false]
  by_cases a3 : 8 < c.pieces + 1
  · simp only [a1, a2, a3, if_true, if_false]
  simp only [a1, a2, a3, if_false]
  by_cases a4 : (c.total.getD (offset + length) < offset + length ∨ (last = true ∧ ∃ iv ∈ c.coverage, offset + length < iv.2))
  · rw [if_pos a4]; exact if_pos (h2.mpr a4)
  · rw [if_neg a4]; exact if_neg (fun h => a4 (h2.mp h))

/-- A context replaced by one that is not COMPLETE. -/
theorem NotComplete_set {a : Assembly} {st seq} (h : NotComplete a st seq) (i : CtxNo) (o : Option Context)
   (ho : ∀ c, o = some c → c.stream = st → c.seq = seq → c.state ≠ .complete) :
   NotComplete { a with contexts := a.contexts.set i o } st seq := by
  intro j x hx
  simp only [tableSet_get] at hx
  split at hx
  · intro h1 h2; exact ho x hx h1 h2
  · exact h j x hx

/-- Contexts alone decide it. -/
theorem NotComplete_congr {a b : Assembly} {st seq} (h : NotComplete a st seq) (he : b.contexts = a.contexts) : NotComplete b st seq := by
  intro j x hx; rw [he] at hx; exact h j x hx

/-- Admission does nothing when position 0 is neither COMPLETE nor abandoned. -/
theorem admitOnce_none {st} {s : State} (hn : NotComplete s.assembly st s.assembly.streams[st].nextAdmission)
   (hb : s.assembly.streams[st].abandoned.getLsbD 0 = false) : admitOnce st s = none := by
  simp only [admitOnce]
  split
  · rw [contextOf_none (fun j x hx h1 h2 => by simpa using hn j x hx h1 h2)]
    simp only [Fin.getElem_fin] at hb
    simp only [Stream.isAbandoned, Fin.getElem_fin, hb]; rfl
  · rfl

/-- The same for a run of admission. -/
theorem admit_none {st} {s : State} (hn : NotComplete s.assembly st s.assembly.streams[st].nextAdmission)
   (hb : s.assembly.streams[st].abandoned.getLsbD 0 = false) : admitStream st s = s := by
  simp [admitStream, admitSteps, admitOnce_none hn hb]

/-- An abandoned position 0 is passed over, once (R47). -/
theorem admit_pass {st} {s : State} (ho : s.assembly.streams[st].state = .opened) (hn : NotComplete s.assembly st s.assembly.streams[st].nextAdmission)
   (hb : s.assembly.streams[st].abandoned.getLsbD 0 = true)
   (hn' : NotComplete s.assembly st (s.assembly.streams[st].nextAdmission + 1#16))
   (hb' : s.assembly.streams[st].abandoned.getLsbD 1 = false) :
   admitStream st s = modStream st (fun e => { e.advance with gapPending := true }) s := by
  have h1 : admitOnce st s = some (modStream st (fun e => { e.advance with gapPending := true }) s) := by
    simp only [admitOnce, ho, if_true]
    rw [contextOf_none (fun j x hx h1 h2 => by simpa using hn j x hx h1 h2)]
    simp only [Fin.getElem_fin] at hb
    simp [Stream.isAbandoned, hb]
  show (match admitOnce st s with | some s' => admitSteps st 7 s' | none => s) = _
  rw [h1]
  simp only
  show (match admitOnce st _ with | some s' => admitSteps st 6 s' | none => _) = _
  rw [admitOnce_none]
  · simp only [modStream, State.onAssembly, tableMod_get_self, Stream.advance]
    exact hn'
  · simp only [modStream, State.onAssembly, tableMod_get_self, Stream.advance]
    simpa using hb'

/-- A COMPLETE context at position 0 is queued, once (R47). -/
theorem admit_queue {st} {s : State} {i c} (ho : s.assembly.streams[st].state = .opened) 
   (hs : Sole s.assembly st s.assembly.streams[st].nextAdmission i c) (hc : c.state = .complete)
   (hn' : NotComplete s.assembly st (s.assembly.streams[st].nextAdmission + 1#16))
   (hb' : s.assembly.streams[st].abandoned.getLsbD 1 = false) :
   admitStream st s = modStream st Stream.advance
        ((setContext i (some { c with state := .queued }) s).onWriter fun w => { w with queue := w.queue ++ [i] }) := by
  have h1 : admitOnce st s = some (modStream st Stream.advance
        ((setContext i (some { c with state := .queued }) s).onWriter fun w => { w with queue := w.queue ++ [i] })) := by
    simp only [admitOnce, ho, if_true]
    rw [contextOf_sole hs (by simp [hc])]
  show (match admitOnce st s with | some s' => admitSteps st 7 s' | none => s) = _
  rw [h1]
  simp only
  show (match admitOnce st _ with | some s' => admitSteps st 6 s' | none => _) = _
  rw [admitOnce_none]
  · simp only [modStream, State.onAssembly, tableMod_get_self, Stream.advance, State.onWriter, setContext]
    exact NotComplete_congr (NotComplete_set hn' i _ (by intro x hx _ _; cases hx; simp)) rfl
  · simp only [modStream, State.onAssembly, tableMod_get_self, Stream.advance, State.onWriter, setContext]
    simpa using hb'

/-- Ticks run, and notices are posted, in ONLINE, DRAINING and STOPPED. -/
theorem ticks_of {s : State} (h : s.host.device = .online ∨ s.host.device = .draining ∨ s.host.device = .stopped) : s.host.device.ticks = true ∧ Notices s := by
  rcases h with h | h | h <;> simp [h, DeviceState.ticks, Notices]

/-- A window position holds a context. -/
theorem holdsContext_iff (a : Assembly) (st k) : holdsContext a st k = true ↔ ∃ (i : CtxNo) (c : Context), a.contexts[i] = some c ∧ c.stream = st ∧
        c.seq = a.streams[st].nextAdmission + BitVec.ofNat 16 k ∧ c.state.inWindow = true := by
  simp only [holdsContext, Assembly.contextOf, Assembly.findContext, Option.isSome_iff_exists, Stream.atPosition]
  constructor
  · rintro ⟨v, hv⟩
    obtain ⟨x, _, hx⟩ := List.exists_of_findSome?_eq_some hv
    rcases hc : a.contexts[x] with _ | c <;> simp only [Fin.getElem_fin] at hc <;> simp [hc] at hx
    exact ⟨x, c, hc, hx.1.1.1, hx.1.1.2, hx.1.2⟩
  · rintro ⟨i, c, h1, h2, h3, h4⟩
    rcases hf : (allContexts.findSome? _) with _ | v
    · have := (List.findSome?_eq_none_iff.mp hf) i (List.mem_finRange i)
      simp only [Fin.getElem_fin] at h1 h3
      simp [h1, h2, h3, h4] at this
    · exact ⟨_, rfl⟩

/-- The context and the transfer of a slot are found. -/
theorem inFlight_find {a : Assembly} {i c tr} (h : InFlight a i c tr) : a.transferContext tr.slot = some (i, c) ∧
   c.transfers.find? (fun t => t.slot == tr.slot) = some tr := by
  refine ⟨?_, ?_⟩
  · apply findContext_unique h.1
    · simp only [List.any_eq_true]; exact ⟨tr, h.2.1, by simp⟩
    · intro j x hx hp
      simp only [List.any_eq_true] at hp
      obtain ⟨u, hu, he⟩ := hp
      exact h.2.2.2 j x hx ⟨u, hu, by simpa using he⟩
  · rcases hf : c.transfers.find? (fun t => t.slot == tr.slot) with _ | u
    · have := (List.find?_eq_none.mp hf) tr h.2.1; simp at this
    · have h1 := List.find?_some hf
      have h2 := List.mem_of_find?_eq_some hf
      have := h.2.2.1 u h2 (by simpa using h1)
      subst this; exact hf

/-- Data of the right length is taken as it is. -/
theorem toLength_self {n} {l : List Byte} (h : l.length = n) : toLength n l = l := by
  subst h; simp [toLength, zeros]

/-- With nothing held nothing is taken. -/
theorem takeHeld_none {s : State} (h : s.assembly.held = none) : takeHeld s = s := by simp [takeHeld, h]

/-- A stream with no context is not busy. -/
theorem count_zero (a : Assembly) (st) : a.streamBusy st = false ↔ ¬ Busy a st := by
  simp only [Assembly.streamBusy, Assembly.countContexts, Busy]
  simp only [bne_eq_false_iff_eq, List.countP_eq_zero]
  constructor
  · rintro h ⟨i, c, hc, hs⟩
    have := h a.contexts[i] (by simp)
    rw [hc] at this; simp [hs] at this
  · intro h x hx
    obtain ⟨k, hk, rfl⟩ := List.mem_iff_getElem.mp hx
    intro hh
    have hk' : k < 32 := by simpa using hk
    simp only [Vector.getElem_toList] at hh
    rcases hc : a.contexts[k] with _ | c
    · simp [hc] at hh
    · simp [hc] at hh
      exact h ⟨⟨k, hk'⟩, c, hc, hh⟩

/-- The first context that a test finds is the lowest-numbered that passes it. -/
theorem findContext_first {a : Assembly} {p} {i : CtxNo} {c} (h : a.findContext p = some (i, c)) :
    a.contexts[i] = some c ∧ p c = true ∧ ∀ (j : CtxNo) x, j < i → a.contexts[j] = some x → p x = false := by
  have key : ∀ l : List CtxNo, l.Pairwise (· < ·) →
      (l.findSome? fun i => match a.contexts[i] with
        | some c => if p c then some (i, c) else none
        | none => none) = some (i, c) →
      (a.contexts[i] = some c ∧ p c = true ∧ i ∈ l ∧
        ∀ (j : CtxNo) x, j ∈ l → j < i → a.contexts[j] = some x → p x = false) := by
    intro l
    induction l with
    | nil => intro _ h; simp at h
    | cons k l ih =>
      intro hs h
      rw [List.pairwise_cons] at hs
      rw [List.findSome?_cons] at h
      rcases hk : a.contexts[k] with _ | x
      · rw [hk] at h
        obtain ⟨h1, h2, h3, h4⟩ := ih hs.2 h
        refine ⟨h1, h2, List.mem_cons_of_mem _ h3, fun j x hj hlt hx => ?_⟩
        rcases List.mem_cons.mp hj with rfl | hj
        · rw [hk] at hx; cases hx
        · exact h4 j x hj hlt hx
      · rw [hk] at h
        by_cases hp : p x = true
        · simp only [hp, if_true, Option.some.injEq, Prod.mk.injEq] at h
          obtain ⟨rfl, rfl⟩ := h
          refine ⟨hk, hp, List.mem_cons_self .., fun j x hj hlt hx => ?_⟩
          rcases List.mem_cons.mp hj with rfl | hj
          · exact absurd hlt (lt_irrefl _)
          · exact absurd (hs.1 j hj) (not_lt.mpr hlt.le)
        · simp only [hp] at h
          obtain ⟨h1, h2, h3, h4⟩ := ih hs.2 h
          refine ⟨h1, h2, List.mem_cons_of_mem _ h3, fun j y hj hlt hx => ?_⟩
          rcases List.mem_cons.mp hj with rfl | hj
          · rw [hk] at hx; cases hx; simpa using hp
          · exact h4 j y hj hlt hx
  obtain ⟨h1, h2, -, h4⟩ := key allContexts (List.pairwise_lt_finRange 32) h
  exact ⟨h1, h2, fun j x hj hx => h4 j x (List.mem_finRange j) hj hx⟩

/-- One advance of admission, or none (R47). -/
theorem admitOnce_cases (st : StreamNo) (s : State) :
    (∃ m, admitOnce st s = some m ∧ Advances st s m) ∨ (admitOnce st s = none ∧ Rests st s) := by
  by_cases ho : s.assembly.streams[st].state = .opened
  · rcases hc : s.assembly.contextOf st s.assembly.streams[st].nextAdmission (· == .complete) with _ | ⟨i, c⟩
    · have hno : ∀ (j : CtxNo) x, ¬CompleteAt s.assembly st 0 j x := by
        intro j x ⟨h1, h2, h3, h4⟩
        have : s.assembly.findContext (fun c => c.stream == st && c.seq == s.assembly.streams[st].nextAdmission
            && (c.state == .complete)) = none := hc
        simp only [Assembly.findContext, List.findSome?_eq_none_iff] at this
        have := this j (List.mem_finRange j)
        rw [h1] at this
        simp [h2, h4] at this
        exact this (by simpa using h3)
      by_cases hb : s.assembly.streams[st].abandoned.getLsbD 0 = true
      · refine .inl ⟨_, by simp only [admitOnce, ho, if_true, hc, Stream.isAbandoned, hb]; exact rfl, ho, .inr ⟨hno, hb, ?_⟩⟩
        rfl
      · refine .inr ⟨by simp only [admitOnce, ho, if_true, hc, Stream.isAbandoned, hb, if_false]; rfl, fun _ => ⟨by simpa using hb, hno⟩⟩
    · obtain ⟨h1, h2, h3⟩ := findContext_first hc
      simp only [Bool.and_eq_true, beq_iff_eq] at h2
      have he : admitOnce st s = some (modStream st Stream.advance ((setContext i (some { c with state := .queued }) s).onWriter
          fun w => { w with queue := w.queue ++ [i] })) := by simp only [admitOnce, ho, if_true, hc]
      refine .inl ⟨_, he, ho, .inl ⟨i, c, ⟨h1, h2.1.1, by simpa using h2.1.2, h2.2⟩, ?_, rfl⟩⟩
      rintro j x hj ⟨g1, g2, g3, g4⟩
      have := h3 j x hj g1
      simp [g2, g4] at this
      exact this (by simpa using g3)
  · refine .inr ⟨by simp only [admitOnce, ho, if_false], fun h => absurd h ho⟩

/-- A run of admission (R47). -/
theorem admitSteps_run (st : StreamNo) : ∀ n s, Run st n s (admitSteps st n s)
  | 0, s => rfl
  | n + 1, s => by
    rcases admitOnce_cases st s with ⟨m, hm, ha⟩ | ⟨hn, hr⟩
    · exact .inr ⟨m, ha, by simpa only [admitSteps, hm] using admitSteps_run st n m⟩
    · exact .inl ⟨hr, by simp only [admitSteps, hn]⟩

/-- Admission for one stream: at most eight advances (R47). -/
theorem admitStream_run (st : StreamNo) (s : State) : Run st 8 s (admitStream st s) := admitSteps_run st 8 s

/-- Admission for every stream in turn (R48). -/
theorem admitAll_run (s : State) : RunAll (List.finRange 16) s (admitAll s) := by
  have key : ∀ (l : List StreamNo) s, RunAll l s (l.foldl (fun s st => admitStream st s) s) := by
    intro l
    induction l with
    | nil => intro s; rfl
    | cons st l ih => intro s; exact ⟨_, admitStream_run st s, ih _⟩
  exact key _ s

/-- An APPEND is held exactly when the drain mark is clear and some context of its sequence has four transfers in
flight (R64). -/
theorem mustHold_iff (a : Assembly) (f : Fragment) : mustHold a f = true ↔ a.drainMark = false ∧
    ∃ (i : CtxNo) (c : Context), a.contexts[i] = some c ∧ c.stream = f.stream ∧ c.seq = f.seq ∧ 4 ≤ c.transfers.length := by
  simp only [mustHold, Bool.and_eq_true, Bool.not_eq_true', Assembly.findContext, List.isSome_findSome?, List.any_eq_true]
  refine and_congr_right fun _ => ⟨fun ⟨i, _, h⟩ => ?_, fun ⟨i, c, hc, h1, h2, h4⟩ => ⟨i, by simp [allContexts], ?_⟩⟩
  · split at h
    · next c hc =>
      split at h
      · next hp =>
        simp only [Bool.and_eq_true, beq_iff_eq, decide_eq_true_eq, Config.maxTransfers] at hp
        exact ⟨i, c, hc, hp.1.1, hp.1.2, of_decide_eq_true hp.2⟩
      · simp at h
    · simp at h
  · rw [hc]; simp [h1, h2, h4, Config.maxTransfers]

/-- A held APPEND is taken when it can be (R64). -/
theorem takeHeld_taken (m : State) : HeldTaken m (.next (takeHeld m)) := by
  refine ⟨fun h => by rw [takeHeld_none h], fun r hr hrow ht => ⟨_, rfl, ?_⟩⟩
  obtain ⟨f, hf⟩ : ∃ f, r.fragment = some f := by
    rcases r with ⟨slot, cmd⟩
    cases cmd <;> first | exact ⟨_, rfl⟩ | (rename_i sub _ _ _; cases sub <;> cases hrow) | cases hrow
  have hh : State.assemblyHead { m with assembly := { m.assembly with held := none, queue := [r] } } = some r := by
    have : State.takesCommands { m with assembly := { m.assembly with held := none, queue := [r] } } = true := takes_iff ht
    simp only [State.assemblyHead, this, true_and, if_true, List.head?_cons]
  have hm : mustHold { m.assembly with held := none, queue := [r] } f = mustHold m.assembly f := rfl
  simp only [hh, hf, takeHeld, hr, hm]
  by_cases hk : mustHold m.assembly f = true
  · simp only [hk, if_true, popAssembly, State.onAssembly, List.tail_cons]
    congr 1
    rw [← hr]
  · simp only [hk]
    simp only [takeAppend, popAssembly, State.onAssembly, List.tail_cons]
    have hv : appendVerdict { m.assembly with held := none, queue := [] } f = appendVerdict m.assembly f := rfl
    have hv' : appendVerdict { m.assembly with held := none } f = appendVerdict m.assembly f := rfl
    simp only [hv, hv']
    rcases appendVerdict m.assembly f with r' | ⟨i, c⟩ <;> rfl

/-- A stream closes when it is CLOSING and holds no context (R43). -/
theorem closeIfDone_closes (st : StreamNo) (s : State) : Closes st s (closeIfDone st s) := by
  refine ⟨fun h hb => ?_, fun h => ?_⟩
  · have hb' := (count_zero s.assembly st).mpr hb
    simp only [closeIfDone, h, hb', and_self, if_true, closeStreamNow, closedStream]
    rcases s.assembly.streams[st].pendingClose with _ | d <;> rfl
  · have : ¬ (s.assembly.streams[st].state = .closing ∧ s.assembly.streamBusy st = false) := by
      rw [count_zero]; tauto
    simp only [closeIfDone, this, if_false]

/-- Closing a stream and changing the writer are independent. -/
theorem closeIfDone_writer (st : StreamNo) (s : State) (f : Writer → Writer) :
    closeIfDone st (s.onWriter f) = (closeIfDone st s).onWriter f := by
  by_cases h : s.assembly.streams[st].state = .closing ∧ s.assembly.streamBusy st = false
  · have h' : (s.onWriter f).assembly.streams[st].state = .closing ∧ (s.onWriter f).assembly.streamBusy st = false := h
    rw [closeIfDone, closeIfDone, if_pos h, if_pos h']
    simp only [closeStreamNow]
    show _ = State.onWriter f (match s.assembly.streams[st].pendingClose with | some slot => _ | none => _)
    rw [show (s.onWriter f).assembly.streams[st].pendingClose = s.assembly.streams[st].pendingClose from rfl]
    rcases s.assembly.streams[st].pendingClose with _ | d <;> rfl
  · have h' : ¬ ((s.onWriter f).assembly.streams[st].state = .closing ∧ (s.onWriter f).assembly.streamBusy st = false) := h
    rw [closeIfDone, closeIfDone, if_neg h, if_neg h']

/-- Closing a stream leaves the writer and the device state. -/
theorem closeIfDone_same (st : StreamNo) (s : State) : (closeIfDone st s).writer = s.writer := by
  simp only [closeIfDone]
  split
  · simp only [closeStreamNow]; split <;> rfl
  · rfl

theorem closeIfDone_device (st : StreamNo) (s : State) : (closeIfDone st s).host.device = s.host.device := by
  simp only [closeIfDone]
  split
  · simp only [closeStreamNow]; split <;> rfl
  · rfl

end Sys2Proof.Laws
end

