-- ==== Sys2Proof/Laws/Layouts.lean ====
section
/-! SUPPORT. Little-endian fields at their places in a list of bytes (R1, R184). -/

namespace Sys2Proof.Laws

open Sys2Proof.Machine

@[simp] theorem leBytes_length (n v : Nat) : (leBytes n v).length = n := by
  induction n generalizing v with
  | zero => rfl
  | succ n ih => simp [leBytes, ih]

@[simp] theorem zeros_length (n : Nat) : (zeros n).length = n := by simp [zeros]

/-- The bytes of a number spell it, up to their width. -/
theorem leNat_leBytes (n v : Nat) : leNat (leBytes n v) = v % 256 ^ n := by
  induction n generalizing v with
  | zero => simp [leBytes, leNat, Nat.mod_one]
  | succ n ih =>
    rw [leBytes, leNat, ih, Nat.pow_succ', Nat.mod_mul]
    simp

/-- A field that begins the list. -/
theorem fieldAt_head (n v : Nat) (l : List Byte) : fieldAt (leBytes n v ++ l) 0 n = v % 256 ^ n := by
  rw [fieldAt, List.drop_zero, List.take_left' (leBytes_length n v), leNat_leBytes]

/-- A field beyond the first `k` bytes. -/
theorem fieldAt_skip (k m i n : Nat) (a l : List Byte) (h : a.length = k) (hi : k + m = i) :
    fieldAt (a ++ l) i n = fieldAt l m n := by
  subst hi h
  rw [fieldAt, List.drop_append, List.drop_eq_nil_of_le (by omega), List.nil_append, Nat.add_sub_cancel_left, fieldAt]

/-- A field within the first list. -/
theorem fieldAt_within (i n : Nat) (a l : List Byte) (h : i + n ≤ a.length) : fieldAt (a ++ l) i n = fieldAt a i n := by
  rw [fieldAt, fieldAt, List.drop_append_of_le_length (by omega), List.take_append_of_le_length (by simp; omega)]

/-- Record `i` of a table of records of `n` bytes. -/
theorem record_at {α : Type} (n : Nat) (f : α → List Byte) (l : List α) (hf : ∀ x, (f x).length = n) :
    ∀ (i : Nat) (h : i < l.length), (((l.map f).flatten).drop (n * i)).take n = f l[i] := by
  induction l with
  | nil => intro i h; cases h
  | cons x t ih =>
    intro i h
    rw [List.map_cons, List.flatten_cons]
    cases i with
    | zero => simpa using List.take_left' (hf x)
    | succ i =>
      rw [Nat.mul_succ, Nat.add_comm, List.drop_append, hf x, List.drop_eq_nil_of_le (by rw [hf]; omega), List.nil_append,
        Nat.add_sub_cancel_left]
      exact ih i (by simpa using h)

/-- The length of a table of records. -/
theorem records_length {α : Type} (n : Nat) (f : α → List Byte) (l : List α) (hf : ∀ x, (f x).length = n) :
    ((l.map f).flatten).length = n * l.length := by
  induction l with
  | nil => simp
  | cons x t ih => rw [List.map_cons, List.flatten_cons, List.length_append, ih, hf]; simp [Nat.mul_succ]; omega

end Sys2Proof.Laws
end

