-- ==== Sys2Proof/Laws/Mount.lean ====
section
/-! SUPPORT. The build and the handover of a mount (R161, R164 to R169): the members, the numbers, the entries. -/

namespace Sys2Proof.Laws

open Sys2Proof.Machine Sys2Proof.Safety

/-! ### The candidates (R164) -/

/-- A candidate is what the scan found of its sector. -/
theorem mem_validSectors (m : Mount) (c : Candidate) :
    c ∈ m.validSectors ↔ m.findings[c.sector] = .valid c.walk c.walkEnd c.position := by
  simp only [Mount.validSectors, List.mem_filterMap, allSectors, List.mem_finRange, true_and]
  constructor
  · rintro ⟨i, h⟩
    rcases hf : m.findings[i] with _ | _ | _ | _ | ⟨w, e, p⟩ <;> rw [hf] at h <;> simp at h
    subst h; exact hf
  · intro h
    refine ⟨c.sector, ?_⟩
    rw [h]

/-- The candidates stand in sector order. -/
theorem validSectors_sorted (m : Mount) : m.validSectors.Pairwise fun a b => a.sector < b.sector := by
  rw [Mount.validSectors, List.pairwise_filterMap]
  refine (List.pairwise_lt_finRange 256).imp ?_
  intro i j hij a ha b hb
  have key : ∀ (k : SectorNo) (x : Candidate), (match m.findings[k] with
      | .valid w e p => some (⟨k, w, e, p⟩ : Candidate)
      | .none => none | .retired => none | .blank => none | .dirty => none) = some x → x.sector = k := by
    intro k x h
    rcases hf : m.findings[k] with _ | _ | _ | _ | ⟨w, e, p⟩ <;> rw [hf] at h <;> simp at h
    rw [← h]
  rw [key i a ha, key j b hb]; exact hij

/-- The epoch of a candidate. -/
def epochOf (c : Candidate) : Nat := c.walk.header.epoch

/-- The first of each epoch. -/
theorem mem_firstOfEpoch (l : List Candidate) : ∀ seen, l.Pairwise (fun a b => a.sector < b.sector) →
    (∀ c, c ∈ firstOfEpoch seen l ↔ c ∈ l ∧ epochOf c ∉ seen ∧ ∀ d ∈ l, d.sector < c.sector → epochOf d ≠ epochOf c) ∧
    (firstOfEpoch seen l).Pairwise (fun a b => epochOf a ≠ epochOf b) := by
  induction l with
  | nil => intro seen _; simp [firstOfEpoch]
  | cons x t ih =>
    intro seen hp
    obtain ⟨hx, ht⟩ := List.pairwise_cons.mp hp
    have hxt : x ∉ t := fun h => absurd (hx x h) (lt_irrefl _)
    simp only [firstOfEpoch]
    split
    · next hs =>
      obtain ⟨h1, h2⟩ := ih seen ht
      refine ⟨fun c => ?_, h2⟩
      rw [h1]
      constructor
      · rintro ⟨hc, hn, hd⟩
        refine ⟨List.mem_cons_of_mem _ hc, hn, ?_⟩
        rintro d hd' hlt
        rcases List.mem_cons.mp hd' with rfl | hd'
        · intro he; exact hn (he ▸ hs)
        · exact hd d hd' hlt
      · rintro ⟨hc, hn, hd⟩
        rcases List.mem_cons.mp hc with rfl | hc
        · exact absurd hs hn
        · exact ⟨hc, hn, fun d hd' => hd d (List.mem_cons_of_mem _ hd')⟩
    · next hs =>
      obtain ⟨h1, h2⟩ := ih (x.walk.header.epoch :: seen) ht
      refine ⟨fun c => ?_, List.pairwise_cons.mpr ⟨fun c hc => ?_, h2⟩⟩
      · rw [List.mem_cons, h1]
        constructor
        · rintro (rfl | ⟨hc, hn, hd⟩)
          · refine ⟨List.mem_cons_self .., hs, ?_⟩
            intro d hd' hlt
            rcases List.mem_cons.mp hd' with rfl | hd'
            · exact absurd hlt (lt_irrefl _)
            · exact absurd hlt (lt_asymm (hx d hd'))
          · refine ⟨List.mem_cons_of_mem _ hc, fun h => hn (List.mem_cons_of_mem _ h), ?_⟩
            intro d hd' hlt
            rcases List.mem_cons.mp hd' with rfl | hd'
            · intro he; exact hn (he ▸ List.mem_cons_self ..)
            · exact hd d hd' hlt
        · rintro ⟨hc, hn, hd⟩
          rcases List.mem_cons.mp hc with rfl | hc
          · exact .inl rfl
          · refine .inr ⟨hc, ?_, fun d hd' => hd d (List.mem_cons_of_mem _ hd')⟩
            intro he
            rcases List.mem_cons.mp he with he | he
            · exact hd x (List.mem_cons_self ..) (hx c hc) he.symm
            · exact hn he
      · have := ((h1 c).mp hc).2.1
        intro he; exact this (he ▸ List.mem_cons_self ..)

/-- Sorting keeps the candidates and orders their epochs. -/
theorem mem_insertByEpoch (c d : Candidate) (l : List Candidate) : d ∈ insertByEpoch c l ↔ d = c ∨ d ∈ l := by
  induction l with
  | nil => simp [insertByEpoch]
  | cons x t ih =>
    simp only [insertByEpoch]; split
    · simp
    · simp only [List.mem_cons, ih]; tauto

theorem insertByEpoch_sorted (c : Candidate) (l : List Candidate) (hl : l.Pairwise fun a b => epochOf a < epochOf b)
    (hc : ∀ d ∈ l, epochOf c ≠ epochOf d) : (insertByEpoch c l).Pairwise fun a b => epochOf a < epochOf b := by
  induction l with
  | nil => simp [insertByEpoch]
  | cons x t ih =>
    obtain ⟨hx, ht⟩ := List.pairwise_cons.mp hl
    have hcx := hc x (List.mem_cons_self ..)
    simp only [insertByEpoch]; split
    · next h =>
      have hlt : epochOf c < epochOf x := lt_of_le_of_ne h hcx
      refine List.pairwise_cons.mpr ⟨fun d hd => ?_, hl⟩
      rcases List.mem_cons.mp hd with rfl | hd
      · exact hlt
      · exact hlt.trans (hx d hd)
    · next h =>
      refine List.pairwise_cons.mpr ⟨fun d hd => ?_, ih ht fun d hd => hc d (List.mem_cons_of_mem _ hd)⟩
      rcases (mem_insertByEpoch c d t).mp hd with rfl | hd
      · exact Nat.lt_of_not_le h
      · exact hx d hd

theorem sortByEpoch_spec (l : List Candidate) (hl : l.Pairwise fun a b => epochOf a ≠ epochOf b) :
    (∀ c, c ∈ sortByEpoch l ↔ c ∈ l) ∧ (sortByEpoch l).Pairwise fun a b => epochOf a < epochOf b := by
  induction l with
  | nil => simp [sortByEpoch]
  | cons x t ih =>
    obtain ⟨hx, ht⟩ := List.pairwise_cons.mp hl
    obtain ⟨h1, h2⟩ := ih ht
    have e : sortByEpoch (x :: t) = insertByEpoch x (sortByEpoch t) := rfl
    rw [e]
    exact ⟨fun c => by rw [mem_insertByEpoch, h1, List.mem_cons], insertByEpoch_sorted _ _ h2 fun d hd => hx d ((h1 d).mp hd)⟩

/-- The candidates whose range rises above the ranges before it. -/
theorem keepRising_spec (l : List Candidate) : ∀ high, l.Pairwise (fun a b => epochOf a < epochOf b) →
    (∀ c ∈ l, Walk.counted c.walk) → (keepRising high l).Sublist l ∧
    ∀ c, c ∈ keepRising high l ↔ c ∈ l ∧ (c.walk.count = 0 ∨ (high < c.walk.header.baseJsn ∧
      ∀ k ∈ keepRising high l, epochOf k < epochOf c → k.walk.count ≠ 0 → k.walk.expected ≤ c.walk.header.baseJsn)) := by
  induction l with
  | nil => intro high _ _; simp [keepRising]
  | cons x t ih =>
    intro high hp hc
    obtain ⟨hx, ht⟩ := List.pairwise_cons.mp hp
    have hct : ∀ c ∈ t, Walk.counted c.walk := fun c h => hc c (List.mem_cons_of_mem _ h)
    have hne : ∀ d ∈ t, d ≠ x := fun d hd e => absurd (hx d hd) (by rw [e]; exact lt_irrefl _)
    by_cases h0 : x.walk.count = 0
    · have e : keepRising high (x :: t) = x :: keepRising high t := by simp only [keepRising]; rw [if_pos h0]
      obtain ⟨h1, h2⟩ := ih high ht hct
      rw [e]
      refine ⟨h1.cons₂ x, fun c => ?_⟩
      rw [List.mem_cons, h2]
      constructor
      · rintro (rfl | ⟨hm, h⟩)
        · exact ⟨List.mem_cons_self .., .inl h0⟩
        · refine ⟨List.mem_cons_of_mem _ hm, h.imp id fun h => ⟨h.1, ?_⟩⟩
          intro k hk hlt hk0
          rcases List.mem_cons.mp hk with rfl | hk
          · exact absurd h0 hk0
          · exact h.2 k hk hlt hk0
      · rintro ⟨hm, h⟩
        rcases List.mem_cons.mp hm with rfl | hm
        · exact .inl rfl
        · exact .inr ⟨hm, h.imp id fun h => ⟨h.1, fun k hk => h.2 k (List.mem_cons_of_mem _ hk)⟩⟩
    · by_cases hb : x.walk.header.baseJsn ≤ high
      · have e : keepRising high (x :: t) = keepRising high t := by
          simp only [keepRising]; rw [if_neg h0, if_pos hb]
        obtain ⟨h1, h2⟩ := ih high ht hct
        rw [e]
        refine ⟨h1.cons x, fun c => ?_⟩
        rw [h2]
        constructor
        · rintro ⟨hm, h⟩; exact ⟨List.mem_cons_of_mem _ hm, h⟩
        · rintro ⟨hm, h⟩
          rcases List.mem_cons.mp hm with rfl | hm
          · rcases h with h | h
            · exact absurd h h0
            · omega
          · exact ⟨hm, h⟩
      · have e : keepRising high (x :: t) = x :: keepRising (x.walk.expected - 1) t := by
          simp only [keepRising]; rw [if_neg h0, if_neg hb]
        obtain ⟨h1, h2⟩ := ih (x.walk.expected - 1) ht hct
        have hcx := hc x (List.mem_cons_self ..)
        have hex := hcx.2
        rw [e]
        refine ⟨h1.cons₂ x, fun c => ?_⟩
        rw [List.mem_cons, h2]
        constructor
        · rintro (rfl | ⟨hm, h⟩)
          · refine ⟨List.mem_cons_self .., .inr ⟨by omega, ?_⟩⟩
            intro k hk hlt
            rcases List.mem_cons.mp hk with rfl | hk
            · exact absurd hlt (lt_irrefl _)
            · exact absurd hlt (lt_asymm (hx k (h1.subset hk)))
          · refine ⟨List.mem_cons_of_mem _ hm, h.imp id fun h => ⟨by omega, ?_⟩⟩
            intro k hk hlt hk0
            rcases List.mem_cons.mp hk with rfl | hk
            · omega
            · exact h.2 k hk hlt hk0
        · rintro ⟨hm, h⟩
          rcases List.mem_cons.mp hm with rfl | hm
          · exact .inl rfl
          · refine .inr ⟨hm, h.imp id fun h => ⟨?_, fun k hk => h.2 k (List.mem_cons_of_mem _ hk)⟩⟩
            have := h.2 x (List.mem_cons_self ..) (hx c hm) h0
            omega

/-- Every walk found counts its records. -/
def Counted (m : Mount) : Prop := ∀ (i : SectorNo) w e p, m.findings[i] = .valid w e p → Walk.counted w

/-- The members of the journal list. -/
theorem members_spec (m : Mount) (hc : Counted m) :
    (m.members.Pairwise fun a b => epochOf a < epochOf b) ∧ (∀ c ∈ m.members, c ∈ m.validSectors) ∧
    ∀ c, c ∈ m.members ↔ c ∈ m.validSectors ∧
      (∀ d ∈ m.validSectors, d.sector < c.sector → epochOf d ≠ epochOf c) ∧
      (c.walk.count = 0 ∨ ∀ k ∈ m.members, epochOf k < epochOf c → k.walk.count ≠ 0 →
        k.walk.expected ≤ c.walk.header.baseJsn) := by
  obtain ⟨a1, a2⟩ := mem_firstOfEpoch m.validSectors [] (validSectors_sorted m)
  obtain ⟨b1, b2⟩ := sortByEpoch_spec _ a2
  have hv : ∀ c ∈ sortByEpoch (firstOfEpoch [] m.validSectors), c ∈ m.validSectors := fun c h => ((a1 c).mp ((b1 c).mp h)).1
  have hcc : ∀ c ∈ sortByEpoch (firstOfEpoch [] m.validSectors), Walk.counted c.walk :=
    fun c h => hc _ _ _ _ ((mem_validSectors m c).mp (hv c h))
  obtain ⟨c1, c2⟩ := keepRising_spec _ 0 b2 hcc
  refine ⟨b2.sublist c1, fun c h => hv c (c1.subset h), fun c => ?_⟩
  have e : m.members = keepRising 0 (sortByEpoch (firstOfEpoch [] m.validSectors)) := rfl
  rw [e, c2, b1, a1]
  constructor
  · rintro ⟨⟨h1, _, h2⟩, h3⟩; exact ⟨h1, h2, h3.imp id fun h => h.2⟩
  · rintro ⟨h1, h2, h3⟩
    refine ⟨⟨h1, by simp, h2⟩, h3.imp id fun h => ⟨?_, h⟩⟩
    have := (hc _ _ _ _ ((mem_validSectors m c).mp h1)).1
    omega

/-- The candidate of a sector with a valid header. -/
theorem candidate_of {m : Mount} {i : SectorNo} {w e p} (h : m.findings[i] = .valid w e p) :
    (⟨i, w, e, p⟩ : Candidate) ∈ m.validSectors := (mem_validSectors m _).mpr h

/-- A listed sector is that of its candidate. -/
theorem member_sector {m : Mount} (hc : Counted m) {i : SectorNo} {w e p} (h : m.findings[i] = .valid w e p) :
    i ∈ m.members.map (·.sector) ↔ (⟨i, w, e, p⟩ : Candidate) ∈ m.members := by
  rw [List.mem_map]
  constructor
  · rintro ⟨c, hm, rfl⟩
    have h' := (mem_validSectors m c).mp ((members_spec m hc).2.1 c hm)
    rw [h] at h'; cases h'; exact hm
  · intro hm; exact ⟨_, hm, rfl⟩

/-- The journal list of a build. -/
theorem built_members (m : Mount) (hc : Counted m) : Members m.findings (m.members.map (·.sector)) := by
  obtain ⟨h1, h2, h3⟩ := members_spec m hc
  have hval : ∀ c ∈ m.members, m.findings[c.sector] = .valid c.walk c.walkEnd c.position :=
    fun c h => (mem_validSectors m c).mp (h2 c h)
  refine ⟨?_, fun i => ?_⟩
  · rw [List.pairwise_map]
    refine h1.imp_of_mem ?_
    intro a b ha hb hab w e p w' e' p' hf hf'
    have e1 := (hval a ha).symm.trans hf
    have e2 := (hval b hb).symm.trans hf'
    cases e1; cases e2; exact hab
  · constructor
    · intro hi
      obtain ⟨c, hcm, rfl⟩ := List.mem_map.mp hi
      obtain ⟨_, h4, h5⟩ := (h3 c).mp hcm
      refine ⟨c.walk, c.walkEnd, c.position, hval c hcm, ?_, h5.imp id fun h5 => ?_⟩
      · intro k w e p hk hf; exact h4 _ (candidate_of hf) hk
      · intro k hk w e p hf hlt h0
        exact h5 ⟨k, w, e, p⟩ ((member_sector hc hf).mp hk) hlt h0
    · rintro ⟨w, e, p, hf, h4, h5⟩
      rw [member_sector hc hf, h3]
      refine ⟨candidate_of hf, ?_, h5.imp id fun h5 => ?_⟩
      · intro d hd hlt; exact h4 d.sector _ _ _ hlt ((mem_validSectors m d).mp hd)
      · intro k hk hlt h0
        exact h5 k.sector (List.mem_map.mpr ⟨k, hk, rfl⟩) _ _ _ (hval k hk) hlt h0

/-! ### The numbers (R166, R167) -/

/-- The greatest of a list, from a start value. -/
theorem foldl_max (g : Candidate → Nat) (l : List Candidate) : ∀ start : Nat,
    start ≤ l.foldl (fun n c => max n (g c)) start ∧ (∀ c ∈ l, g c ≤ l.foldl (fun n c => max n (g c)) start) ∧
    (l.foldl (fun n c => max n (g c)) start = start ∨ ∃ c ∈ l, l.foldl (fun n c => max n (g c)) start = g c) := by
  induction l with
  | nil => intro start; simp
  | cons x t ih =>
    intro start
    obtain ⟨h1, h2, h3⟩ := ih (max start (g x))
    rw [List.foldl_cons]
    refine ⟨by omega, ?_, ?_⟩
    · intro c hc
      rcases List.mem_cons.mp hc with rfl | hc
      · omega
      · exact h2 c hc
    · rcases h3 with h3 | ⟨c, hc, h3⟩
      · rcases Nat.le_total start (g x) with h | h
        · exact .inr ⟨x, List.mem_cons_self .., by omega⟩
        · exact .inl (by omega)
      · exact .inr ⟨c, List.mem_cons_of_mem _ hc, h3⟩

/-- The next JSN. -/
theorem nextJsn_highest (m : Mount) : Highest (fun x => ∃ (i : SectorNo) (w : Walk) (e : WalkEnd) (p : Nat),
    m.findings[i] = .valid w e p ∧ (x = w.expected ∨ x = w.header.baseJsn)) m.nextJsn := by
  obtain ⟨h1, h2, h3⟩ := foldl_max (fun c => max c.walk.expected c.walk.header.baseJsn) m.validSectors 1
  refine ⟨h1, ?_, ?_⟩
  · rintro x ⟨i, w, e, p, hf, hx⟩
    have h : max w.expected w.header.baseJsn ≤ m.nextJsn := h2 _ (candidate_of hf)
    rcases hx with rfl | rfl <;> omega
  · rcases h3 with h3 | ⟨c, hc, h3⟩
    · exact .inl h3
    · refine .inr ⟨_, _, _, _, (mem_validSectors m c).mp hc, ?_⟩
      have h : m.nextJsn = max c.walk.expected c.walk.header.baseJsn := h3
      omega

/-- The next epoch. -/
theorem nextEpoch_highest (m : Mount) : Highest (fun x => ∃ (i : SectorNo) (w : Walk) (e : WalkEnd) (p : Nat),
    m.findings[i] = .valid w e p ∧ x = w.header.epoch + 1) m.nextEpoch := by
  obtain ⟨h1, h2, h3⟩ := foldl_max (fun c => c.walk.header.epoch + 1) m.validSectors 1
  refine ⟨h1, ?_, ?_⟩
  · rintro x ⟨i, w, e, p, hf, rfl⟩; exact h2 _ (candidate_of hf)
  · rcases h3 with h3 | ⟨c, hc, h3⟩
    · exact .inl h3
    · exact .inr ⟨_, _, _, _, (mem_validSectors m c).mp hc, h3⟩

/-! ### The entries (R165, R167) -/

/-- The OPEN sector of a build. -/
theorem openMember_spec (m : Mount) (hc : Counted m) (i : SectorNo) (w e p) (hf : m.findings[i] = .valid w e p) :
    (m.openMember.map (·.sector) = some i) ↔
      ((m.members.map (·.sector)).getLast? = some i ∧ e = .erased ∧ m.nextJsn = w.expected) := by
  have hval : ∀ c ∈ m.members, m.findings[c.sector] = .valid c.walk c.walkEnd c.position :=
    fun c h => (mem_validSectors m c).mp ((members_spec m hc).2.1 c h)
  simp only [Mount.openMember, List.getLast?_map]
  rcases hl : m.members.getLast? with _ | c
  · simp
  · have hcm : c ∈ m.members := List.mem_of_getLast? hl
    simp only [Option.map_some, Option.some.injEq]
    by_cases hi : c.sector = i
    · have h2 := hval c hcm
      obtain ⟨k, w', e', p'⟩ := c
      simp only at hi; subst hi
      have h3 := hf.symm.trans h2
      simp only [Finding.valid.injEq] at h3
      obtain ⟨rfl, rfl, -⟩ := h3
      split
      · next h => simpa using h
      · next h => simpa using h
    · split <;> simp [hi]

/-- The entries of a build. -/
theorem built_entries (m : Mount) (hc : Counted m) (old : SectorTable) :
    EntriesBuilt m.findings m.resetKind (m.members.map (·.sector)) m.nextJsn old.entries (m.builtTable old).entries := by
  have hget : ∀ i : SectorNo, (m.builtTable old).entries[i]
      = m.entryOf m.members (m.openMember.map (·.sector)) old.entries[i] i := fun i => tabulate_get _ i
  refine ⟨?_, ?_, ?_⟩
  · intro i hi
    rw [hget]; simp only [Mount.entryOf]; rw [if_pos hi]; rfl
  · intro i w e p hi hf opens built listed
    have hi' : ¬i.val < 2 := by simp only [IsJournal] at hi; omega
    have hcase : (m.builtTable old).entries[i] = match m.members.find? fun c => c.sector == i with
        | some c => memberEntry c (m.openMember.map (·.sector) == some i)
        | none => builtEntry .dirty (w.header.wear, w.header.wearEstimated) := by
      rw [hget]; simp only [Mount.entryOf, hf]; rw [if_neg hi'] <;> rfl
    have hfind : i ∈ m.members.map (·.sector) → (m.members.find? fun c => c.sector == i) = some ⟨i, w, e, p⟩ := by
      intro hm
      rcases hq : m.members.find? fun c => c.sector == i with _ | c
      · have := (List.find?_eq_none.mp hq) _ ((member_sector hc hf).mp hm)
        simp at this
      · have h1 := List.find?_some hq
        have h2 := (mem_validSectors m c).mp ((members_spec m hc).2.1 c (List.mem_of_find?_eq_some hq))
        have h3 : c.sector = i := by simpa using h1
        obtain ⟨k, w', e', p'⟩ := c
        simp only at h3; subst h3
        have h4 := hf.symm.trans h2
        simp only [Finding.valid.injEq] at h4
        obtain ⟨rfl, rfl, rfl⟩ := h4
        exact hq
    refine ⟨?_, ?_, ?_⟩
    · intro hm
      have : (m.members.find? fun c => c.sector == i) = none := by
        rw [List.find?_eq_none]; intro c hcm hcs
        exact hm (List.mem_map.mpr ⟨c, hcm, by simpa using hcs⟩)
      rw [hcase, this]; rfl
    · intro hm ho
      have h := (openMember_spec m hc i w e p hf).mpr ho
      rw [hcase, hfind hm, h]
      simp [memberEntry, builtEntry, listed, built]
    · intro hm ho
      have h : ¬m.openMember.map (·.sector) = some i := fun h => ho ((openMember_spec m hc i w e p hf).mp h)
      rw [hcase, hfind hm, show (m.openMember.map (·.sector) == some i) = false by simpa using h]
      simp [memberEntry, builtEntry, listed, built]
      rfl
  · intro i hi hv estimated
    have hi' : ¬i.val < 2 := by simp only [IsJournal] at hi; omega
    obtain ⟨g1, g2, g3⟩ := foldl_max (fun c => c.walk.header.wear) m.validSectors 0
    have hw : ∃ r st, (m.builtTable old).entries[i] = builtEntry st (m.wearOf old.entries[i] r) ∧
        (r = true ↔ m.findings[i] = .retired) ∧
        (st = match m.findings[i] with
          | .retired => .retired
          | .blank => if 100000 ≤ (m.wearOf old.entries[i] r).1 then .dirty else .free
          | _ => .dirty) := by
      rw [hget]; simp only [Mount.entryOf]; rw [if_neg hi']
      rcases hf : m.findings[i] with _ | _ | _ | _ | ⟨w, e, p⟩
      · exact ⟨false, .dirty, rfl, by simp, rfl⟩
      · exact ⟨true, .retired, rfl, by simp, rfl⟩
      · exact ⟨false, _, rfl, by simp, rfl⟩
      · exact ⟨false, .dirty, rfl, by simp, rfl⟩
      · rw [hf] at hv; cases hv
    obtain ⟨r, st, he, hr, hst⟩ := hw
    have hest : estimated ↔ m.resetKind = .cold ∧ r = false := by
      simp only [estimated, ne_eq, ← hr]; simp
    have e1 : (m.builtTable old).entries[i].wear = (m.wearOf old.entries[i] r).1 := by rw [he]; rfl
    have e2 : (m.builtTable old).entries[i].wearEstimated = (m.wearOf old.entries[i] r).2 := by rw [he]; rfl
    refine ⟨?_, ?_, ?_⟩
    · intro h
      rw [e1, e2]; simp only [Mount.wearOf]; rw [if_neg (by rwa [hest] at h)]; exact ⟨rfl, rfl⟩
    · intro h
      rw [hest] at h
      have hwo : m.wearOf old.entries[i] r = (m.highestWear, true) := by simp only [Mount.wearOf]; rw [if_pos h]
      rw [e1, e2, hwo]
      refine ⟨rfl, ?_, ?_⟩
      · intro k w e p hf; exact g2 _ (candidate_of hf)
      · rcases g3 with g3 | ⟨c, hcm, g3⟩
        · exact .inl g3
        · exact .inr ⟨_, _, _, _, (mem_validSectors m c).mp hcm, g3.symm⟩
    · rw [e1, e2, he, hst]; rfl

/-! ### The recovered sequences (R168) -/

/-- Of the findings of a stream, the one of the highest JSN. -/
theorem foldl_newer (l : List (Option (Nat × Seq))) : ∀ start : Option (Nat × Seq),
    (start = none → (∀ x ∈ l, x = none) → l.foldl newerFinding start = none) ∧
    (∀ j q, (start = some (j, q) ∨ some (j, q) ∈ l) → ∃ j' q', l.foldl newerFinding start = some (j', q') ∧ j ≤ j') ∧
    (∀ r, l.foldl newerFinding start = some r → start = some r ∨ some r ∈ l) := by
  induction l with
  | nil =>
    intro start
    refine ⟨fun h _ => h, ?_, fun r h => .inl h⟩
    rintro j q (rfl | h)
    · exact ⟨j, q, rfl, le_refl _⟩
    · simp at h
  | cons x t ih =>
    intro start
    obtain ⟨h1, h2, h3⟩ := ih (newerFinding start x)
    rw [List.foldl_cons]
    refine ⟨?_, ?_, ?_⟩
    · rintro rfl hx
      have := hx x (List.mem_cons_self ..)
      subst this
      exact h1 rfl fun y hy => hx y (List.mem_cons_of_mem _ hy)
    · intro j q h
      have step : (start = some (j, q) ∨ x = some (j, q)) → ∃ j' q', newerFinding start x = some (j', q') ∧ j ≤ j' := by
        rintro (rfl | rfl)
        · rcases x with _ | ⟨a, b⟩
          · exact ⟨j, q, rfl, le_refl _⟩
          · simp only [newerFinding]; split
            · next hlt => exact ⟨a, b, rfl, le_of_lt hlt⟩
            · exact ⟨j, q, rfl, le_refl _⟩
        · rcases start with _ | ⟨a, b⟩
          · exact ⟨j, q, rfl, le_refl _⟩
          · simp only [newerFinding]; split
            · exact ⟨j, q, rfl, le_refl _⟩
            · next hlt => exact ⟨a, b, rfl, by simpa using hlt⟩
      have hgo : (start = some (j, q) ∨ x = some (j, q)) →
          ∃ j' q', t.foldl newerFinding (newerFinding start x) = some (j', q') ∧ j ≤ j' := by
        intro hs
        obtain ⟨a, b, hab, hle⟩ := step hs
        obtain ⟨j', q', hj, hle'⟩ := h2 a b (.inl hab)
        exact ⟨j', q', hj, hle.trans hle'⟩
      rcases h with h | h
      · exact hgo (.inl h)
      · rcases List.mem_cons.mp h with h | h
        · exact hgo (.inr h.symm)
        · exact h2 j q (.inr h)
    · intro r h
      rcases h3 r h with h | h
      · rcases start with _ | a <;> rcases x with _ | b
        · simp [newerFinding] at h
        · right; rw [← h]; exact List.mem_cons_self ..
        · left; exact h
        · simp only [newerFinding] at h
          split at h
          · right; rw [← h]; exact List.mem_cons_self ..
          · left; exact h
      · exact .inr (List.mem_cons_of_mem _ h)

/-- The findings of a stream, taken from the members alone. -/
theorem memberFindings_get (m : Mount) (st : StreamNo) :
    m.memberFindings[st] = (m.members.map fun c => c.walk.newest[st]).foldl newerFinding none := by
  have key : ∀ (l : List Candidate) (v : Vector (Option (Nat × Seq)) 16),
      (l.foldl (fun v c => newerFindings v c.walk.newest) v)[st]
        = (l.map fun c => c.walk.newest[st]).foldl newerFinding v[st] := by
    intro l
    induction l with
    | nil => intro v; rfl
    | cons x t ih =>
      intro v
      rw [List.foldl_cons, ih, List.map_cons, List.foldl_cons]
      congr 1
      exact tabulate_get _ st
  have h0 : (Vector.replicate 16 (none : Option (Nat × Seq)))[st] = none := by simp
  rw [Mount.memberFindings, key, h0]

/-- The recovered sequence of a stream. -/
theorem recovered_spec (m : Mount) (hc : Counted m) (st : StreamNo) :
    (∀ (i : SectorNo) (w : Walk) (e : WalkEnd) (p : Nat) (j : Nat) (q : Seq), i ∈ m.members.map (·.sector) →
      m.findings[i] = .valid w e p → w.newest[st] = some (j, q) →
      (∀ k ∈ m.members.map (·.sector), k ≠ i → ∀ w' e' p' j' q', m.findings[k] = .valid w' e' p' →
        w'.newest[st] = some (j', q') → j' < j) → m.recovered[st] = some (q + 1#16)) ∧
    ((∀ i ∈ m.members.map (·.sector), ∀ w e p, m.findings[i] = .valid w e p → w.newest[st] = none) →
      m.recovered[st] = none) := by
  have hval : ∀ c ∈ m.members, m.findings[c.sector] = .valid c.walk c.walkEnd c.position :=
    fun c h => (mem_validSectors m c).mp ((members_spec m hc).2.1 c h)
  have hn := foldl_newer (m.members.map fun c => c.walk.newest[st]) none
  have h1 := hn.1; have h2 := hn.2.1; have h3 := hn.2.2
  have hr : m.recovered[st] = m.memberFindings[st].map fun (x : Nat × Seq) => x.2 + 1#16 := tableMap_get _ _ _
  rw [hr, memberFindings_get]
  refine ⟨?_, ?_⟩
  · intro i w e p j q hi hf hn hmax
    have hm := (member_sector hc hf).mp hi
    obtain ⟨j', q', he, hle⟩ := h2 j q (.inr (List.mem_map.mpr ⟨_, hm, hn⟩))
    rw [he]
    rcases h3 _ he with h | h
    · cases h
    · obtain ⟨k, hk, hkn⟩ := List.mem_map.mp h
      by_cases hki : k.sector = i
      · have h4 := hval k hk
        obtain ⟨k, w', e', p'⟩ := k
        simp only at hki; subst hki
        cases hf.symm.trans h4
        cases hn.symm.trans hkn; rfl
      · have := hmax k.sector (List.mem_map.mpr ⟨k, hk, rfl⟩) hki _ _ _ _ _ (hval k hk) hkn
        omega
  · intro hno
    rw [h1 rfl]
    · rfl
    · intro x hx
      obtain ⟨k, hk, rfl⟩ := List.mem_map.mp hx
      exact hno k.sector (List.mem_map.mpr ⟨k, hk, rfl⟩) _ _ _ (hval k hk)

/-! ### The handover and the scan (R161, R162, R169) -/

/-- The highest generation. -/
theorem foldl_highest (l : List Nat) : ∀ start : Nat, start ≤ l.foldl max start ∧ (∀ x ∈ l, x ≤ l.foldl max start) ∧
    (l.foldl max start = start ∨ l.foldl max start ∈ l) := by
  induction l with
  | nil => intro start; simp
  | cons x t ih =>
    intro start
    obtain ⟨h1, h2, h3⟩ := ih (max start x)
    rw [List.foldl_cons]
    refine ⟨by omega, ?_, ?_⟩
    · intro y hy
      rcases List.mem_cons.mp hy with rfl | hy
      · omega
      · exact h2 y hy
    · rcases h3 with h3 | h3
      · rcases Nat.le_total start x with h | h
        · exact .inr (by rw [h3]; simp [h])
        · exact .inl (by omega)
      · exact .inr (List.mem_cons_of_mem _ h3)

/-- The sectors of a state, counted. -/
theorem inState_length (t : SectorTable) (st : SectorState) :
    (t.inState st).length = howMany 256 fun i : SectorNo => t.entries[i].state = st := by
  rw [howMany, List.countP_eq_length_filter, SectorTable.inState, allSectors]
  congr 1

/-- The anchor state of a build (R161). -/
theorem anchorState_spec (m : Mount) :
    (∀ x, m.snapshot = some x → m.anchorState.1 = x.sector ∧
      (∀ k, m.usedSlots[x.sector] = some k → m.anchorState.2.1 = k + 1)) ∧
    (m.snapshot = none → (m.anchorState.1, m.anchorState.2.1) =
      if m.usedSlots[0] = none then (0, 0) else if m.usedSlots[1] = none then (1, 0) else (0, 64)) ∧
    (∀ x ∈ m.generations, x ≤ m.anchorState.2.2) ∧ (∀ x, m.snapshot = some x → x.generation ≤ m.anchorState.2.2) ∧
    (m.anchorState.2.2 = 0 ∨ m.anchorState.2.2 ∈ m.generations ∨ ∃ x, m.snapshot = some x ∧ x.generation = m.anchorState.2.2) := by
  obtain ⟨h1, h2, h3⟩ := foldl_highest m.generations 0
  rcases hs : m.snapshot with _ | x
  · refine ⟨by simp, fun _ => ?_, ?_⟩
    · simp only [Mount.anchorState, hs]
      simp only [Option.isNone_iff_eq_none]
      split
      · rfl
      · split <;> rfl
    · have : m.anchorState.2.2 = m.generations.foldl max 0 := by
        simp only [Mount.anchorState, hs]; split
        · rfl
        · split <;> rfl
      rw [this]
      exact ⟨h2, by simp, h3.imp id .inl⟩
  · have : m.anchorState = (x.sector, (m.usedSlots[x.sector].map (· + 1)).getD 0, max x.generation (m.generations.foldl max 0)) := by
      simp only [Mount.anchorState, hs]
    rw [this]
    refine ⟨?_, by simp, ?_, ?_, ?_⟩
    · rintro _ ⟨⟩; exact ⟨rfl, fun k hk => by simp [hk]⟩
    · intro g hg; have := h2 g hg; simp only; omega
    · rintro _ ⟨⟩; simp only; omega
    · rcases Nat.le_total x.generation (m.generations.foldl max 0) with h | h
      · rcases h3 with h3 | h3
        · left; simp only; omega
        · right; left; simpa [h] using h3
      · right; right; exact ⟨x, rfl, by simp only; omega⟩

/-- What MOUNT_DONE counts of the members (R169). -/
theorem done_counts (m : Mount) (hc : Counted m) :
    (m.members.map fun c => c.walk.count) = (m.members.map (·.sector)).map (fun i => committedIn m.findings[i]) ∧
    (m.members.countP fun c => match c.walkEnd with | .torn _ => true | _ => false)
      = (m.members.map (·.sector)).countP fun i => torn m.findings[i] := by
  have hval : ∀ c ∈ m.members, m.findings[c.sector] = .valid c.walk c.walkEnd c.position :=
    fun c h => (mem_validSectors m c).mp ((members_spec m hc).2.1 c h)
  refine ⟨?_, ?_⟩
  · rw [List.map_map]
    refine List.map_congr_left fun c h => ?_
    simp only [Function.comp, committedIn]; rw [hval c h]
  · rw [List.countP_map]
    refine List.countP_congr fun c h => ?_
    simp only [Function.comp, torn]; rw [hval c h]
    cases c.walkEnd <;> simp

/-- The handover, block by block. -/
theorem handOver_eq (s : State) (hd : s.host.device = .mounting) :
    handOver s = { s with
      table := s.mount.builtTable s.table
      writer := { s.writer with nextJsn := some s.mount.nextJsn, nextEpoch := some s.mount.nextEpoch }
      holds := { s.holds with entries := s.mount.restoredHolds }
      anchor := { s.anchor with
        active := s.mount.anchorState.1, nextSlot := s.mount.anchorState.2.1, generation := s.mount.anchorState.2.2
        retired := s.mount.retired }
      assembly := { s.assembly with
        streams := tabulate 16 fun i => { s.assembly.streams[i] with recovered := s.mount.recovered[i] }
        drainMark := if s.host.enable then false else s.assembly.drainMark }
      mount := { s.mount with
        mounted := true, phase := .idle, position := .none, findings := s.mount.builtFindings
        streamFindings := s.mount.memberFindings }
      host := { noticed (s.mount.doneNotice (s.mount.builtTable s.table)) s.host with
        device := if s.host.enable then .online else .stopped
        reason := .noReason, badIndex := 0, statusMark := true, stateSince := true }
      reclaim := if s.host.enable then signalled s.reclaim else s.reclaim } := by
  have hp : ∀ (n : Notice) (u : State), u.host.device = .mounting → postNotice n u = { u with host := noticed n u.host } := by
    intro n u hu; rw [postNotice_posted (by rw [hu]; decide) (by rw [hu]; decide)]; rfl
  simp only [handOver]
  rw [hp _ _ (by exact hd)]
  rcases he : s.host.enable with _ | _
  · simp only [State.onMount, State.onTable, State.onWriter, State.onHolds, State.onAnchor, State.onAssembly, noticed, he,
      enterStopped, State.onHost, HostUnit.changeState]; rfl
  · simp only [State.onMount, State.onTable, State.onWriter, State.onHolds, State.onAnchor, State.onAssembly, noticed, he,
      enterOnline, State.onHost, HostUnit.changeState, signalReclaim, if_true, signalled]
    by_cases hr : s.reclaim.state = .idle
    · rw [if_pos hr, if_pos hr] <;> rfl
    · rw [if_neg hr, if_neg hr]

/-- What the handover does. -/
theorem handOver_handed (s : State) (hd : s.host.device = .mounting) (hc : Counted s.mount) : HandedOver s (handOver s) := by
  rw [handOver_eq s hd]
  obtain ⟨a1, a2, a3⟩ := anchorState_spec s.mount
  obtain ⟨d1, d2⟩ := done_counts s.mount hc
  refine ⟨⟨_, _, rfl, nextJsn_highest _, nextEpoch_highest _, built_entries _ hc _⟩, built_members _ hc, rfl, ⟨rfl, ?_⟩, ⟨?_, a1, a2, a3⟩, ?_, ?_, rfl, ⟨rfl, rfl⟩, rfl⟩
  · intro id
    show s.mount.restoredHolds[id] = _
    rcases hs : s.mount.snapshot with _ | x
    · have : s.mount.restoredHolds = Vector.replicate 16 none := by simp only [Mount.restoredHolds, hs]
      rw [this]; simp
    · have : s.mount.restoredHolds = tableMap (fun (l : Option HoldLine) => l.map fun x => ⟨.fixed, x.first, x.last, x.owner, none, none⟩) x.holds := by
        simp only [Mount.restoredHolds, hs]
      rw [this]; exact tableMap_get _ _ id
  · have : s.mount.retired = match s.mount.snapshot with | some x => x.retired | none => 0#256 := by
      cases h : s.mount.snapshot <;> simp [Mount.retired, h]
    exact congrArg (fun r => ({ s.anchor with
      active := s.mount.anchorState.1, nextSlot := s.mount.anchorState.2.1, generation := s.mount.anchorState.2.2
      retired := r } : Anchor)) this
  · intro st
    have hg : (tabulate 16 fun i => ({ s.assembly.streams[i] with recovered := s.mount.recovered[i] } : Stream))[st]
        = { s.assembly.streams[st] with recovered := s.mount.recovered[st] } := tabulate_get _ st
    rw [hg]
    obtain ⟨r1, r2⟩ := recovered_spec s.mount hc st
    exact ⟨rfl, r1, r2⟩
  · have hn : s.mount.doneNotice (s.mount.builtTable s.table) = .mountDone
        (((s.mount.builtTable s.table).journal.map fun i => committedIn s.mount.findings[i]).sum)
        ((s.mount.builtTable s.table).journal.countP fun i => torn s.mount.findings[i]) (s.mount.builtTable s.table).journal.length
        (howMany 256 fun i : SectorNo => (s.mount.builtTable s.table).entries[i].state = .free)
        (howMany 256 fun i : SectorNo => (s.mount.builtTable s.table).entries[i].state = .dirty)
        (howMany 256 fun i : SectorNo => (s.mount.builtTable s.table).entries[i].state = .retired) := by
      simp only [Mount.doneNotice, inState_length]
      rw [d1]
      show Notice.mountDone _ _ _ _ _ _ = Notice.mountDone _ (((s.mount.members.map (·.sector)).countP fun i => torn s.mount.findings[i])) (s.mount.members.map (·.sector)).length _ _ _
      rw [← d2, List.length_map]; rfl
    rw [hn]

/-- The findings with sectors found RETIRED. -/
def passed (l : List SectorNo) (v : Vector Finding 256) : Vector Finding 256 :=
  l.foldl (fun v k => v.set k.val .retired k.isLt) v

/-- The scan passes over the sectors of the retired set. -/
theorem scanSectors_passes (n : Nat) (u : State) (hd : u.host.device = .mounting) :
    ScanPasses n u (.next (scanSectors (allSectors.drop n) u)) := by
  have hret : ∀ (m : Mount) (j : SectorNo), m.retired.getLsbD j.val = true ↔ retiredBy m j := by
    intro m j
    simp only [Mount.retired, retiredBy]
    rcases m.snapshot with _ | x <;> simp
  have hrun : ∀ (l : List SectorNo) (pre : List SectorNo) (u : State), (∀ k ∈ pre, retiredBy u.mount k) →
      (∀ j t, scanSectors (pre ++ j :: t) u = scanSectors (j :: t)
        (u.onMount fun m => { m with findings := passed pre m.findings })) ∧
      scanSectors pre u = handOver (u.onMount fun m => { m with findings := passed pre m.findings, phase := .build }) := by
    intro _ pre
    induction pre with
    | nil => intro u _; exact ⟨fun j t => rfl, rfl⟩
    | cons k t ih =>
      intro u h
      have hk := (hret u.mount k).mpr (h k (List.mem_cons_self ..))
      obtain ⟨i1, i2⟩ := ih (setFinding k .retired u) fun x hx => h x (List.mem_cons_of_mem _ hx)
      refine ⟨fun j r => ?_, ?_⟩
      · rw [List.cons_append, scanSectors, if_pos hk, i1]; rfl
      · rw [scanSectors, if_pos hk, i2]; rfl
  have hfold : ∀ (pre : List SectorNo) (v : Vector Finding 256) (j : SectorNo),
      (passed pre v)[j] = if j ∈ pre then .retired else v[j] := by
    intro pre
    induction pre with
    | nil => intro v j; simp [passed]
    | cons k t ih =>
      intro v j
      show (passed t (v.set k.val .retired k.isLt))[j] = _
      rw [ih]
      have := tableSet_get v k j (.retired : Finding)
      by_cases h1 : j ∈ t
      · simp [h1]
      · by_cases h2 : j = k
        · subst h2; simp [h1]
        · simp only [List.mem_cons, h1, h2, or_self, if_false]
          rw [this]; simp [h2]
  have hmem : ∀ (m : Nat) (k : SectorNo), k ∈ ((List.finRange 256).take m).drop n ↔ n ≤ k.val ∧ k.val < m := by
    intro m k
    rw [List.mem_iff_getElem]
    constructor
    · rintro ⟨x, hx, rfl⟩
      simp only [List.length_drop, List.length_take, List.length_finRange] at hx
      simp; omega
    · rintro ⟨h1, h2⟩
      refine ⟨k.val - n, by simp; omega, ?_⟩
      simp only [List.getElem_drop, List.getElem_take, List.getElem_finRange]
      exact Fin.ext (by simp; omega)
  refine ⟨?_, ?_⟩
  · intro j hj hnr hall
    have hsplit : allSectors.drop n = ((List.finRange 256).take j.val).drop n ++ j :: (List.finRange 256).drop (j.val + 1) := by
      have h1 : allSectors = (List.finRange 256).take j.val ++ (List.finRange 256).drop j.val := (List.take_append_drop ..).symm
      have hlen : j.val < (List.finRange 256).length := by simp
      rw [h1, List.drop_append_of_le_length (by simp; omega), List.drop_eq_getElem_cons hlen]
      congr 2
      simp
    have hpre : ∀ k ∈ ((List.finRange 256).take j.val).drop n, retiredBy u.mount k :=
      fun k hk => hall k ((hmem _ k).mp hk).1 ((hmem _ k).mp hk).2
    refine ⟨passed (((List.finRange 256).take j.val).drop n) u.mount.findings, fun k => ?_, ?_⟩
    rotate_left
    · rw [hsplit, (hrun [] _ u hpre).1 j, scanSectors, if_neg (by rw [hret]; exact hnr)]
      rfl
    · rw [hfold]; simp only [hmem]
  · intro hall hc
    have hsplit : allSectors.drop n = ((List.finRange 256).take 256).drop n := by
      rw [List.take_of_length_le (by simp)]; rfl
    have hpre : ∀ k ∈ ((List.finRange 256).take 256).drop n, retiredBy u.mount k :=
      fun k hk => hall k ((hmem _ k).mp hk).1
    refine ⟨passed (((List.finRange 256).take 256).drop n) u.mount.findings, _, fun k => ?_, rfl, ?_⟩
    rotate_left
    · rw [hsplit, (hrun [] _ u hpre).2]
      have h := handOver_handed (u.onMount fun m => { m with findings := passed (((List.finRange 256).take 256).drop n) m.findings, phase := .build }) hd (by
          intro i w e p hf
          have hf' : (passed (((List.finRange 256).take 256).drop n) u.mount.findings)[i] = .valid w e p := hf
          rw [hfold] at hf'
          split at hf'
          · cases hf'
          · exact hc i w e p hf')
      exact ⟨h.next, h.members, h.queue, h.holds, h.anchor, h.streams, h.host, h.mount, h.online, h.frame⟩
    · rw [hfold]; simp only [hmem]

/-- What a slot of the anchor scan adds to the findings (R160), field by field. -/
theorem withSlot_eq (m : Mount) (a : Fin 2) (k : Nat) (o : LineOutcome) (l : List LineOutcome) (h : readsErased o = false) :
    m.withSlot a k (o :: l) = { m with
      usedSlots := m.usedSlots.set a (some k)
      generations := match slotGeneration o with
        | some g => if g ∈ m.generations then m.generations else m.generations ++ [g]
        | none => m.generations
      snapshot := match validSnapshot (o :: l) with
        | none => m.snapshot
        | some (g, holds, retired) =>
          if (match m.snapshot with | none => true | some f => decide (f.generation ≤ g)) then
            some ⟨a, k, g, holds, retired⟩ else m.snapshot } := by
  simp only [Mount.withSlot, List.headD_cons, h]
  rcases slotGeneration o with _ | g <;> rcases validSnapshot (o :: l) with _ | ⟨g', hd', r'⟩ <;> simp only
  · rfl
  · rcases m.snapshot with _ | f
    · rfl
    · by_cases hg : f.generation ≤ g' <;> simp [hg]
  · by_cases hg : g ∈ m.generations <;> simp [hg]
  · rcases hs : m.snapshot with _ | f <;> by_cases hg : g ∈ m.generations
    · simp [hg, hs]
    · simp [hg, hs]
    · simp [hg, hs]; split <;> simp_all
    · simp [hg, hs]; split <;> simp_all

end Sys2Proof.Laws
end

