-- ==== Sys2Proof/Laws/Staging.lean ====
section
/-! SUPPORT. Staging memory by record bytes (R62, R68). -/

namespace Sys2Proof.Laws

open Sys2Proof.Machine Sys2Proof.Safety

/-- A write leaves every byte it does not reach. -/
theorem write_far (map) (data : List Byte) : ∀ (m : List Host.Cell) i a, stagingWf m = true →
   (∀ k, k < data.length → stagingAddress map (i + k) ≠ some a) → stagingByte (stagingWrite map m i data) a = stagingByte m a := by
  induction data with
  | nil => intros; rfl
  | cons b t ih =>
    intro m i a hm h
    have h0 := h 0 (by simp)
    simp only [Nat.add_zero] at h0
    simp only [stagingWrite]
    split
    · next x hx =>
      rw [ih _ _ _ (stagingWf_put x b hm) (fun k hk => by have := h (k+1) (by simpa using hk); rwa [Nat.add_assoc, Nat.add_comm 1])]
      rw [stagingByte_put _ _ _ _ hm]
      rw [if_neg (by rintro rfl; exact h0 hx)]
    · exact ih _ _ _ hm (fun k hk => by have := h (k+1) (by simpa using hk); rwa [Nat.add_assoc, Nat.add_comm 1])

/-- A write is read back, byte by byte. -/
theorem write_at (map) (inj : ∀ i j a, stagingAddress map i = some a → stagingAddress map j = some a → i = j) (data : List Byte) : ∀ (m : List Host.Cell) i k a, stagingWf m = true →
   (hk : k < data.length) → stagingAddress map (i + k) = some a → stagingByte (stagingWrite map m i data) a = data[k] := by
  induction data with
  | nil => intro _ _ _ _ _ hk; simp at hk
  | cons b t ih =>
    intro m i k a hm hk ha
    simp only [stagingWrite]
    rcases k with _ | k
    · simp only [Nat.add_zero] at ha
      rw [ha]
      simp only
      rw [write_far _ _ _ _ _ (stagingWf_put a b hm), stagingByte_put _ _ _ _ hm]
      · simp
      · intro q _ hq
        have := inj _ _ _ ha hq
        omega
    · have ha' : stagingAddress map (i + 1 + k) = some a := by rw [Nat.add_assoc, Nat.add_comm 1]; exact ha
      split
      · next x hx => exact ih _ _ k a (stagingWf_put x b hm) (by simpa using hk) ha'
      · exact ih _ _ k a hm (by simpa using hk) ha'

/-- Where a record byte lies. -/
theorem addr_some {map : Vector (Option BlockNo) 16} {i a} (h : stagingAddress map i = some a) : ∃ (k : Fin 16) (b : BlockNo), k.val = i / 512 ∧ map[k] = some b ∧ a = 512 * b.val + i % 512 := by
  unfold stagingAddress at h
  by_cases hlt : i / Config.blockBytes < 16
  · rw [dif_pos hlt] at h
    obtain ⟨b, hb, he⟩ := Option.map_eq_some_iff.mp h
    exact ⟨⟨_, hlt⟩, b, rfl, hb, he.symm⟩
  · rw [dif_neg hlt] at h; cases h

/-- The blocks a map names. -/
theorem mem_mapped {map : Vector (Option BlockNo) 16} {b} : b ∈ mappedBlocks map ↔ ∃ k : Fin 16, map[k] = some b := by
  simp only [mappedBlocks, List.mem_filterMap, id]
  constructor
  · rintro ⟨x, hx, rfl⟩
    obtain ⟨k, hk, h⟩ := List.mem_iff_getElem.mp hx
    exact ⟨⟨k, by simpa using hk⟩, by simpa using h⟩
  · rintro ⟨k, hk⟩
    exact ⟨some b, by rw [← hk]; simp, rfl⟩

/-- A block stands in one entry. -/
theorem mapped_inj {map : Vector (Option BlockNo) 16} (hn : (mappedBlocks map).Nodup) {k l : Fin 16} {b} (h1 : map[k] = some b) (h2 : map[l] = some b) : k = l := by
  by_contra hne
  have hp := List.pairwise_filterMap.mp (show (mappedBlocks map).Pairwise (· ≠ ·) from hn)
  rcases lt_or_gt_of_ne hne with hlt | hlt
  · have := List.pairwise_iff_getElem.mp hp k.val l.val (by simp) (by simp) hlt
    simp only [Vector.getElem_toList] at this
    exact this b h1 b h2 rfl
  · have := List.pairwise_iff_getElem.mp hp l.val k.val (by simp) (by simp) hlt
    simp only [Vector.getElem_toList] at this
    exact this b h2 b h1 rfl

end Sys2Proof.Laws
end

