-- ==== Sys2Proof/Laws/Writer.lean ====
section
/-! SUPPORT. The Journal Writer: placing, failing, asking for a sector, taking one in hand (R86 to R97). -/

namespace Sys2Proof.Laws

open Sys2Proof.Machine Sys2Proof.Safety

/-- The writer after a failure: IDLE, and the failure counted. -/
def failedWriter (w : Writer) : Writer := { w.toIdle with recordsFailed := saturate (w.recordsFailed + 1) }

/-- A record fails (R97). -/
theorem failRecord_failed {s : State} {i c status} (hr : s.writer.record = some i)
    (hc : s.assembly.contexts[i] = some c) (hs : status ≠ .journalFull) : Failed i c status s (failRecord status s) := by
  have h : failRecord status s = closeIfDone c.stream ((releaseContext i c (modStream c.stream
      (fun e => { e with gapPending := true }) (match c.deferred with
        | some slot => complete slot status s
        | none => s))).onWriter failedWriter) := by
    rw [closeIfDone_writer]
    simp only [failRecord, hr, recordFailed, hc, hs, if_false]
    rfl
  rw [h]
  have := closeIfDone_closes c.stream ((releaseContext i c (modStream c.stream
      (fun e => { e with gapPending := true }) (match c.deferred with
        | some slot => complete slot status s
        | none => s))).onWriter failedWriter)
  unfold Failed
  convert this using 1
  rcases hd : c.deferred with _ | d <;> rfl

/-- A record fails JOURNAL_FULL, with the notice the first time (R89). -/
theorem failRecord_full {s : State} {i c} (hr : s.writer.record = some i) (hc : s.assembly.contexts[i] = some c)
    (hn : Notices s) : ∃ f, Failed i c .journalFull s f ∧ failRecord .journalFull s = { f with
      host := if s.writer.full then f.host else noticed .journalFull f.host
      writer := { f.writer with full := true } } := by
  have hf : Failed i c .journalFull s (closeIfDone c.stream ((releaseContext i c (modStream c.stream
      (fun e => { e with gapPending := true }) (match c.deferred with
        | some slot => complete slot .journalFull s
        | none => s))).onWriter failedWriter)) := by
    have := closeIfDone_closes c.stream ((releaseContext i c (modStream c.stream
      (fun e => { e with gapPending := true }) (match c.deferred with
        | some slot => complete slot .journalFull s
        | none => s))).onWriter failedWriter)
    unfold Failed
    convert this using 1
    rcases hd : c.deferred with _ | d <;> rfl
  refine ⟨_, hf, ?_⟩
  rw [closeIfDone_writer]
  simp only [failRecord, hr, recordFailed, hc, if_true]
  generalize hm : closeIfDone c.stream (releaseContext i c (modStream c.stream
      (fun e => { e with gapPending := true }) (match c.deferred with
        | some slot => complete slot .journalFull s
        | none => s))) = m
  have hd : m.host.device = s.host.device := by
    rw [← hm, closeIfDone_device]; rcases c.deferred with _ | d <;> rfl
  have hw : m.writer = s.writer := by
    rw [← hm, closeIfDone_same]; rcases c.deferred with _ | d <;> rfl
  have hn1 : m.host.device ≠ .offline := by rw [hd]; exact hn.1
  have hn2 : m.host.device ≠ .setup := by rw [hd]; exact hn.2
  rcases hfu : s.writer.full <;>
  simp [markFull, postNotice, hw, hfu, hn1, hn2, State.onWriter, State.onHost, noticed, failedWriter, Writer.toIdle]

/-- A record without room asks for a sector (R86 to R90). -/
theorem askSector_asked {s : State} {i c n epoch} (h : InHand s i c n epoch) : SectorAsked i c n epoch s (askSector s) := by
  have he : s.writer.epoch = epoch := by simp [Writer.epoch, h.epoch]
  have hj : s.writer.jsn = n := by simp [Writer.jsn, h.jsn]
  refine ⟨?_, ?_⟩
  · intro hx; subst hx
    simp only [askSector, he, Config.exhausted, if_true]
    exact failRecord_failed h.record h.context (by simp)
  · intro hx
    refine ⟨?_, ?_⟩
    · intro k hk
      simp [askSector, he, hx, Config.exhausted, chooseFree_lowest hk, placeRequest, takeInHand, modEntry, tableMod, State.onWriter, State.onTable, State.onCtrl, asked, hj]
    · intro hf
      have hw : (spaceComing s.table s.holds && (s.host.device != .draining || s.someErasing)) = true ↔
         (SpaceComes s ∧ (s.host.device = .draining → ∃ k : SectorNo, s.table.entries[k].state = .erasing)) := by
        rw [Bool.and_eq_true, spaceComing_iff hf, ← someErasing_iff]
        simp; tauto
      refine ⟨?_, ?_⟩
      · intro w
        rw [← hw] at w
        simp only [askSector, he, hx, Config.exhausted, chooseFree_none hf, w, if_true, if_false, waitForSpace]
        rfl
      · intro w hn
        rw [← hw] at w
        simp only [askSector, he, hx, Config.exhausted, chooseFree_none hf, w, if_false]
        exact failRecord_full h.record h.context hn

/-- A record is placed (R93). -/
theorem placeRecord_eq {s : State} {i c sector p n} (hc : s.assembly.contexts[i] = some c) (hj : s.writer.nextJsn = some n) :
    placeRecord i c sector p s = placedRecord i c n sector p s := by
  have hj : s.writer.jsn = n := by simp [Writer.jsn, hj]
  by_cases ha : c.attempts = 0 <;>
  simp [placeRecord, placedRecord, ha, hj, gapFor, modStream, tableMod, setContext, State.onAssembly, State.onWriter, placeRequest, State.onCtrl, asked, burstCount, footprint, payloadLines, Context.payloadLength, State.payloadOf, State.headerFor, payloadRun]
  exact (Vector.set_getElem_self _).symm

/-- The record in hand. -/
theorem rc_of {s : State} {i c n e} (ih : InHand s i c n e) : s.recordContext = some (i, c) := by
  simp [State.recordContext, ih.record, ih.context]

/-- A program that went well. -/
theorem result_ok {s : State} {who} (h : Answers s who .programmed) : s.programResult who = some true := by
  have hlive : s.live = true := by simpa [State.live] using h.1
  simp [State.programResult, State.outcomeFor, hlive, h.2]

/-- A program that failed. -/
theorem result_bad {s : State} {who l b} (h : Answers s who (.programFailed l b)) : s.programResult who = some false := by
  have hlive : s.live = true := by simpa [State.live] using h.1
  simp [State.programResult, State.outcomeFor, hlive, h.2]

/-- An outcome is taken. -/
theorem takeOutcome_taken (who) (s : State) : takeOutcome who s = { s with ctrl := taken who s.ctrl } := rfl

/-- The sector in hand becomes OPEN and the record is placed at line 1 (R91). -/
theorem openInHand_eq {s : State} {k i c n ep ep' } (hs : s.writer.sectorInHand = some k) (h : NoneOpen s.table) (ih : InHand s i c n ep') 
   (ht : c.total.getD 0 ≤ 8192) :
   openInHand ep s = placedRecord i c n k 1 (openedSector k ep n s) := by
  have hj : s.writer.jsn = n := by simp [Writer.jsn, ih.jsn]
  simp only [openInHand, hs, hj, openClaim_eq h]
  have hrc : (openedSector k ep n s).recordContext = some (i, c) := by
    simp [State.recordContext, openedSector, ih.record, ih.context]
  simp only [roomCheck, hrc, openSector_isOpen (opened_isOpen h)]
  have : (openedSector k ep n s).table.entries[k].nextFree = some 1 := by simp [openedSector]
  rw [this]
  have : 1 + footprint c.payloadLength ≤ 2048 := by simp [footprint, payloadLines, Context.payloadLength]; omega
  simp only [this, if_true]
  exact placeRecord_eq (by simpa [openedSector] using ih.context) (by simpa [openedSector] using ih.jsn)

/-- A line fails to program (R96). -/
theorem relocate_eq {s : State} {i c n epoch pl} (ih : InHand s i c n epoch) (ho : IsOpen s.table pl.sector) :
   Relocated i c n epoch pl s (relocate c pl s) := by
  have h0 : (closeClaim pl.sector .recordFailed s).onWriter (fun w => { w with placement := none }) =
    { closedSector pl.sector true s with writer := { s.writer with placement := none } } := by
    rw [closeClaim_eq]; rfl
  have ih2 : InHand { closedSector pl.sector true s with writer := { s.writer with placement := none } } i c n epoch :=
    ⟨ih.record, ih.context, ih.jsn, ih.epoch⟩
  refine ⟨?_, ?_⟩
  · intro ha
    simp only [relocate, h0, Config.maxPlacements, ha, if_true]
    have hrc := rc_of ih2
    have : roomCheck { closedSector pl.sector true s with writer := { s.writer with placement := none } } = askSector { closedSector pl.sector true s with writer := { s.writer with placement := none } } := by
      simp only [roomCheck, hrc]
      rw [openSector_none (t := (closedSector pl.sector true s).table) (closed_none ho)]
    rw [this]
    exact askSector_asked ih2
  · intro ha
    have : ¬ c.attempts < 3 := by omega
    simp only [relocate, h0, Config.maxPlacements, this, if_false]
    exact failRecord_failed ih2.record ih2.context (by simp)

end Sys2Proof.Laws
end

