-- ==== Sys2Proof/Tests/Slice0.lean ====
section
/-! SUPPORT. Tests of the model on small states, and for every statement with hypotheses a state that meets them.
Expected values come from the manual (the rule is named) or are computed by hand from it. -/

namespace Sys2Proof.Tests

open Sys2Proof Sys2Proof.Machine Sys2Proof.Safety

-- One test after the other: the kernel takes them one at a time in any case, and each one that
-- waits for it would hold a thread of its own.
set_option Elab.async false

/-! ### Small states -/

/-- A valid setup: rings 0, 1 and 3 in use, ring 1 as large as a ring can be, the other sizes the least. -/
def setup : Setup where
  rings := #v[⟨0x10000#64, 8, 2⟩, ⟨0x20000#64, 4096, 8⟩, ⟨0#64, 0, 0⟩, ⟨0x80000#64, 16, 1⟩]
  completionBase := 0xA0000#64
  completionSize := 16
  noticeBase := 0xB0000#64
  noticeSize := 16
  statusAddress := 0xC0000#64
  tickPeriod := 1000
  reserve := 2

/-- The part in a device state, with the setup in force, the next JSN 10 and the next epoch 4. -/
def at_ (d : DeviceState) : State :=
  (State.reset.onHost fun h => { h with device := d, setup := some setup }).onWriter fun w =>
    { w with nextJsn := some 10, nextEpoch := some 4 }

def on : State := at_ .online

/-- A GATHERING context with nothing received. -/
def ctx (st : StreamNo) (seq : Seq) : Context :=
  ⟨.gathering, st, seq, none, none, [], [], Vector.replicate 16 none, 0, none, 0⟩

/-- Context 0 holds this record, and every other context is FREE. -/
def withCtx (c : Context) (s : State) : State :=
  s.onAssembly fun a => { a with contexts := (Vector.replicate 32 none).set 0 (some c) }

/-- Stream 0 is OPEN, with an assembly limit. -/
def openStream (limit ageLimit : Nat) (s : State) : State :=
  modStream 0 (fun e => { e with state := .opened, limit := limit, ageLimit := ageLimit }) s

def withAssembly (c : Cmd) (s : State) : State := s.onAssembly fun a => { a with queue := [⟨0, c⟩] }
def withHolds (c : Cmd) (s : State) : State := s.onHolds fun t => { t with queue := [⟨0, c⟩] }

/-- A sector entry is replaced. -/
def withSector (i : SectorNo) (e : SectorEntry) (s : State) : State := modEntry i (fun _ => e) s

/-- Sector 2 is CLOSED with JSNs 1 to 9, and the only member of the journal list. -/
def journalTwo (s : State) : State :=
  (withSector 2 { SectorEntry.reset with
    state := .closed, epoch := some 1, baseJsn := some 1, range := some (1, 9) } s).onTable
    fun t => { t with journal := [2] }

/-- An outcome of the array waits for a requester. -/
def withOutcome (who : Requester) (o : ArrayOutcome) (s : State) : State :=
  s.onCtrl fun c => { c with outcomes := c.outcomes.set who (some o) }

/-- The state after a command. -/
def after (c : Instr) (s : State) : State :=
  match exec c s with
  | .next t => t
  | .fault _ => s
  | .refused _ => s

theorem ctx_only (c : Context) (s : State) (j : CtxNo) (x : Context)
    (h : (withCtx c s).assembly.contexts[j] = some x) : j = 0 ∧ x = c := by
  simp only [withCtx, State.onAssembly, Fin.getElem_fin, Vector.getElem_set] at h
  split at h
  · next h0 => exact ⟨(Fin.ext h0.symm), (Option.some.inj h).symm⟩
  · simp at h

theorem no_ctx (s : State) (h : s.assembly.contexts = Vector.replicate 32 none) (j : CtxNo) :
    s.assembly.contexts[j] = none := by rw [h]; simp

theorem sole_ctx (c : Context) (s : State) : Sole (withCtx c s).assembly c.stream c.seq 0 c :=
  ⟨by simp [withCtx, State.onAssembly], rfl, rfl, fun j x h _ _ => (ctx_only c s j x h).1⟩

theorem sole_at (a : Assembly) (c : Context) (st : StreamNo) (seq : Seq)
    (h : a.contexts = (Vector.replicate 32 none).set 0 (some c)) (hs : c.stream = st) (hq : c.seq = seq) :
    Sole a st seq 0 c := by
  refine ⟨by rw [h]; simp, hs, hq, fun j x hx _ _ => ?_⟩
  rw [h] at hx
  simp only [Fin.getElem_fin, Vector.getElem_set] at hx
  split at hx
  · next h0 => exact Fin.ext h0.symm
  · simp at hx

theorem notComplete_at (a : Assembly) (c : Context) (st : StreamNo) (seq : Seq)
    (h : a.contexts = (Vector.replicate 32 none).set 0 (some c)) (hc : c.state ≠ .complete) : NotComplete a st seq := by
  intro j x hx _ _
  rw [h] at hx
  simp only [Fin.getElem_fin, Vector.getElem_set] at hx
  split at hx
  · cases hx; exact hc
  · simp at hx

theorem notComplete_ctx (c : Context) (s : State) (st : StreamNo) (seq : Seq) (h : c.state ≠ .complete) :
    NotComplete (withCtx c s).assembly st seq := by
  intro j x hx _ _
  rw [(ctx_only c s j x hx).2]; exact h

/-- A property of every element of a vector, by one walk over it. -/
theorem all_of {α : Type} {n : Nat} (v : Vector α n) (p : α → Bool) (h : v.toList.all p = true) (i : Fin n) :
    p v[i] = true :=
  List.all_eq_true.1 h _ (by simp)

/-! ### Formats, the CRC and the register window -/

/-- R2 fixes the CRC of the nine bytes "123456789". -/
theorem test_crc_of_123456789 :
    crc32 [0x31#8, 0x32#8, 0x33#8, 0x34#8, 0x35#8, 0x36#8, 0x37#8, 0x38#8, 0x39#8] = 0xE3069283#32 := by
  decide +kernel

theorem test_wf_setup_block : Instr.wf (.setupReadEnd (some (zeros 127))) = false := by decide +kernel
theorem test_wf_entry : Instr.wf (.submissionFetchEnd (some (zeros 65))) = false := by decide +kernel
theorem test_wf_fragment_empty : Instr.wf (.transferEnd 0 []) = false := by decide
theorem test_wf_fragment_long : Instr.wf (.transferEnd 0 (zeros 4097)) = false := by decide +kernel
theorem test_wf_residue_line : Instr.wf (.coldReset [(524288, none)]) = false := by decide
theorem test_wf_residue_cell : Instr.wf (.softReset [(0, some (.clean []))]) = false := by decide
theorem test_wf_disturbed_line : Instr.wf (.arrayOperationEnd 0 (.done [(524288, .uncorrectable)])) = false := by decide
theorem test_wf_disturbed_outcome : Instr.wf (.arrayOperationEnd 0 (.done [(0, .corrected [])])) = false := by decide
theorem test_wf_failed_line : Instr.wf (.arrayOperationEnd 0 (.programFails 524288 none)) = false := by decide
theorem test_wf_failed_cell : Instr.wf (.arrayOperationEnd 0 (.programFails 0 (some (.repaired [])))) = false := by
  decide
theorem test_wf_failed_erase : Instr.wf (.arrayOperationEnd 0 (.eraseFails [(524288, none)])) = false := by decide
theorem test_wf_timeout : Instr.wf (.arrayTimeout 0 [(0, some (.clean []))]) = false := by decide

/-- R185: CTRL at 04H, ENABLE bit 0, SOFT_RESET bit 1. -/
theorem test_ctrl_writes :
    registerWriteCommand 0x04 0xF#4 1#32 [] = some .ctrlEnableSet ∧
    registerWriteCommand 0x04 0xF#4 0#32 [] = some .ctrlEnableClear ∧
    registerWriteCommand 0x04 0xF#4 3#32 [] = some (.softReset []) ∧
    registerWriteCommand 0x04 0xE#4 1#32 [] = some .ctrlEnableClear := by decide

/-- R185, R188: RING_INDEX at 14H, selector bits 2 to 0, position bits 27 to 16. -/
theorem test_ring_index_writes :
    registerWriteCommand 0x14 0xF#4 0x0FFF0003#32 [] = some (.ringIndexSubmission 3 0xFFF#12) ∧
    registerWriteCommand 0x14 0xF#4 0x00050004#32 [] = some (.ringIndexCompletion 5#12) ∧
    registerWriteCommand 0x14 0xF#4 0x00010005#32 [] = some (.ringIndexNotice 1#12) ∧
    registerWriteCommand 0x14 0xF#4 0x00010007#32 [] = some (.ringIndexBadSelector true 1#12) ∧
    registerWriteCommand 0x20 0xF#4 0#32 [] = none := by decide

/-- No row of the table has bits. -/
theorem test_no_word : decodeTableWord 32 1 = none := rfl

/-! ### The machine as a whole -/

theorem witness_StepRunsFrontCommand :
    ({ on with pending := [.tick, .drainEnd] } : State).pending = .tick :: [.drainEnd] ∧ on.pending = [] := ⟨rfl, rfl⟩

theorem witness_ResetRegisters : Instr.coldReset [] = .coldReset [] ∨ Instr.coldReset [] = .softReset [] := .inl rfl

theorem witness_ResetSectorTable : Instr.softReset [] = .coldReset [] ∨ Instr.softReset [] = .softReset [] := .inr rfl

/-- Sector 5 is being erased, lines 3 and 4 of sector 2 are being programmed, and line 0 of sector 7 stands apart. -/
def busyArray : State :=
  { on with
    array := [(7 * 2048, .clean (zeros 32))]
    ctrl := { on.ctrl with
      erase := some ⟨.reclaim, 5, 0, 0⟩, operation := some (.writer, .programLines 2 3 [zeros 32, zeros 32]) } }

/-- The Reclaim Unit waits for the erase of sector 9, whose line 0 is a valid header; the array has not begun it. -/
def victimWaits : State :=
  { on with
    array := [(9 * 2048, .clean (sectorHeaderLine ⟨1, 1, 0, false⟩))]
    ctrl := { on.ctrl with requests := { on.ctrl.requests with reclaim := some (.eraseSector 9) } } }

/-- An erase in the array, an erase requested and not begun, and the Anchor Unit's erase of an anchor sector. -/
theorem witness_ResetKeepsArray :
    (Canonical busyArray ∧ CutByReset busyArray.ctrl 5 ∧ IsJournal 5 ∧
      inSector 5 (7 * 2048) = false ∧ lineNo 2 3 + 2 ≤ 7 * 2048) ∧
    (Canonical victimWaits ∧ CutByReset victimWaits.ctrl 9 ∧
      ∃ y, memGet victimWaits.array (9 * 2048) = some y ∧ validSectorHeader (cellOutcome (some y)) ≠ none) ∧
    CutByReset { on.ctrl with erase := some ⟨.anchor, 1, 0, 0⟩ } 1 := by
  refine ⟨⟨⟨by decide, by decide⟩, .inl ⟨_, rfl, rfl⟩, by unfold IsJournal; decide, by decide, by decide⟩,
    ⟨⟨by decide +kernel, by decide⟩, .inr (.inl rfl), _, rfl, by decide +kernel⟩, .inl ⟨_, rfl, rfl⟩⟩

/-- R32, R105: after a reset the waiting victim holds no line with its header, though the reset's operand leaves it. -/
theorem test_reset_victim :
    (coldReset [(9 * 2048, some (.clean (sectorHeaderLine ⟨1, 1, 0, false⟩)))] victimWaits).array = [(9 * 2048, .broken)] ∧
    (coldReset [] victimWaits).array = [] := by decide +kernel

/-- A command with no occasion, and one whose occasion is there; HALTED with a tick, and with the end of an operation of
the array. -/
theorem witness_EveryCommandCompletes :
    ¬Occasion .tick (at_ .setup) ∧ Occasion .tick on ∧ ¬Occasion .wipe on ∧
    ((at_ .halted).host.device = .halted ∧ isReset .tick = false ∧
      ¬((∃ e r, Instr.tick = .arrayOperationEnd e r) ∨ (∃ e, Instr.tick = .eraseStopped e) ∨
        (∃ e, Instr.tick = .eraseResumed e) ∨ ∃ e l, Instr.tick = .arrayTimeout e l)) ∧
    (let s := { busyArray with host := (at_ .halted).host };
      s.host.device = .halted ∧ Canonical s ∧ isReset (.arrayOperationEnd 0 (.done [])) = false ∧
      s.ctrl.operation = some (.writer, .programLines 2 3 [zeros 32, zeros 32])) := by
  refine ⟨?_, ?_, ?_, ⟨rfl, rfl, ?_⟩, ⟨rfl, ⟨by decide, by decide⟩, rfl, rfl⟩⟩
  · unfold Occasion Ticks; decide
  · unfold Occasion Ticks; decide
  · rintro ⟨_, r, rest, h, _⟩; cases h
  · rintro (⟨_, _, h⟩ | ⟨_, h⟩ | ⟨_, h⟩ | ⟨_, _, h⟩) <;> cases h

theorem witness_CanonicalKept : Canonical busyArray ∧ step busyArray = .next busyArray :=
  ⟨⟨by decide, by decide⟩, rfl⟩

/-- A context with a block, taken from the free list. -/
def oneBlock : State :=
  withCtx { ctx 0 0 with blockMap := (Vector.replicate 16 none).set 0 (some 0) }
    (on.onAssembly fun a => { a with freeBlocks := (List.finRange 384).tail })

theorem witness_AnchorsKept : AnchorsApart (journalTwo on) ∧ step (journalTwo on) = .next (journalTwo on) := by
  refine ⟨⟨by decide +kernel, by unfold IsJournal; decide +kernel, ?_, ?_, ?_, by unfold IsJournal; decide +kernel, ?_⟩,
    rfl⟩ <;> intro x h <;> cases h

theorem witness_BlocksKept : BlocksApart oneBlock ∧ step oneBlock = .next oneBlock := by
  refine ⟨fun b => ?_, rfl⟩
  have hc : oneBlock.assembly.contexts.toList =
      some { ctx 0 0 with blockMap := (Vector.replicate 16 none).set 0 (some 0) } :: List.replicate 31 none := rfl
  have hm : mappedBlocks ((Vector.replicate 16 none).set 0 (some (0 : BlockNo))) = [0] := by decide +kernel
  have h : mappedCount oneBlock.assembly b = [(0 : BlockNo)].count b := by
    rw [mappedCount, hc, List.map_cons, List.map_replicate, List.sum_cons]
    simp only [hm]; simp
  have h' : (List.finRange 384).count b = 1 :=
    List.count_eq_one_of_mem (List.nodup_finRange 384) (List.mem_finRange b)
  rw [h, ← h']
  show (List.finRange 384).tail.count b + [(0 : BlockNo)].count b = _
  rw [Nat.add_comm, ← List.count_append, show [(0 : BlockNo)] ++ (List.finRange 384).tail = List.finRange 384 by decide +kernel]

theorem witness_CountersKept : CountersHeld on ∧ step on = .next on := ⟨by unfold CountersHeld; decide, rfl⟩

/-! ### Registers -/

/-- Every mask clear: the cause of bit 3 is set again after the write, and raises the interrupt. -/
theorem witness_InterruptWrites :
    (3 : Nat) < 4 ∧ (0x8#32 : Word).getLsbD 3 = true ∧
      (on.onHost fun h => { h with intMask := 0#4 }).host.intMask.getLsbD 3 = false ∧
      (after (.intCauseWrite 0x8#32) (on.onHost fun h => { h with intMask := 0#4, intCause := 8#4 })).host.intCause
        = 0#4 := by decide

/-- The index at the ends of its range; a CTRL write with SOFT_RESET beside ENABLE, with ENABLE, with neither. -/
theorem witness_RegisterWrites :
    ({ on.host with badIndex := 255 } : HostUnit).badIndex ≤ 255 ∧ on.host.badIndex ≤ 255 ∧
      (3#32 : Word).getLsbD 1 = true ∧ ((1#32 : Word).getLsbD 1 = false ∧ (1#32 : Word).getLsbD 0 = true) ∧
      ((0#32 : Word).getLsbD 1 = false ∧ (0#32 : Word).getLsbD 0 = false) := by decide

/-- R185, R192: STATE of a device in OFFLINE (0) with SETUP_INVALID (2) at field 18. -/
theorem test_state_read :
    ({ (at_ .offline).host with reason := .setupInvalid, badIndex := 18 } : HostUnit).readRegister 0x08
      = some 0x00120200#32 := by decide

/-- Posted and not released: two completions, one notice. -/
def posted : State := on.onHost fun h => { h with completionTail := 2, noticeTail := 1 }

/-- Selectors 6 and 7; ring 2 of weight 0; ring 0 of 8 entries at positions 8 and 7; the completion ring of 16 at
positions 16, 3 and 2 with two posted; the notice ring at positions 16, 2 and 1 with one posted. -/
theorem witness_RingIndexWrites :
    (at_ .offline).host.device = .offline ∧ posted.host.device = .online ∧ posted.host.setup = some setup ∧
      (0x6#32 : Word).extractLsb' 0 3 = 6#3 ∧ (0x7#32 : Word).extractLsb' 0 3 = 7#3 ∧
      setup.rings[(2 : Fin 4)].weight = 0 ∧ setup.rings[(0 : Fin 4)].size = 8 ∧
      ((0x00070000#32 : Word).extractLsb' 16 12).toNat = 7 ∧ ((0x00080000#32 : Word).extractLsb' 16 12).toNat = 8 ∧
      setup.rings[(0 : Fin 4)].weight ≠ 0 ∧
      setup.completionSize ≤ 16 ∧ (2 + 16 - 0) % 16 < (3 + 16 - 0) % 16 ∧ ¬(2 + 16 - 0) % 16 < (2 + 16 - 0) % 16 ∧
      setup.noticeSize ≤ 16 ∧ (1 + 16 - 0) % 16 < (2 + 16 - 0) % 16 ∧ ¬(1 + 16 - 0) % 16 < (1 + 16 - 0) % 16 := by
  decide

/-- R188 on those positions. -/
theorem test_ring_index :
    (after (ringIndexCommand 0x00070000#32) posted).host.subTail[(0 : Fin 4)] = 7 ∧
    (after (ringIndexCommand 0x00080000#32) posted).host.intCause = 8#4 ∧
    (after (ringIndexCommand 0x00020004#32) posted).host.completionHead = 2 ∧
    (after (ringIndexCommand 0x00030004#32) posted).host.intCause = 8#4 ∧
    (after (ringIndexCommand 0x00010005#32) posted).host.noticeHead = 1 ∧
    (after (ringIndexCommand 0x00020005#32) posted).host.intCause = 8#4 := by decide

/-- A completion write in progress. -/
def writing (s : State) : State := s.onHost fun h => { h with ringWrite := some (.completion ⟨0#64, zeros 16⟩) }

theorem witness_EnableSet :
    (¬(on.host.device = .offline ∨ on.host.device = .stopped)) ∧
    ((at_ .stopped).host.device = .stopped ∧ (writing (at_ .stopped)).host.ringWrite ≠ none) ∧
    ((at_ .offline).host.device = .offline ∧ (at_ .offline).host.ringWrite = none) := by decide

/-! ### Setup -/

/-- The 128 bytes of a setup block (R189). -/
def block (c : Setup) : List Byte :=
  let ring (i : Fin 4) : List Byte :=
    leBytes 8 c.rings[i].base.toNat ++ leBytes 4 c.rings[i].size ++ leBytes 1 c.rings[i].weight ++ zeros 3
  ring 0 ++ ring 1 ++ ring 2 ++ ring 3 ++ leBytes 8 c.completionBase.toNat ++ leBytes 4 c.completionSize ++ zeros 4
    ++ leBytes 8 c.noticeBase.toNat ++ leBytes 4 c.noticeSize ++ zeros 4 ++ leBytes 8 c.statusAddress.toNat
    ++ leBytes 2 c.tickPeriod ++ leBytes 1 c.reserve ++ zeros 21

/-- R173: the limits of a reserve (2), of a tick period (1000), of the ring sizes and the alignment. -/
theorem test_setup_faults :
    setup.firstFault = none ∧
    ({ setup with reserve := 1 } : Setup).firstFault = some 18 ∧
    ({ setup with tickPeriod := 1001 } : Setup).firstFault = some 17 ∧
    ({ setup with statusAddress := 0xB0000#64 } : Setup).firstFault = some 16 ∧
    ({ setup with noticeSize := 15 } : Setup).firstFault = some 15 ∧
    ({ setup with rings := setup.rings.set 1 ⟨0x20020#64, 4096, 8⟩ } : Setup).firstFault = some 4 ∧
    ({ setup with rings := setup.rings.set 0 ⟨0x10000#64, 8, 9⟩ } : Setup).firstFault = some 0 := by decide +kernel

theorem witness_SetupLayout :
    (∀ i : Fin 4, setup.rings[i].size < 2 ^ 32 ∧ setup.rings[i].weight < 256) ∧ setup.completionSize < 2 ^ 32 ∧
      setup.noticeSize < 2 ^ 32 ∧ setup.tickPeriod < 65536 ∧ setup.reserve < 256 ∧ (zeros 3).length = 3 ∧
      (zeros 4).length = 4 ∧ (zeros 21).length = 21 := by decide

/-- Reading the setup block, with CTRL.ENABLE and the mounted mark as given. -/
def readingSetup (enable mounted : Bool) : State :=
  ((at_ .setup).onHost fun h => { h with setupStage := .reading 0x1000#64, enable := enable }).onMount fun m =>
    { m with mounted := mounted }

theorem witness_SetupReadEnds :
    (∀ enable mounted, (readingSetup enable mounted).host.device = .setup ∧
      (readingSetup enable mounted).host.setupStage = .reading 0x1000#64 ∧
      (readingSetup enable mounted).host.enable = enable ∧ (readingSetup enable mounted).mount.mounted = mounted) ∧
    (parseSetup (block setup)).firstFault = none ∧
    (parseSetup (block { setup with reserve := 17 })).firstFault = some 18 := by decide +kernel

/-! ### Fetching -/

/-- Slot 0 is in use; ring 0 (weight 2) and ring 3 (weight 1) have entries as given; the round stands at ring 0. -/
def fetching (at0 at3 yielded posted : Nat) : State :=
  on.onHost fun h => { h with
    slots := h.slots.set 0 (.taken 0 0 1 none), subTail := #v[at0, 0, 0, at3], roundYield := yielded
    completionTail := posted }

/-- The entries pending of each ring. -/
theorem witness_FetchBegins :
    (let s := fetching 5 2 1 13;
      s.host.device = .online ∧ s.host.fetch = none ∧ s.host.setup = some setup ∧ s.host.slots[(1 : SlotNo)] = .free ∧
      (∀ j : SlotNo, j < 1 → s.host.slots[j] ≠ .free) ∧
      s.host.slotsInUse + s.host.completionsPosted setup < setup.completionSize - 1 ∧
      0 < s.host.pendingEntries setup 0 ∧ s.host.roundYield < 2) ∧
    (let s := fetching 5 2 2 13;
      ¬(0 < s.host.pendingEntries setup s.host.roundRing ∧ s.host.roundYield < setup.rings[s.host.roundRing].weight) ∧
      0 < s.host.pendingEntries setup (s.host.roundRing + Fin.ofNat 4 3) ∧
      (∀ e : Fin 3, 1 ≤ e.val → s.host.pendingEntries setup (s.host.roundRing + Fin.ofNat 4 e.val) = 0)) ∧
    (let s := fetching 5 0 2 13;
      0 < s.host.pendingEntries setup (s.host.roundRing + Fin.ofNat 4 4) ∧
      (∀ e : Fin 4, 1 ≤ e.val → s.host.pendingEntries setup (s.host.roundRing + Fin.ofNat 4 e.val) = 0)) ∧
    (∀ ring, (fetching 0 0 1 13).host.pendingEntries setup ring = 0) ∧
    ¬((fetching 5 2 1 14).host.slotsInUse + (fetching 5 2 1 14).host.completionsPosted setup
      < setup.completionSize - 1) := by decide +kernel

/-- A submission entry by its fields: kind, flags, tag, bytes 4 and 5, the half words at 6, 8 and 10, the words at 12
and 16. -/
def entry (kind flags b4 b5 h6 h8 h10 w12 w16 : Nat) : List Byte :=
  leBytes 1 kind ++ leBytes 1 flags ++ leBytes 2 0x1234 ++ leBytes 1 b4 ++ leBytes 1 b5 ++ leBytes 2 h6 ++ leBytes 2 h8
    ++ leBytes 2 h10 ++ leBytes 4 w12 ++ leBytes 4 w16 ++ zeros 44

/-- A fetch for slot 0 from ring 3. -/
def fetched : State := on.onHost fun h => { h with fetch := some (0, 3), slots := h.slots.set 0 (.fetching 3) }

theorem witness_FetchEnds :
    Takes fetched ∧ fetched.host.setup = some setup ∧ fetched.host.fetch = some (0, 3) ∧
    entryVerdict (entry 11 0 0 0 0 0 0 0 0) = .badKind ∧ entryVerdict (entry 3 0 16 0 0 0 0 0 0) = .badField ∧
    entryVerdict (entry 3 1 15 0 0 0 0 0 0) = .command .assembly (.closeStream 15 true) ∧
    entryVerdict (entry 5 0 0 0 0 1 0 32 0) = .command .readUnit (.read 1 0#64 32 false) ∧
    entryVerdict (entry 8 0 15 0 0 0 0 0 0) = .command .holdTable (.release 15) ∧
    entryVerdict (entry 9 0 0 0 0 0 0 0 0) = .command .sectorTable (.query .sectors false 0#64 0) ∧
    entryVerdict (entry 10 0 0 0 0 0 0 0 0) = .command .reclaim .wipe ∧
    entryVerdict (entry 9 1 3 0 0 0 0 128 0) = .command .hostRing (.query .stats true 0#64 128) := by
  unfold Takes; decide +kernel

/-- Every clause of the entries at the ends of its ranges: fields that pass, and fields just outside. -/
theorem witness_EntryVerdicts :
    let f := fieldAt
    (f (entry 0 0 0 0 0 0 0 0 0) 0 1 = 0 ∧ 10 < f (entry 11 0 0 0 0 0 0 0 0) 0 1) ∧
    (let l := entry 1 0 15 0 0 8191 4096 0 0;
      f l 0 1 = 1 ∧ f l 4 1 = (15 : Fin 16).val ∧ f l 8 2 ≤ 8191 ∧ 1 ≤ f l 10 2 ∧ f l 10 2 ≤ 4096) ∧
    (16 ≤ f (entry 1 0 16 0 0 0 1 0 0) 4 1 ∧ 8191 < f (entry 1 0 0 0 0 8192 1 0 0) 8 2 ∧
      f (entry 1 0 0 0 0 0 0 0 0) 10 2 = 0 ∧ 4096 < f (entry 1 0 0 0 0 0 4097 0 0) 10 2) ∧
    (let l := entry 2 0 0 8 0 0 0 0 0;
      f l 0 1 = 2 ∧ f l 4 1 = (0 : Fin 16).val ∧ 1 ≤ f l 5 1 ∧ f l 5 1 ≤ 8) ∧
    (f (entry 2 0 0 0 0 0 0 0 0) 5 1 = 0 ∧ 8 < f (entry 2 0 0 9 0 0 0 0 0) 5 1) ∧
    (f (entry 3 0 15 0 0 0 0 0 0) 0 1 = 3 ∧ f (entry 4 0 15 0 0 0 0 0 0) 0 1 = 4 ∧
      f (entry 8 0 15 0 0 0 0 0 0) 0 1 = 8 ∧ 16 ≤ f (entry 8 0 16 0 0 0 0 0 0) 4 1) ∧
    (let l := entry 5 0 0 0 0 0xFFFE 0xFFFF 32 0;
      f l 0 1 = 5 ∧ 1 ≤ f l 8 4 ∧ f l 8 4 ≤ 0xFFFFFFFE ∧ 32 ≤ f l 12 4) ∧
    (f (entry 5 0 0 0 0 0 0 32 0) 8 4 = 0 ∧ f (entry 5 0 0 0 0 1 0 31 0) 12 4 < 32) ∧
    (let l := entry 6 0 0xFF 64 0 1 0 32 0;
      f l 0 1 = 6 ∧ 1 ≤ f l 5 1 ∧ f l 5 1 ≤ 64 ∧ f l 4 1 = 0xFF) ∧
    (64 < f (entry 6 0 0 65 0 1 0 32 0) 5 1 ∧ 16 ≤ f (entry 6 0 0xFE 1 0 1 0 32 0) 4 1 ∧
      f (entry 6 0 0xFE 1 0 1 0 32 0) 4 1 ≠ 0xFF) ∧
    (let l := entry 7 0 1 0 0 5 0 5 7;
      f l 0 1 = 7 ∧ f l 4 1 ≤ 1 ∧ (f l 1 1 % 2 == 1) = false ∧ f l 8 4 ≤ f l 12 4 ∧ 1 ≤ f l 12 4) ∧
    (let l := entry 7 1 0 0 0 5 0 0 7;
      f l 0 1 = 7 ∧ f l 4 1 ≤ 1 ∧ (f l 1 1 % 2 == 1) = true ∧ 1 ≤ f l 8 4) ∧
    (1 < f (entry 7 0 2 0 0 5 0 5 0) 4 1 ∧ f (entry 7 0 0 0 0 5 0 4 0) 12 4 < f (entry 7 0 0 0 0 5 0 4 0) 8 4) ∧
    (∀ k : Fin 4, f (entry 9 0 k.val 0 0 0 0 0 0) 0 1 = 9 ∧ f (entry 9 0 k.val 0 0 0 0 0 0) 4 1 = k.val) ∧
    4 ≤ f (entry 9 0 4 0 0 0 0 0 0) 4 1 ∧ f (entry 10 0 0 0 0 0 0 0 0) 0 1 = 10 := by decide +kernel

/-! ### Posting -/

/-- Slot 7 has its outcome at the head of the posting queue. -/
def outcomeReady (d : DeviceState) : State :=
  (at_ d).onHost fun h => { h with
    posting := [.outcome 7 .ok {}, .notice .journalFull], slots := h.slots.set 7 (.taken 3 0x1234#16 1 none) }

/-- A notice stands at the head, with `n` notices posted and not released. -/
def noticeReady (n : Nat) (d : DeviceState) : State :=
  (at_ d).onHost fun h => { h with posting := [.notice .journalFull], noticeTail := n, lostCount := 255 }

theorem witness_PostingBegins :
    ((outcomeReady .setup).host.setup = some setup ∧ (outcomeReady .setup).host.device = .setup) ∧
    (writing (outcomeReady .online)).host.ringWrite ≠ none ∧ on.host.posting = [] ∧
    (let s := outcomeReady .stopped;
      s.host.device = .stopped ∧ s.host.ringWrite = none ∧
      s.host.posting = .outcome 7 .ok {} :: [.notice .journalFull]) ∧
    (let s := noticeReady 15 .mounting;
      s.host.device = .mounting ∧ s.host.posting = .notice .journalFull :: [] ∧
      (s.host.noticeTail + setup.noticeSize - s.host.noticeHead) % setup.noticeSize + 1 = setup.noticeSize) ∧
    (let s := noticeReady 14 .draining;
      s.host.device = .draining ∧
      ¬(s.host.noticeTail + setup.noticeSize - s.host.noticeHead) % setup.noticeSize + 1 = setup.noticeSize) := by
  decide +kernel

theorem witness_EntryLayouts : (0 : Nat) ≤ 255 ∧ (255 : Nat) ≤ 255 := by decide

/-- R190, R192: RECORDS_EXPIRED of sector 255 with JSNs 1 to 258, three notices lost before it. -/
theorem test_notice_bytes :
    noticeEntry (.recordsExpired 255 1 258) 3
      = [0x04#8, 3#8, 0#8, 0#8, 0xFF#8, 0#8, 0#8, 0#8, 1#8, 0#8, 0#8, 0#8, 2#8, 1#8, 0#8, 0#8] := by decide

/-- An entry write in progress, SETUP waiting for it or not. -/
def entryWrite (w : RingWrite) (p : Posting) (waits : Bool) : State :=
  (at_ (if waits then .setup else .online)).onHost fun h => { h with
    ringWrite := some w, posting := [p], setupStage := if waits then .waiting 0x1000#64 else .idle }

theorem witness_EntryWritesEnd :
    ∀ waits : Bool,
      let c := entryWrite (.completion ⟨0#64, zeros 16⟩) (.outcome 7 .ok {}) waits
      let n := entryWrite (.notice ⟨0#64, zeros 16⟩) (.notice .journalFull) waits
      c.host.setup = some setup ∧ c.host.device ≠ .halted ∧ c.host.ringWrite = some (.completion ⟨0#64, zeros 16⟩) ∧
      c.host.posting = .outcome 7 .ok {} :: [] ∧
      n.host.ringWrite = some (.notice ⟨0#64, zeros 16⟩) ∧ n.host.posting = .notice .journalFull :: [] ∧
      (waits = false → NoneWaits c.host ∧ NoneWaits n.host) ∧
      (waits = true → c.host.setupStage = .waiting 0x1000#64 ∧ c.host.device = .setup ∧
        n.host.setupStage = .waiting 0x1000#64 ∧ n.host.device = .setup) := by
  intro waits
  refine ⟨rfl, by revert waits; decide +kernel, rfl, rfl, rfl, rfl, ?_, ?_⟩
  · rintro rfl; constructor <;> rintro address ⟨⟩
  · rintro rfl; exact ⟨rfl, rfl, rfl, rfl⟩

/-- The status mark is set; the status block write of a state change is in progress. -/
def marked_ (d : DeviceState) : State := (at_ d).onHost fun h => { h with statusMark := true }
def statusWriting : State :=
  on.onHost fun h => { h with ringWrite := some (.status ⟨0xC0000#64, zeros 64⟩ true false true) }
def statusAwaited : State :=
  statusWriting.onHost fun h => { h with device := .setup, setupStage := .waiting 0x1000#64 }

theorem witness_StatusWrites :
    ((marked_ .mounting).host.setup = some setup ∧ (marked_ .mounting).host.device = .mounting ∧
      (marked_ .mounting).host.ringWrite = none ∧ (marked_ .mounting).host.statusMark = true) ∧
    (marked_ .offline).host.device = .offline ∧ statusWriting.host.ringWrite ≠ none ∧ on.host.statusMark = false ∧
    (statusWriting.host.ringWrite = some (.status ⟨0xC0000#64, zeros 64⟩ true false true) ∧
      statusWriting.host.device ≠ .halted ∧ NoneWaits statusWriting.host) ∧
    (statusAwaited.host.ringWrite = some (.status ⟨0xC0000#64, zeros 64⟩ true false true) ∧
      statusAwaited.host.setup = some setup ∧ statusAwaited.host.setupStage = .waiting 0x1000#64 ∧
      statusAwaited.host.device = .setup) := by
  refine ⟨by decide +kernel, by decide, by decide, by decide, ⟨rfl, by decide, ?_⟩, ⟨rfl, rfl, rfl, rfl⟩⟩
  rintro address ⟨⟩

theorem witness_DrainEnds :
    (∀ enable : Bool, let s := (at_ .draining).onHost fun h => { h with enable := enable };
      s.host.device = .draining ∧ (∀ i : SlotNo, s.host.slots[i] = .free) ∧ s.host.posting = [] ∧ s.host.fetch = none ∧
      s.writer.queue = [] ∧ s.writer.state = .idle ∧ s.anchor.state = .idle ∧ s.reader.active = none ∧
      s.reader.fifo = [] ∧ s.ctrl.state = .idle ∧ s.ctrl.placed = .empty ∧ s.ctrl.outcomes = .empty ∧
      s.host.enable = enable) ∧
    (outcomeReady .draining).host.posting ≠ [] ∧
    ((at_ .draining).host.ringWrite = none ∧ (writing (at_ .draining)).host.ringWrite ≠ none ∧
      (writing (at_ .draining)).host.posting = []) := by decide +kernel

/-! ### QUERY -/

/-- A QUERY of each subject at the head of its owner's queue. -/
def asking (clear : Bool) (length : Nat) : State :=
  let q (subject : Subject) : List Routed := [⟨0, .query subject clear 0x1000#64 length⟩]
  { on with
    table := { on.table with queue := q .sectors }, assembly := { on.assembly with queue := q .streams }
    holds := { on.holds with queue := q .holds }, host := { on.host with queue := q .stats } }

theorem witness_QueriesTaken :
    ∀ clear : Bool, ∀ length ∈ [127, 128, 543, 544, 575, 576, 8223, 8224],
      Takes (asking clear length) ∧ (asking clear length).assembly.held = none ∧
      HeadIs (asking clear length).table.queue 0 (.query .sectors clear 0x1000#64 length) [] ∧
      HeadIs (asking clear length).assembly.queue 0 (.query .streams clear 0x1000#64 length) [] ∧
      HeadIs (asking clear length).holds.queue 0 (.query .holds clear 0x1000#64 length) [] ∧
      HeadIs (asking clear length).host.queue 0 (.query .stats clear 0x1000#64 length) [] := by
  intro clear length _
  exact ⟨.inl rfl, rfl, rfl, rfl, rfl, rfl⟩

theorem witness_QueryWriteEnds :
    let s := on.onHost fun h => { h with queryWrites := [⟨1, 0#64, zeros 544⟩, ⟨2, 0#64, zeros 128⟩] }
    s.host.device ≠ .halted ∧ s.host.queryWrites = [⟨1, 0#64, zeros 544⟩] ++ ⟨2, ⟨0#64, zeros 128⟩⟩ :: [] ∧
      (∀ q ∈ [(⟨1, 0#64, zeros 544⟩ : QueryWrite)] ++ [], q.slot ≠ 2) := by decide +kernel

/-! ### The Assembly Unit's commands -/

/-- An APPEND of stream 0, and a transfer of slot `k` for bytes 512 * k to 512 * k + 511. -/
def append (seq : Seq) (offset length : Nat) : Cmd := .append 0 seq offset length false 0#32 0x1000#64
def transfer (k : SlotNo) : Transfer := ⟨k, 512 * k.val, 512, false, 0x1000#64⟩

/-- A GATHERING record with its first `n` blocks in transfer. -/
def moving (n : Nat) : Context :=
  { ctx 0 0 with transfers := (List.finRange 64).take n |>.map transfer, coverage := [(0, 512 * n)] }

def appending (c : Context) (a : Cmd) : State := withAssembly a (withCtx c (openStream 1 0 on))

/-- No context of stream 0: every context is FREE, or held by stream 1. -/
def strangers (n : Nat) (limit : Nat) (a : Cmd) : State :=
  (withAssembly a (openStream limit 0 on)).onAssembly fun x => { x with
    contexts := tabulate 32 fun i => if i.val < n then some (ctx 1 (BitVec.ofNat 16 i.val)) else none }

theorem strangers_unmet (n limit : Nat) (a : Cmd) (seq : Seq) : Unmet (strangers n limit a).assembly 0 seq := by
  intro j x h hs _
  simp only [strangers, State.onAssembly, tabulate, Fin.getElem_fin, Vector.getElem_mk, List.getElem_toArray,
    List.getElem_map, List.getElem_finRange] at h
  split at h
  · cases h; simp [ctx] at hs
  · cases h

theorem witness_AppendTaken :
    (let s := appending (moving 4) (append 0 2048 512);
      Takes s ∧ s.assembly.held = none ∧ HeadIs s.assembly.queue 0 (append 0 2048 512) [] ∧
      s.assembly.contexts[(0 : CtxNo)] = some (moving 4) ∧ (moving 4).stream = 0 ∧ (moving 4).seq = 0 ∧
      s.assembly.drainMark = false ∧ 4 ≤ (moving 4).transfers.length) ∧
    (Sole (appending (moving 3) (append 0 1536 512)).assembly 0 0 0 (moving 3) ∧
      (moving 3).state.inWindow = true ∧ (moving 3).transfers.length < 4) ∧
    (Unmet (strangers 0 1 (append 7 0 4096)).assembly 0 7 ∧
      (strangers 0 1 (append 7 0 4096)).assembly.countContexts (fun c => c.stream == 0)
        < (strangers 0 1 (append 7 0 4096)).assembly.streams[(0 : Fin 16)].limit ∧
      (strangers 0 1 (append 7 0 4096)).assembly.contexts[(0 : CtxNo)] = none) ∧
    (Unmet (strangers 32 8 (append 7 0 1)).assembly 0 7 ∧
      ∀ i : CtxNo, (strangers 32 8 (append 7 0 1)).assembly.contexts[i] ≠ none) ∧
    ¬(strangers 31 0 (append 7 0 1)).assembly.countContexts (fun c => c.stream == 0)
      < (strangers 31 0 (append 7 0 1)).assembly.streams[(0 : Fin 16)].limit := by
  refine ⟨⟨.inl rfl, rfl, rfl, rfl, rfl, rfl, rfl, by decide +kernel⟩,
    ⟨sole_at _ (moving 3) 0 0 rfl rfl rfl, rfl, by decide +kernel⟩, ⟨strangers_unmet _ _ _ _, by decide +kernel, by decide +kernel⟩,
    ⟨strangers_unmet _ _ _ _, by decide +kernel⟩, by decide +kernel⟩

/-- R45, R65 to R67: held, accepted, OVERLAP, BEYOND_END at 8,193 bytes, AHEAD at position 8, NO_CONTEXT. -/
theorem test_append :
    (after .append (appending (moving 4) (append 0 2048 512))).assembly.held = some ⟨0, append 0 2048 512⟩ ∧
    (after .append (appending (moving 3) (append 0 1536 512))).assembly.freeBlocks.length = 383 ∧
    (after .append (appending (moving 3) (append 0 1535 1))).host.posting = [.outcome 0 .overlap {}] ∧
    (after .append (appending (moving 3) (append 0 8191 2))).host.posting = [.outcome 0 .beyondEnd {}] ∧
    (after .append (strangers 0 1 (append 8 0 1))).host.posting = [.outcome 0 .ahead {}] ∧
    (after .append (strangers 32 1 (append 7 0 1))).host.posting = [.outcome 0 .noContext {}] := by decide +kernel

/-- OPEN_STREAM of stream 0 at its head, with a wipe active or not. -/
def opening (wipe : Bool) (s : State) : State :=
  (withAssembly (.openStream 0 8 255 false 0#16) s).onReclaim fun r => { r with wipeActive := wipe }

theorem witness_OpenStreamTaken :
    (∀ wipe, Takes (opening wipe on) ∧ (opening wipe on).assembly.held = none ∧
      HeadIs (opening wipe on).assembly.queue 0 (.openStream 0 8 255 false 0#16) [] ∧
      (opening wipe on).reclaim.wipeActive = wipe ∧ (opening wipe on).assembly.streams[(0 : Fin 16)].state = .closed) ∧
    (opening false (openStream 1 0 on)).assembly.streams[(0 : Fin 16)].state ≠ .closed :=
  ⟨fun _ => ⟨.inl rfl, rfl, rfl, rfl, rfl⟩, by decide +kernel⟩

/-- CLOSE_STREAM of stream 0. -/
def closing (abort : Bool) (st : StreamState) (s : State) : State :=
  modStream 0 (fun e => { e with state := st }) (withAssembly (.closeStream 0 abort) s)

theorem witness_CloseStreamTaken :
    (∀ abort st, Takes (closing abort st on) ∧ (closing abort st on).assembly.held = none ∧
      HeadIs (closing abort st on).assembly.queue 0 (.closeStream 0 abort) []) ∧
    (∀ st, (closing false st on).assembly.streams[(0 : Fin 16)].state = st) ∧
    ¬Busy (closing false .opened on).assembly 0 ∧
    (closing false .opened on).assembly.streams[(0 : Fin 16)].pendingClose = none ∧
    (∀ c : Context, c.stream = 0 → Busy (closing true .opened (withCtx c on)).assembly 0) ∧
    (after .closeStream (closing true .opened (withCtx { ctx 0 0 with state := .writing } on))).assembly.contexts[
      (0 : CtxNo)] ≠ none ∧
    (after .closeStream (closing true .opened (withCtx { ctx 0 0 with state := .complete, deferred := some 3 } on))).assembly.contexts
      = Vector.replicate 32 none := by
  refine ⟨fun _ _ => ⟨.inl rfl, rfl, rfl⟩, fun st => by cases st <;> decide +kernel, ?_, by decide +kernel,
    fun c h => ⟨0, c, by simp [closing, withCtx, withAssembly, modStream, State.onAssembly], h⟩, by decide +kernel,
    by decide +kernel⟩
  rintro ⟨i, c, h, _⟩
  rw [no_ctx _ (by rfl)] at h; cases h

/-- ABORT_RECORD of a sequence of stream 0. -/
def aborting (seq : Seq) (s : State) : State := withAssembly (.abortRecord 0 seq) s

/-- Contexts 0 and 1 hold sequence 0 of stream 0: the first QUEUED, the second in the state given. -/
def queuedCtx : Context := { ctx 0 0 with state := .queued, deferred := some 3 }
def twice (state : CtxState) : State :=
  (openStream 1 0 on).onAssembly fun a =>
    { a with contexts := (a.contexts.set 0 (some queuedCtx)).set 1 (some { ctx 0 0 with state := state }) }

theorem twice_only (state : CtxState) (j : CtxNo) (x : Context)
    (h : (aborting 0 (twice state)).assembly.contexts[j] = some x) :
    (j = 0 ∧ x = queuedCtx) ∨ (j = 1 ∧ x = { ctx 0 0 with state := state }) := by
  have hc : (aborting 0 (twice state)).assembly.contexts =
    ((Vector.replicate 32 none).set 0 (some queuedCtx)).set 1 (some { ctx 0 0 with state := state }) := rfl
  simp only [hc, Fin.getElem_fin, Vector.getElem_set] at h
  split at h
  · next h1 => exact .inr ⟨Fin.ext h1.symm, (Option.some.inj h).symm⟩
  · split at h
    · next h0 => exact .inl ⟨Fin.ext h0.symm, (Option.some.inj h).symm⟩
    · simp at h

theorem witness_AbortRecordTaken :
    (Takes (aborting 0 on) ∧ (aborting 0 on).assembly.held = none ∧
      HeadIs (aborting 0 on).assembly.queue 0 (.abortRecord 0 0) [] ∧
      (aborting 0 on).assembly.streams[(0 : Fin 16)].state ≠ .opened) ∧
    (aborting 0 (openStream 1 0 on)).assembly.streams[(0 : Fin 16)].state = .opened ∧
    (∀ c : Context, Sole (aborting 0 (withCtx c (openStream 1 0 on))).assembly c.stream c.seq 0 c) ∧
    First (aborting 0 (twice .writing)).assembly 0 0 .writing 1 { ctx 0 0 with state := .writing } ∧
    (First (aborting 0 (twice .queued)).assembly 0 0 .queued 0 queuedCtx ∧
      ∀ j x, ¬First (aborting 0 (twice .queued)).assembly 0 0 .writing j x) ∧
    (32768 ≤ ((32768 : Seq) - 0).toNat ∧ 8 ≤ ((8 : Seq) - 0).toNat ∧ ((32767 : Seq) - 0).toNat < 32768 ∧
      ((7 : Seq) - 0).toNat < 8) ∧
    (∀ j : CtxNo, (aborting 7 (openStream 1 0 on)).assembly.contexts[j] = none) ∧
    (moving 1).state = .gathering ∧ (moving 1).transfers ≠ [] ∧
    ({ ctx 0 0 with state := .aborting } : Context).state = .aborting ∧
    ({ ctx 0 7 with state := .complete, deferred := some 3 } : Context).state = .complete ∧
    (∀ c : Context, c.state.inWindow = true → ∀ (j : CtxNo) (x : Context),
      (aborting 32767 (withCtx c (openStream 1 0 on))).assembly.contexts[j] = some x → x.state.inWindow = true) ∧
    ((ctx 0 7).state = .gathering ∧ (ctx 0 7).transfers = [] ∧ (ctx 0 7).deferred = none) ∧
    (∀ k, (aborting 7 (openStream 1 0 on)).assembly.streams[(0 : Fin 16)].abandoned.getLsbD k = false) ∧
    (modStream 0 (fun e => { e with abandoned := 0x80#8 }) (openStream 1 0 on)).assembly.streams[
      (0 : Fin 16)].abandoned.getLsbD 7 = true := by
  refine ⟨⟨.inl rfl, rfl, rfl, by decide +kernel⟩, by decide +kernel, fun c => sole_at _ c _ _ rfl rfl rfl,
    ⟨rfl, rfl, rfl, rfl, fun j x hj hx _ _ => ?_⟩, ⟨⟨rfl, rfl, rfl, rfl, fun j x hj _ _ _ => absurd hj (Nat.not_lt_zero _)⟩,
      fun j x h => ?_⟩, by decide, no_ctx (aborting 7 (openStream 1 0 on)) (by decide +kernel), rfl, by decide +kernel, rfl, rfl,
    fun c hc j x hx => ?_, ⟨rfl, rfl, rfl⟩, fun k => ?_, by decide +kernel⟩
  · rcases twice_only _ j x hx with ⟨-, rfl⟩ | ⟨rfl, -⟩
    · decide
    · exact absurd hj (lt_irrefl _)
  · rcases twice_only _ j x h.1 with ⟨-, rfl⟩ | ⟨-, rfl⟩ <;> cases h.2.2.2.1
  · rw [(ctx_only c (openStream 1 0 on) j x hx).2]; exact hc
  · show (0#8 : BitVec 8).getLsbD k = false
    simp

/-- R74: a WRITING context with the sequence completes TOO_LATE, whatever number a QUEUED one has; of two QUEUED ones the
lowest-numbered leaves. -/
theorem test_abort_admitted :
    (after .abortRecord (aborting 0 (twice .writing))).host.posting = [.outcome 0 .tooLate {}] ∧
    (after .abortRecord (aborting 0 (twice .queued))).host.posting = [.outcome 3 .aborted {}, .outcome 0 .ok {}] ∧
    (after .abortRecord (aborting 0 (twice .queued))).assembly.contexts[(0 : CtxNo)] = none := by decide +kernel

/-- R75: a COMPLETE record is discarded, its fragment ABORTED, before the command's own OK; its position is abandoned,
and at position 0 passed over. -/
theorem test_abort_complete :
    (after .abortRecord (aborting 7 (withCtx { ctx 0 7 with state := .complete, deferred := some 3 } (openStream 1 0 on)))).host.posting
      = [.outcome 3 .aborted {}, .outcome 0 .ok {}] ∧
    (after .abortRecord (aborting 0 (withCtx { ctx 0 0 with state := .complete, deferred := some 3 } (openStream 1 0 on)))).assembly.streams[
      (0 : Fin 16)].nextAdmission = 1 := by decide +kernel

/-! ### READ, SCAN, HOLD, RELEASE and WIPE -/

def reading (c : Cmd) (wipe : Bool) : State :=
  (on.onReader fun r => { r with queue := [⟨0, c⟩] }).onReclaim fun r => { r with wipeActive := wipe }

theorem witness_ReadsTaken :
    ∀ wipe, Takes (reading (.read 9 0x1000#64 32 false) wipe) ∧
      HeadIs (reading (.read 9 0x1000#64 32 false) wipe).reader.queue 0 (.read 9 0x1000#64 32 false) [] ∧
      HeadIs (reading (.scan 1 none 64 0x1000#64 32) wipe).reader.queue 0 (.scan 1 none 64 0x1000#64 32) [] ∧
      (reading (.read 9 0x1000#64 32 false) wipe).reclaim.wipeActive = wipe ∧
      (reading (.read 9 0x1000#64 32 false) wipe).reader.active = none ∧
      ((reading (.scan 1 none 64 0x1000#64 32) wipe).onReader fun r =>
        { r with active := some ⟨1, .read 9 0x1000#64 32 false⟩ }).reader.active ≠ none :=
  fun _ => ⟨.inl rfl, rfl, rfl, rfl, rfl, Option.some_ne_none _⟩

/-- R133, R135: with no read active a READ of a JSN that is not yet written begins, and ends, in the same happening. -/
theorem test_read_begins :
    (after .read (reading (.read 10 0x1000#64 32 false) false)).host.posting = [.outcome 0 .notYet {}] := by decide +kernel

/-- A HOLD of JSNs 5 to 9, or from 12 on, in an empty journal or one with JSNs 1 to 9. -/
def holding (fixed : Bool) (s : State) : State := withHolds (.hold 5 (some 9) fixed 0#32) s
def softHold : Hold := ⟨.soft, 1, none, 0#32, none, none⟩

theorem witness_HoldTaken :
    (∀ fixed s, Takes s → Takes (holding fixed s) ∧ HeadIs (holding fixed s).holds.queue 0 (.hold 5 (some 9) fixed 0#32) []) ∧
    Takes on ∧ on.writer.nextJsn = some 10 ∧
    (on.onReclaim fun r => { r with wipeActive := true }).reclaim.wipeActive = true ∧ on.reclaim.wipeActive = false ∧
    (on.onAnchor fun a => { a with failed := true }).anchor.failed = true ∧ on.anchor.failed = false ∧
    (some 9 = some 9 ∧ 9 < 10 ∧ ∀ i ∈ on.table.journal, ∀ a b, on.table.entries[i].range = some (a, b) → b < 5 ∨ 9 < a) ∧
    ¬(∃ l, some 9 = some l ∧ l < 10 ∧ ∀ i ∈ (journalTwo on).table.journal, ∀ a b,
      (journalTwo on).table.entries[i].range = some (a, b) → b < 5 ∨ l < a) ∧
    (∀ id : Fin 16, (Vector.replicate 16 (some softHold))[id] ≠ none) ∧ on.holds.entries[(0 : Fin 16)] = none ∧
    ((journalTwo on).table.journal = [] ++ 2 :: [] ∧ (journalTwo on).table.entries[(2 : SectorNo)].range = some (1, 9) ∧
      5 ≤ 9 ∧ (5 : Nat) = max 5 1) ∧
    (∀ i ∈ on.table.journal, ∀ a b, on.table.entries[i].range = some (a, b) → b < 12) ∧
    (on.onAnchor fun a => { a with state := .writing }).anchor.state ≠ .idle ∧
    (∀ slot, let s := holding true (on.onAnchor fun a => { a with nextSlot := slot });
      s.anchor.state = .idle ∧ s.anchor.failed = false ∧ s.anchor.nextSlot = slot) := by
  refine ⟨fun _ _ h => ⟨h, rfl⟩, .inl rfl, rfl, rfl, rfl, rfl, rfl, ⟨rfl, by decide, (by intro i hi; cases hi)⟩, ?_,
    by decide +kernel, rfl, ⟨rfl, by decide +kernel, by decide, rfl⟩, (by intro i hi; cases hi), by decide,
    fun _ => ⟨rfl, rfl, rfl⟩⟩
  rintro ⟨l, hl, _, h⟩
  cases hl
  have := h 2 (by decide +kernel) 1 9 (by decide +kernel)
  omega

/-- R118: the effective first JSN of a SOFT hold of 5 to 9 is 5. -/
theorem test_hold_soft :
    (after .hold (holding false (journalTwo on))).host.posting = [.outcome 0 .ok { at4 := 5#32 }] := by decide +kernel

/-- R118, R123, R126: a FIXED hold starts a snapshot in the last slot, or with no slot left the other sector's erase. -/
theorem test_hold_fixed :
    (let t := after .hold (holding true ((journalTwo on).onAnchor fun a => { a with nextSlot := 63 }));
      t.anchor.state = .writing ∧ t.anchor.nextSlot = 64 ∧ t.anchor.covered = [.hold 0]) ∧
    (let t := after .hold (holding true ((journalTwo on).onAnchor fun a => { a with nextSlot := 64 }));
      t.anchor.state = .rollingOver ∧ t.ctrl.placed.get .anchor = some (.eraseSector 1)) := by decide +kernel

/-- RELEASE of hold 15, with the entry and the Anchor Unit's state as given. -/
def releasing (h : Option Hold) (failed : Bool) (st : AnchorState) (slot : Nat) : State :=
  ((withHolds (.release 15) on).onHolds fun t => { t with entries := t.entries.set 15 h }).onAnchor fun a =>
    { a with failed := failed, state := st, nextSlot := slot }

theorem witness_ReleaseTaken :
    (∀ h failed st slot, let s := releasing h failed st slot;
      Takes s ∧ HeadIs s.holds.queue 0 (.release 15) [] ∧ s.holds.entries[(15 : Fin 16)] = h ∧
      s.anchor.failed = failed ∧ s.anchor.state = st ∧ s.anchor.nextSlot = slot) ∧
    (∀ st, ({ softHold with state := st } : Hold).state = st) ∧ (63 : Nat) ≠ 64 := by
  refine ⟨fun h failed st slot => ⟨.inl rfl, rfl, ?_, rfl, rfl, rfl⟩, fun _ => rfl, by decide⟩
  show (HoldTable.reset.entries.set 15 h)[15] = h
  simp

/-- WIPE at the head, every journal sector FREE instead of DIRTY when `clean`. -/
def wiping (erase : Option SectorNo) (failed clean : Bool) (s : State) : State :=
  ((s.onReclaim fun r => { r with queue := [⟨0, .wipe⟩], erase := erase }).onAnchor fun a =>
      { a with failed := failed }).onTable fun t =>
    if clean then { t with entries := tableMap (fun e => if e.state = .dirty then { e with state := .free } else e) t.entries }
    else t

theorem witness_WipeTaken :
    (∀ erase failed clean, let s := wiping erase failed clean (journalTwo on);
      Takes s ∧ HeadIs s.reclaim.queue 0 .wipe [] ∧ s.reclaim.wipeActive = false ∧ s.reclaim.erase = erase ∧
      s.anchor.failed = failed ∧ s.table.journal.Nodup ∧ s.host.device = .online) ∧
    (∀ erase failed clean, let s := wiping erase failed clean on; s.table.journal = []) ∧
    (∀ st : StreamNo, on.assembly.streams[st].state = .closed) ∧ (∀ i : CtxNo, on.assembly.contexts[i] = none) ∧
    (∀ id : Fin 16, on.holds.entries[id] = none) ∧ on.reader.active = none ∧ on.reader.fifo = [] ∧
    on.writer.state = .idle ∧
    (reading .wipe true).reclaim.wipeActive = true ∧ (openStream 1 0 on).assembly.streams[(0 : Fin 16)].state ≠ .closed ∧
    (∀ k : SectorNo, (journalTwo on).table.entries[k].state = .dirty → (journalTwo on).table.entries[k].range = none) ∧
    (2 ∈ (journalTwo on).table.journal ∧
      ∀ k : SectorNo, k < 2 → k ∉ (journalTwo on).table.journal ∧ (journalTwo on).table.entries[k].state ≠ .dirty) ∧
    (∀ k : SectorNo, (wiping none false true on).table.entries[k].state ≠ .dirty) := by
  refine ⟨fun erase failed clean => by cases clean <;> exact ⟨.inl rfl, rfl, rfl, rfl, rfl, (by show [(2 : SectorNo)].Nodup; decide), rfl⟩,
    fun erase failed clean => by cases clean <;> rfl, by decide +kernel, no_ctx on (by decide +kernel), by decide +kernel, rfl, rfl, rfl,
    rfl, by decide +kernel, fun k => of_decide_eq_true (all_of (journalTwo on).table.entries
      (fun e => decide (e.state = .dirty → e.range = none)) (by decide +kernel) k), by decide +kernel,
    fun k => of_decide_eq_true (all_of (wiping none false true on).table.entries
      (fun e => decide (e.state ≠ .dirty)) (by decide +kernel) k)⟩

/-- What follows in the same happening: the lowest DIRTY member is erased; with nothing DIRTY the wipe joins the anchor,
which is idle in its last slot, past it, busy, or failed. -/
theorem witness_WipeGoesOn :
    (after .wipe (wiping (some 9) false false (journalTwo on))).reclaim.state = .wiping ∧
    (after .wipe (wiping none false true (journalTwo on))).reclaim.erase = some 2 ∧
    (∀ slot st, let s := (wiping none false true on).onAnchor fun a => { a with nextSlot := slot, state := st };
      s.anchor.nextSlot = slot ∧ s.anchor.state = st ∧ s.anchor.failed = false ∧ s.table.journal = []) ∧
    (let t := after .wipe (wiping none false true on); t.anchor.covered = [.wipe] ∧ t.writer.nextJsn = some 1) ∧
    (after .wipe (wiping none true true on)).host.posting = [.outcome 0 .anchorFailed {}] := by
  refine ⟨by decide +kernel, by decide +kernel, fun _ _ => ⟨rfl, rfl, rfl, rfl⟩, by decide +kernel, by decide +kernel⟩

/-! ### Ticks and transfers -/

/-- Stream 0 has age limit 5; context 0 has age 4, or 3. -/
def aging (age : Nat) (seq : Seq) : State := withCtx { ctx 0 seq with age := age } (openStream 1 5 on)

theorem witness_TickTaken :
    (at_ .setup).host.device = .setup ∧
    (∀ age, (aging age 1).host.device = .online ∧
      (aging age 1).assembly.contexts[(0 : CtxNo)] = some { ctx 0 1 with age := age }) ∧
    (let c := { ctx 0 1 with age := 4 };
      let e := (aging 4 1).assembly.streams[c.stream];
      c.state = .gathering ∧ c.transfers = [] ∧ e.state = .opened ∧ 0 < e.ageLimit ∧ c.age + 1 = e.ageLimit ∧
      3 + 1 ≠ e.ageLimit) ∧
    (moving 1).transfers ≠ [] ∧ ({ ctx 0 1 with state := .complete } : Context).state = .complete := by
  refine ⟨rfl, fun age => ⟨rfl, rfl⟩, by decide +kernel, by decide +kernel, rfl⟩

/-- R51, R77: the stall reaches its limit at this tick, position 0 is passed over in the same tick, and a record that is
COMPLETE at position 1 is then admitted. -/
theorem test_tick_skips :
    let t := after .tick (modStream 0 (fun e => { e with stallAge := 4 })
      (withCtx { ctx 0 1 with state := .complete } (openStream 1 5 on)))
    t.host.posting = [.notice (.sequenceSkipped 0 0#16)] ∧ t.writer.queue = [0] ∧
      t.assembly.streams[(0 : Fin 16)].nextAdmission = 2 := by decide +kernel

/-- R78: at age 4 of 5 the next tick discards the record with its notice. -/
theorem test_tick_expires :
    (after .tick (aging 4 1)).assembly.contexts[(0 : CtxNo)] = none ∧
    (after .tick (aging 4 1)).host.posting = [.notice (.assemblyExpired 0 1#16)] ∧
    (after .tick (aging 3 1)).assembly.contexts[(0 : CtxNo)] = some { ctx 0 1 with age := 4 } := by decide +kernel

/-- The stream is stalled at position 0, with position 1 held and stall age 4 of 5. -/
def stalled : State := modStream 0 (fun e => { e with stallAge := 4 }) (aging 0 1)

theorem witness_ExpiriesAndSkips :
    (let s := aging 4 7;
      let c := { ctx 0 7 with age := 4 };
      let e := s.assembly.streams[c.stream];
      s.host.device = .online ∧ s.assembly.contexts[(0 : CtxNo)] = some c ∧ c.state = .gathering ∧ c.transfers = [] ∧
      c.deferred = none ∧ e.state = .opened ∧ 0 < e.ageLimit ∧ c.age + 1 = e.ageLimit ∧
      0 < (c.seq - e.nextAdmission).toNat ∧ e.abandoned.getLsbD 0 = false) ∧
    (∀ st seq, NotComplete (aging 4 7).assembly st seq) ∧
    (let e := stalled.assembly.streams[(0 : Fin 16)];
      e.state = .opened ∧ 0 < e.ageLimit ∧ e.stallAge + 1 = e.ageLimit ∧ e.abandoned.getLsbD 0 = false ∧
      e.abandoned.getLsbD 1 = false) ∧
    (¬∃ (i : CtxNo) (c : Context), stalled.assembly.contexts[i] = some c ∧ c.stream = 0 ∧ c.seq = 0 ∧
      c.state.inWindow = true) ∧
    (stalled.assembly.contexts[(0 : CtxNo)] = some (ctx 0 1) ∧ (ctx 0 1).seq = 0 + BitVec.ofNat 16 1 ∧
      (ctx 0 1).state.inWindow = true) := by
  refine ⟨by decide +kernel, fun st seq => notComplete_ctx { ctx 0 7 with age := 4 } _ st seq (by decide),
    by decide +kernel, ?_, by decide +kernel⟩
  rintro ⟨i, c, h, _, hs, _⟩
  have := (ctx_only (ctx 0 1) (openStream 1 5 on) i c h).2
  subst this; exact absurd hs (by decide)

/-- Stream 0 is CLOSING, and its CLOSE_STREAM waits in slot 9. -/
def closingNow (s : State) : State := modStream 0 (fun e => { e with state := .closing, pendingClose := some 9 }) s

theorem inFlight_ctx (c : Context) (t : Transfer) (s : State) (h : t ∈ c.transfers)
    (hu : ∀ u ∈ c.transfers, u.slot = t.slot → u = t) : InFlight (withCtx c s).assembly 0 c t :=
  ⟨by simp [withCtx, State.onAssembly], h, hu, fun j x hx _ => (ctx_only c s j x hx).1⟩

/-- One transfer left of a record, whose total is known and covered when `whole`. -/
def lastMove (st : CtxState) (seq : Seq) (whole : Bool) : Context :=
  { moving 1 with state := st, seq := seq, total := if whole then some 512 else none }

theorem witness_TransfersEnd :
    (∀ st seq whole, let s := withCtx (lastMove st seq whole) (openStream 1 0 on);
      s.host.device ≠ .halted ∧ s.assembly.held = none ∧ InFlight s.assembly 0 (lastMove st seq whole) (transfer 0) ∧
      (zeros 512).length = (transfer 0).length ∧ s.assembly.streams[(0 : Fin 16)].state = .opened ∧
      s.assembly.streams[(0 : Fin 16)].nextAdmission = 0 ∧ (lastMove st seq whole).state = st) ∧
    (without 0 (lastMove .gathering 0 true).transfers = [] ∧ (lastMove .gathering 0 true).total = some 512 ∧
      (lastMove .gathering 0 true).coverage = [(0, 512)]) ∧
    (lastMove .gathering 0 false).total = none ∧ (lastMove .gathering 7 true).seq ≠ 0 ∧
    Sole (withCtx (lastMove .gathering 0 true) (openStream 1 0 on)).assembly 0 0 0 (lastMove .gathering 0 true) ∧
    NotComplete (withCtx (lastMove .gathering 0 true) (openStream 1 0 on)).assembly 0 1 ∧
    without 0 { moving 2 with state := .aborting }.transfers ≠ [] ∧
    ((lastMove .aborting 0 true).deferred = none ∧ on.assembly.streams[(0 : Fin 16)].state = .closed) ∧
    (∀ c s, (closingNow (withCtx c s)).assembly.streams[(0 : Fin 16)].state ≠ .opened ∧
      (closingNow (withCtx c s)).assembly.contexts = (withCtx c s).assembly.contexts) ∧
    (let s := (withCtx (lastMove .aborting 7 true) (openStream 1 0 on)).onAssembly fun a =>
        { a with held := some ⟨9, append 0 512 512⟩ };
      s.assembly.held = some ⟨9, append 0 512 512⟩ ∧ row (append 0 512 512) = .append ∧ Takes s) := by
  refine ⟨fun st seq whole => ⟨by show DeviceState.online ≠ .halted; decide, rfl,
    inFlight_ctx (lastMove st seq whole) (transfer 0) _ ?_ ?_, by decide +kernel, by rfl, by rfl, rfl⟩, by decide +kernel, rfl,
    by decide, sole_ctx (lastMove .gathering 0 true) _, notComplete_ctx (lastMove .gathering 0 true) _ 0 1 (by decide),
    by decide +kernel, ⟨rfl, rfl⟩, fun c s => ⟨fun h => ?_, rfl⟩, ⟨rfl, rfl, .inl rfl⟩⟩
  rotate_left 2
  · rw [show (closingNow (withCtx c s)).assembly.streams[(0 : Fin 16)].state = .closing by
      simp [closingNow, modStream, State.onAssembly, tableMod]] at h
    cases h
  · show transfer 0 ∈ [transfer 0]; simp
  · intro u hu _
    have : u ∈ [transfer 0] := hu
    simpa using this

/-- R69: the record is complete and stands at position 0, so it joins the commit queue. -/
theorem test_transfer_end :
    (after (.transferEnd 0 (zeros 512)) (withCtx (lastMove .gathering 0 true) (openStream 1 0 on))).writer.queue = [0] ∧
    (after (.transferEnd 0 (zeros 512)) (withCtx (lastMove .gathering 0 false) (openStream 1 0 on))).host.posting
      = [.outcome 0 .accepted {}] := by decide +kernel

/-- R44, R60, R71: the last transfer of an ABORTING record closes its CLOSING stream; in an OPEN one its position is
passed over, and a held APPEND of that sequence is then taken, and refused STALE. -/
theorem test_transfer_end_aborting :
    (after (.transferEnd 0 (zeros 512)) (closingNow (withCtx (lastMove .aborting 0 true) (openStream 1 0 on)))).host.posting
      = [.outcome 0 .aborted {}, .outcome 9 .ok {}] ∧
    (after (.transferEnd 0 (zeros 512)) ((withCtx (lastMove .aborting 0 true) (openStream 1 0 on)).onAssembly fun a =>
      { a with held := some ⟨9, append 0 512 512⟩ })).host.posting = [.outcome 0 .aborted {}, .outcome 9 .stale {}] := by
  decide +kernel

/-- Bytes 1 to 2 of a record whose entry 0 holds block 383; another record holds block 0. -/
theorem witness_StagedBytesKept :
    let map : Vector (Option BlockNo) 16 := (Vector.replicate 16 none).set 0 (some 383)
    let other : Vector (Option BlockNo) 16 := (Vector.replicate 16 none).set 15 (some 0)
    stagingWf [] = true ∧ (mappedBlocks map).Nodup ∧ 1 + [0xAA#8, 0xBB#8].length ≤ 4 ∧ 4 ≤ 8192 ∧
      (∀ k : Fin 16, 512 * k.val < 3 → 1 < 512 * (k.val + 1) → map[k] ≠ none) ∧
      (∀ b ∈ mappedBlocks other, b ∉ mappedBlocks map) := by decide +kernel

theorem witness_TransfersFail :
    (∀ st seq whole, let s := withCtx (lastMove st seq whole) (openStream 1 0 on);
      s.host.device ≠ .halted ∧ s.assembly.held = none ∧ InFlight s.assembly 0 (lastMove st seq whole) (transfer 0)) ∧
    removeInterval 0 (0 + 512) (moving 2).coverage ≠ [] ∧
    (removeInterval 0 (0 + 512) (lastMove .gathering 0 true).coverage = [] ∧
      (lastMove .gathering 0 true).deferred = none ∧ (lastMove .gathering 0 true).state ≠ .aborting) ∧
    ({ moving 2 with state := .aborting }.state = .aborting ∧
      without 0 { moving 2 with state := .aborting }.transfers ≠ []) := by
  refine ⟨fun st seq whole => ?_, by decide +kernel, by decide +kernel, by decide +kernel⟩
  have h := (witness_TransfersEnd.1 st seq whole)
  exact ⟨h.1, h.2.1, h.2.2.1⟩

/-! ### The Journal Writer -/

/-- An entry of a short list, ANCHOR for sectors 0 and 1, else the default. -/
def entryOf (d : SectorEntry) (l : List (SectorNo × SectorEntry)) (k : SectorNo) : SectorEntry :=
  match l.lookup k with
  | some e => e
  | none => if k.val < 2 then { SectorEntry.reset with state := .anchor } else d

def withTable (d : SectorEntry) (l : List (SectorNo × SectorEntry)) (journal : List SectorNo) (s : State) : State :=
  s.onTable fun t => { t with entries := tabulate 256 (entryOf d l), journal := journal }

theorem withTable_get (d : SectorEntry) (l : List (SectorNo × SectorEntry)) (j : List SectorNo) (s : State)
    (k : SectorNo) : (withTable d l j s).table.entries[k] = entryOf d l k := by
  simp only [withTable, State.onTable]; exact tabulate_get _ _

/-- Sector 5 is CLOSED with JSNs 1 to 8, sector 6 OPEN with JSN 9, in a journal that is mounted. -/
def listed : State :=
  (withTable SectorEntry.reset [
    (5, { SectorEntry.reset with state := .closed, epoch := some 1, baseJsn := some 1, range := some (1, 8) }),
    (6, { SectorEntry.reset with
      state := .opened, epoch := some 2, baseJsn := some 9, range := some (9, 9), nextFree := some 4 })] [5, 6] on).onMount
    fun m => { m with mounted := true }

theorem listed_get (k : SectorNo) : listed.table.entries[k] = entryOf SectorEntry.reset [
    (5, { SectorEntry.reset with state := .closed, epoch := some 1, baseJsn := some 1, range := some (1, 8) }),
    (6, { SectorEntry.reset with
      state := .opened, epoch := some 2, baseJsn := some 9, range := some (9, 9), nextFree := some 4 })] k :=
  withTable_get _ _ _ _ k

theorem listed_journal : listed.table.journal = [5, 6] := rfl

theorem no_findings (i : SectorNo) : listed.mount.findings[i] = .none := by
  show (Vector.replicate 256 Finding.none)[i] = _
  simp

theorem witness_ListsKept :
    (AnchorsApart listed ∧ JournalHeld listed ∧ step listed = .next listed) ∧
    (CoverageHeld (withCtx (moving 2) on) ∧ step (withCtx (moving 2) on) = .next (withCtx (moving 2) on)) := by
  refine ⟨⟨⟨fun i => ?_, by unfold IsJournal; decide +kernel, ?_, ?_, ?_, fun i h => ?_, ?_⟩, ?_, rfl⟩, ⟨fun i c h => ?_, ?_⟩, rfl⟩
  · rw [listed_get]; revert i; decide +kernel
  · intro i h; cases h
  · intro i h; cases h
  · intro i h; cases h
  · rw [no_findings] at h; cases h
  · intro i h; cases h
  · have hm : ∀ i ∈ listed.table.journal, i = 5 ∨ i = 6 := by rw [listed_journal]; intro i h; simpa using h
    refine ⟨by rw [listed_journal]; decide, fun i => ?_, fun i h => ?_, fun i h => ?_, ?_, fun i h a b hr => ?_, ?_,
      ?_, ?_, ?_, ?_, ?_, ?_, ?_, ?_, ?_, fun i w e p h => ?_, ?_⟩
    · rw [listed_get, listed_journal]; revert i; decide +kernel
    · rw [listed_get] at h; rw [listed_journal]; revert i; decide +kernel
    · rcases hm i h with rfl | rfl
      · exact ⟨1, congrArg SectorEntry.epoch (listed_get 5), by decide +kernel⟩
      · exact ⟨2, congrArg SectorEntry.epoch (listed_get 6), by decide +kernel⟩
    · rw [listed_journal]
      refine List.pairwise_pair.mpr fun a b ha hb => ?_
      rw [listed_get] at ha hb; cases ha; cases hb; decide
    · rcases hm i h with rfl | rfl <;> rw [listed_get] at hr <;> cases hr <;> exact ⟨by decide, by decide +kernel⟩
    · rw [listed_journal]
      refine List.pairwise_pair.mpr fun a b c d ha hb => ?_
      rw [listed_get] at ha hb; cases ha; cases hb; decide
    all_goals first
      | (intro h; exact absurd h (by decide +kernel))
      | (intro i h; cases h)
      | (rw [no_findings] at h; cases h)
  · have hc := (ctx_only (moving 2) on i c h).2
    subst hc
    exact ⟨by decide +kernel, by decide +kernel, by decide +kernel, by decide +kernel, by decide +kernel, by decide +kernel⟩
  · rintro r (h | h) <;> cases h

/-- A sector in a state, with next free line `p`. -/
def inState (st : SectorState) (p : Nat) : SectorEntry :=
  { SectorEntry.reset with state := st, nextFree := if st = .opened then some p else none }

theorem withTable_open (l : List (SectorNo × SectorEntry)) (j : List SectorNo) (s : State) (o : SectorNo)
    (h : ∀ k : SectorNo, (entryOf SectorEntry.reset l k).state = .opened ↔ k = o) :
    IsOpen (withTable SectorEntry.reset l j s).table o := fun k => by rw [withTable_get]; exact h k

theorem withTable_noneOpen (d : SectorEntry) (l : List (SectorNo × SectorEntry)) (j : List SectorNo) (s : State)
    (h : ∀ k : SectorNo, (entryOf d l k).state ≠ .opened) : NoneOpen (withTable d l j s).table :=
  fun k => by rw [withTable_get]; exact h k

/-- A record of a stream-0 context with its total. -/
def rec_ (total : Nat) : Context := { ctx 0 0 with state := .writing, total := some total, tag := some 7#32 }

/-- The writer in a state with the record of context 0 in hand, over the sectors given. -/
def writer (c : Context) (n epoch : Nat) (st : WriterState) (l : List (SectorNo × SectorEntry)) : State :=
  withTable SectorEntry.reset l (l.map Prod.fst) ((withCtx c (openStream 1 0 on)).onWriter fun w =>
    { w with state := st, record := some 0, nextJsn := some n, nextEpoch := some epoch })

theorem writer_inHand (c : Context) (n epoch : Nat) (st : WriterState) (l : List (SectorNo × SectorEntry))
    (f : Writer → Writer) (hr : (f (writer c n epoch st l).writer).record = some 0)
    (hj : (f (writer c n epoch st l).writer).nextJsn = some n)
    (he : (f (writer c n epoch st l).writer).nextEpoch = some epoch) :
    InHand ((writer c n epoch st l).onWriter f) 0 c n epoch :=
  ⟨hr, by simp [writer, withTable, withCtx, State.onAssembly, State.onTable, State.onWriter], hj, he⟩

/-- Lines 1,790 and 1,791 are the last that takes a record of 8,192 bytes (258 lines) and the first that does not. -/
theorem witness_QueueHeadTaken :
    (∀ n p, let s := (writer (rec_ 8192) n 4 .idle [(5, inState .opened p)]).onWriter fun w =>
        { w with queue := [0], record := none };
      s.host.device ≠ .halted ∧ s.writer.state = .idle ∧ s.writer.queue = 0 :: [] ∧
      s.assembly.contexts[(0 : CtxNo)] = some (rec_ 8192) ∧ s.writer.nextJsn = some n ∧ s.writer.nextEpoch = some 4 ∧
      IsOpen s.table 5 ∧ s.table.entries[(5 : SectorNo)].nextFree = some p) ∧
    1790 + (2 + (8192 + 31) / 32) ≤ 2048 ∧ 2048 < 1791 + (2 + (8192 + 31) / 32) ∧
    NoneOpen (writer (rec_ 8192) 0xFFFFFFFE 4 .idle []).table := by
  refine ⟨fun n p => ⟨by show DeviceState.online ≠ .halted; decide, rfl, rfl, ?_, rfl, rfl, ?_, ?_⟩, by decide, by decide,
    withTable_noneOpen _ [] _ _ (by decide +kernel)⟩
  · exact (writer_inHand (rec_ 8192) n 4 .idle _ id rfl rfl rfl).context
  · refine withTable_open _ _ _ 5 fun k => ?_
    by_cases h : k = 5
    · subst h; exact ⟨fun _ => rfl, fun _ => rfl⟩
    · refine ⟨fun h' => ?_, fun h' => absurd h' h⟩
      have : (k == (5 : SectorNo)) = false := by simpa using h
      simp only [entryOf, List.lookup, this] at h'
      split at h' <;> exact absurd h' (by decide)
  · exact congrArg SectorEntry.nextFree (withTable_get _ _ _ _ 5)

/-- A sector is asked for: two FREE sectors of one wear and one of less (R22); none FREE, with DIRTY ones (R24) or
with nothing that space could come from. -/
theorem witness_SectorAsked :
    LowestWear (withTable SectorEntry.reset
      [(9, inState .free 0), (7, { inState .free 0 with wear := 3 }), (255, inState .free 0)] [] on).table 9 ∧
    NoneFree on.table ∧ SpaceComes on ∧ Notices on ∧
    (let s := withTable (inState .retired 0) [] [] on;
      NoneFree s.table ∧ ¬SpaceComes s) ∧
    (let s := withTable (inState .retired 0) [(6, inState .erasing 0)] [] (at_ .draining);
      ∃ k : SectorNo, s.table.entries[k].state = .erasing) := by
  refine ⟨⟨by rw [withTable_get]; rfl, fun k => ?_⟩, fun k => of_decide_eq_true (all_of on.table.entries
      (fun e => decide (e.state ≠ .free)) (by decide +kernel) k), ⟨2, .inr (.inl (by decide +kernel))⟩, by unfold Notices; decide,
    ⟨fun k => ?_, ?_⟩, ⟨6, by rw [withTable_get]; rfl⟩⟩
  · rw [withTable_get, withTable_get]; revert k; decide +kernel
  · rw [withTable_get]; revert k; decide +kernel
  · rintro ⟨k, h⟩
    rw [withTable_get] at h
    have : ∀ k : SectorNo, (entryOf (inState .retired 0) [] k).state ≠ .erasing ∧
        (entryOf (inState .retired 0) [] k).state ≠ .dirty ∧ (entryOf (inState .retired 0) [] k).state ≠ .closed := by
      decide +kernel
    rcases h with h | h | h
    · exact (this k).1 h
    · exact (this k).2.1 h
    · exact (this k).2.2 h.1

theorem witness_SpaceAskedAgain :
    let s := (writer (rec_ 1) 0xFFFFFFFE 4 .waitingSpace []).onWriter fun w => { w with spaceSignal := true }
    s.host.device ≠ .halted ∧ (s.writer.state = .waitingSpace ∧ s.writer.spaceSignal = true) ∧
      InHand s 0 (rec_ 1) 0xFFFFFFFE 4 ∧ on.writer.state ≠ .waitingSpace :=
  ⟨by show DeviceState.online ≠ .halted; decide, ⟨rfl, rfl⟩, writer_inHand (rec_ 1) 0xFFFFFFFE 4 .waitingSpace [] _ rfl rfl rfl,
    by decide⟩

/-- An APPEND is held, and the writer waits for space with a record in hand. -/
theorem witness_EnableClear :
    (at_ .mounting).host.device ≠ .online ∧
    (on.host.device = .online ∧ on.assembly.held = none ∧ on.writer.state ≠ .waitingSpace) ∧
    (let s := on.onAssembly fun a => { a with held := some ⟨0, append 0 0 1⟩ };
      s.host.device = .online ∧ s.assembly.held = some ⟨0, append 0 0 1⟩ ∧ row (append 0 0 1) = .append) ∧
    (let s := writer (rec_ 1) 10 4 .waitingSpace [];
      s.host.device = .online ∧ s.writer.state = .waitingSpace ∧ InHand s 0 (rec_ 1) 10 4) :=
  ⟨by decide, ⟨rfl, rfl, by decide⟩, ⟨rfl, rfl, rfl⟩, rfl, rfl, writer_inHand (rec_ 1) 10 4 .waitingSpace [] id rfl rfl rfl⟩

/-- R53, R80: a record with a transfer in flight is ABORTING, one without is gone, and the position below a COMPLETE one
is skipped, each with its notice; the COMPLETE record then joins the commit queue. -/
theorem test_enable_clear :
    (let t := after .ctrlEnableClear (withCtx (moving 1) (openStream 1 0 on));
      t.assembly.contexts[(0 : CtxNo)] = some { moving 1 with state := .aborting } ∧
      t.host.posting = [.notice (.assemblyDrained 0 0#16)]) ∧
    (let t := after .ctrlEnableClear (withCtx { ctx 0 1 with state := .complete } (openStream 1 0 on));
      t.host.posting = [.notice (.sequenceSkipped 0 0#16)] ∧ t.writer.queue = [0]) := by decide +kernel

/-- OPENING with sector 9 in hand; sector 5 is OPEN at the next free line given, or nothing is OPEN. -/
def headerDone (headerEpoch : Option Nat) (l : List (SectorNo × SectorEntry)) (o : ArrayOutcome) : State :=
  withOutcome .writer o ((writer (rec_ 8192) 10 4 .opening ((9, inState .free 0) :: l)).onWriter fun w =>
    { w with sectorInHand := some 9, headerEpoch := headerEpoch })

theorem witness_HeadersProgrammed :
    (∀ used l o, let s := headerDone used l o;
      InHand s 0 (rec_ 8192) 10 4 ∧ s.writer.state = .opening ∧ s.writer.sectorInHand = some 9 ∧
      s.table.entries[(9 : SectorNo)].state = .free ∧ (rec_ 8192).total.getD 0 ≤ 8192 ∧ s.writer.headerEpoch = used ∧
      Answers s .writer o) ∧
    (∀ used o, ∀ p ∈ [2047, 2048], let s := headerDone used [(5, inState .opened p)] o;
      IsOpen s.table 5 ∧ s.table.entries[(5 : SectorNo)].nextFree = some p) ∧
    (∀ used o, NoneOpen (headerDone used [] o).table) := by
  refine ⟨fun used l o => ⟨?_, rfl, rfl, ?_, by decide, rfl, ⟨by show DeviceState.online ≠ .halted; decide, rfl⟩⟩,
    fun used o p hp => ⟨withTable_open _ _ _ 5 ?_, congrArg SectorEntry.nextFree (withTable_get _ _ _ _ 5)⟩,
    fun used o => withTable_noneOpen _ _ _ _ (by decide +kernel)⟩
  · have h := writer_inHand (rec_ 8192) 10 4 .opening ((9, inState .free 0) :: l)
      (fun w => { w with sectorInHand := some 9, headerEpoch := used }) rfl rfl rfl
    exact ⟨h.record, h.context, h.jsn, h.epoch⟩
  · exact congrArg SectorEntry.state (withTable_get _ _ _ _ 9)
  · revert p; decide +kernel

/-- A record of 8,192 bytes at line 1 of sector 5, with the line it stands at and its placements so far. -/
def placed (st : WriterState) (line attempts : Nat) (deferred : Option SlotNo) (o : ArrayOutcome) : State :=
  withOutcome .writer o ((writer { rec_ 8192 with attempts := attempts, deferred := deferred } 10 4 st
    [(5, inState .opened 1)]).onWriter fun w => { w with placement := some ⟨5, 1, 258, line⟩ })

theorem placed_facts (st : WriterState) (line attempts : Nat) (deferred : Option SlotNo) (o : ArrayOutcome) :
    let s := placed st line attempts deferred o
    InHand s 0 { rec_ 8192 with attempts := attempts, deferred := deferred } 10 4 ∧ s.writer.state = st ∧
      s.writer.placement = some ⟨5, 1, 258, line⟩ ∧ Answers s .writer o ∧ IsOpen s.table 5 := by
  have h := writer_inHand { rec_ 8192 with attempts := attempts, deferred := deferred } 10 4 st [(5, inState .opened 1)]
    (fun w => { w with placement := some ⟨5, 1, 258, line⟩ }) rfl rfl rfl
  exact ⟨⟨h.record, h.context, h.jsn, h.epoch⟩, rfl, rfl, ⟨by show DeviceState.online ≠ .halted; decide, rfl⟩,
    withTable_open _ _ _ 5 (by decide +kernel)⟩

/-- The commit line is line 258: at 249 a whole burst ends below it, at 250 it ends there, at 258 nothing is left. -/
theorem witness_BurstsProgrammed :
    (∀ line attempts o, let s := placed .writing line attempts none o;
      InHand s 0 { rec_ 8192 with attempts := attempts } 10 4 ∧ s.writer.state = .writing ∧
      s.writer.placement = some ⟨5, 1, 258, line⟩ ∧ Answers s .writer o ∧ IsOpen s.table 5) ∧
    249 + min 8 (258 - 249) < 258 ∧ 250 + min 8 (258 - 250) = 258 ∧ 258 + min 8 (258 - 258) = 258 :=
  ⟨fun line attempts o => placed_facts .writing line attempts none o, by decide, by decide, by decide⟩

theorem witness_RecordsCommitted :
    ∀ attempts deferred o, let s := placed .committing 258 attempts deferred o
      InHand s 0 { rec_ 8192 with attempts := attempts, deferred := deferred } 10 4 ∧ s.writer.state = .committing ∧
        s.writer.placement = some ⟨5, 1, 258, 258⟩ ∧ Answers s .writer o ∧ IsOpen s.table 5 :=
  fun attempts deferred o => placed_facts .committing 258 attempts deferred o

/-- R95: the record of JSN 10 is committed and its command told so. -/
theorem test_commit :
    (after .commitLineProgrammed (placed .committing 258 1 (some 3) .programmed)).writer.nextJsn = some 11 ∧
    (after .commitLineProgrammed (placed .committing 258 1 (some 3) .programmed)).host.posting
      = [.outcome 3 .committed { at4 := 10#32 }] ∧
    (after .commitLineProgrammed (placed .committing 258 3 (some 3) (.programFailed 258 false))).host.posting
      = [.outcome 3 .writeFailed {}] := by decide +kernel

/-- R44, R73: the commit of the last record of a CLOSING stream closes it. -/
theorem test_commit_closes :
    (after .commitLineProgrammed (closingNow (placed .committing 258 1 none .programmed))).host.posting
      = [.outcome 9 .ok {}] := by decide +kernel

/-! ### Reclaim and anchor -/

/-- The Reclaim Unit idle and signalled. -/
def reclaimAt (d : SectorEntry) (l : List (SectorNo × SectorEntry)) (wipe : Bool) : State :=
  (withTable d l (l.map Prod.fst) on).onReclaim fun r => { r with signal := true, wipeActive := wipe }

def rangeOf (a b pins : Nat) : SectorEntry := { inState .closed 0 with range := some (a, b), pins := pins }

theorem no_hold : ∀ id : Fin 16, on.holds.entries[id] = none := by decide +kernel

theorem witness_ReclaimTested :
    (∀ d l wipe, (reclaimAt d l wipe).host.device ≠ .halted ∧ (reclaimAt d l wipe).reclaim.state = .idle ∧
      (reclaimAt d l wipe).reclaim.signal = true ∧ (reclaimAt d l wipe).host.setup = some setup ∧
      (reclaimAt d l wipe).host.device = .online ∧ (reclaimAt d l wipe).reclaim.wipeActive = wipe) ∧
    (let s := reclaimAt SectorEntry.reset [] false;
      s.table.entries[(2 : SectorNo)].state = .dirty ∧ ∀ k : SectorNo, k < 2 → ¬s.table.entries[k].state = .dirty) ∧
    (let s := reclaimAt (inState .retired 0) [(5, rangeOf 1 9 1), (6, rangeOf 10 10 0)] false;
      s.table.freeSet.length < setup.reserve ∧ (∀ k : SectorNo, s.table.entries[k].state ≠ .dirty) ∧
      s.table.journal = [5] ++ 6 :: [] ∧ s.table.entries[(5 : SectorNo)].pins ≠ 0 ∧
      s.table.entries[(6 : SectorNo)] = rangeOf 10 10 0 ∧ ∀ a b, ¬Held s.holds a b) ∧
    (reclaimAt (inState .retired 0) [(5, rangeOf 1 9 1)] false).table.journal = [5] := by
  refine ⟨fun d l wipe => ⟨by show DeviceState.online ≠ .halted; decide, rfl, rfl, rfl, rfl, rfl⟩,
    ⟨congrArg SectorEntry.state (withTable_get _ _ _ _ 2), fun k => ?_⟩,
    ⟨by decide +kernel, fun k => ?_, rfl, ?_, withTable_get _ _ _ _ 6, ?_⟩, rfl⟩
  · show k < 2 → ¬(withTable SectorEntry.reset [] [] on).table.entries[k].state = .dirty
    rw [withTable_get]; revert k; decide +kernel
  · show (withTable _ _ _ on).table.entries[k].state ≠ .dirty
    rw [withTable_get]; revert k; decide +kernel
  · rw [show (reclaimAt (inState .retired 0) [(5, rangeOf 1 9 1), (6, rangeOf 10 10 0)] false).table.entries[(5 : SectorNo)]
      = rangeOf 1 9 1 from withTable_get _ _ _ _ 5]; decide
  · rintro a b ⟨id, h, hh, _⟩
    exact absurd ((no_hold id).symm.trans hh) (by simp)

/-- Sector 5 is ERASING with its wear and its marking, and its erase has ended. -/
def erased (st : ReclaimState) (wear : Nat) (pending : Bool) (o : ArrayOutcome) : State :=
  withOutcome .reclaim o ((withTable SectorEntry.reset [(5, { inState .erasing 0 with
      wear := wear, retirePending := pending, reason := if pending then .weak else .noReason })] [] on).onReclaim
    fun r => { r with state := st, erase := some 5 })

theorem witness_ErasesSettled :
    ∀ st wear pending, ∀ ok : Bool, let s := erased st wear pending (if ok then .erased else .eraseFailed)
      s.reclaim.erase = some 5 ∧ s.table.entries[(5 : SectorNo)].state = .erasing ∧ (5 : SectorNo) ∉ s.table.journal ∧
        Notices s ∧ Answers s .reclaim (if ok then .erased else .eraseFailed) ∧
        s.table.entries[(5 : SectorNo)].wear = wear ∧ s.table.entries[(5 : SectorNo)].retirePending = pending ∧
        s.reclaim.state = st ∧ s.reclaim.signal = false := by
  intro st wear pending ok
  refine ⟨rfl, congrArg SectorEntry.state (withTable_get _ _ _ _ 5), by show (5 : SectorNo) ∉ []; simp,
    ⟨by show DeviceState.online ≠ .offline; decide, by show DeviceState.online ≠ .setup; decide⟩,
    ⟨by show DeviceState.online ≠ .halted; decide, rfl⟩, congrArg SectorEntry.wear (withTable_get _ _ _ _ 5),
    congrArg SectorEntry.retirePending (withTable_get _ _ _ _ 5), rfl, rfl⟩

/-- R33, R104, R111: an erase that brings the wear to 100,000 leaves the sector RETIRED as worn, one short of it FREE; then
the next DIRTY sector is erased, or the wipe goes on. -/
theorem test_erase_end :
    ((after .eraseEnd (erased .reclaiming 99999 false .erased)).table.entries[(5 : SectorNo)]).reason = .worn ∧
    ((after .eraseEnd (erased .reclaiming 99998 false .erased)).table.entries[(5 : SectorNo)]).state = .free ∧
    (after .eraseEnd (erased .reclaiming 99999 false .erased)).reclaim.erase = some 2 ∧
    (after .eraseEnd (erased .wiping 0 false .erased)).reclaim.state = .wiping := by decide +kernel

/-- A snapshot in progress that covers a retirement, hold 15 and a wipe, with changes waiting or not. -/
def snap (request : Fin 4) (attempts : Nat) (rolled : Bool) : Snapshot :=
  ⟨Vector.replicate 16 none, 0#256, 1, attempts, rolled, 62, request⟩

def snapping (x : Snapshot) (st : AnchorState) (nextSlot : Nat) (hold : HoldState) (waiting : List Change)
    (o : ArrayOutcome) : State :=
  withOutcome .anchor o (((on.onAnchor fun a => { a with
      state := st, nextSlot := nextSlot, snapshot := some x, covered := [.retire 9, .hold 15, .wipe]
      waiting := waiting, pendingFlag := !waiting.isEmpty }).onHolds
    fun t => { t with entries := t.entries.set 15 (some ⟨hold, 5, some 9, 0#32, some 7, some 6⟩) }).onReclaim
    fun r => { r with state := .wipeFinishing, wipeActive := true, wipeSlot := some 8 })

theorem witness_SnapshotsWritten :
    (∀ x st slot hold waiting o, let s := snapping x st slot hold waiting o;
      s.anchor.snapshot = some x ∧ s.anchor.state = st ∧ Answers s .anchor o ∧ s.anchor.pendingFlag = !waiting.isEmpty ∧
      s.anchor.covered = [.retire 9, .hold 15, .wipe] ∧
      s.holds.entries[(15 : Fin 16)] = some ⟨hold, 5, some 9, 0#32, some 7, some 6⟩ ∧ s.anchor.nextSlot = slot) ∧
    (∀ k, (snap k 0 false).request = k) ∧ (snap 0 1 false).attempts + 1 < 3 ∧ 3 ≤ (snap 0 2 true).attempts + 1 ∧
    (63 : Nat) ≤ 63 ∧ (63 : Nat) < 64 ∧ (∀ r, (snap 0 2 r).rolled = r) := by
  refine ⟨fun x st slot hold waiting o => ⟨rfl, rfl, ⟨by show DeviceState.online ≠ .halted; decide, rfl⟩, rfl, rfl, ?_, rfl⟩,
    fun _ => rfl, by decide, by decide, by decide, by decide, fun _ => rfl⟩
  show (HoldTable.reset.entries.set 15 _)[15] = _
  simp

/-- R112, R125, R127: the commit line settles every change it covers, in their order, and the change that waits starts the
next snapshot; a third attempt failed after a rollover fails the anchor, and every change with it. -/
theorem test_snapshot :
    (let t := after .snapshotProgramEnd (snapping (snap 3 0 false) .writing 63 .fixing [.retire 4] .programmed);
      t.host.posting = [.outcome 7 .ok { at4 := 6#32, at12 := 15#16 }, .outcome 8 .ok {}] ∧ t.anchor.generation = 1 ∧
      t.anchor.state = .writing ∧ t.anchor.nextSlot = 64 ∧ t.anchor.covered = [.retire 4]) ∧
    (let t := after .snapshotProgramEnd (snapping (snap 0 2 true) .writing 63 .unfixing [] (.programFailed 0 false));
      t.host.posting = [.outcome 7 .anchorFailed {}, .outcome 8 .anchorFailed {}, .notice .anchorFailed] ∧
      t.anchor.failed = true ∧ (t.holds.entries[(15 : Fin 16)].map (·.state)) = some .fixed) := by decide +kernel

/-! ### The Read Unit -/

/-- A READ or a SCAN at the head of the read FIFO, with the journal empty or holding JSNs 1 to 9. -/
def readReady (c : Cmd) (s : State) : State := s.onReader fun r => { r with fifo := [⟨0, c⟩] }

theorem witness_ReadsBegin :
    (∀ c, let s := readReady c (journalTwo on);
      s.host.device ≠ .halted ∧ s.reader.active = none ∧ s.reader.pinned = none ∧ s.writer.nextJsn = some 10 ∧
      s.reader.fifo = ⟨0, c⟩ :: [] ∧ s.table.journal = [] ++ 2 :: []) ∧
    (∀ c, (readReady c on).table.journal = []) ∧
    (∀ c, (readReady c (journalTwo on)).table.entries[(2 : SectorNo)].range = some (1, 9) ∧
      (readReady c (journalTwo on)).table.entries[(2 : SectorNo)].baseJsn.getD 0 < 10) := by
  refine ⟨fun c => ⟨by show DeviceState.online ≠ .halted; decide, rfl, rfl, rfl, rfl, rfl⟩, fun _ => rfl, fun c => ?_⟩
  show (journalTwo on).table.entries[(2 : SectorNo)].range = some (1, 9) ∧
    (journalTwo on).table.entries[(2 : SectorNo)].baseJsn.getD 0 < 10
  decide +kernel

/-- Records of one byte 1,000 and of 8,192 bytes at the end of a sector, both with JSN 9. -/
def shortRecord : RecordHeader := ⟨false, 0, 1#16, 9, 1, 7#32, 0#32⟩
def longRecord : RecordHeader := ⟨true, 15, 0xFFFF#16, 9, 8192, 7#32, 0#32⟩

def read9 (length : Nat) (header : Bool) : Cmd := .read 9 0x1000#64 length header
def scan1 (filter : Option StreamNo) (length : Nat) : Cmd := .scan 1 filter 2 0x1000#64 length

/-- The active command stands at a stage in sector 5, of the two of the journal, with an outcome of the array. -/
def walkingAt (c : Cmd) (g : Option ScanProgress) (expected : Nat) (stage : ReadStage) (tally : Nat)
    (l : List LineOutcome) : State :=
  withOutcome .reader (.lines l) (listed.onReader fun r => { r with
    active := some ⟨0, c⟩, pinned := some 5, expected := expected, scan := g, tally := tally, stage := some stage })

theorem listed_ranges :
    listed.table.journal = [] ++ 5 :: ([] ++ 6 :: []) ∧ listed.table.journal = [5] ++ 6 :: [] ∧
    listed.table.entries[(5 : SectorNo)].range = some (1, 8) ∧ listed.table.entries[(6 : SectorNo)].range = some (9, 9) ∧
    listed.table.entries[(6 : SectorNo)].baseJsn = some 9 ∧ listed.writer.nextJsn = some 10 := by
  refine ⟨rfl, rfl, ?_, ?_, ?_, rfl⟩ <;> (rw [listed_get]; rfl)

theorem witness_WalkedLines :
    (∀ c g expected stage tally l, let s := walkingAt c g expected stage tally l;
      Answers s .reader (.lines l) ∧ s.reader.pinned = some 5 ∧ s.reader.active = some ⟨0, c⟩ ∧ s.reader.scan = g ∧
      s.reader.stage = some stage ∧ s.reader.tally = tally ∧ s.reader.expected = expected ∧ s.table = listed.table ∧
      s.writer = listed.writer) ∧
    (∀ length header filter, row (read9 length header) = .read ∧ row (scan1 filter length) = .scan) ∧
    viewHeader 9 1790 (.clean (recordHeaderLine longRecord)) = .data longRecord ∧
    viewHeader 9 1791 (.clean (recordHeaderLine longRecord)) = .invalid ∧
    viewHeader 9 2047 (.clean (padLine 9)) = .pad ∧ viewHeader 9 1 (.clean (List.replicate 32 0xFF#8)) = .erased ∧
    viewHeader 9 1 .uncorrectable = .unreadable ∧
    (validCommit shortRecord (.corrected (commitLine 9 1 5#32)) = some 5#32 ∧ shortRecord.jsn = 9 ∧
      shortRecord.jsn ≠ 10 ∧ 2045 + (2 + (shortRecord.length + 31) / 32) = 2048 ∧
      2044 + (2 + (shortRecord.length + 31) / 32) ≠ 2048 ∧
      validCommit shortRecord (.clean (commitLine 9 2 5#32)) = none ∧ validCommit shortRecord .uncorrectable = none) ∧
    (Wanted none ⟨0, 0, false, 9⟩ shortRecord ∧ Wanted (some 15) ⟨0, 0, false, 1⟩ longRecord ∧
      ¬Wanted none ⟨0, 0, false, 10⟩ shortRecord ∧ ¬Wanted (some 14) ⟨0, 0, false, 1⟩ longRecord) ∧
    (60 + (32 + 8 * ((shortRecord.length + 7) / 8)) ≤ 100 ∧ ¬60 + (32 + 8 * ((shortRecord.length + 7) / 8)) ≤ 99) ∧
    (8 < 9 ∧ ¬8 < 8 ∧ 9 < 10 ∧ 10 ≤ 10) ∧
    (allReadable [.clean (zeros 32), .uncorrectable] = none ∧
      allReadable [.clean (zeros 32), .corrected (zeros 32)] = some [zeros 32, zeros 32] ∧
      0 + 64 < (longRecord.length + 31) / 32 ∧ (longRecord.length + 31) / 32 ≤ 192 + 64) ∧
    (let image := descriptor shortRecord ++ zeros 32;
      let payload := (image.drop 32).take 1;
      crc32 payload = crc32 [0#8] ∧ crc32 payload ≠ crc32 [1#8] ∧ 32 + 8 * ((shortRecord.length + 7) / 8) = 40) := by
  refine ⟨fun c g expected stage tally l => ⟨⟨by show DeviceState.online ≠ .halted; decide, rfl⟩, rfl, rfl, rfl, rfl, rfl,
    rfl, rfl, rfl⟩, fun _ _ _ => ⟨rfl, rfl⟩, ?_⟩
  unfold Wanted
  refine ⟨?_, ?_, ?_, ?_, ?_, ?_, ⟨by decide, by decide, by decide, by decide⟩, ?_⟩ <;> decide +kernel

/-- R142, R143: an erased header at the end of a sector's records moves a SCAN on to the next member; one below the
sector's last JSN, and any for a READ, is decay. -/
theorem test_scan_moves_on :
    (let t := after .readUnitLinesRead (walkingAt (scan1 none 100) (some ⟨1, 40, false, 1⟩) 9 (.header 7) 0 [.clean (List.replicate 32 0xFF#8)]);
      t.reader.pinned = some 6 ∧ t.ctrl.placed.get .reader = some (.readLines 6 1 1) ∧ t.reader.expected = 9) ∧
    (after .readUnitLinesRead (walkingAt (scan1 none 100) (some ⟨1, 40, true, 1⟩) 8 (.header 7) 0 [.clean (List.replicate 32 0xFF#8)])).host.posting
      = [.outcome 0 .corrupt ⟨8#32, 40#32, 1#16, true⟩] ∧
    (after .readUnitLinesRead (walkingAt (read9 40 false) none 9 (.header 7) 0 [.clean (List.replicate 32 0xFF#8)])).host.posting
      = [.outcome 0 .corrupt {}] := by decide +kernel

/-- The image of a record at line `p` is being written to the host. -/
def imaging (c : Cmd) (g : Option ScanProgress) (p : Nat) (short : Bool) (tally : Nat) (e : SectorEntry) : State :=
  (withTable SectorEntry.reset [(2, e)] [2] on).onReader fun r => { r with
    active := some ⟨0, c⟩, pinned := some 2, expected := 8, tally := tally, scan := g
    stage := some (.image p shortRecord short), write := some ⟨0x1000#64, zeros 40⟩ }

theorem witness_ImagesWritten :
    (∀ c g p short tally e, let s := imaging c g p short tally e;
      s.host.device ≠ .halted ∧ s.reader.stage = some (.image p shortRecord short) ∧ s.reader.pinned = some 2 ∧
      s.reader.write = some ⟨0x1000#64, zeros 40⟩ ∧ s.writer.nextJsn = some 10 ∧ s.reader.active = some ⟨0, c⟩ ∧
      s.reader.scan = g ∧ s.reader.tally = tally ∧ s.reader.expected + 1 < 10 ∧ Notices s ∧
      s.table.entries[(2 : SectorNo)] = e ∧ s.table.journal = [] ++ 2 :: []) ∧
    (2045 + (2 + (shortRecord.length + 31) / 32) = 2048 ∧ 2044 + (2 + (shortRecord.length + 31) / 32) ≠ 2048) ∧
    (1 + 1 = 2 ∧ 0 + 1 ≠ 2) ∧ ((rangeOf 1 8 1).range = some (1, 8) ∧ (rangeOf 1 9 1).range = some (1, 9) ∧ 8 < 8 + 1) ∧
    (let e := { rangeOf 1 9 1 with corrected := 13 }; e.state = .closed ∧ e.weak = false ∧ 16 ≤ e.corrected + 3 ∧
      e.corrected + 2 < 16) := by
  refine ⟨fun c g p short tally e => ⟨by show DeviceState.online ≠ .halted; decide, rfl, rfl, rfl, rfl, rfl, rfl, rfl,
    by show 8 + 1 < 10; decide,
    ⟨by show DeviceState.online ≠ .offline; decide, by show DeviceState.online ≠ .setup; decide⟩,
    withTable_get _ _ _ _ 2, rfl⟩, by decide, by decide, by decide, by decide⟩

/-- R139, R142, R144: a READ ends with the bytes written, and the head of the FIFO is active in the same happening; a SCAN
that has its 2 records ends, and one at the end of its sector and of the journal ends OK there. -/
theorem test_image_write_end :
    (let t := after (.imageWriteEnd true) ((imaging (read9 40 false) none 1000 false 0 (rangeOf 1 9 1)).onReader fun r =>
        { r with fifo := [⟨3, .read 10 0x1000#64 32 false⟩] });
      t.host.posting = [.outcome 0 .ok { at8 := 40#32 }, .outcome 3 .notYet {}]) ∧
    (after (.imageWriteEnd true) (imaging (scan1 none 100) (some ⟨1, 40, false, 1⟩) 1000 false 0 (rangeOf 1 9 1))).host.posting
      = [.outcome 0 .ok ⟨10#32, 80#32, 2#16, false⟩] ∧
    (after (.imageWriteEnd true) (imaging (scan1 none 100) (some ⟨0, 0, false, 1⟩) 2045 false 0 (rangeOf 1 8 1))).host.posting
      = [.outcome 0 .ok ⟨9#32, 40#32, 1#16, false⟩] := by decide +kernel

/-! ### The Array Controller -/

/-- The controller in a state, with a request placed by the reader. -/
def controlling (st : CtrlState) (e : Option HeldErase) (placed : PerRequester ArrayOp)
    (requests : PerRequester ArrayOp) : State :=
  on.onCtrl fun c => { c with state := st, erase := e, placed := placed, requests := requests }

def aRead : ArrayOp := .readLines 255 2047 1
def byReader : PerRequester ArrayOp := { PerRequester.empty with reader := some aRead }
def byWriter : PerRequester ArrayOp := { PerRequester.empty with writer := some (.programLines 2 1 [zeros 32]) }

theorem witness_RequestsTaken :
    (∀ st e r, let s := controlling st e byReader r;
      s.host.device ≠ .halted ∧ s.ctrl.placed.get .reader = some aRead ∧ s.ctrl.state = st ∧ s.ctrl.erase = e) ∧
    (IsService aRead ∧ Requester.reader ≠ .mount ∧ (7 : Nat) < 8 ∧ ¬IsService (.eraseSector 2)) := by
  refine ⟨fun st e r => ⟨by show DeviceState.online ≠ .halted; decide, rfl, rfl, rfl⟩, trivial, by decide, by decide, id⟩

/-- R152: the reader was served last, so the writer's turn comes before the reader's own. -/
theorem test_rotation :
    (after (.arrayRequest .reader) (controlling .idle none byReader byWriter)).ctrl.operation
      = some (.writer, .programLines 2 1 [zeros 32]) ∧
    (after (.arrayRequest .reader) (controlling .erasing (some ⟨.reclaim, 9, 7, 3⟩) byReader .empty)).ctrl.state
      = .suspending ∧
    (after (.arrayRequest .reader) (controlling .erasing (some ⟨.reclaim, 9, 8, 3⟩) byReader .empty)).ctrl.state
      = .erasing := by decide +kernel

/-- An operation runs; line 3 of sector 2 and line 0 of sector 9 are not erased. -/
def operating (who : Requester) (op : ArrayOp) (e : Option HeldErase) (time : Nat) : State :=
  { on with
    array := [(2 * 2048 + 3, .clean (zeros 32)), (9 * 2048, .broken)]
    ctrl := { on.ctrl with state := running op, operation := some (who, op), erase := e, eraseTime := time } }

/-- The same while the erase is being suspended. -/
def suspendingOp (who : Requester) (op : ArrayOp) (e : Option HeldErase) (time : Nat) : State :=
  (operating who op e time).onCtrl fun c => { c with state := .suspending }

theorem operating_canonical :
    arrayWf [(2 * 2048 + 3, .clean (zeros 32)), (9 * 2048, .broken)] = true := by decide

theorem witness_OperationsEnd :
    (∀ who op e time, let s := operating who op e time;
      Canonical s ∧ s.host.device ≠ .halted ∧ s.ctrl.operation = some (who, op) ∧ s.ctrl.state = running op ∧
      s.ctrl.erase = e ∧ s.ctrl.eraseTime = time) ∧
    (let s := operating .writer (.programLines 2 1 [zeros 32, zeros 32]) none 0;
      (∀ j, j < 2 → memGet s.array (lineNo 2 (1 + j)) = none) ∧ memGet s.array (lineNo 2 (2 + 1)) ≠ none) ∧
    (let s := operating .mount (.blankCheck 8) none 0;
      (∀ n, inSector 8 n = true → memGet s.array n = none) ∧
      inSector 9 (9 * 2048) = true ∧ memGet s.array (9 * 2048) ≠ none) ∧
    (∀ who e time, let s := suspendingOp who (.eraseSector 9) e time;
      Canonical s ∧ s.host.device ≠ .halted ∧ s.ctrl.operation = some (who, .eraseSector 9) ∧
      s.ctrl.state = .suspending ∧ s.ctrl.erase = e ∧ s.ctrl.eraseTime = time) ∧
    (9999 < 10000 ∧ 999 < 1000 ∧ 1999998 + 1 < 2000000) ∧
    (let d := [(lineNo 2 1, LineOutcome.corrected (List.replicate 32 0xFF#8))];
      memGet d (lineNo 2 1) = some (.corrected (List.replicate 32 0xFF#8)) ∧
      LineOutcome.corrected (List.replicate 32 0xFF#8) ≠ .clean (List.replicate 32 0xFF#8)) := by
  refine ⟨fun who op e time => ⟨⟨operating_canonical, rfl⟩, by show DeviceState.online ≠ .halted; decide, rfl, rfl, rfl, rfl⟩,
    by decide, ⟨fun n hn => ?_, by decide, by decide⟩,
    fun who e time => ⟨⟨operating_canonical, rfl⟩, by show DeviceState.online ≠ .halted; decide, rfl, rfl, rfl, rfl⟩,
    by decide, by decide⟩
  have : 8 * 2048 ≤ n ∧ n < 9 * 2048 := by
    have h : lineNo 8 0 ≤ n ∧ n < lineNo 8 0 + Config.linesPerSector := by simpa [inSector] using hn
    have e : lineNo 8 0 = 16384 := by decide
    have e' : Config.linesPerSector = 2048 := rfl
    omega
  have h1 : ¬2 * 2048 + 3 = n := by omega
  have h2 : ¬9 * 2048 = n := by omega
  show memGet [(2 * 2048 + 3, _), (9 * 2048, _)] n = none
  simp [memGet, h1, h2]

/-- R150, R151: a line that reads erased only after a correction is not blank; an erase that fails leaves a line that is
not blank, and its sector's header is no longer valid. -/
theorem test_operation_end :
    (after (.arrayOperationEnd 1 (.done [(lineNo 2 1, .corrected (List.replicate 32 0xFF#8))]))
      (operating .writer (.programLines 2 1 [zeros 32]) none 0)).ctrl.outcomes.get .writer = some (.programFailed 1 true) ∧
    (after (.arrayOperationEnd 1 (.eraseFails [])) (operating .reclaim (.eraseSector 9) none 0)).ctrl.outcomes.get .reclaim
      = some .eraseFailed ∧
    memGet (after (.arrayOperationEnd 1 (.eraseFails [])) (operating .reclaim (.eraseSector 9) none 0)).array (9 * 2048)
      ≠ none := by decide +kernel

/-- Slot 3 of anchor sector 0 holds the snapshot of generation 7 with no hold, but for its commit line. -/
def slotArray : List (Nat × Cell) :=
  (List.range 18).map fun k => (96 + k, .clean ((snapshotLines 7 (Vector.replicate 16 none) 0#256).getD k []))

/-- Its commit line, and one with the marker and the echo and another CRC. -/
def trueCommit : List Byte := (snapshotLines 7 (Vector.replicate 16 none) 0#256).getD 18 []
def wrongCommit : List Byte := leBytes 4 Config.snapshotMarker ++ leBytes 4 7 ++ zeros 24

/-- R149, R15: a false commit line with the marker and a wrong CRC is returned. -/
theorem test_false_commit :
    (readLines slotArray [] [(114, .clean wrongCommit)] 0 96 19).getLast? = some (.clean wrongCommit) := by
  decide +kernel

/-- R149, R15: a false commit line that would make a snapshot valid is caught: what OperationsEnd assumes of it holds. -/
theorem witness_OperationsEnd_caught :
    (readLines slotArray [] [(114, .clean trueCommit)] 0 96 19).getLast? = some .uncorrectable := by decide +kernel

/-- A line with bit errors that may show, and one that passes its own check; a failed commit line. -/
theorem witness_OperationsEnd_reads :
    ((LineOutcome.clean wrongCommit).wf = true ∧ (114, wrongCommit) ∉ on.barred ∧ passesCheck 114 wrongCommit = false) ∧
    passesCheck (2 * 2048) (sealedLine (zeros 28)) = true ∧ passesCheck 4095 (sealedLine (zeros 28)) = false ∧
    lineNo 0 114 < 4096 ∧ fieldAt wrongCommit 0 4 = Config.snapshotMarker := by decide +kernel

/-- R3, R15: a failed commit line may keep its marker, with another CRC. -/
theorem test_failed_commit :
    failedProgramCell 114 (leBytes 4 Config.snapshotMarker ++ leBytes 4 7 ++ leBytes 4 1 ++ zeros 20)
      (some (.clean wrongCommit)) = some (.clean wrongCommit) ∧
    failedProgramCell 114 wrongCommit (some (.repaired wrongCommit)) = some .broken := by decide +kernel

/-- An operation of each kind runs, or an erase is being suspended or resumed, with its time below its limit and at it. -/
theorem witness_ErasesSuspended_timeouts :
    (∀ who op e time, let s := operating who op e time;
      Canonical s ∧ s.host.device ≠ .halted ∧ s.ctrl.operation = some (who, op) ∧ s.ctrl.state = running op ∧
      s.ctrl.erase = e ∧ s.ctrl.eraseTime = time) ∧
    (∀ who e time st, let s := (suspendingOp who (.eraseSector 9) e time).onCtrl fun c => { c with state := st };
      Canonical s ∧ s.host.device ≠ .halted ∧ s.ctrl.operation = some (who, .eraseSector 9) ∧ s.ctrl.state = st ∧
      s.ctrl.erase = e ∧ s.ctrl.eraseTime = time) ∧
    (999 < 1000 ∧ 1000 ≤ 1000 ∧ 9999 < 10000 ∧ 10000 ≤ 10000 ∧ 1999998 + 1 < 2000000 ∧ 2000000 ≤ 1999999 + 1) ∧
    (IsService aRead ∧ some (⟨.reclaim, 9, 8, 3⟩ : HeldErase) ≠ none ∧ ¬IsService (.blankCheck 2)) := by
  refine ⟨fun who op e time => ⟨⟨operating_canonical, rfl⟩, by show DeviceState.online ≠ .halted; decide, rfl, rfl, rfl, rfl⟩,
    fun who e time st => ⟨⟨operating_canonical, rfl⟩, by show DeviceState.online ≠ .halted; decide, rfl, rfl, rfl, rfl⟩,
    by decide, trivial, by decide, id⟩

/-- R156: a program cut short at its limit leaves the line it had reached broken, and the part HALTED. -/
theorem test_timeout :
    let t := after (.arrayTimeout 10000 [(lineNo 2 1, some .broken)]) (operating .writer (.programLines 2 1 [zeros 32]) none 0)
    t.host.device = .halted ∧ t.host.reason = .arrayTimeout ∧ memGet t.array (lineNo 2 1) = some .broken ∧
      memGet t.array (2 * 2048 + 3) = some (.clean (zeros 32)) := by decide +kernel

theorem witness_ErasesSuspended :
    (∀ st e time r, let s := (controlling st (some e) .empty r).onCtrl fun c => { c with eraseTime := time };
      s.host.device ≠ .halted ∧ s.ctrl.erase = some e ∧ s.ctrl.state = st ∧ s.ctrl.eraseTime = time) ∧
    (1999998 + 1 < 2000000 ∧ 2000000 ≤ 1999999 + 1) ∧
    (∃ who op, Wants (controlling .resuming (some ⟨.reclaim, 9, 7, 3⟩) .empty byReader).ctrl who op) ∧
    (∀ who op, ¬Wants on.ctrl who op) ∧
    (∃ who op, Turn (controlling .suspending (some ⟨.reclaim, 9, 8, 15⟩) .empty byReader).ctrl who op) := by
  refine ⟨fun st e time r => ⟨by show DeviceState.online ≠ .halted; decide, rfl, rfl, rfl⟩, by decide,
    ⟨.reader, aRead, .inr (.inr rfl), rfl, trivial⟩, ?_, ⟨.reader, aRead, ⟨.inr (.inr rfl), rfl, trivial⟩, ?_⟩⟩
  · rintro who op ⟨_, h, _⟩; cases who <;> cases h
  · rintro other o ⟨_, h, _⟩ hne; cases other <;> first | exact absurd rfl hne | cases h

/-! ### The Mount Unit and the lines of the medium -/

/-- The scan stands at a place, with an outcome of the array. -/
def scanning (p : ScanPosition) (found : Option FoundSnapshot) (enable : Bool) (o : ArrayOutcome) : State :=
  withOutcome .mount o (((at_ .mounting).onMount fun m => { m with
    phase := .sectorScan, position := p, snapshot := found }).onHost fun h => { h with enable := enable })

def oneHold : Vector (Option HoldLine) 16 := (Vector.replicate 16 none).set 15 (some ⟨5, some 9, 7#32⟩)
def secondHeader : SectorHeader := ⟨0xFFFFFFFE, 9, 0xFFFFFFFF, false⟩

theorem witness_MountScans :
    (∀ p found enable o, let s := scanning p found enable o;
      s.host.device = .mounting ∧ s.mount.position = p ∧ Answers s .mount o ∧ s.mount.snapshot = found ∧
      s.host.enable = enable) ∧
    (62 : Nat) < 63 ∧ readable (.clean (List.replicate 32 0xFF#8)) = some (List.replicate 32 0xFF#8) ∧
    slotGeneration (.clean ((snapshotLines 6 oneHold (4#256)).headD [])) = some 6 ∧
    validSnapshot ((snapshotLines 6 oneHold (4#256)).map .clean) = some (6, oneHold, 4#256) ∧
    validSnapshot [.uncorrectable] = none ∧
    validSectorHeader (.clean (sectorHeaderLine secondHeader)) = some secondHeader ∧
    validSectorHeader .uncorrectable = none ∧ readable .uncorrectable ≠ some (List.replicate 32 0xFF#8) ∧
    viewHeader 9 1790 (.clean (recordHeaderLine longRecord)) = .data longRecord ∧
    (validCommit longRecord (.clean (commitLine 9 8192 5#32)) ≠ none ∧ 1790 + (2 + (longRecord.length + 31) / 32) = 2048) ∧
    (validCommit longRecord .uncorrectable = none ∧ 1789 + (2 + (longRecord.length + 31) / 32) ≠ 2048) ∧
    (63 : Nat) ≤ 63 ∧ (0 : Fin 2) ≠ 1 ∧ (4#256).getLsbD 2 = true ∧ (4#256).getLsbD 3 = false ∧ (4#256).getLsbD 255 = false := by
  refine ⟨fun p found enable o => ⟨rfl, rfl, ⟨by show DeviceState.mounting ≠ .halted; decide, rfl⟩, rfl, rfl⟩, ?_⟩
  decide +kernel

/-- R160, R162: after slot 63 of sector 0 comes slot 0 of sector 1; after that of sector 1 the first journal sector that is
not of the retired set. -/
theorem test_anchor_scan :
    (let t := after .anchorSlotRead (scanning (.slot 0 63) none true (.lines [.uncorrectable]));
      t.ctrl.placed.get .mount = some (.readLines 1 0 19) ∧ t.mount.usedSlots = #v[some 63, none]) ∧
    (let t := after .anchorSlotRead (scanning (.slot 1 63) (some ⟨0, 5, 6, oneHold, 4#256⟩) true (.lines [.clean (List.replicate 32 0xFF#8)]));
      t.ctrl.placed.get .mount = some (.readLines 3 0 1) ∧ t.mount.findings[(2 : SectorNo)] = .retired) := by decide +kernel

/-- A snapshot was found whose retired set is as given. -/
def foundWith (retired : BitVec 256) : Option FoundSnapshot := some ⟨1, 63, 6, oneHold, retired⟩

/-- The walk of a sector whose header is that of JSN 9 on, with one record passed. -/
def oneWalk : Walk := ⟨{ secondHeader with baseJsn := 9 }, 10, 1, (Vector.replicate 16 none).set 15 (some (9, 0xFFFF#16))⟩

theorem retiredBy_last (p : ScanPosition) (enable : Bool) (o : ArrayOutcome) (retired : BitVec 256) (k : SectorNo)
    (h : retired.getLsbD k.val = true) : retiredBy (scanning p (foundWith retired) enable o).mount k := ⟨_, rfl, h⟩

/-- The ends of a scan of sector 254 or 255: each of the ways, at the last line that a record takes and before. -/
theorem witness_ScanEnds :
    (∀ found enable, ScanEnds (scanning (.blankCheck 255) found enable .blank) .blankCheckEnd 255 .blank
      (scanning (.blankCheck 255) found enable .blank).mount.streamFindings) ∧
    (∀ found enable, ScanEnds (scanning (.blankCheck 255) found enable .notBlank) .blankCheckEnd 255 .dirty
      (scanning (.blankCheck 255) found enable .notBlank).mount.streamFindings) ∧
    (∀ found enable, let s := scanning (.sectorHeader 254) found enable (.lines [.uncorrectable]);
      ScanEnds s .mountLineRead 254 .dirty s.mount.streamFindings) ∧
    (∀ found enable, let s := scanning (.walkHeader 254 2047 oneWalk) found enable (.lines [.clean (padLine 10)]);
      ScanEnds s .mountLineRead 254 (.valid oneWalk .pad 2047) (newerFindings s.mount.streamFindings oneWalk.newest)) ∧
    (∀ found enable, let s := scanning (.walkHeader 254 7 oneWalk) found enable (.lines [.clean (List.replicate 32 0xFF#8)]);
      ScanEnds s .mountLineRead 254 (.valid oneWalk .erased 7) (newerFindings s.mount.streamFindings oneWalk.newest)) ∧
    (∀ found enable, let s := scanning (.walkCommit 254 7 longRecord oneWalk) found enable (.lines [.uncorrectable]);
      ScanEnds s .mountLineRead 254 (.valid oneWalk (.torn true) 7) (newerFindings s.mount.streamFindings oneWalk.newest)) ∧
    (∀ found enable,
      let s := scanning (.walkCommit 254 1790 longRecord oneWalk) found enable (.lines [.clean (commitLine 9 8192 5#32)]);
      let w : Walk := ⟨oneWalk.header, 11, 2, oneWalk.newest.set 15 (some (9, 0xFFFF#16))⟩;
      ScanEnds s .mountLineRead 254 (.valid w .full 2048) (newerFindings s.mount.streamFindings w.newest)) := by
  have hd : DeviceState.mounting ≠ .halted := by decide
  refine ⟨fun _ _ => .inl ⟨rfl, rfl, rfl, .inl ⟨⟨hd, rfl⟩, rfl⟩⟩, fun _ _ => .inl ⟨rfl, rfl, rfl, .inr ⟨⟨hd, rfl⟩, rfl⟩⟩,
    fun _ _ => .inr ⟨rfl, _, _, ⟨hd, rfl⟩, .inl ⟨rfl, by decide, by decide, rfl, rfl⟩⟩,
    fun _ _ => .inr ⟨rfl, _, _, ⟨hd, rfl⟩, .inr (.inl ⟨2047, oneWalk, rfl, rfl, .pad, rfl, .inr (.inl ⟨by decide +kernel, rfl⟩)⟩)⟩,
    fun _ _ => .inr ⟨rfl, _, _, ⟨hd, rfl⟩, .inr (.inl ⟨7, oneWalk, rfl, rfl, .erased, rfl, .inl ⟨by decide +kernel, rfl⟩⟩)⟩,
    fun _ _ => .inr ⟨rfl, _, _, ⟨hd, rfl⟩, .inr (.inr ⟨7, longRecord, oneWalk, rfl, .inl ⟨by decide +kernel, rfl, rfl⟩⟩)⟩,
    fun _ _ => .inr ⟨rfl, _, _, ⟨hd, rfl⟩, .inr (.inr ⟨1790, longRecord, oneWalk, rfl, .inr ⟨by decide +kernel, by decide, rfl, rfl⟩⟩)⟩⟩

theorem findings_set (s : State) (i : SectorNo) (f : Finding) (hs : s.mount.findings = Vector.replicate 256 .none)
    (k : SectorNo) (w : Walk) (e : WalkEnd) (p : Nat) :
    (s.mount.findings.set i.val f i.isLt)[k] = .valid w e p ↔ (k = i ∧ f = .valid w e p) ∨ Finding.none = .valid w e p := by
  rw [tableSet_get, hs]
  by_cases h : k = i <;> simp [h]

/-- Sector 255 is the last, or sector 254 with 255 in the retired set; every walk found counts its records. -/
theorem witness_MountHandsOver :
    (∀ found enable, let s := scanning (.blankCheck 255) found enable .blank;
      s.host.device = .mounting ∧ s.host.enable = enable ∧ (∀ k : SectorNo, 255 < k → retiredBy s.mount k) ∧
      ∀ (k : SectorNo) w e p, (s.mount.findings.set 255 .blank)[k] = .valid w e p → Walk.counted w) ∧
    (∀ enable,
      let s := scanning (.walkHeader 254 7 oneWalk) (foundWith (1#256 <<< 255)) enable (.lines [.clean (List.replicate 32 0xFF#8)]);
      (∀ k : SectorNo, 254 < k → retiredBy s.mount k) ∧
      ∀ (k : SectorNo) w e p, (s.mount.findings.set 254 (.valid oneWalk .erased 7))[k] = .valid w e p →
        Walk.counted w) := by
  refine ⟨fun found enable => ⟨rfl, rfl, fun k hk => absurd (Fin.lt_def.mp hk) (Nat.not_lt.mpr (Nat.le_of_lt_succ k.isLt)), fun k w e p h => ?_⟩,
    fun enable => ⟨fun k hk => retiredBy_last _ _ _ _ k ?_, fun k w e p h => ?_⟩⟩
  · rcases (findings_set _ 255 _ rfl k w e p).mp h with ⟨_, h⟩ | h <;> cases h
  · have : k = 255 := Fin.ext (Nat.le_antisymm (Nat.le_of_lt_succ k.isLt) (Fin.lt_def.mp hk))
    subst this; decide +kernel
  · rcases (findings_set _ 254 _ rfl k w e p).mp h with ⟨_, h⟩ | h
    · cases h; exact ⟨by decide, by decide⟩
    · cases h

/-- R165, R166, R169: the mount of an empty medium with the hold of a snapshot: JSN 1, unless the hold reserves. -/
theorem test_handover :
    (after .blankCheckEnd (scanning (.blankCheck 255) none true .blank)).host.device = .online ∧
    (after .blankCheckEnd (scanning (.blankCheck 255) none false .blank)).host.device = .stopped ∧
    (after .blankCheckEnd (scanning (.blankCheck 255) none true .blank)).writer.nextJsn = some 1 := by decide +kernel

theorem witness_LinesReadBack :
    (1 ≤ secondHeader.epoch ∧ secondHeader.epoch ≤ 0xFFFFFFFE) ∧ (1 ≤ secondHeader.baseJsn ∧
      secondHeader.baseJsn ≤ 0xFFFFFFFE) ∧ secondHeader.wear < 2 ^ 32 ∧
    1 ≤ longRecord.jsn ∧ longRecord.jsn ≤ 0xFFFFFFFE ∧ 1 ≤ shortRecord.length ∧ longRecord.length ≤ 8192 ∧
    1790 + (2 + (longRecord.length + 31) / 32) ≤ 2048 ∧ (0xFFFFFFFF : Nat) < 2 ^ 32 ∧
    (∀ (id : Fin 16) (h : HoldLine), oneHold[id] = some h → 1 ≤ h.first ∧ h.first ≤ 0xFFFFFFFE ∧
      ∀ l, h.last = some l → h.first ≤ l ∧ l ≤ 0xFFFFFFFE) ∧
    (4#256).getLsbD 0 = false ∧ (4#256).getLsbD 1 = false := by
  refine ⟨by decide, by decide, by decide, by decide, by decide, by decide, by decide, by decide, by decide,
    fun id h hh => ?_, by decide, by decide⟩
  have : h = ⟨5, some 9, 7#32⟩ := by
    simp only [oneHold, Fin.getElem_fin, Vector.getElem_set] at hh
    split at hh
    · exact (Option.some.inj hh).symm
    · simp at hh
  subst this
  exact ⟨by decide, by decide, fun l hl => by cases hl; exact ⟨by decide, by decide⟩⟩

end Sys2Proof.Tests
end

section
/-! The Sector Table as the two resets leave it (R19, R182). -/

namespace Sys2Proof.Machine

/-! ### The table at its reset values -/

theorem SectorTable.reset_entry (i : SectorNo) :
    SectorTable.reset.entries[i] = { SectorEntry.reset with state := if i.val < 2 then .anchor else .dirty } := by
  rcases eq_or_ne i 1 with rfl | h1
  · exact tableSet_get _ 1 1 _
  · refine (tableSet_get _ 1 i _).trans ((if_neg h1).trans ?_)
    rcases eq_or_ne i 0 with rfl | h0
    · exact tableSet_get _ 0 0 _
    · have hi : ¬ i.val < 2 := by
        have hv1 : i.val ≠ 1 := Fin.val_ne_of_ne h1
        have hv0 : i.val ≠ 0 := Fin.val_ne_of_ne h0
        omega
      rw [if_neg hi]
      calc _ = (Vector.replicate 256 SectorEntry.reset)[i] := (tableSet_get _ 0 i _).trans (if_neg h0)
        _ = SectorEntry.reset := by simp

/-- No sector is FREE in a table whose entries are each ANCHOR or DIRTY. -/
theorem SectorTable.freeSet_eq_nil {t : SectorTable}
    (h : ∀ i : SectorNo, t.entries[i].state = if i.val < 2 then .anchor else .dirty) : t.freeSet = [] := by
  refine List.filter_eq_nil_iff.mpr fun i _ => ?_
  rw [h i]
  split
  · decide
  · decide

/-! ### What each reset leaves at the table -/

theorem coldReset_table (left : Residue) (s : State) : (coldReset left s).table = SectorTable.reset := rfl

theorem softReset_entry (left : Residue) (s : State) (i : SectorNo) :
    (softReset left s).table.entries[i] = keepWear SectorTable.reset.entries[i] s.table.entries[i] :=
  tabulate_get _ i

/-- With no signal of R101 waiting, RECLAIM_TEST changes nothing. -/
theorem exec_reclaimTest_unsignalled {t : State} (h : t.reclaim.signal = false) : exec .reclaimTest t = .next t := by
  have hrun : exec .reclaimTest t = execReclaimTest t := rfl
  rw [hrun, execReclaimTest, if_neg]
  rintro ⟨-, -, hsignal⟩
  exact Bool.false_ne_true (h.symm.trans hsignal)

/-! ### The statement -/

/-- Settles O3: each reset's entries are read through `SectorTable.reset_entry`; the free set is empty since every
entry is ANCHOR or DIRTY, and no erase starts since the reset Reclaim Unit holds no signal. -/
theorem resetSectorTable : Obligations.ResetSectorTable := by
  intro left s c hc
  rcases hc with rfl | rfl
  case inl =>
    have hentry : ∀ i : SectorNo, (coldReset left s).table.entries[i] =
        { SectorEntry.reset with state := if i.val < 2 then .anchor else .dirty } := fun i => by
      rw [coldReset_table]; exact SectorTable.reset_entry i
    refine ⟨coldReset left s, rfl, rfl, rfl, SectorTable.freeSet_eq_nil fun i => by rw [hentry i],
      exec_reclaimTest_unsignalled rfl, fun i => ?_⟩
    rw [hentry i, if_pos rfl, if_pos rfl]
    rfl
  case inr =>
    have hentry : ∀ i : SectorNo, (softReset left s).table.entries[i] =
        keepWear { SectorEntry.reset with state := if i.val < 2 then .anchor else .dirty } s.table.entries[i] :=
      fun i => by rw [softReset_entry, SectorTable.reset_entry]
    have hsoft : Instr.softReset left ≠ .coldReset left := by simp
    refine ⟨softReset left s, rfl, rfl, rfl, SectorTable.freeSet_eq_nil fun i => by rw [hentry i, keepWear],
      exec_reclaimTest_unsignalled rfl, fun i => ?_⟩
    rw [hentry i, if_neg hsoft, if_neg hsoft]
    rfl

end Sys2Proof.Machine
end

section
/-! The host-visible registers and layouts: RING_INDEX, INT_CAUSE and INT_MASK writes (R187, R188), and the bytes of
entries and of the status block (R189, R190, R192). -/

namespace Sys2Proof.Machine

open Sys2Proof.Laws

/-! ### The interrupt registers (R179, R187) -/

theorem raised_eq_false_iff (h : HostUnit) : h.raised = false ↔ h.intCause &&& ~~~h.intMask = 0#4 := bne_eq_false_iff_eq

/-- R179: a message goes out when the condition turns from false to true; nothing else changes. -/
theorem judged_turns (h : HostUnit) (cause mask : BitVec 4) :
    h.judged cause mask = { h with
      intCause := cause
      intMask := mask
      intMessages :=
        if h.intCause &&& ~~~h.intMask = 0#4 ∧ cause &&& ~~~mask ≠ 0#4 then h.intMessages + 1 else h.intMessages } := by
  rw [judged_eq]
  simp only [Bool.and_eq_true, Bool.not_eq_true', bne_iff_ne, raised_eq_false_iff]

@[simp] theorem judged_intCause (h : HostUnit) (cause mask : BitVec 4) : (h.judged cause mask).intCause = cause := by
  rw [judged_eq]

theorem exec_intCauseWrite (v : Word) (s : State) :
    exec (.intCauseWrite v) s = .next (s.onHost fun h => h.judged (h.intCause &&& ~~~(v.setWidth 4)) h.intMask) := rfl

theorem exec_intMaskWrite (v : Word) (s : State) :
    exec (.intMaskWrite v) s = .next (s.onHost fun h => h.judged h.intCause (v.setWidth 4)) := rfl

/-- The single cause of bit `k`. -/
theorem getLsbD_cause (k : Nat) (hk : k < 4) : (1#4 <<< k).getLsbD k = true := by
  simp [hk]

theorem cleared_getLsbD (cause : BitVec 4) {v : Word} {k : Nat} (hv : v.getLsbD k = true) :
    (cause &&& ~~~(v.setWidth 4)).getLsbD k = false := by
  by_cases hk : k < 4
  · simp [hk, hv]
  · exact BitVec.getLsbD_of_ge _ _ (Nat.le_of_not_lt hk)

theorem withCauses_getLsbD (h : HostUnit) {k : Nat} (hk : k < 4) :
    (h.withCauses (1#4 <<< k)).intCause.getLsbD k = true := by
  rw [HostUnit.withCauses, judged_intCause, BitVec.getLsbD_or, getLsbD_cause k hk, Bool.or_true]

/-- R179: an unmasked cause that joins an interrupt not raised sends one message. -/
theorem withCauses_intMessages_of_unmasked (h : HostUnit) {k : Nat} (hk : k < 4) (hm : h.intMask.getLsbD k = false)
    (hr : h.intCause &&& ~~~h.intMask = 0#4) :
    (h.withCauses (1#4 <<< k)).intMessages = h.intMessages + 1 := by
  have hraised : (h.intCause ||| 1#4 <<< k) &&& ~~~h.intMask ≠ 0#4 := fun he => by
    have hbit := congrArg (fun b : BitVec 4 => b.getLsbD k) he
    rw [BitVec.getLsbD_and, BitVec.getLsbD_or, getLsbD_cause k hk, BitVec.getLsbD_not, hm] at hbit
    simp [hk] at hbit
  rw [HostUnit.withCauses, judged_turns]
  exact if_pos ⟨hr, hraised⟩

/-- Settles O14: both writes judge the interrupt anew, and what they leave is `judged_turns`; a cause set
before the write is cleared by it, and a cause set after it stands. -/
theorem interruptWrites : Obligations.InterruptWrites := by
  intro v s fires
  refine ⟨?_, ?_, fun k hk hv => ⟨⟨_, exec_intCauseWrite v _, ?_⟩, _, exec_intCauseWrite v s, ?_, ?_⟩⟩
  · rw [exec_intCauseWrite, State.onHost, judged_turns]
  · rw [exec_intMaskWrite, State.onHost, judged_turns]
  · rw [State.onHost_host, judged_intCause]
    exact cleared_getLsbD _ hv
  · exact withCauses_getLsbD _ hk
  · exact withCauses_intMessages_of_unmasked _ hk

/-! ### Ring positions (R174, R188) -/

theorem takesIndex_iff (d : DeviceState) :
    d.takesIndex = true ↔ d = .mounting ∨ d = .online ∨ d = .draining ∨ d = .stopped := by
  cases d <;> decide

theorem indexWrite_of_not_takes (f : HostUnit → Setup → HostUnit) {s : State} (h : s.host.device.takesIndex = false) :
    indexWrite f s = s := by
  unfold indexWrite
  split
  · exact if_neg (Bool.eq_false_iff.mp h)
  · rfl

theorem indexWrite_of_takes (f : HostUnit → Setup → HostUnit) {s : State} {c : Setup}
    (h : s.host.device.takesIndex = true) (hc : s.host.setup = some c) :
    indexWrite f s = { s with host := f s.host c } := by
  simp only [indexWrite, hc, h, if_true]
  rfl

theorem ringIndexCommand_submission {v : Word} {ring : Fin 4} (h : (v.extractLsb' 0 3).toNat = ring.val) :
    ringIndexCommand v = .ringIndexSubmission ring (v.extractLsb' 16 12) := by
  unfold ringIndexCommand
  rw [h]
  fin_cases ring <;> rfl

theorem ringIndexCommand_completion {v : Word} (h : (v.extractLsb' 0 3).toNat = 4) :
    ringIndexCommand v = .ringIndexCompletion (v.extractLsb' 16 12) := by
  simp only [ringIndexCommand, h]

theorem ringIndexCommand_notice {v : Word} (h : (v.extractLsb' 0 3).toNat = 5) :
    ringIndexCommand v = .ringIndexNotice (v.extractLsb' 16 12) := by
  simp only [ringIndexCommand, h]

theorem ringIndexCommand_badSelector {v : Word} (h : 6 ≤ (v.extractLsb' 0 3).toNat) :
    ∃ seven, ringIndexCommand v = .ringIndexBadSelector seven (v.extractLsb' 16 12) := by
  have hlt : (v.extractLsb' 0 3).toNat < 8 := (v.extractLsb' 0 3).isLt
  obtain h6 | h7 : (v.extractLsb' 0 3).toNat = 6 ∨ (v.extractLsb' 0 3).toNat = 7 := by omega
  · exact ⟨false, by simp only [ringIndexCommand, h6]⟩
  · exact ⟨true, by simp only [ringIndexCommand, h7]⟩

theorem exec_ringIndexSubmission (ring : Fin 4) (p : BitVec 12) (s : State) :
    exec (.ringIndexSubmission ring p) s =
      .next (indexWrite (fun h c => h.writeSubmissionTail c ring p.toNat) s) := rfl

theorem exec_ringIndexCompletion (p : BitVec 12) (s : State) :
    exec (.ringIndexCompletion p) s = .next (indexWrite (fun h c => h.writeCompletionHead c p.toNat) s) := rfl

theorem exec_ringIndexNotice (p : BitVec 12) (s : State) :
    exec (.ringIndexNotice p) s = .next (indexWrite (fun h c => h.writeNoticeHead c p.toNat) s) := rfl

theorem exec_ringIndexBadSelector (seven : Bool) (p : BitVec 12) (s : State) :
    exec (.ringIndexBadSelector seven p) s =
      .next (if s.host.device.takesIndex then s.onHost HostUnit.indexError else s) := rfl

/-- R188: in the other states a RING_INDEX write has no effect, whatever its selector. -/
theorem exec_ringIndexCommand_of_not_takes (v : Word) {s : State} (h : s.host.device.takesIndex = false) :
    exec (ringIndexCommand v) s = .next s := by
  obtain hsel | hsel | hsel | hsel : (v.extractLsb' 0 3).toNat < 4 ∨ (v.extractLsb' 0 3).toNat = 4 ∨
      (v.extractLsb' 0 3).toNat = 5 ∨ 6 ≤ (v.extractLsb' 0 3).toNat := by omega
  · rw [ringIndexCommand_submission (ring := ⟨_, hsel⟩) rfl, exec_ringIndexSubmission, indexWrite_of_not_takes _ h]
  · rw [ringIndexCommand_completion hsel, exec_ringIndexCompletion, indexWrite_of_not_takes _ h]
  · rw [ringIndexCommand_notice hsel, exec_ringIndexNotice, indexWrite_of_not_takes _ h]
  · obtain ⟨seven, hcmd⟩ := ringIndexCommand_badSelector hsel
    rw [hcmd, exec_ringIndexBadSelector, h, if_neg Bool.false_ne_true]

/-- A submission tail outside its ring, or of a ring of weight 0 (R188). -/
theorem writeSubmissionTail_refused {h : HostUnit} {c : Setup} {ring : Fin 4} {p : Nat}
    (hbad : c.rings[ring].weight = 0 ∨ c.rings[ring].size ≤ p) : h.writeSubmissionTail c ring p = h.indexError :=
  if_pos hbad

theorem writeSubmissionTail_taken {h : HostUnit} {c : Setup} {ring : Fin 4} {p : Nat}
    (hw : c.rings[ring].weight ≠ 0) (hp : p < c.rings[ring].size) :
    h.writeSubmissionTail c ring p = { h with subTail := h.subTail.set ring p } :=
  if_neg (not_or.mpr ⟨hw, Nat.not_le.mpr hp⟩)

/-- A completion head that is no position of its ring, or that runs past the part's tail (R188). -/
theorem writeCompletionHead_refused {h : HostUnit} {c : Setup} {p : Nat}
    (hbad : c.completionSize ≤ p ∨ h.completionsPosted c < ringAhead c.completionSize h.completionHead p) :
    h.writeCompletionHead c p = h.indexError :=
  if_pos hbad

theorem writeCompletionHead_taken {h : HostUnit} {c : Setup} {p : Nat}
    (hgood : ¬(c.completionSize ≤ p ∨ h.completionsPosted c < ringAhead c.completionSize h.completionHead p)) :
    h.writeCompletionHead c p = { h with completionHead := p } :=
  if_neg hgood

/-- A notice head that is no position of its ring, or that runs past the part's tail (R188). -/
theorem writeNoticeHead_refused {h : HostUnit} {c : Setup} {p : Nat}
    (hbad : c.noticeSize ≤ p ∨ h.noticesPosted c < ringAhead c.noticeSize h.noticeHead p) :
    h.writeNoticeHead c p = h.indexError :=
  if_pos hbad

theorem writeNoticeHead_taken {h : HostUnit} {c : Setup} {p : Nat}
    (hgood : ¬(c.noticeSize ≤ p ∨ h.noticesPosted c < ringAhead c.noticeSize h.noticeHead p)) :
    h.writeNoticeHead c p = { h with noticeHead := p } :=
  if_neg hgood

/-- Settles O15: the selector gives the command, and a state that takes it writes the position of that ring or sets
INDEX_ERROR, by the test of `writeSubmissionTail`, `writeCompletionHead` or `writeNoticeHead`. -/
theorem ringIndexWrites : Obligations.RingIndexWrites := by
  intro v s selector position taken ahead error
  have htakes : taken → s.host.device.takesIndex = true := (takesIndex_iff _).mpr
  refine ⟨fun ht => ?ignored, fun ht hsel => ?badSelector,
    fun ht c hc => ⟨fun ring hsel => ?submission, fun hsel => ?completion, fun hsel => ?notice⟩⟩
  case ignored =>
    exact exec_ringIndexCommand_of_not_takes v (Bool.eq_false_iff.mpr fun h => ht ((takesIndex_iff _).mp h))
  case badSelector =>
    obtain ⟨seven, hcmd⟩ := ringIndexCommand_badSelector hsel
    rw [hcmd, exec_ringIndexBadSelector, if_pos (htakes ht)]
    rfl
  case submission =>
    rw [ringIndexCommand_submission hsel, exec_ringIndexSubmission, indexWrite_of_takes _ (htakes ht) hc]
    refine ⟨fun hbad => ?_, fun hw hp => ?_⟩
    · rw [writeSubmissionTail_refused hbad]; rfl
    · rw [writeSubmissionTail_taken hw hp]
  case completion =>
    rw [ringIndexCommand_completion hsel, exec_ringIndexCompletion, indexWrite_of_takes _ (htakes ht) hc]
    refine ⟨fun hbad => ?_, fun hgood => ?_⟩
    · rw [writeCompletionHead_refused hbad]; rfl
    · rw [writeCompletionHead_taken hgood]
  case notice =>
    rw [ringIndexCommand_notice hsel, exec_ringIndexNotice, indexWrite_of_takes _ (htakes ht) hc]
    refine ⟨fun hbad => ?_, fun hgood => ?_⟩
    · rw [writeNoticeHead_refused hbad]; rfl
    · rw [writeNoticeHead_taken hgood]

/-! ### The codes of R192 -/

theorem statusCode_mem (status : Status) : (status.code, status) ∈ Safety.statusCodes := by cases status <;> decide

theorem statusCode_lt (status : Status) : status.code < 256 := by cases status <;> decide

theorem deviceStates_code (d : DeviceState) : Safety.deviceStates[d.code]? = some d := by cases d <;> rfl

theorem deviceCode_lt (d : DeviceState) : d.code < 256 := by cases d <;> decide

theorem reasons_code (r : Reason) : Safety.reasons[r.code]? = some r := by cases r <;> rfl

theorem reasonCode_lt (r : Reason) : r.code < 256 := by cases r <;> decide

theorem retireReasons_code (r : RetireReason) : Safety.retireReasons[r.code]? = some r := by cases r <;> rfl

theorem retireCode_lt (r : RetireReason) : r.code < 256 := by cases r <;> decide

theorem noticeCode_lt (n : Notice) : n.code < 256 := by cases n <;> simp [Notice.code]

/-! ### Fields at fixed places (R184) -/

theorem leNat_zeros (n : Nat) : leNat (zeros n) = 0 := by
  induction n with
  | zero => rfl
  | succ n ih => simpa [zeros, leNat, List.replicate_succ] using ih

/-- Reserved bytes read as 0 wherever a field of them begins. -/
@[simp] theorem fieldAt_zeros (m i n : Nat) : fieldAt (zeros m) i n = 0 := by
  rw [fieldAt, zeros, List.drop_replicate, List.take_replicate]
  exact leNat_zeros _

/-- Reserved bytes that begin the list. -/
theorem fieldAt_zeros_head (n : Nat) (l : List Byte) : fieldAt (zeros n ++ l) 0 n = 0 := by
  rw [fieldAt_within 0 n _ _ (by simp), fieldAt_zeros]

/-- A field that is the whole list. -/
theorem fieldAt_leBytes (n v : Nat) : fieldAt (leBytes n v) 0 n = v % 256 ^ n := by
  simpa using fieldAt_head n v []

/-- A field behind a value of `k` bytes. -/
theorem fieldAt_past_leBytes (k v i n : Nat) (l : List Byte) (h : k ≤ i) :
    fieldAt (leBytes k v ++ l) i n = fieldAt l (i - k) n :=
  fieldAt_skip k (i - k) i n _ _ (leBytes_length k v) (Nat.add_sub_cancel' h)

/-- A field behind `k` reserved bytes. -/
theorem fieldAt_past_zeros (k i n : Nat) (l : List Byte) (h : k ≤ i) :
    fieldAt (zeros k ++ l) i n = fieldAt l (i - k) n :=
  fieldAt_skip k (i - k) i n _ _ (zeros_length k) (Nat.add_sub_cancel' h)

/-- Entry `i` of a table of two-byte values. -/
theorem fieldAt_halfwords (l : List Nat) (i : Nat) (h : i < l.length) :
    fieldAt (l.map (leBytes 2)).flatten (2 * i) 2 = l[i] % 256 ^ 2 := by
  rw [fieldAt, record_at 2 (leBytes 2) l (leBytes_length 2) i h, leNat_leBytes]

/-! ### Completion entries (R190) -/

theorem completionEntry_length (slot : Slot) (status : Status) (r : Results) :
    (completionEntry slot status r).length = 16 := by
  simp [completionEntry]

/-- A completion entry field by field, each value cut to its width. -/
theorem completionEntry_fields (slot : Slot) (status : Status) (r : Results) :
    let e := completionEntry slot status r
    fieldAt e 0 1 = slot.ringAndTag.1 % 256 ∧ fieldAt e 1 1 = status.code % 256 ∧
    fieldAt e 2 2 = slot.ringAndTag.2.toNat % 2 ^ 16 ∧ fieldAt e 4 4 = r.at4.toNat % 2 ^ 32 ∧
    fieldAt e 8 4 = r.at8.toNat % 2 ^ 32 ∧ fieldAt e 12 2 = r.at12.toNat % 2 ^ 16 ∧
    fieldAt e 14 1 = r.at14.toNat % 256 ∧ fieldAt e 15 1 = 0 := by
  simp [completionEntry, fieldAt_head, fieldAt_past_leBytes]

/-! ### Notices (R190) -/

theorem noticeFields_length (n : Notice) : n.fields.length = 12 := by
  cases n <;> simp [Notice.fields, streamNotice]

theorem noticeEntry_length (n : Notice) (lost : Nat) : (noticeEntry n lost).length = 16 := by
  simp [noticeEntry, noticeFields_length]

/-- The bytes that every notice has: its code, the lost count, two reserved. -/
theorem noticeEntry_head (n : Notice) {lost : Nat} (h : lost ≤ 255) :
    fieldAt (noticeEntry n lost) 0 1 = n.code ∧ fieldAt (noticeEntry n lost) 1 1 = lost ∧
      fieldAt (noticeEntry n lost) 2 2 = 0 := by
  have hcode := Nat.mod_eq_of_lt (noticeCode_lt n)
  have hlost : lost % 256 = lost := Nat.mod_eq_of_lt (Nat.lt_succ_of_le h)
  simp [noticeEntry, fieldAt_head, fieldAt_zeros_head, fieldAt_past_leBytes, hcode, hlost]

/-- The bytes from 4 on are those of the notice's own fields. -/
theorem noticeEntry_field (n : Notice) (lost i k : Nat) (h : 4 ≤ i) :
    fieldAt (noticeEntry n lost) i k = fieldAt n.fields (i - 4) k :=
  fieldAt_skip 4 (i - 4) i k _ _ (by simp) (Nat.add_sub_cancel' h)

/-- A notice that names a stream and a sequence. -/
theorem noticeEntry_stream {n : Notice} {st : StreamNo} {seq : Seq} (h : n.fields = streamNotice st seq) (lost : Nat) :
    let f := fieldAt (noticeEntry n lost)
    f 4 1 = st.val ∧ f 5 1 = 0 ∧ f 6 2 = seq.toNat ∧ f 8 8 = 0 := by
  have hst : st.val % 256 = st.val := Nat.mod_eq_of_lt (by omega)
  have hseq : seq.toNat % 65536 = seq.toNat := Nat.mod_eq_of_lt seq.isLt
  simp [noticeEntry_field, h, streamNotice, fieldAt_head, fieldAt_zeros_head, fieldAt_past_leBytes, fieldAt_past_zeros,
    hst, hseq]

/-- A notice that is its code alone. -/
theorem noticeEntry_bare {n : Notice} (h : n.fields = zeros 12) (lost : Nat) :
    fieldAt (noticeEntry n lost) 4 12 = 0 := by
  rw [noticeEntry_field _ _ _ _ (by decide), h, fieldAt_zeros]

theorem noticeEntry_recordsExpired (i : SectorNo) (first last lost : Nat) :
    let f := fieldAt (noticeEntry (.recordsExpired i first last) lost)
    f 4 1 = i.val ∧ f 5 3 = 0 ∧ f 8 4 = first % 2 ^ 32 ∧ f 12 4 = last % 2 ^ 32 := by
  have hi : i.val % 256 = i.val := Nat.mod_eq_of_lt i.isLt
  simp [noticeEntry_field, Notice.fields, fieldAt_head, fieldAt_leBytes, fieldAt_zeros_head, fieldAt_past_leBytes,
    fieldAt_past_zeros, hi]

theorem noticeEntry_sectorRetired (i : SectorNo) (r : RetireReason) (lost : Nat) :
    let f := fieldAt (noticeEntry (.sectorRetired i r) lost)
    f 4 1 = i.val ∧ f 5 1 = r.code ∧ f 6 10 = 0 := by
  have hi : i.val % 256 = i.val := Nat.mod_eq_of_lt i.isLt
  have hr := Nat.mod_eq_of_lt (retireCode_lt r)
  simp [noticeEntry_field, Notice.fields, fieldAt_head, fieldAt_past_leBytes, hi, hr]

theorem noticeEntry_weakSector (i : SectorNo) (lost : Nat) :
    let f := fieldAt (noticeEntry (.weakSector i) lost)
    f 4 1 = i.val ∧ f 5 11 = 0 := by
  have hi : i.val % 256 = i.val := Nat.mod_eq_of_lt i.isLt
  simp [noticeEntry_field, Notice.fields, fieldAt_head, fieldAt_past_leBytes, hi]

theorem noticeEntry_mountDone (committed torn members free dirty retired lost : Nat) :
    let f := fieldAt (noticeEntry (.mountDone committed torn members free dirty retired) lost)
    f 4 4 = committed % 2 ^ 32 ∧ f 8 1 = torn % 256 ∧ f 9 1 = members % 256 ∧ f 10 1 = free % 256 ∧
      f 11 1 = dirty % 256 ∧ f 12 1 = retired % 256 ∧ f 13 3 = 0 := by
  simp [noticeEntry_field, Notice.fields, fieldAt_head, fieldAt_past_leBytes]

/-! ### The status block (R189) -/

/-- Bytes 8 to 63 of the status block. -/
def HostUnit.statusRest (h : HostUnit) : List Byte :=
  leBytes 2 h.completionTail ++ (leBytes 2 h.noticeTail ++ (leBytes 1 h.device.code ++ (leBytes 1 h.reason.code
    ++ (leBytes 1 h.badIndex ++ (zeros 1 ++ (leBytes 4 h.writeCount.toNat ++ zeros 44))))))

/-- The four submission heads lie before the other fields of the status block. -/
theorem statusBlock_eq (h : HostUnit) :
    h.statusBlock = (h.subHead.toList.map (leBytes 2)).flatten ++ h.statusRest := by
  simp only [HostUnit.statusBlock, HostUnit.statusRest, List.append_assoc]

theorem statusHeads_length (h : HostUnit) : ((h.subHead.toList.map (leBytes 2)).flatten).length = 8 := by
  rw [records_length 2 (leBytes 2) _ (leBytes_length 2), Vector.length_toList]

theorem statusBlock_length (h : HostUnit) : h.statusBlock.length = 64 := by
  rw [statusBlock_eq, List.length_append, statusHeads_length]
  simp [HostUnit.statusRest]

theorem statusBlock_subHead (h : HostUnit) (i : Fin 4) : fieldAt h.statusBlock (2 * i.val) 2 = h.subHead[i] % 65536 := by
  rw [statusBlock_eq, fieldAt_within _ _ _ _ (by rw [statusHeads_length]; omega), fieldAt_halfwords _ _ (by simp)]
  rfl

theorem statusBlock_field (h : HostUnit) (i k : Nat) (hi : 8 ≤ i) :
    fieldAt h.statusBlock i k = fieldAt h.statusRest (i - 8) k := by
  rw [statusBlock_eq, fieldAt_skip 8 (i - 8) i k _ _ (statusHeads_length h) (Nat.add_sub_cancel' hi)]

/-- The fields behind the submission heads, each value cut to its width. -/
theorem fieldAt_statusRest (h : HostUnit) :
    let b := h.statusRest
    fieldAt b 0 2 = h.completionTail % 65536 ∧ fieldAt b 2 2 = h.noticeTail % 65536 ∧ fieldAt b 4 1 = h.device.code ∧
    fieldAt b 5 1 = h.reason.code ∧ fieldAt b 6 1 = h.badIndex % 256 ∧ fieldAt b 7 1 = 0 ∧
    fieldAt b 8 4 = h.writeCount.toNat ∧ fieldAt b 12 44 = 0 := by
  have hdevice := Nat.mod_eq_of_lt (deviceCode_lt h.device)
  have hreason := Nat.mod_eq_of_lt (reasonCode_lt h.reason)
  have hcount : h.writeCount.toNat % 4294967296 = h.writeCount.toNat := Nat.mod_eq_of_lt h.writeCount.isLt
  simp [HostUnit.statusRest, fieldAt_head, fieldAt_zeros_head, fieldAt_past_leBytes, fieldAt_past_zeros, hdevice,
    hreason, hcount]

/-! ### The three layouts together -/

/-- Settles O25: the fields of a completion entry, of each kind of notice and of the status block, read at
their places. -/
theorem entryLayouts : Obligations.EntryLayouts := by
  refine ⟨fun ring tag kind owner status r => ?completion, fun n lost hlost => ?notice, fun h => ?status⟩
  case completion =>
    obtain ⟨hring, hstatus, htag, h4, h8, h12, h14, h15⟩ := completionEntry_fields (.taken ring tag kind owner) status r
    have hcode := Nat.mod_eq_of_lt (statusCode_lt status)
    refine ⟨completionEntry_length _ _ _, hring.trans (Nat.mod_eq_of_lt ?_), ?_,
      htag.trans (Nat.mod_eq_of_lt tag.isLt), h4.trans (Nat.mod_eq_of_lt r.at4.isLt),
      h8.trans (Nat.mod_eq_of_lt r.at8.isLt), h12.trans (Nat.mod_eq_of_lt r.at12.isLt),
      h14.trans (Nat.mod_eq_of_lt ?_), h15⟩
    · exact ring.isLt.trans (by decide)
    · rw [hstatus, hcode]
      exact statusCode_mem status
    · exact r.at14.toNat_lt.trans (by decide)
  case notice =>
    obtain ⟨hcode, hcount, hreserved⟩ := noticeEntry_head n hlost
    refine ⟨noticeEntry_length n lost, hcount, hreserved, ?_⟩
    cases n with
    | assemblyExpired st seq => exact ⟨hcode, noticeEntry_stream rfl lost⟩
    | assemblyDrained st seq => exact ⟨hcode, noticeEntry_stream rfl lost⟩
    | sequenceSkipped st seq => exact ⟨hcode, noticeEntry_stream rfl lost⟩
    | recordsExpired i first last => exact ⟨hcode, noticeEntry_recordsExpired i first last lost⟩
    | sectorRetired i r =>
      obtain ⟨hsector, hreason, hzero⟩ := noticeEntry_sectorRetired i r lost
      exact ⟨hcode, hsector, (congrArg (Safety.retireReasons[·]?) hreason).trans (retireReasons_code r), hzero⟩
    | weakSector i => exact ⟨hcode, noticeEntry_weakSector i lost⟩
    | journalFull => exact ⟨hcode, noticeEntry_bare rfl lost⟩
    | journalSpace => exact ⟨hcode, noticeEntry_bare rfl lost⟩
    | anchorFailed => exact ⟨hcode, noticeEntry_bare rfl lost⟩
    | mountDone committed torn members free dirty retired =>
      exact ⟨hcode, noticeEntry_mountDone committed torn members free dirty retired lost⟩
  case status =>
    have hrest := statusBlock_field h
    obtain ⟨hcompletion, hnotice, hdevice, hreason, hindex, hzero, hcount, hreserved⟩ := fieldAt_statusRest h
    refine ⟨statusBlock_length h, statusBlock_subHead h, (hrest 8 2 (by decide)).trans hcompletion,
      (hrest 10 2 (by decide)).trans hnotice, ?_, ?_, (hrest 14 1 (by decide)).trans hindex,
      (hrest 15 1 (by decide)).trans hzero, (hrest 16 4 (by decide)).trans hcount,
      (hrest 20 44 (by decide)).trans hreserved⟩
    · rw [hrest 12 1 (by decide), hdevice]
      exact deviceStates_code h.device
    · rw [hrest 13 1 (by decide), hreason]
      exact reasons_code h.reason

end Sys2Proof.Machine
end

section
/-! Which blocks of the part an operation may write: one lemma for each operation, from the shared ones up to the rows of
the opcode table. -/

namespace Sys2Proof.Machine

open Sys2Proof.Laws Sys2Proof.Safety

set_option Elab.async false

/-- The blocks of `State`, and parts of what they hold: the device state; the Journal Writer's place and numbers; the
erase and the wipe of the Reclaim Unit; the journal list and the states, epochs and ranges of the sectors; the position
and the findings of a mount; and the statistics counters, which every block keeps at FFFFFFFFH at most. -/
inductive Block where
  | host | assembly | writer | table | reclaim | holds | anchor | reader | ctrl | mount | array | barred | staging
  | pending
  | device | program | erasing | sectors | scan | counters

/-! ### Parts of the blocks -/

/-- The place and the numbers of the Journal Writer. -/
structure SameProgram (v w : Writer) : Prop where
  state : w.state = v.state
  nextJsn : w.nextJsn = v.nextJsn
  nextEpoch : w.nextEpoch = v.nextEpoch
  sectorInHand : w.sectorInHand = v.sectorInHand
  headerEpoch : w.headerEpoch = v.headerEpoch
  placement : w.placement = v.placement

/-- The erase and the wipe of the Reclaim Unit. -/
structure SameErasing (q r : Reclaim) : Prop where
  state : r.state = q.state
  erase : r.erase = q.erase
  wipeActive : r.wipeActive = q.wipeActive

/-- The state, epoch and range of a sector. -/
structure SameEntry (d e : SectorEntry) : Prop where
  state : e.state = d.state
  epoch : e.epoch = d.epoch
  range : e.range = d.range

/-- The journal list and the sectors' entries. -/
structure SameSectors (t u : SectorTable) : Prop where
  journal : u.journal = t.journal
  entries : ∀ i : SectorNo, SameEntry t.entries[i] u.entries[i]

/-- The position and the findings of a mount. -/
structure SameScan (m n : Mount) : Prop where
  mounted : n.mounted = m.mounted
  findings : n.findings = m.findings
  position : n.position = m.position

/-! ### Statistics counters, block by block -/

def HostUnit.Counts (h : HostUnit) : Prop := h.noticesLost ≤ 0xFFFFFFFF
def Assembly.Counts (a : Assembly) : Prop := a.fragmentsAccepted ≤ 0xFFFFFFFF ∧ a.fragmentsRefused ≤ 0xFFFFFFFF
def Writer.Counts (w : Writer) : Prop :=
  w.recordsCommitted ≤ 0xFFFFFFFF ∧ w.bytesCommitted ≤ 0xFFFFFFFF ∧ w.recordsFailed ≤ 0xFFFFFFFF
def Reclaim.Counts (r : Reclaim) : Prop := r.sectorsErased ≤ 0xFFFFFFFF ∧ r.sectorsRetired ≤ 0xFFFFFFFF
def ArrayCtrl.Counts (c : ArrayCtrl) : Prop :=
  c.linesCorrected ≤ 0xFFFFFFFF ∧ c.linesUncorrectable ≤ 0xFFFFFFFF ∧ c.suspensions ≤ 0xFFFFFFFF
def ReadUnit.Counts (u : ReadUnit) : Prop := u.completed ≤ 0xFFFFFFFF

/-- The counters of all the blocks stand at FFFFFFFFH at most. -/
structure Counts (s : State) : Prop where
  host : s.host.Counts
  assembly : s.assembly.Counts
  writer : s.writer.Counts
  reclaim : s.reclaim.Counts
  ctrl : s.ctrl.Counts
  reader : s.reader.Counts

theorem counts_iff (s : State) : Counts s ↔ CountersHeld s := by
  have h : Counts s ↔ s.host.Counts ∧ s.assembly.Counts ∧ s.writer.Counts ∧ s.reclaim.Counts ∧ s.ctrl.Counts ∧
      s.reader.Counts := ⟨fun ⟨a, b, c, d, e, f⟩ => ⟨a, b, c, d, e, f⟩, fun ⟨a, b, c, d, e, f⟩ => ⟨a, b, c, d, e, f⟩⟩
  rw [h]
  simp only [CountersHeld, State.counters, HostUnit.Counts, Assembly.Counts, Writer.Counts, Reclaim.Counts,
    ArrayCtrl.Counts, ReadUnit.Counts, List.forall_mem_cons, List.not_mem_nil, false_implies, implies_true, and_true]
  tauto

theorem ite_le {p : Prop} [Decidable p] {a b n : Nat} (ha : a ≤ n) (hb : b ≤ n) : (if p then a else b) ≤ n := by
  split
  · exact ha
  · exact hb

theorem saturate_le (n : Nat) : saturate n ≤ 0xFFFFFFFF := Nat.min_le_right _ _

/-! ### Frames -/

/-- Two states agree on one block, or on one part of a block; the later one keeps the counters if the earlier one
does. -/
def Same (s t : State) : Block → Prop
  | .host => t.host = s.host
  | .assembly => t.assembly = s.assembly
  | .writer => t.writer = s.writer
  | .table => t.table = s.table
  | .reclaim => t.reclaim = s.reclaim
  | .holds => t.holds = s.holds
  | .anchor => t.anchor = s.anchor
  | .reader => t.reader = s.reader
  | .ctrl => t.ctrl = s.ctrl
  | .mount => t.mount = s.mount
  | .array => t.array = s.array
  | .barred => t.barred = s.barred
  | .staging => t.staging = s.staging
  | .pending => t.pending = s.pending
  | .device => t.host.device = s.host.device
  | .program => SameProgram s.writer t.writer
  | .erasing => SameErasing s.reclaim t.reclaim
  | .sectors => SameSectors s.table t.table
  | .scan => SameScan s.mount t.mount
  | .counters => Counts s → Counts t

/-- From `s` to `t` only blocks of the list change. -/
def Frame (l : List Block) (s t : State) : Prop := ∀ b, b ∈ l ∨ Same s t b

variable {l : List Block} {s t u : State}

/-! ### Frames compose -/

theorem SameProgram.refl (w : Writer) : SameProgram w w := ⟨rfl, rfl, rfl, rfl, rfl, rfl⟩
theorem SameErasing.refl (r : Reclaim) : SameErasing r r := ⟨rfl, rfl, rfl⟩
theorem SameEntry.refl (e : SectorEntry) : SameEntry e e := ⟨rfl, rfl, rfl⟩
theorem SameSectors.refl (t : SectorTable) : SameSectors t t := ⟨rfl, fun _ => .refl _⟩
theorem SameScan.refl (m : Mount) : SameScan m m := ⟨rfl, rfl, rfl⟩

theorem SameProgram.trans {u v w : Writer} (h : SameProgram u v) (k : SameProgram v w) : SameProgram u w :=
  ⟨k.1.trans h.1, k.2.trans h.2, k.3.trans h.3, k.4.trans h.4, k.5.trans h.5, k.6.trans h.6⟩
theorem SameErasing.trans {p q r : Reclaim} (h : SameErasing p q) (k : SameErasing q r) : SameErasing p r :=
  ⟨k.1.trans h.1, k.2.trans h.2, k.3.trans h.3⟩
theorem SameEntry.trans {c d e : SectorEntry} (h : SameEntry c d) (k : SameEntry d e) : SameEntry c e :=
  ⟨k.1.trans h.1, k.2.trans h.2, k.3.trans h.3⟩
theorem SameSectors.trans {t u v : SectorTable} (h : SameSectors t u) (k : SameSectors u v) : SameSectors t v :=
  ⟨k.1.trans h.1, fun i => (h.2 i).trans (k.2 i)⟩
theorem SameScan.trans {m n o : Mount} (h : SameScan m n) (k : SameScan n o) : SameScan m o :=
  ⟨k.1.trans h.1, k.2.trans h.2, k.3.trans h.3⟩

theorem Same.refl (s : State) (b : Block) : Same s s b := by
  cases b with
  | program => exact SameProgram.refl s.writer
  | erasing => exact SameErasing.refl s.reclaim
  | sectors => exact SameSectors.refl s.table
  | scan => exact SameScan.refl s.mount
  | counters => exact id
  | _ => exact rfl

theorem Same.trans {b : Block} (h : Same s t b) (k : Same t u b) : Same s u b := by
  cases b with
  | program => exact SameProgram.trans h k
  | erasing => exact SameErasing.trans h k
  | sectors => exact SameSectors.trans h k
  | scan => exact SameScan.trans h k
  | counters => exact k ∘ h
  | _ => exact Eq.trans k h

theorem Frame.refl : Frame l s s := fun b => .inr (.refl s b)

theorem Frame.trans (h : Frame l s t) (k : Frame l t u) : Frame l s u := fun b =>
  (h b).elim .inl fun hb => (k b).imp_right hb.trans

theorem Frame.ite {p : Prop} [Decidable p] (h : Frame l s t) (k : Frame l s u) : Frame l s (if p then t else u) := by
  split
  · exact h
  · exact k

theorem Frame.foldl {α : Type} {f : State → α → State} {xs : List α}
    (hf : ∀ {t a}, Frame l s t → Frame l s (f t a)) (h : Frame l s t) : Frame l s (xs.foldl f t) := by
  induction xs generalizing t with
  | nil => exact h
  | cons x xs ih => exact ih (hf h)

/-! ### What a frame says of each block -/

theorem Frame.host (h : Frame l s t) (hn : Block.host ∉ l := by simp) : t.host = s.host :=
  (h .host).resolve_left hn
theorem Frame.assembly (h : Frame l s t) (hn : Block.assembly ∉ l := by simp) : t.assembly = s.assembly :=
  (h .assembly).resolve_left hn
theorem Frame.writer (h : Frame l s t) (hn : Block.writer ∉ l := by simp) : t.writer = s.writer :=
  (h .writer).resolve_left hn
theorem Frame.table (h : Frame l s t) (hn : Block.table ∉ l := by simp) : t.table = s.table :=
  (h .table).resolve_left hn
theorem Frame.reclaim (h : Frame l s t) (hn : Block.reclaim ∉ l := by simp) : t.reclaim = s.reclaim :=
  (h .reclaim).resolve_left hn
theorem Frame.holds (h : Frame l s t) (hn : Block.holds ∉ l := by simp) : t.holds = s.holds :=
  (h .holds).resolve_left hn
theorem Frame.anchor (h : Frame l s t) (hn : Block.anchor ∉ l := by simp) : t.anchor = s.anchor :=
  (h .anchor).resolve_left hn
theorem Frame.reader (h : Frame l s t) (hn : Block.reader ∉ l := by simp) : t.reader = s.reader :=
  (h .reader).resolve_left hn
theorem Frame.ctrl (h : Frame l s t) (hn : Block.ctrl ∉ l := by simp) : t.ctrl = s.ctrl :=
  (h .ctrl).resolve_left hn
theorem Frame.mount (h : Frame l s t) (hn : Block.mount ∉ l := by simp) : t.mount = s.mount :=
  (h .mount).resolve_left hn
theorem Frame.array (h : Frame l s t) (hn : Block.array ∉ l := by simp) : t.array = s.array :=
  (h .array).resolve_left hn
theorem Frame.barred (h : Frame l s t) (hn : Block.barred ∉ l := by simp) : t.barred = s.barred :=
  (h .barred).resolve_left hn
theorem Frame.staging (h : Frame l s t) (hn : Block.staging ∉ l := by simp) : t.staging = s.staging :=
  (h .staging).resolve_left hn
theorem Frame.pending (h : Frame l s t) (hn : Block.pending ∉ l := by simp) : t.pending = s.pending :=
  (h .pending).resolve_left hn
theorem Frame.device (h : Frame l s t) (hn : Block.device ∉ l := by simp) : t.host.device = s.host.device :=
  (h .device).resolve_left hn
theorem Frame.program (h : Frame l s t) (hn : Block.program ∉ l := by simp) : SameProgram s.writer t.writer :=
  (h .program).resolve_left hn
theorem Frame.erasing (h : Frame l s t) (hn : Block.erasing ∉ l := by simp) : SameErasing s.reclaim t.reclaim :=
  (h .erasing).resolve_left hn
theorem Frame.sectors (h : Frame l s t) (hn : Block.sectors ∉ l := by simp) : SameSectors s.table t.table :=
  (h .sectors).resolve_left hn
theorem Frame.scan (h : Frame l s t) (hn : Block.scan ∉ l := by simp) : SameScan s.mount t.mount :=
  (h .scan).resolve_left hn
theorem Frame.counters (h : Frame l s t) (hn : Block.counters ∉ l := by simp) : Counts s → Counts t :=
  (h .counters).resolve_left hn

/-! ### Changing one block -/

theorem onHost_frame {f : HostUnit → HostUnit} (h : Frame l s t) (hl : [.host] ⊆ l := by simp_all)
    (hp : ∀ x, (f x).device = x.device := by intros; rfl)
    (hc : ∀ x, x.Counts → (f x).Counts := by intro _ hx; exact hx) :
    Frame l s (t.onHost f) :=
  h.trans fun b => by
    cases b with
    | host => exact .inl (hl (by simp))
    | device => exact .inr (hp _)
    | counters => exact .inr fun k => { k with host := hc _ k.host }
    | program => exact .inr (SameProgram.refl _)
    | erasing => exact .inr (SameErasing.refl _)
    | sectors => exact .inr (SameSectors.refl _)
    | scan => exact .inr (SameScan.refl _)
    | _ => exact .inr rfl

theorem onHost_device_frame {f : HostUnit → HostUnit} (h : Frame l s t) (hl : [.host, .device] ⊆ l := by simp_all)
    (hc : ∀ x, x.Counts → (f x).Counts := by intro _ hx; exact hx) :
    Frame l s (t.onHost f) :=
  h.trans fun b => by
    cases b with
    | host => exact .inl (hl (by simp))
    | device => exact .inl (hl (by simp))
    | counters => exact .inr fun k => { k with host := hc _ k.host }
    | program => exact .inr (SameProgram.refl _)
    | erasing => exact .inr (SameErasing.refl _)
    | sectors => exact .inr (SameSectors.refl _)
    | scan => exact .inr (SameScan.refl _)
    | _ => exact .inr rfl

theorem onAssembly_frame {f : Assembly → Assembly} (h : Frame l s t) (hl : [.assembly] ⊆ l := by simp_all)
    (hc : ∀ x, x.Counts → (f x).Counts := by intro _ hx; exact hx) :
    Frame l s (t.onAssembly f) :=
  h.trans fun b => by
    cases b with
    | assembly => exact .inl (hl (by simp))
    | counters => exact .inr fun k => { k with assembly := hc _ k.assembly }
    | program => exact .inr (SameProgram.refl _)
    | erasing => exact .inr (SameErasing.refl _)
    | sectors => exact .inr (SameSectors.refl _)
    | scan => exact .inr (SameScan.refl _)
    | _ => exact .inr rfl

theorem onWriter_frame {f : Writer → Writer} (h : Frame l s t) (hl : [.writer] ⊆ l := by simp_all)
    (hp : ∀ x, SameProgram x (f x) := by intros; exact ⟨rfl, rfl, rfl, rfl, rfl, rfl⟩)
    (hc : ∀ x, x.Counts → (f x).Counts := by intro _ hx; exact hx) :
    Frame l s (t.onWriter f) :=
  h.trans fun b => by
    cases b with
    | writer => exact .inl (hl (by simp))
    | program => exact .inr (hp _)
    | counters => exact .inr fun k => { k with writer := hc _ k.writer }
    | erasing => exact .inr (SameErasing.refl _)
    | sectors => exact .inr (SameSectors.refl _)
    | scan => exact .inr (SameScan.refl _)
    | _ => exact .inr rfl

theorem onWriter_program_frame {f : Writer → Writer} (h : Frame l s t) (hl : [.writer, .program] ⊆ l := by simp_all)
    (hc : ∀ x, x.Counts → (f x).Counts := by intro _ hx; exact hx) :
    Frame l s (t.onWriter f) :=
  h.trans fun b => by
    cases b with
    | writer => exact .inl (hl (by simp))
    | program => exact .inl (hl (by simp))
    | counters => exact .inr fun k => { k with writer := hc _ k.writer }
    | erasing => exact .inr (SameErasing.refl _)
    | sectors => exact .inr (SameSectors.refl _)
    | scan => exact .inr (SameScan.refl _)
    | _ => exact .inr rfl

theorem onTable_frame {f : SectorTable → SectorTable} (h : Frame l s t) (hl : [.table] ⊆ l := by simp_all)
    (hp : ∀ x, SameSectors x (f x) := by intros; exact ⟨rfl, fun _ => ⟨rfl, rfl, rfl⟩⟩) :
    Frame l s (t.onTable f) :=
  h.trans fun b => by
    cases b with
    | table => exact .inl (hl (by simp))
    | sectors => exact .inr (hp _)
    | counters => exact .inr fun k => ⟨k.host, k.assembly, k.writer, k.reclaim, k.ctrl, k.reader⟩
    | program => exact .inr (SameProgram.refl _)
    | erasing => exact .inr (SameErasing.refl _)
    | scan => exact .inr (SameScan.refl _)
    | _ => exact .inr rfl

theorem onTable_sectors_frame {f : SectorTable → SectorTable} (h : Frame l s t)
    (hl : [.table, .sectors] ⊆ l := by simp_all) :
    Frame l s (t.onTable f) :=
  h.trans fun b => by
    cases b with
    | table => exact .inl (hl (by simp))
    | sectors => exact .inl (hl (by simp))
    | counters => exact .inr fun k => ⟨k.host, k.assembly, k.writer, k.reclaim, k.ctrl, k.reader⟩
    | program => exact .inr (SameProgram.refl _)
    | erasing => exact .inr (SameErasing.refl _)
    | scan => exact .inr (SameScan.refl _)
    | _ => exact .inr rfl

theorem onReclaim_frame {f : Reclaim → Reclaim} (h : Frame l s t) (hl : [.reclaim] ⊆ l := by simp_all)
    (hp : ∀ x, SameErasing x (f x) := by intros; exact ⟨rfl, rfl, rfl⟩)
    (hc : ∀ x, x.Counts → (f x).Counts := by intro _ hx; exact hx) :
    Frame l s (t.onReclaim f) :=
  h.trans fun b => by
    cases b with
    | reclaim => exact .inl (hl (by simp))
    | erasing => exact .inr (hp _)
    | counters => exact .inr fun k => { k with reclaim := hc _ k.reclaim }
    | program => exact .inr (SameProgram.refl _)
    | sectors => exact .inr (SameSectors.refl _)
    | scan => exact .inr (SameScan.refl _)
    | _ => exact .inr rfl

theorem onReclaim_erasing_frame {f : Reclaim → Reclaim} (h : Frame l s t) (hl : [.reclaim, .erasing] ⊆ l := by simp_all)
    (hc : ∀ x, x.Counts → (f x).Counts := by intro _ hx; exact hx) :
    Frame l s (t.onReclaim f) :=
  h.trans fun b => by
    cases b with
    | reclaim => exact .inl (hl (by simp))
    | erasing => exact .inl (hl (by simp))
    | counters => exact .inr fun k => { k with reclaim := hc _ k.reclaim }
    | program => exact .inr (SameProgram.refl _)
    | sectors => exact .inr (SameSectors.refl _)
    | scan => exact .inr (SameScan.refl _)
    | _ => exact .inr rfl

theorem onHolds_frame {f : HoldTable → HoldTable} (h : Frame l s t) (hl : [.holds] ⊆ l := by simp_all) :
    Frame l s (t.onHolds f) :=
  h.trans fun b => by
    cases b with
    | holds => exact .inl (hl (by simp))
    | counters => exact .inr fun k => ⟨k.host, k.assembly, k.writer, k.reclaim, k.ctrl, k.reader⟩
    | program => exact .inr (SameProgram.refl _)
    | erasing => exact .inr (SameErasing.refl _)
    | sectors => exact .inr (SameSectors.refl _)
    | scan => exact .inr (SameScan.refl _)
    | _ => exact .inr rfl

theorem onAnchor_frame {f : Anchor → Anchor} (h : Frame l s t) (hl : [.anchor] ⊆ l := by simp_all) :
    Frame l s (t.onAnchor f) :=
  h.trans fun b => by
    cases b with
    | anchor => exact .inl (hl (by simp))
    | counters => exact .inr fun k => ⟨k.host, k.assembly, k.writer, k.reclaim, k.ctrl, k.reader⟩
    | program => exact .inr (SameProgram.refl _)
    | erasing => exact .inr (SameErasing.refl _)
    | sectors => exact .inr (SameSectors.refl _)
    | scan => exact .inr (SameScan.refl _)
    | _ => exact .inr rfl

theorem onReader_frame {f : ReadUnit → ReadUnit} (h : Frame l s t) (hl : [.reader] ⊆ l := by simp_all)
    (hc : ∀ x, x.Counts → (f x).Counts := by intro _ hx; exact hx) :
    Frame l s (t.onReader f) :=
  h.trans fun b => by
    cases b with
    | reader => exact .inl (hl (by simp))
    | counters => exact .inr fun k => { k with reader := hc _ k.reader }
    | program => exact .inr (SameProgram.refl _)
    | erasing => exact .inr (SameErasing.refl _)
    | sectors => exact .inr (SameSectors.refl _)
    | scan => exact .inr (SameScan.refl _)
    | _ => exact .inr rfl

theorem onCtrl_frame {f : ArrayCtrl → ArrayCtrl} (h : Frame l s t) (hl : [.ctrl] ⊆ l := by simp_all)
    (hc : ∀ x, x.Counts → (f x).Counts := by intro _ hx; exact hx) :
    Frame l s (t.onCtrl f) :=
  h.trans fun b => by
    cases b with
    | ctrl => exact .inl (hl (by simp))
    | counters => exact .inr fun k => { k with ctrl := hc _ k.ctrl }
    | program => exact .inr (SameProgram.refl _)
    | erasing => exact .inr (SameErasing.refl _)
    | sectors => exact .inr (SameSectors.refl _)
    | scan => exact .inr (SameScan.refl _)
    | _ => exact .inr rfl

theorem onMount_frame {f : Mount → Mount} (h : Frame l s t) (hl : [.mount] ⊆ l := by simp_all)
    (hp : ∀ x, SameScan x (f x) := by intros; exact ⟨rfl, rfl, rfl⟩) :
    Frame l s (t.onMount f) :=
  h.trans fun b => by
    cases b with
    | mount => exact .inl (hl (by simp))
    | scan => exact .inr (hp _)
    | counters => exact .inr fun k => ⟨k.host, k.assembly, k.writer, k.reclaim, k.ctrl, k.reader⟩
    | program => exact .inr (SameProgram.refl _)
    | erasing => exact .inr (SameErasing.refl _)
    | sectors => exact .inr (SameSectors.refl _)
    | _ => exact .inr rfl

theorem onMount_scan_frame {f : Mount → Mount} (h : Frame l s t) (hl : [.mount, .scan] ⊆ l := by simp_all) :
    Frame l s (t.onMount f) :=
  h.trans fun b => by
    cases b with
    | mount => exact .inl (hl (by simp))
    | scan => exact .inl (hl (by simp))
    | counters => exact .inr fun k => ⟨k.host, k.assembly, k.writer, k.reclaim, k.ctrl, k.reader⟩
    | program => exact .inr (SameProgram.refl _)
    | erasing => exact .inr (SameErasing.refl _)
    | sectors => exact .inr (SameSectors.refl _)
    | _ => exact .inr rfl

theorem onArray_frame {f : List (Nat × Cell) → List (Nat × Cell)} (h : Frame l s t) (hl : [.array] ⊆ l := by simp_all) :
    Frame l s (t.onArray f) :=
  h.trans fun b => by
    cases b with
    | array => exact .inl (hl (by simp))
    | counters => exact .inr fun k => ⟨k.host, k.assembly, k.writer, k.reclaim, k.ctrl, k.reader⟩
    | program => exact .inr (SameProgram.refl _)
    | erasing => exact .inr (SameErasing.refl _)
    | sectors => exact .inr (SameSectors.refl _)
    | scan => exact .inr (SameScan.refl _)
    | _ => exact .inr rfl

theorem onBarred_frame {f : List (Nat × List Byte) → List (Nat × List Byte)} (h : Frame l s t)
    (hl : [.barred] ⊆ l := by simp_all) :
    Frame l s (t.onBarred f) :=
  h.trans fun b => by
    cases b with
    | barred => exact .inl (hl (by simp))
    | counters => exact .inr fun k => ⟨k.host, k.assembly, k.writer, k.reclaim, k.ctrl, k.reader⟩
    | program => exact .inr (SameProgram.refl _)
    | erasing => exact .inr (SameErasing.refl _)
    | sectors => exact .inr (SameSectors.refl _)
    | scan => exact .inr (SameScan.refl _)
    | _ => exact .inr rfl

theorem onStaging_frame {f : List Host.Cell → List Host.Cell} (h : Frame l s t) (hl : [.staging] ⊆ l := by simp_all) :
    Frame l s (t.onStaging f) :=
  h.trans fun b => by
    cases b with
    | staging => exact .inl (hl (by simp))
    | counters => exact .inr fun k => ⟨k.host, k.assembly, k.writer, k.reclaim, k.ctrl, k.reader⟩
    | program => exact .inr (SameProgram.refl _)
    | erasing => exact .inr (SameErasing.refl _)
    | sectors => exact .inr (SameSectors.refl _)
    | scan => exact .inr (SameScan.refl _)
    | _ => exact .inr rfl

/-! ### Shared operations -/

theorem postOutcome_frame {slot st r} (h : Frame l s t)
    (hl : [.host] ⊆ l := by simp_all) : Frame l s (postOutcome slot st r t) :=
  onHost_frame h

theorem complete_frame {slot st} (h : Frame l s t) (hl : [.host] ⊆ l := by simp_all) : Frame l s (complete slot st t) :=
  onHost_frame h

theorem postNotice_frame {n} (h : Frame l s t) (hl : [.host] ⊆ l := by simp_all) : Frame l s (postNotice n t) :=
  .ite (onHost_frame h hl (hc := fun _ _ => Nat.min_le_right _ _)) (onHost_frame h)

theorem HostUnit.withCauses_counts {x : HostUnit} (c : BitVec 4) (hx : x.Counts) : (x.withCauses c).Counts := by
  unfold HostUnit.Counts at *
  rw [HostUnit.withCauses, judged_eq]
  exact hx

theorem halt_frame {r} (h : Frame l s t) (hl : [.host, .device] ⊆ l := by simp_all) : Frame l s (halt r t) :=
  .ite h (onHost_device_frame h hl (hc := fun _ hx => HostUnit.withCauses_counts _ hx))

theorem placeRequest_frame {who op} (h : Frame l s t)
    (hl : [.ctrl] ⊆ l := by simp_all) : Frame l s (placeRequest who op t) :=
  onCtrl_frame h

theorem takeOutcome_frame {who} (h : Frame l s t) (hl : [.ctrl] ⊆ l := by simp_all) : Frame l s (takeOutcome who t) :=
  onCtrl_frame h

theorem signalReclaim_frame (h : Frame l s t) (hl : [.reclaim] ⊆ l := by simp_all) : Frame l s (signalReclaim t) :=
  .ite (onReclaim_frame h) h

theorem signalWriter_frame (h : Frame l s t) (hl : [.writer] ⊆ l := by simp_all) : Frame l s (signalWriter t) :=
  .ite (onWriter_frame h) h

theorem completeWipe_frame {st} (h : Frame l s t)
    (hl : [.host, .reclaim, .erasing] ⊆ l := by simp_all) : Frame l s (completeWipe st t) := by
  unfold completeWipe
  split
  · exact signalReclaim_frame (onReclaim_erasing_frame (complete_frame h))
  · exact h

/-! ### The Sector Table -/

/-- Changing one entry otherwise than in state, epoch and range. -/
theorem modEntry_frame {i f} (h : Frame l s t) (hl : [.table] ⊆ l := by simp_all)
    (he : ∀ e, SameEntry e (f e) := by intro; exact ⟨rfl, rfl, rfl⟩) : Frame l s (modEntry i f t) :=
  onTable_frame h hl fun x => ⟨rfl, fun j => by
    dsimp only
    rw [tableMod_get]
    split
    next hj => exact hj ▸ he _
    next => exact .refl _⟩

theorem modEntry_sectors_frame {i f} (h : Frame l s t) (hl : [.table, .sectors] ⊆ l := by simp_all) :
    Frame l s (modEntry i f t) :=
  onTable_sectors_frame h

theorem SameEntry.retireLater (e : SectorEntry) (r : RetireReason) : SameEntry e (e.retireLater r) := by
  unfold SectorEntry.retireLater
  split
  · exact .refl e
  · exact ⟨rfl, rfl, rfl⟩

theorem pinSector_frame {i} (h : Frame l s t) (hl : [.table] ⊆ l := by simp_all) : Frame l s (pinSector i t) :=
  modEntry_frame h

theorem takeInHand_frame {i} (h : Frame l s t) (hl : [.table] ⊆ l := by simp_all) : Frame l s (takeInHand i t) :=
  modEntry_frame h

theorem extendClaim_frame {i p f j} (h : Frame l s t)
    (hl : [.table, .sectors] ⊆ l := by simp_all) : Frame l s (extendClaim i p f j t) :=
  modEntry_sectors_frame h

theorem openClaim_frame {i e b} (h : Frame l s t)
    (hl : [.table, .reclaim, .sectors] ⊆ l := by simp_all) : Frame l s (openClaim i e b t) := by
  unfold openClaim
  split
  · exact h
  · exact signalReclaim_frame (onTable_sectors_frame (modEntry_sectors_frame h))

theorem headerFailed_frame {i} (h : Frame l s t)
    (hl : [.table, .reclaim, .sectors] ⊆ l := by simp_all) : Frame l s (headerFailed i t) :=
  signalReclaim_frame (modEntry_sectors_frame h)

theorem closeClaim_frame {i k} (h : Frame l s t)
    (hl : [.table, .reclaim, .sectors] ⊆ l := by simp_all) : Frame l s (closeClaim i k t) :=
  signalReclaim_frame (modEntry_sectors_frame h)

theorem unpinSector_frame {i} (h : Frame l s t)
    (hl : [.table, .reclaim] ⊆ l := by simp_all) : Frame l s (unpinSector i t) :=
  .ite (signalReclaim_frame (modEntry_frame h)) (modEntry_frame h)

theorem expireRange_frame {i} (h : Frame l s t) (hl : [.host] ⊆ l := by simp_all) : Frame l s (expireRange i t) := by
  unfold expireRange
  split
  · exact h
  · exact postNotice_frame h

theorem takeVictim_frame {i} (h : Frame l s t)
    (hl : [.host, .table, .sectors] ⊆ l := by simp_all) : Frame l s (takeVictim i t) :=
  onTable_sectors_frame (modEntry_sectors_frame (expireRange_frame h))

theorem settleErase_frame {i o} (h : Frame l s t)
    (hl : [.table, .writer, .sectors] ⊆ l := by simp_all) : Frame l s (settleErase i o t) :=
  signalWriter_frame (modEntry_sectors_frame h)

theorem wipeMember_frame {i} (h : Frame l s t)
    (hl : [.host, .table, .sectors] ⊆ l := by simp_all) : Frame l s (wipeMember i t) :=
  modEntry_sectors_frame (expireRange_frame h)

theorem wipeStart_frame (h : Frame l s t)
    (hl : [.host, .table, .sectors] ⊆ l := by simp_all) : Frame l s (wipeStart t) :=
  onTable_sectors_frame (.foldl (fun h => wipeMember_frame h) h)

theorem correctedReport_frame {i n} (h : Frame l s t) (hl : [.host, .table] ⊆ l := by simp_all) :
    Frame l s (correctedReport i n t) := by
  unfold correctedReport
  refine .ite (.ite (postNotice_frame (modEntry_frame h (he := fun e => ?_))) (modEntry_frame h)) h
  exact SameEntry.trans (d := { e with corrected := _, weak := true }) ⟨rfl, rfl, rfl⟩ (.retireLater _ _)

theorem anchorEraseSettled_frame {a ok} (h : Frame l s t)
    (hl : [.table] ⊆ l := by simp_all) : Frame l s (anchorEraseSettled a ok t) :=
  .ite (modEntry_frame h) h

/-! ### Holds and anchor -/

theorem setHold_frame {id rh} (h : Frame l s t) (hl : [.holds] ⊆ l := by simp_all) : Frame l s (setHold id rh t) :=
  onHolds_frame h

theorem freeHold_frame {id} (h : Frame l s t)
    (hl : [.holds, .reclaim] ⊆ l := by simp_all) : Frame l s (freeHold id t) :=
  signalReclaim_frame (setHold_frame h)

theorem requestPart_frame {x} (h : Frame l s t)
    (hl : [.anchor, .ctrl] ⊆ l := by simp_all) : Frame l s (requestPart x t) :=
  placeRequest_frame (onAnchor_frame h)

theorem beginAttempt_frame {x} (h : Frame l s t)
    (hl : [.anchor, .ctrl] ⊆ l := by simp_all) : Frame l s (beginAttempt x t) :=
  requestPart_frame (onAnchor_frame h)

theorem beginRollover_frame {x} (h : Frame l s t)
    (hl : [.anchor, .ctrl] ⊆ l := by simp_all) : Frame l s (beginRollover x t) :=
  placeRequest_frame (onAnchor_frame h)

theorem startSnapshot_blocks (h : Frame l s t)
    (hl : [.anchor, .ctrl] ⊆ l := by simp_all) : Frame l s (startSnapshot t) :=
  .ite (beginRollover_frame h) (beginAttempt_frame h)

theorem takeChange_frame {c} (h : Frame l s t)
    (hl : [.host, .reclaim, .anchor, .ctrl, .erasing] ⊆ l := by simp_all) : Frame l s (takeChange c t) := by
  unfold takeChange
  refine .ite ?failed ?taken
  case failed =>
    cases c with
    | wipe => exact completeWipe_frame (onAnchor_frame h)
    | retire _ => exact onAnchor_frame h
    | hold _ => exact onAnchor_frame h
  case taken =>
    split
    · exact startSnapshot_blocks (onAnchor_frame (onAnchor_frame h))
    · exact onAnchor_frame (onAnchor_frame h)
    · exact onAnchor_frame (onAnchor_frame h)

theorem completeWaiting_frame {rh st r} (h : Frame l s t)
    (hl : [.host] ⊆ l := by simp_all) : Frame l s (completeWaiting rh st r t) := by
  unfold completeWaiting
  split
  · exact postOutcome_frame h
  · exact h

theorem changeValidated_frame {c} (h : Frame l s t)
    (hl : [.host, .holds, .reclaim, .erasing] ⊆ l := by simp_all) : Frame l s (changeValidated c t) := by
  unfold changeValidated
  split
  · exact h
  · exact completeWipe_frame h
  · split
    · exact h
    · split
      · exact completeWaiting_frame (setHold_frame h)
      · exact completeWaiting_frame (freeHold_frame h)
      · exact h
      · exact h

theorem changeFailed_frame {c} (h : Frame l s t)
    (hl : [.host, .holds, .reclaim, .erasing] ⊆ l := by simp_all) : Frame l s (changeFailed c t) := by
  unfold changeFailed
  split
  · exact h
  · exact completeWipe_frame h
  · split
    · exact h
    · split
      · exact completeWaiting_frame (freeHold_frame h)
      · exact completeWaiting_frame (setHold_frame h)
      · exact h
      · exact h

theorem snapshotValidated_frame {x} (h : Frame l s t)
    (hl : [.host, .holds, .reclaim, .anchor, .ctrl, .erasing] ⊆ l := by simp_all) : Frame l s (snapshotValidated x t) :=
  .ite (startSnapshot_blocks (onAnchor_frame (.foldl (fun h => changeValidated_frame h) (onAnchor_frame h))))
    (.foldl (fun h => changeValidated_frame h) (onAnchor_frame h))

theorem anchorFails_frame (h : Frame l s t)
    (hl : [.host, .holds, .reclaim, .anchor, .erasing] ⊆ l := by simp_all) : Frame l s (anchorFails t) :=
  postNotice_frame (.foldl (fun h => changeFailed_frame h) (onAnchor_frame h))

theorem snapshotPartEnded_frame {x ok} (h : Frame l s t)
    (hl : [.host, .holds, .reclaim, .anchor, .ctrl, .erasing] ⊆ l := by simp_all) :
    Frame l s (snapshotPartEnded x ok t) :=
  .ite (.ite (snapshotValidated_frame h) (requestPart_frame h))
    (.ite (beginAttempt_frame h) (.ite (anchorFails_frame h) (beginRollover_frame h)))

theorem rolloverEnded_frame {x ok} (h : Frame l s t)
    (hl : [.host, .table, .holds, .reclaim, .anchor, .ctrl, .erasing] ⊆ l := by simp_all) :
    Frame l s (rolloverEnded x ok t) :=
  .ite (beginAttempt_frame (onAnchor_frame (anchorEraseSettled_frame h)))
    (anchorFails_frame (anchorEraseSettled_frame h))

theorem takeHold_frame {slot first last fixed owner} (h : Frame l s t)
    (hl : [.host, .holds, .reclaim, .anchor, .ctrl, .erasing] ⊆ l := by simp_all) :
      Frame l s (takeHold slot first last fixed owner t) := by
  unfold takeHold
  refine .ite (complete_frame h) (.ite (complete_frame h) (.ite (complete_frame h) ?_))
  split
  · exact complete_frame h
  · exact .ite (takeChange_frame (setHold_frame h)) (postOutcome_frame (setHold_frame h))

theorem takeRelease_frame {slot id} (h : Frame l s t)
    (hl : [.host, .holds, .reclaim, .anchor, .ctrl, .erasing] ⊆ l := by simp_all) :
    Frame l s (takeRelease slot id t) := by
  unfold takeRelease
  split
  · exact complete_frame h
  · split
    · exact complete_frame h
    · exact complete_frame h
    · exact complete_frame (freeHold_frame h)
    · exact .ite (complete_frame h) (takeChange_frame (setHold_frame h))

/-! ### The Assembly Unit -/

theorem modStream_frame {i f} (h : Frame l s t) (hl : [.assembly] ⊆ l := by simp_all) : Frame l s (modStream i f t) :=
  onAssembly_frame h

theorem setContext_frame {i c} (h : Frame l s t) (hl : [.assembly] ⊆ l := by simp_all) : Frame l s (setContext i c t) :=
  onAssembly_frame h

theorem freeBlocks_frame {bs} (h : Frame l s t) (hl : [.assembly] ⊆ l := by simp_all) : Frame l s (freeBlocks bs t) :=
  onAssembly_frame h

theorem markAbandoned_frame {st k} (h : Frame l s t)
    (hl : [.assembly] ⊆ l := by simp_all) : Frame l s (markAbandoned st k t) :=
  onAssembly_frame h

theorem releaseContext_frame {i c} (h : Frame l s t)
    (hl : [.assembly] ⊆ l := by simp_all) : Frame l s (releaseContext i c t) :=
  setContext_frame (freeBlocks_frame h)

theorem unqueue_frame {i} (h : Frame l s t) (hl : [.writer] ⊆ l := by simp_all) : Frame l s (unqueue i t) :=
  onWriter_frame h

theorem discardContext_frame {i c} (h : Frame l s t)
    (hl : [.host, .assembly] ⊆ l := by simp_all) : Frame l s (discardContext i c t) := by
  unfold discardContext
  dsimp only
  split
  · exact complete_frame (releaseContext_frame h)
  · exact releaseContext_frame h

theorem closeStreamNow_frame {st} (h : Frame l s t)
    (hl : [.host, .assembly] ⊆ l := by simp_all) : Frame l s (closeStreamNow st t) := by
  unfold closeStreamNow
  dsimp only
  split
  · exact complete_frame (modStream_frame h)
  · exact modStream_frame h

theorem closeIfDone_frame {st} (h : Frame l s t)
    (hl : [.host, .assembly] ⊆ l := by simp_all) : Frame l s (closeIfDone st t) :=
  .ite (closeStreamNow_frame h) h

theorem admitOnce_frame {st} (h : Frame l s t) (hu : admitOnce st t = some u)
    (hl : [.assembly, .writer] ⊆ l := by simp_all) : Frame l s u := by
  unfold admitOnce at hu
  dsimp only at hu
  split at hu
  · split at hu
    · cases hu
      exact modStream_frame (onWriter_frame (setContext_frame h))
    · split at hu
      · cases hu
        exact modStream_frame h
      · cases hu
  · cases hu

theorem admitSteps_frame {st n} (h : Frame l s t)
    (hl : [.assembly, .writer] ⊆ l := by simp_all) : Frame l s (admitSteps st n t) := by
  induction n generalizing t with
  | zero => exact h
  | succ n ih =>
    unfold admitSteps
    split
    next hu => exact ih (admitOnce_frame h hu)
    next => exact h

theorem admitStream_frame {st} (h : Frame l s t)
    (hl : [.assembly, .writer] ⊆ l := by simp_all) : Frame l s (admitStream st t) :=
  admitSteps_frame h

theorem admitAll_frame (h : Frame l s t) (hl : [.assembly, .writer] ⊆ l := by simp_all) : Frame l s (admitAll t) :=
  .foldl (fun h => admitStream_frame h) h

theorem takeAppend_frame {f} (h : Frame l s t)
    (hl : [.host, .assembly] ⊆ l := by simp_all) : Frame l s (takeAppend f t) := by
  unfold takeAppend
  split
  · exact complete_frame (onAssembly_frame h (hc := fun _ hx => ⟨hx.1, saturate_le _⟩))
  · exact setContext_frame (onAssembly_frame h (hc := fun _ hx => ⟨saturate_le _, hx.2⟩))

theorem takeHeld_frame (h : Frame l s t) (hl : [.host, .assembly] ⊆ l := by simp_all) : Frame l s (takeHeld t) := by
  unfold takeHeld
  split
  · exact h
  · split
    · exact h
    · exact .ite h (takeAppend_frame (onAssembly_frame h))

theorem abortedContextEnds_frame {i c} (h : Frame l s t)
    (hl : [.host, .assembly, .writer] ⊆ l := by simp_all) : Frame l s (abortedContextEnds i c t) :=
  .ite (admitStream_frame (markAbandoned_frame (discardContext_frame h))) (closeIfDone_frame (discardContext_frame h))

theorem abortingTransferEnd_frame {i c slot} (h : Frame l s t)
    (hl : [.host, .assembly, .writer] ⊆ l := by simp_all) : Frame l s (abortingTransferEnd i c slot t) :=
  .ite (abortedContextEnds_frame (complete_frame (setContext_frame h))) (complete_frame (setContext_frame h))

theorem gatheringTransferEnd_frame {i c slot} (h : Frame l s t)
    (hl : [.host, .assembly, .writer] ⊆ l := by simp_all) : Frame l s (gatheringTransferEnd i c slot t) :=
  .ite (admitStream_frame (setContext_frame h)) (complete_frame (setContext_frame h))

theorem gatheringTransferFail_frame {i c x} (h : Frame l s t)
    (hl : [.host, .assembly] ⊆ l := by simp_all) : Frame l s (gatheringTransferFail i c x t) :=
  .ite (discardContext_frame (complete_frame (setContext_frame (freeBlocks_frame h))))
    (complete_frame (setContext_frame (freeBlocks_frame h)))

theorem landData_frame {c x d} (h : Frame l s t) (hl : [.staging] ⊆ l := by simp_all) : Frame l s (landData c x d t) :=
  onStaging_frame h

theorem transferEnds_frame {slot d} (h : Frame l s t)
    (hl : [.host, .assembly, .writer, .staging] ⊆ l := by simp_all) : Frame l s (transferEnds slot d t) := by
  unfold transferEnds
  split
  · exact h
  · split
    · exact h
    · exact takeHeld_frame (.ite (abortingTransferEnd_frame (landData_frame h)) (gatheringTransferEnd_frame
        (landData_frame h)))

theorem transferFails_frame {slot} (h : Frame l s t)
    (hl : [.host, .assembly, .writer] ⊆ l := by simp_all) : Frame l s (transferFails slot t) := by
  unfold transferFails
  split
  · exact h
  · split
    · exact h
    · exact takeHeld_frame (.ite (abortingTransferEnd_frame h) (gatheringTransferFail_frame h))

theorem recordCommitted_frame {i j} (h : Frame l s t)
    (hl : [.host, .assembly] ⊆ l := by simp_all) : Frame l s (recordCommitted i j t) := by
  unfold recordCommitted
  split
  · exact h
  · refine closeIfDone_frame (releaseContext_frame (modStream_frame ?_))
    split
    · exact postOutcome_frame h
    · exact h

theorem recordFailed_frame {i st} (h : Frame l s t)
    (hl : [.host, .assembly] ⊆ l := by simp_all) : Frame l s (recordFailed i st t) := by
  unfold recordFailed
  split
  · exact h
  · refine closeIfDone_frame (releaseContext_frame (modStream_frame ?_))
    split
    · exact complete_frame h
    · exact h

theorem takeOpenStream_frame {slot st n a e f} (h : Frame l s t)
    (hl : [.host, .assembly] ⊆ l := by simp_all) : Frame l s (takeOpenStream slot st n a e f t) :=
  .ite (complete_frame h) (.ite (complete_frame h) (postOutcome_frame (modStream_frame h)))

theorem closeAbort_frame {st i} (h : Frame l s t)
    (hl : [.host, .assembly, .writer] ⊆ l := by simp_all) : Frame l s (closeAbort st i t) := by
  unfold closeAbort
  split
  · exact h
  · refine .ite h ?_
    split
    · exact .ite (discardContext_frame h) (setContext_frame h)
    · exact h
    · exact discardContext_frame h
    · exact discardContext_frame (unqueue_frame h)
    · exact h

theorem takeCloseStream_frame {slot st a} (h : Frame l s t)
    (hl : [.host, .assembly, .writer] ⊆ l := by simp_all) : Frame l s (takeCloseStream slot st a t) := by
  unfold takeCloseStream
  split
  · exact complete_frame h
  · exact complete_frame h
  · exact .ite (complete_frame (closeStreamNow_frame h))
      (.ite (closeIfDone_frame (modStream_frame (.foldl (fun h => closeAbort_frame h) h))) (complete_frame h))

theorem abortPosition_frame {st q k} (h : Frame l s t)
    (hl : [.host, .assembly, .writer] ⊆ l := by simp_all) : Frame l s (abortPosition st q k t) := by
  have marks : ∀ {x : State}, Frame l s x → Frame l s (admitStream st (markAbandoned st k x)) :=
    fun hx => admitStream_frame (markAbandoned_frame hx)
  unfold abortPosition
  split
  · exact .ite h (marks h)
  · split
    · exact .ite (marks (discardContext_frame h)) (setContext_frame h)
    · exact marks (discardContext_frame h)
    · exact h
    · exact h
    · exact h

theorem abortInWindow_frame {slot st q} (h : Frame l s t)
    (hl : [.host, .assembly, .writer] ⊆ l := by simp_all) : Frame l s (abortInWindow slot st q t) :=
  .ite (complete_frame h) (.ite (complete_frame h) (complete_frame (abortPosition_frame h)))

theorem abortQueued_frame {slot st i c} (h : Frame l s t)
    (hl : [.host, .assembly, .writer] ⊆ l := by simp_all) : Frame l s (abortQueued slot st i c t) :=
  complete_frame (modStream_frame (discardContext_frame (unqueue_frame h)))

theorem takeAbortRecord_frame {slot st q} (h : Frame l s t)
    (hl : [.host, .assembly, .writer] ⊆ l := by simp_all) : Frame l s (takeAbortRecord slot st q t) := by
  unfold takeAbortRecord
  refine .ite (complete_frame h) (.ite (complete_frame h) ?_)
  split
  · exact abortQueued_frame h
  · exact abortInWindow_frame h

theorem expireContext_frame {i c} (h : Frame l s t)
    (hl : [.host, .assembly] ⊆ l := by simp_all) : Frame l s (expireContext i c t) :=
  postNotice_frame (markAbandoned_frame (discardContext_frame h))

theorem ageContext_frame {i} (h : Frame l s t)
    (hl : [.host, .assembly] ⊆ l := by simp_all) : Frame l s (ageContext i t) := by
  unfold ageContext
  split
  · exact h
  · exact .ite (.ite (expireContext_frame h) (setContext_frame h)) h

theorem skipPosition_frame {st} (h : Frame l s t)
    (hl : [.host, .assembly] ⊆ l := by simp_all) : Frame l s (skipPosition st t) :=
  postNotice_frame (markAbandoned_frame h)

theorem ageStall_frame {st} (h : Frame l s t)
    (hl : [.host, .assembly] ⊆ l := by simp_all) : Frame l s (ageStall st t) :=
  .ite (.ite (.ite (skipPosition_frame (modStream_frame h)) (modStream_frame h)) (modStream_frame h)) h

theorem takeTick_frame (h : Frame l s t)
    (hl : [.host, .assembly, .writer] ⊆ l := by simp_all) : Frame l s (takeTick t) :=
  admitAll_frame (.foldl (fun h => ageStall_frame h) (.foldl (fun h => ageContext_frame h) (onAssembly_frame h)))

theorem drainContext_frame {i} (h : Frame l s t)
    (hl : [.host, .assembly] ⊆ l := by simp_all) : Frame l s (drainContext i t) := by
  unfold drainContext
  split
  · exact h
  · split
    · exact .ite (.ite (markAbandoned_frame (discardContext_frame (postNotice_frame h))) (discardContext_frame
        (postNotice_frame h)))
        (setContext_frame (postNotice_frame h))
    · exact postNotice_frame h
    · exact h
    · exact h
    · exact h

theorem drainSkipPosition_frame {st k} (h : Frame l s t)
    (hl : [.host, .assembly] ⊆ l := by simp_all) : Frame l s (drainSkipPosition st k t) :=
  .ite h (postNotice_frame (markAbandoned_frame h))

theorem drainSkips_frame {st} (h : Frame l s t)
    (hl : [.host, .assembly] ⊆ l := by simp_all) : Frame l s (drainSkips st t) := by
  unfold drainSkips
  refine .ite ?_ h
  split
  · exact h
  · exact .foldl (fun h => drainSkipPosition_frame h) h

theorem drainAssembly_frame (h : Frame l s t)
    (hl : [.host, .assembly, .writer] ⊆ l := by simp_all) : Frame l s (drainAssembly t) :=
by
  unfold drainAssembly
  refine takeHeld_frame (admitAll_frame ?_)
  refine Frame.foldl (fun h => drainSkips_frame h) ?_
  exact .foldl (fun h => drainContext_frame h) (onAssembly_frame h)

/-! ### The Journal Writer -/

theorem markFull_frame (h : Frame l s t) (hl : [.host, .writer] ⊆ l := by simp_all) : Frame l s (markFull t) :=
  .ite (onWriter_frame h) (postNotice_frame (onWriter_frame h))

theorem failRecord_frame {st} (h : Frame l s t)
    (hl : [.host, .assembly, .writer, .program] ⊆ l := by simp_all) : Frame l s (failRecord st t) := by
  unfold failRecord
  split
  · exact h
  · exact onWriter_program_frame (.ite (markFull_frame (recordFailed_frame h)) (recordFailed_frame h))
      (hc := fun _ hx => ⟨hx.1, hx.2.1, saturate_le _⟩)

theorem placeRecord_frame {i c x p} (h : Frame l s t)
    (hl : [.assembly, .writer, .ctrl, .program] ⊆ l := by simp_all) : Frame l s (placeRecord i c x p t) :=
  placeRequest_frame (onWriter_program_frame (setContext_frame (.ite (modStream_frame h) h)))

theorem waitForSpace_frame (h : Frame l s t)
    (hl : [.writer, .program] ⊆ l := by simp_all) : Frame l s (waitForSpace t) :=
  onWriter_program_frame h

theorem askSector_frame (h : Frame l s t)
    (hl : [.host, .assembly, .writer, .table, .ctrl, .program] ⊆ l := by simp_all) : Frame l s (askSector t) := by
  unfold askSector
  refine .ite (failRecord_frame h) ?_
  split
  · exact placeRequest_frame (onWriter_program_frame (takeInHand_frame h))
  · exact .ite (waitForSpace_frame h) (failRecord_frame h)

theorem roomCheck_frame (h : Frame l s t)
    (hl : [.host, .assembly, .writer, .table, .ctrl, .program] ⊆ l := by simp_all) : Frame l s (roomCheck t) := by
  unfold roomCheck
  split
  · exact h
  · split
    · exact askSector_frame h
    · split
      · exact askSector_frame h
      · exact .ite (placeRecord_frame h) (askSector_frame h)

theorem takeQueueHead_frame (h : Frame l s t)
    (hl : [.host, .assembly, .writer, .table, .ctrl, .program] ⊆ l := by simp_all) : Frame l s (takeQueueHead t) := by
  unfold takeQueueHead
  split
  · exact h
  next i rest _ =>
    have hc : Frame l s (match (t.onWriter fun w => { w with queue := rest, record := some i }).assembly.contexts[i] with
        | some c => setContext i (some { c with state := .writing })
            (t.onWriter fun w => { w with queue := rest, record := some i })
        | none => t.onWriter fun w => { w with queue := rest, record := some i }) := by
      split
      · exact setContext_frame (onWriter_frame h)
      · exact onWriter_frame h
    exact .ite (failRecord_frame hc) (roomCheck_frame hc)

theorem openInHand_frame {e} (h : Frame l s t)
    (hl : [.host, .assembly, .writer, .table, .reclaim, .ctrl, .program, .sectors] ⊆ l := by simp_all) :
    Frame l s (openInHand e t) := by
  unfold openInHand
  split
  · exact h
  · exact roomCheck_frame (onWriter_program_frame (openClaim_frame h))

theorem advanceEpoch_frame (h : Frame l s t)
    (hl : [.writer, .program] ⊆ l := by simp_all) : Frame l s (advanceEpoch t) :=
  onWriter_program_frame h

theorem headerProgrammed_frame (h : Frame l s t)
    (hl : [.host, .assembly, .writer, .table, .reclaim, .ctrl, .program, .sectors] ⊆ l := by simp_all) :
      Frame l s (headerProgrammed t) := by
  have ha : Frame l s (advanceEpoch t) := advanceEpoch_frame h
  unfold headerProgrammed
  dsimp only
  split
  · exact openInHand_frame ha
  · split
    · exact openInHand_frame (closeClaim_frame ha)
    · exact .ite (placeRequest_frame (onWriter_program_frame ha)) (openInHand_frame (closeClaim_frame ha))

theorem headerProgramFailed_frame (h : Frame l s t)
    (hl : [.host, .assembly, .writer, .table, .reclaim, .ctrl, .program, .sectors] ⊆ l := by simp_all) :
      Frame l s (headerProgramFailed t) := by
  unfold headerProgramFailed
  split
  · exact h
  · exact askSector_frame (onWriter_program_frame (headerFailed_frame (advanceEpoch_frame h)))

theorem padProgrammed_frame {e ok} (h : Frame l s t)
    (hl : [.host, .assembly, .writer, .table, .reclaim, .ctrl, .program, .sectors] ⊆ l := by simp_all) :
      Frame l s (padProgrammed e ok t) := by
  unfold padProgrammed
  split
  · exact openInHand_frame h
  · exact openInHand_frame (closeClaim_frame h)

theorem continueRecord_frame {c pl} (h : Frame l s t)
    (hl : [.writer, .ctrl, .program] ⊆ l := by simp_all) : Frame l s (continueRecord c pl t) :=
  .ite (placeRequest_frame (onWriter_program_frame h)) (placeRequest_frame (onWriter_program_frame h))

theorem relocate_frame {c pl} (h : Frame l s t)
    (hl : [.host, .assembly, .writer, .table, .reclaim, .ctrl, .program, .sectors] ⊆ l := by simp_all) :
    Frame l s (relocate c pl t) :=
  .ite (roomCheck_frame (onWriter_program_frame (closeClaim_frame h)))
    (failRecord_frame (onWriter_program_frame (closeClaim_frame h)))

theorem commitRecord_frame {i c pl} (h : Frame l s t)
    (hl : [.host, .assembly, .writer, .table, .program, .sectors] ⊆ l := by simp_all) :
    Frame l s (commitRecord i c pl t) :=
  onWriter_program_frame (recordCommitted_frame (onWriter_program_frame (extendClaim_frame h)))
    (hc := fun _ hx => ⟨saturate_le _, saturate_le _, hx.2.2⟩)

theorem spaceRegained_frame (h : Frame l s t)
    (hl : [.host, .writer] ⊆ l := by simp_all) : Frame l s (spaceRegained t) :=
  .ite (postNotice_frame (onWriter_frame h)) h

theorem drainWriter_frame (h : Frame l s t)
    (hl : [.host, .assembly, .writer, .table, .ctrl, .program] ⊆ l := by simp_all) : Frame l s (drainWriter t) :=
  .ite (askSector_frame h) h

/-! ### The Reclaim Unit -/

theorem eraseVictim_frame {i st} (h : Frame l s t)
    (hl : [.host, .table, .reclaim, .ctrl, .erasing, .sectors] ⊆ l := by simp_all) : Frame l s (eraseVictim i st t) :=
  placeRequest_frame (onReclaim_erasing_frame (takeVictim_frame h))

theorem reclaimTest_frame (h : Frame l s t)
    (hl : [.host, .writer, .table, .reclaim, .ctrl, .erasing, .sectors] ⊆ l := by simp_all) :
    Frame l s (reclaimTest t) := by
  unfold reclaimTest
  refine .ite ?_ h
  split
  · exact eraseVictim_frame h
  · exact signalWriter_frame h

theorem retireSector_frame {i r} (h : Frame l s t)
    (hl : [.host, .reclaim, .anchor, .ctrl, .erasing] ⊆ l := by simp_all) : Frame l s (retireSector i r t) :=
  postNotice_frame (takeChange_frame h)

theorem finishWipe_frame (h : Frame l s t)
    (hl : [.host, .assembly, .writer, .reclaim, .anchor, .ctrl, .program, .erasing] ⊆ l := by simp_all) :
    Frame l s (finishWipe t) :=
  takeChange_frame (onReclaim_erasing_frame (onAssembly_frame (onWriter_program_frame h)))

theorem continueWipe_frame (h : Frame l s t)
   
        (hl : [.host, .assembly, .writer, .table, .reclaim, .anchor, .ctrl, .program, .erasing, .sectors] ⊆ l := by simp_all) :
      Frame l s (continueWipe t) := by
  unfold continueWipe
  split
  · exact eraseVictim_frame h
  · exact finishWipe_frame h

theorem settleSector_frame {i ok} (h : Frame l s t)
    (hl : [.host, .writer, .table, .reclaim, .anchor, .ctrl, .erasing, .sectors] ⊆ l := by simp_all) :
    Frame l s (settleSector i ok t) := by
  unfold settleSector
  refine onReclaim_erasing_frame ?_ (hc := fun _ hx => ⟨?_, ?_⟩)
  case refine_2 => exact ite_le (saturate_le _) hx.1
  case refine_3 => exact ite_le (saturate_le _) hx.2
  split
  · exact spaceRegained_frame (settleErase_frame h)
  · exact retireSector_frame (settleErase_frame h)

theorem eraseEnded_frame {i ok} (h : Frame l s t)
   
        (hl : [.host, .assembly, .writer, .table, .reclaim, .anchor, .ctrl, .program, .erasing, .sectors] ⊆ l := by simp_all) :
      Frame l s (eraseEnded i ok t) := by
  have hs : Frame l s (settleSector i ok t) := settleSector_frame h
  unfold eraseEnded
  dsimp only
  split
  · exact continueWipe_frame hs
  · exact reclaimTest_frame (onReclaim_erasing_frame hs)
  · exact hs
  · exact hs

theorem acceptWipe_frame {slot} (h : Frame l s t)
   
        (hl : [.host, .assembly, .writer, .table, .reclaim, .anchor, .ctrl, .program, .erasing, .sectors] ⊆ l := by simp_all) :
      Frame l s (acceptWipe slot t) :=
  .ite (continueWipe_frame (onReclaim_erasing_frame (wipeStart_frame (onReclaim_erasing_frame h))))
    (onReclaim_erasing_frame (wipeStart_frame (onReclaim_erasing_frame h)))

theorem takeWipe_frame {slot} (h : Frame l s t)
   
        (hl : [.host, .assembly, .writer, .table, .reclaim, .anchor, .ctrl, .program, .erasing, .sectors] ⊆ l := by simp_all) :
      Frame l s (takeWipe slot t) :=
  .ite (complete_frame h) (.ite (complete_frame h) (.ite (complete_frame h) (acceptWipe_frame h)))

/-! ### The device and the mount -/

theorem enterSetup_frame (h : Frame l s t) (hl : [.host, .device] ⊆ l := by simp_all) : Frame l s (enterSetup t) :=
  onHost_device_frame h hl fun x hx => by
    dsimp only
    split
    · exact hx
    · exact hx

theorem resumeSetup_frame (h : Frame l s t) (hl : [.host] ⊆ l := by simp_all) : Frame l s (resumeSetup t) := by
  unfold resumeSetup
  split
  · exact .ite (onHost_frame h) h
  · exact h
  · exact h

theorem enterOnline_frame (h : Frame l s t)
    (hl : [.host, .assembly, .reclaim, .device] ⊆ l := by simp_all) : Frame l s (enterOnline t) :=
  signalReclaim_frame (onAssembly_frame (onHost_device_frame h))

theorem enterStopped_frame (h : Frame l s t) (hl : [.host, .device] ⊆ l := by simp_all) : Frame l s (enterStopped t) :=
  .ite (enterSetup_frame (onHost_device_frame h)) (onHost_device_frame h)

theorem enterDraining_frame (h : Frame l s t)
    (hl : [.host, .assembly, .writer, .table, .ctrl, .device, .program] ⊆ l := by simp_all) :
    Frame l s (enterDraining t) :=
  drainWriter_frame (drainAssembly_frame (onHost_device_frame h))

theorem enterOffline_frame {r k} (h : Frame l s t)
    (hl : [.host, .device] ⊆ l := by simp_all) : Frame l s (enterOffline r k t) :=
  onHost_device_frame h hl (hc := fun _ hx => HostUnit.withCauses_counts _ hx)

theorem requestSlot_frame {a k} (h : Frame l s t)
    (hl : [.mount, .ctrl, .scan] ⊆ l := by simp_all) : Frame l s (requestSlot a k t) :=
  placeRequest_frame (onMount_scan_frame h)

theorem requestMountLine_frame {i n p} (h : Frame l s t)
    (hl : [.mount, .ctrl, .scan] ⊆ l := by simp_all) : Frame l s (requestMountLine i n p t) :=
  placeRequest_frame (onMount_scan_frame h)

theorem enterMounting_frame (h : Frame l s t)
    (hl : [.host, .mount, .ctrl, .device, .scan] ⊆ l := by simp_all) : Frame l s (enterMounting t) :=
  requestSlot_frame (onMount_scan_frame (onHost_device_frame h))

theorem setFinding_frame {i f} (h : Frame l s t)
    (hl : [.mount, .scan] ⊆ l := by simp_all) : Frame l s (setFinding i f t) :=
  onMount_scan_frame h

theorem handOver_frame (h : Frame l s t)
   
        (hl : [.host, .assembly, .writer, .table, .reclaim, .holds, .anchor, .mount, .device, .program, .sectors, .scan] ⊆ l := by simp_all) :
      Frame l s (handOver t) :=
  .ite (enterOnline_frame (onMount_scan_frame (postNotice_frame (onAssembly_frame (onAnchor_frame (onHolds_frame
      (onWriter_program_frame (onTable_sectors_frame h))))))))
    (enterStopped_frame (onMount_scan_frame (postNotice_frame (onAssembly_frame (onAnchor_frame (onHolds_frame
      (onWriter_program_frame (onTable_sectors_frame h))))))))

/-- The blocks that the end of a mount's read may write. -/
abbrev mountBlocks : List Block :=
  [.host, .assembly, .writer, .table, .reclaim, .holds, .anchor, .ctrl, .mount, .device, .program, .sectors, .scan]

theorem scanSectors_frame {is} (h : Frame l s t)
    (hl : mountBlocks ⊆ l := by simp_all) : Frame l s (scanSectors is t) := by
  induction is generalizing t with
  | nil => exact handOver_frame (onMount_frame h)
  | cons i is ih => exact .ite (ih (setFinding_frame h)) (requestMountLine_frame h)

theorem scanAfter_frame {i} (h : Frame l s t) (hl : mountBlocks ⊆ l := by simp_all) : Frame l s (scanAfter i t) :=
  scanSectors_frame h

/-- What a slot of the anchor scan adds leaves the position and the findings as they are. -/
theorem withSlot_scan (m : Mount) (a : Fin 2) (slot : Nat) (ls : List LineOutcome) :
    SameScan m (m.withSlot a slot ls) := by
  unfold Mount.withSlot
  split
  · exact .refl m
  · dsimp only
    repeat' split
    all_goals exact ⟨rfl, rfl, rfl⟩

theorem slotRead_frame {a k ls} (h : Frame l s t)
    (hl : mountBlocks ⊆ l := by simp_all) : Frame l s (slotRead a k ls t) :=
  .ite (requestSlot_frame (onMount_frame h (hp := fun _ => withSlot_scan ..)))
    (.ite (requestSlot_frame (onMount_frame h (hp := fun _ => withSlot_scan ..))) (scanSectors_frame (onMount_frame
        (onMount_frame h (hp := fun _ => withSlot_scan ..)))))

theorem mountWalkEnded_frame {i w e p} (h : Frame l s t)
    (hl : mountBlocks ⊆ l := by simp_all) : Frame l s (mountWalkEnded i w e p t) :=
  scanAfter_frame (onMount_frame (setFinding_frame h))

theorem mountHeaderRead_frame {i p w o} (h : Frame l s t)
    (hl : mountBlocks ⊆ l := by simp_all) : Frame l s (mountHeaderRead i p w o t) := by
  unfold mountHeaderRead
  split
  · exact mountWalkEnded_frame h
  · exact mountWalkEnded_frame h
  · exact mountWalkEnded_frame h
  · exact mountWalkEnded_frame h
  · exact requestMountLine_frame h

theorem mountCommitRead_frame {i p rh w o} (h : Frame l s t)
    (hl : mountBlocks ⊆ l := by simp_all) : Frame l s (mountCommitRead i p rh w o t) := by
  unfold mountCommitRead
  split
  · exact mountWalkEnded_frame h
  · exact .ite (mountWalkEnded_frame h) (requestMountLine_frame h)

theorem mountSectorRead_frame {i o} (h : Frame l s t)
    (hl : mountBlocks ⊆ l := by simp_all) : Frame l s (mountSectorRead i o t) := by
  unfold mountSectorRead
  split
  · exact requestMountLine_frame h
  · exact .ite (placeRequest_frame (onMount_scan_frame h)) (scanAfter_frame (setFinding_frame h))

/-! ### The Read Unit -/

theorem requestLine_frame {i n st} (h : Frame l s t)
    (hl : [.reader, .ctrl] ⊆ l := by simp_all) : Frame l s (requestLine i n st t) :=
  placeRequest_frame (onReader_frame h)

theorem holdPinned_frame {i} (h : Frame l s t) (hl : [.reader] ⊆ l := by simp_all) : Frame l s (holdPinned i t) :=
  onReader_frame h

/-- The blocks that the end of a read may write. -/
abbrev readBlocks : List Block := [.host, .table, .reclaim, .reader, .ctrl]

theorem reportAndUnpin_frame {i} (h : Frame l s t)
    (hl : [.host, .table, .reclaim, .reader] ⊆ l := by simp_all) : Frame l s (reportAndUnpin i t) :=
  unpinSector_frame (onReader_frame (.ite (correctedReport_frame h) h))

theorem finishRead_frame {st r} (h : Frame l s t)
    (hl : [.host, .table, .reclaim, .reader] ⊆ l := by simp_all) : Frame l s (finishRead st r t) := by
  unfold finishRead
  split
  · exact h
  · refine onReader_frame (postOutcome_frame ?_) (hc := fun _ _ => saturate_le _)
    split
    · exact reportAndUnpin_frame h
    · exact h

theorem finishScan_frame {st n} (h : Frame l s t)
    (hl : [.host, .table, .reclaim, .reader] ⊆ l := by simp_all) : Frame l s (finishScan st n t) := by
  unfold finishScan
  split
  · exact h
  · exact finishRead_frame h

theorem finishScanShort_frame {rh} (h : Frame l s t)
    (hl : [.host, .table, .reclaim, .reader] ⊆ l := by simp_all) : Frame l s (finishScanShort rh t) := by
  unfold finishScanShort
  split
  · exact h
  · exact finishRead_frame h

theorem scanHeader_frame {i p} (h : Frame l s t) (hl : readBlocks ⊆ l := by simp_all) : Frame l s (scanHeader i p t) :=
  .ite (finishScan_frame h) (requestLine_frame h)

theorem scanHandover_frame {i} (h : Frame l s t)
    (hl : readBlocks ⊆ l := by simp_all) : Frame l s (scanHandover i t) := by
  unfold scanHandover
  split
  · exact scanHeader_frame (holdPinned_frame (reportAndUnpin_frame (pinSector_frame h)))
  · exact finishScan_frame h

theorem walkEnded_frame {e i} (h : Frame l s t) (hl : readBlocks ⊆ l := by simp_all) : Frame l s (walkEnded e i t) := by
  unfold walkEnded
  refine .ite ?_ (finishRead_frame h)
  split
  · exact scanHandover_frame h
  · exact .ite (scanHandover_frame h) (finishScan_frame h)

theorem moveOn_frame {i p rh} (h : Frame l s t) (hl : readBlocks ⊆ l := by simp_all) : Frame l s (moveOn i p rh t) :=
  .ite (walkEnded_frame (onReader_frame h))
    (.ite (scanHeader_frame (onReader_frame h)) (requestLine_frame (onReader_frame h)))

theorem requestPayload_frame {i p rh c g} (h : Frame l s t)
    (hl : [.reader, .ctrl] ⊆ l := by simp_all) : Frame l s (requestPayload i p rh c g t) :=
  placeRequest_frame (onReader_frame h)

theorem beginCheck_frame {i p rh c} (h : Frame l s t)
    (hl : [.reader, .ctrl] ⊆ l := by simp_all) : Frame l s (beginCheck i p rh c t) :=
  requestPayload_frame (onReader_frame h)

theorem issueImage_frame {p rh sh a bs} (h : Frame l s t)
    (hl : [.reader] ⊆ l := by simp_all) : Frame l s (issueImage p rh sh a bs t) :=
  onReader_frame h

theorem deliver_frame {p rh} (h : Frame l s t) (hl : [.reader] ⊆ l := by simp_all) : Frame l s (deliver p rh t) := by
  unfold deliver
  split
  · exact h
  · split
    · exact .ite (issueImage_frame h) (.ite (issueImage_frame h) (issueImage_frame h))
    · split
      · exact h
      · exact .ite (issueImage_frame h) (issueImage_frame h)
    · exact h

theorem checkFailed_frame {rh st} (h : Frame l s t)
    (hl : [.host, .table, .reclaim, .reader] ⊆ l := by simp_all) : Frame l s (checkFailed rh st t) :=
  .ite (finishScan_frame h) (finishRead_frame h)

theorem offerRecord_frame {i p rh c n g} (h : Frame l s t)
    (hl : readBlocks ⊆ l := by simp_all) : Frame l s (offerRecord i p rh c n g t) :=
  .ite (beginCheck_frame h) (.ite (finishScan_frame h) (beginCheck_frame h))

theorem recordMet_frame {i p rh c} (hs : Frame l s t)
    (hl : readBlocks ⊆ l := by simp_all) : Frame l s (recordMet i p rh c t) := by
  unfold recordMet
  split
  · exact hs
  · split
    · exact .ite (beginCheck_frame hs) (moveOn_frame hs)
    · split
      · exact hs
      · refine .ite (moveOn_frame hs) ?_
        split
        · exact .ite (offerRecord_frame hs) (moveOn_frame hs)
        · exact offerRecord_frame hs
    · exact hs

theorem headerRead_frame {i p o} (h : Frame l s t)
    (hl : readBlocks ⊆ l := by simp_all) : Frame l s (headerRead i p o t) := by
  unfold headerRead
  split
  · exact walkEnded_frame h
  · exact walkEnded_frame h
  · exact walkEnded_frame h
  · exact walkEnded_frame h
  · exact requestLine_frame h

theorem commitRead_frame {i p rh o} (h : Frame l s t)
    (hl : readBlocks ⊆ l := by simp_all) : Frame l s (commitRead i p rh o t) := by
  unfold commitRead
  split
  · exact recordMet_frame h
  · exact walkEnded_frame h

theorem payloadRead_frame {i p rh c g ls} (h : Frame l s t)
    (hl : readBlocks ⊆ l := by simp_all) : Frame l s (payloadRead i p rh c g ls t) := by
  unfold payloadRead
  split
  · exact checkFailed_frame h
  · exact .ite (requestPayload_frame (onReader_frame h))
      (.ite (deliver_frame (onReader_frame h)) (checkFailed_frame (onReader_frame h)))

theorem linesRead_frame {i st ls} (h : Frame l s t)
    (hl : readBlocks ⊆ l := by simp_all) : Frame l s (linesRead i st ls t) := by
  unfold linesRead
  dsimp only
  split
  · exact headerRead_frame (onReader_frame h)
  · exact commitRead_frame (onReader_frame h)
  · exact payloadRead_frame (onReader_frame h)
  · exact onReader_frame h

theorem imageWritten_frame {i p x sh ok n} (h : Frame l s t)
    (hl : readBlocks ⊆ l := by simp_all) : Frame l s (imageWritten i p x sh ok n t) := by
  unfold imageWritten
  split
  · exact h
  · refine .ite (finishRead_frame h) ?_
    split
    · exact .ite (finishScanShort_frame h)
        (.ite (finishScan_frame (onReader_frame h)) (moveOn_frame (onReader_frame h)))
    · exact .ite (finishRead_frame h) (finishRead_frame h)

theorem beginRead_frame {r j rest} (h : Frame l s t)
    (hl : readBlocks ⊆ l := by simp_all) : Frame l s (beginRead r j rest t) := by
  unfold beginRead
  refine .ite (finishRead_frame (onReader_frame h)) ?_
  split
  · exact finishRead_frame (onReader_frame h)
  · exact requestLine_frame (holdPinned_frame (pinSector_frame (onReader_frame h)))

theorem beginScan_frame {r f rest} (h : Frame l s t)
    (hl : readBlocks ⊆ l := by simp_all) : Frame l s (beginScan r f rest t) := by
  unfold beginScan
  dsimp only
  split
  · exact scanHeader_frame (holdPinned_frame (pinSector_frame (onReader_frame (onReader_frame h))))
  · exact .ite (finishScan_frame (onReader_frame (onReader_frame h))) (finishScan_frame (onReader_frame h))

theorem beginHead_frame {r rest} (h : Frame l s t)
    (hl : readBlocks ⊆ l := by simp_all) : Frame l s (beginHead r rest t) := by
  unfold beginHead
  split
  · exact beginRead_frame h
  · exact beginScan_frame h
  · exact onReader_frame h

theorem beginHeads_frame {rs} (h : Frame l s t) (hl : readBlocks ⊆ l := by simp_all) : Frame l s (beginHeads rs t) := by
  induction rs generalizing t with
  | nil => exact h
  | cons r rest ih => exact .ite (ih (beginHead_frame h)) (beginHead_frame h)

theorem nextRead_frame (h : Frame l s t) (hl : readBlocks ⊆ l := by simp_all) : Frame l s (nextRead t) :=
  .ite (beginHeads_frame h) h

theorem takeRead_frame {r} (h : Frame l s t) (hl : readBlocks ⊆ l := by simp_all) : Frame l s (takeRead r t) :=
  .ite (complete_frame h) (nextRead_frame (onReader_frame h))

/-! ### The Host Ring Unit and the Array Controller -/

/-- A change of the Host Ring Unit that leaves the device state and keeps the count of lost notices. -/
structure HostUnit.Stays (h k : HostUnit) : Prop where
  device : k.device = h.device
  counts : h.Counts → k.Counts

theorem HostUnit.Stays.refl (h : HostUnit) : h.Stays h := ⟨rfl, id⟩

theorem HostUnit.judged_stays (h : HostUnit) (c m : BitVec 4) : h.Stays (h.judged c m) :=
  ⟨judged_device h c m, fun hx => by rw [judged_eq]; exact hx⟩

theorem HostUnit.writeSubmissionTail_stays (h : HostUnit) (c : Setup) (ring : Fin 4) (p : Nat) :
    h.Stays (h.writeSubmissionTail c ring p) := by
  unfold HostUnit.writeSubmissionTail
  split
  · exact judged_stays h _ _
  · exact ⟨rfl, id⟩

theorem HostUnit.writeCompletionHead_stays (h : HostUnit) (c : Setup) (p : Nat) :
    h.Stays (h.writeCompletionHead c p) := by
  unfold HostUnit.writeCompletionHead
  split
  · exact judged_stays h _ _
  · exact ⟨rfl, id⟩

theorem HostUnit.writeNoticeHead_stays (h : HostUnit) (c : Setup) (p : Nat) : h.Stays (h.writeNoticeHead c p) := by
  unfold HostUnit.writeNoticeHead
  split
  · exact judged_stays h _ _
  · exact ⟨rfl, id⟩

theorem HostUnit.writePlain_stays (h : HostUnit) (r : PlainRegister) (v : Word) : h.Stays (h.writePlain r v) := by
  cases r with
  | id => exact .refl h
  | state => exact .refl h
  | setupLo => exact ⟨rfl, fun hx => hx⟩
  | setupHi => exact ⟨rfl, fun hx => hx⟩

theorem HostUnit.beginNotice_stays (h : HostUnit) (c : Setup) (n : Notice) : h.Stays (h.beginNotice c n) := by
  unfold HostUnit.beginNotice
  split
  · exact ⟨rfl, fun _ => Nat.min_le_right _ _⟩
  · exact ⟨rfl, id⟩

theorem HostUnit.beginPosting_stays (h : HostUnit) : h.Stays h.beginPosting := by
  unfold HostUnit.beginPosting
  split
  · split
    · exact ⟨rfl, id⟩
    · exact beginNotice_stays h _ _
    · exact .refl h
  · exact .refl h

theorem onHost_stays_frame {f : HostUnit → HostUnit} (h : Frame l s t) (hf : ∀ x : HostUnit, x.Stays (f x))
    (hl : [.host] ⊆ l := by simp_all) : Frame l s (t.onHost f) :=
  onHost_frame h hl (fun x => (hf x).device) fun x => (hf x).counts

theorem indexWrite_frame {f : HostUnit → Setup → HostUnit} (h : Frame l s t) (hf : ∀ x c, HostUnit.Stays x (f x c))
    (hl : [.host] ⊆ l := by simp_all) : Frame l s (indexWrite f t) := by
  unfold indexWrite
  split
  · exact .ite (onHost_stays_frame h (hf · _)) h
  · exact h

theorem setupReadEnded_frame {a} (h : Frame l s t)
    (hl : [.host, .assembly, .reclaim, .mount, .ctrl, .device, .scan] ⊆ l := by simp_all) :
    Frame l s (setupReadEnded a t) := by
  unfold setupReadEnded setupBlockRead
  split
  · dsimp only
    split
    · exact enterOffline_frame h
    · exact .ite (.ite (enterOnline_frame (onHost_frame h)) (enterMounting_frame (onHost_frame h)))
        (onHost_device_frame (onHost_frame h))
  · exact enterOffline_frame h

/-- The blocks that hold the queues of the owners. -/
abbrev queueBlocks : List Block := [.host, .assembly, .reader, .holds, .table, .reclaim]

theorem route_frame {o r} (h : Frame l s t) (hl : queueBlocks ⊆ l := by simp_all) : Frame l s (route o r t) := by
  cases o with
  | hostRing => exact onHost_frame h
  | assembly => exact onAssembly_frame h
  | readUnit => exact onReader_frame h
  | holdTable => exact onHolds_frame h
  | sectorTable => exact onTable_frame h
  | reclaim => exact onReclaim_frame h

theorem takeEntry_frame {i ring ls} (h : Frame l s t)
    (hl : queueBlocks ⊆ l := by simp_all) : Frame l s (takeEntry i ring ls t) := by
  unfold takeEntry
  dsimp only
  split
  · exact complete_frame (onHost_frame h)
  · exact complete_frame (onHost_frame h)
  · exact route_frame (onHost_frame h)

theorem fetchEnded_frame {i ring c a} (h : Frame l s t) (hl : queueBlocks ⊆ l := by simp_all)
    (hd : Block.device ∈ l := by simp) : Frame l s (fetchEnded i ring c a t) := by
  unfold fetchEnded
  split
  · exact halt_frame h
  · exact takeEntry_frame (onHost_frame h)

theorem entryWriteEnded_frame {f r ok} (h : Frame l s t) (hf : ∀ x c, HostUnit.Stays x (f x c))
    (hl : [.host, .device] ⊆ l := by simp_all) : Frame l s (entryWriteEnded f r ok t) := by
  unfold entryWriteEnded
  split
  · exact h
  · exact .ite (resumeSetup_frame (onHost_stays_frame h (hf · _))) (halt_frame h)

theorem statusEnded_frame {c ok} (h : Frame l s t) (hl : [.host, .device] ⊆ l := by simp_all) :
    Frame l s (statusEnded c ok t) :=
  .ite (resumeSetup_frame (onHost_stays_frame h fun _ =>
    ⟨withCauses_device .., fun hx => HostUnit.withCauses_counts _ hx⟩))
    (halt_frame h)

theorem answerQuery_frame {slot a n out} (h : Frame l s t)
    (hl : [.host] ⊆ l := by simp_all) : Frame l s (answerQuery slot a n out t) :=
  .ite (postOutcome_frame h) (onHost_frame h)

theorem clearCounters_frame (h : Frame l s t)
    (hl : [.host, .assembly, .writer, .reclaim, .ctrl, .reader] ⊆ l := by simp_all) : Frame l s (clearCounters t) :=
  h.trans fun b => by
    cases b with
    | host => exact .inl (hl (by simp))
    | assembly => exact .inl (hl (by simp))
    | writer => exact .inl (hl (by simp))
    | reclaim => exact .inl (hl (by simp))
    | ctrl => exact .inl (hl (by simp))
    | reader => exact .inl (hl (by simp))
    | program => exact .inr ⟨rfl, rfl, rfl, rfl, rfl, rfl⟩
    | erasing => exact .inr ⟨rfl, rfl, rfl⟩
    | sectors => exact .inr (SameSectors.refl _)
    | scan => exact .inr (SameScan.refl _)
    | counters =>
      have z := Nat.zero_le 0xFFFFFFFF
      exact .inr fun _ => ⟨z, ⟨z, z⟩, ⟨z, z, z⟩, ⟨z, z⟩, ⟨z, z, z⟩, z⟩
    | _ => exact .inr rfl

theorem takeQueryStats_frame {slot c a n} (h : Frame l s t)
    (hl : [.host, .assembly, .writer, .reclaim, .ctrl, .reader] ⊆ l := by simp_all) :
      Frame l s (takeQueryStats slot c a n t) :=
  answerQuery_frame (.ite (clearCounters_frame h) h)

theorem queryWritten_frame {q ok} (h : Frame l s t)
    (hl : [.host] ⊆ l := by simp_all) : Frame l s (queryWritten q ok t) :=
  .ite (postOutcome_frame (onHost_frame h)) (complete_frame (onHost_frame h))

/-- The blocks that a reset may write: all but the waiting commands. -/
abbrev resetBlocks : List Block :=
  [.host, .assembly, .writer, .table, .reclaim, .holds, .anchor, .reader, .ctrl, .mount, .array, .barred, .staging,
    .device, .program, .erasing, .sectors, .scan]

theorem coldReset_counts (left : Residue) (s : State) : Counts (coldReset left s) :=
  have z := Nat.zero_le 0xFFFFFFFF
  ⟨z, ⟨z, z⟩, ⟨z, z, z⟩, ⟨z, z⟩, ⟨z, z, z⟩, z⟩

theorem softReset_counts (left : Residue) {s : State} (h : Counts s) : Counts (softReset left s) :=
  ⟨h.host, h.assembly, h.writer, h.reclaim, h.ctrl, h.reader⟩

theorem coldReset_frame {left} (h : Frame l s t) (hl : resetBlocks ⊆ l := by simp_all) :
    Frame l s (coldReset left t) :=
  h.trans fun b => by
    cases b with
    | pending => exact .inr rfl
    | counters => exact .inr fun _ => coldReset_counts left t
    | _ => exact .inl (hl (by simp))

theorem softReset_frame {left} (h : Frame l s t) (hl : resetBlocks ⊆ l := by simp_all) :
    Frame l s (softReset left t) :=
  h.trans fun b => by
    cases b with
    | pending => exact .inr rfl
    | counters => exact .inr (softReset_counts left)
    | _ => exact .inl (hl (by simp))

/-! ### Counters of the Array Controller -/

theorem ArrayCtrl.suspend_counts {c : ArrayCtrl} (h : c.Counts) : c.suspend.Counts := by
  unfold ArrayCtrl.suspend
  split
  · exact h
  · split
    · exact ⟨h.1, h.2.1, saturate_le _⟩
    · exact h

theorem ArrayCtrl.choose_counts {c : ArrayCtrl} (h : c.Counts) : c.choose.Counts := by
  unfold ArrayCtrl.choose
  dsimp only
  split
  · exact h
  · split
    · exact h
    · split
      · exact h
      · split
        · exact h
        · exact h

theorem ArrayCtrl.chooseSuspended_counts {c : ArrayCtrl} (h : c.Counts) : c.chooseSuspended.Counts := by
  unfold ArrayCtrl.chooseSuspended
  split
  · exact h
  · split
    · split
      · exact h
      · exact h
    · exact h

theorem ArrayCtrl.takeRequest_counts {c : ArrayCtrl} (who : Requester) (op : ArrayOp) (h : c.Counts) :
    (c.takeRequest who op).Counts := by
  unfold ArrayCtrl.takeRequest
  dsimp only
  split
  · exact choose_counts h
  · split
    · exact suspend_counts h
    · exact h
  · exact chooseSuspended_counts h
  · exact h
  · exact h
  · exact h
  · exact h
  · exact h

theorem ArrayCtrl.leave_counts {c : ArrayCtrl} (op : ArrayOp) (h : c.Counts) : (c.leave op).Counts := by
  unfold ArrayCtrl.leave
  split
  · exact h
  · exact h

theorem ArrayCtrl.countLines_counts {c : ArrayCtrl} (o : ArrayOutcome) (h : c.Counts) : (c.countLines o).Counts := by
  unfold ArrayCtrl.countLines
  split
  · exact ⟨saturate_le _, saturate_le _, h.2.2⟩
  · exact h

theorem ArrayCtrl.ended_counts {c : ArrayCtrl} (live : Bool) (who : Requester) (op : ArrayOp) (o : ArrayOutcome)
    (h : c.Counts) : (c.ended live who op o).Counts := by
  have hl := leave_counts op (countLines_counts o h)
  unfold ArrayCtrl.ended
  dsimp only
  split
  · split
    · exact chooseSuspended_counts hl
    · exact choose_counts hl
  · exact hl

/-- The blocks that the end of an array operation may write. -/
abbrev arrayBlocks : List Block := [.host, .ctrl, .array, .barred, .device]

theorem operationEnded_frame {e r} (h : Frame l s t)
    (hl : arrayBlocks ⊆ l := by simp_all) : Frame l s (operationEnded e r t) := by
  unfold operationEnded
  split
  · exact h
  · refine .ite ?_ h
    split
    · exact h
    · exact onBarred_frame (onArray_frame (onCtrl_frame h (hc := fun _ hx => ArrayCtrl.ended_counts _ _ _ _ hx)))

theorem stopLines_frame {i} (h : Frame l s t) (hl : [.array, .barred] ⊆ l := by simp_all) : Frame l s (stopLines i t) :=
  onBarred_frame (onArray_frame h)

theorem eraseStopped_frame {e} (h : Frame l s t) (hl : arrayBlocks ⊆ l := by simp_all) :
    Frame l s (eraseStopped e t) := by
  unfold eraseStopped
  refine .ite (onCtrl_frame ?_ (hc := fun x hx => ?_)) h
  · split
    · exact stopLines_frame h
    · exact h
  · dsimp only
    split
    · exact ArrayCtrl.chooseSuspended_counts hx
    · exact hx

theorem eraseResumed_frame {e} (h : Frame l s t) (hl : [.ctrl] ⊆ l := by simp_all) : Frame l s (eraseResumed e t) := by
  refine .ite (onCtrl_frame h hl fun x hx => ?_) h
  dsimp only
  split
  · exact ArrayCtrl.suspend_counts hx
  · exact hx

theorem operationTimedOut_frame {e left} (h : Frame l s t) (hl : arrayBlocks ⊆ l := by simp_all) :
    Frame l s (operationTimedOut e left t) := by
  unfold operationTimedOut
  split
  · exact h
  · exact .ite (halt_frame (onBarred_frame (onArray_frame
      (onCtrl_frame h (hc := fun _ hx => ArrayCtrl.leave_counts _ hx))))) h

end Sys2Proof.Machine
end

section
/-! Which blocks each command may write: the frame of every row of the opcode table. -/

namespace Sys2Proof.Machine

set_option Elab.async false

variable {l : List Block} {s t : State}

/-- The state after a command. -/
def after (c : Instr) (s : State) : State :=
  match exec c s with
  | .next t => t
  | _ => s

/-- Every command has a next state. -/
theorem exec_after (c : Instr) (s : State) : exec c s = .next (after c s) := by cases c <;> rfl

/-! ### The heads of the owners' queues -/

theorem popAssembly_frame (h : Frame l s t) (hl : [.assembly] ⊆ l := by simp_all) : Frame l s (popAssembly t) :=
  onAssembly_frame h
theorem popReader_frame (h : Frame l s t) (hl : [.reader] ⊆ l := by simp_all) : Frame l s (popReader t) :=
  onReader_frame h
theorem popHolds_frame (h : Frame l s t) (hl : [.holds] ⊆ l := by simp_all) : Frame l s (popHolds t) :=
  onHolds_frame h
theorem popTable_frame (h : Frame l s t) (hl : [.table] ⊆ l := by simp_all) : Frame l s (popTable t) :=
  onTable_frame h
theorem popHost_frame (h : Frame l s t) (hl : [.host] ⊆ l := by simp_all) : Frame l s (popHost t) :=
  onHost_frame h
theorem popReclaim_frame (h : Frame l s t) (hl : [.reclaim] ⊆ l := by simp_all) : Frame l s (popReclaim t) :=
  onReclaim_frame h

/-! ### The commands of the submission rings -/

theorem after_append_frame : Frame [.host, .assembly] s (after .append s) := by
  unfold after exec execAppend
  dsimp only
  split
  · split
    · exact .ite (onAssembly_frame (popAssembly_frame .refl)) (takeAppend_frame (popAssembly_frame .refl))
    · exact .refl
  · exact .refl

theorem after_openStream_frame : Frame [.host, .assembly] s (after .openStream s) := by
  unfold after exec execOpenStream
  dsimp only
  split
  · exact takeOpenStream_frame (popAssembly_frame .refl)
  · exact .refl

theorem after_closeStream_frame : Frame [.host, .assembly, .writer] s (after .closeStream s) := by
  unfold after exec execCloseStream
  dsimp only
  split
  · exact takeCloseStream_frame (popAssembly_frame .refl)
  · exact .refl

theorem after_abortRecord_frame : Frame [.host, .assembly, .writer] s (after .abortRecord s) := by
  unfold after exec execAbortRecord
  dsimp only
  split
  · exact takeAbortRecord_frame (popAssembly_frame .refl)
  · exact .refl

theorem after_read_frame : Frame readBlocks s (after .read s) := by
  unfold after exec execRead
  dsimp only
  split
  · exact takeRead_frame (popReader_frame .refl)
  · exact .refl

theorem after_scan_frame : Frame readBlocks s (after .scan s) := by
  unfold after exec execScan
  dsimp only
  split
  · exact takeRead_frame (popReader_frame .refl)
  · exact .refl

theorem after_hold_frame : Frame [.host, .holds, .reclaim, .anchor, .ctrl, .erasing] s (after .hold s) := by
  unfold after exec execHold
  dsimp only
  split
  · exact takeHold_frame (popHolds_frame .refl)
  · exact .refl

theorem after_release_frame : Frame [.host, .holds, .reclaim, .anchor, .ctrl, .erasing] s (after .release s) := by
  unfold after exec execRelease
  dsimp only
  split
  · exact takeRelease_frame (popHolds_frame .refl)
  · exact .refl

theorem after_querySectors_frame : Frame [.host, .table] s (after .querySectors s) := by
  unfold after exec execQuerySectors
  dsimp only
  split
  · exact answerQuery_frame (popTable_frame .refl)
  · exact .refl

theorem after_queryStreams_frame : Frame [.host, .assembly] s (after .queryStreams s) := by
  unfold after exec execQueryStreams
  dsimp only
  split
  · exact answerQuery_frame (popAssembly_frame .refl)
  · exact .refl

theorem after_queryHolds_frame : Frame [.host, .holds] s (after .queryHolds s) := by
  unfold after exec execQueryHolds
  dsimp only
  split
  · exact answerQuery_frame (popHolds_frame .refl)
  · exact .refl

theorem after_queryStats_frame :
    Frame [.host, .assembly, .writer, .reclaim, .ctrl, .reader] s (after .queryStats s) := by
  unfold after exec execQueryStats
  dsimp only
  split
  · exact takeQueryStats_frame (popHost_frame .refl)
  · exact .refl

theorem after_wipe_frame :
    Frame [.host, .assembly, .writer, .table, .reclaim, .anchor, .ctrl, .program, .erasing, .sectors] s (after .wipe s) := by
  unfold after exec execWipe
  dsimp only
  split
  · exact takeWipe_frame (popReclaim_frame .refl)
  · exact .refl

/-! ### The register window and the Host Ring Unit -/

theorem after_ctrlEnableSet_frame : Frame [.host, .device] s (after .ctrlEnableSet s) :=
  .ite (enterSetup_frame (onHost_frame .refl)) (onHost_frame .refl)

theorem after_ctrlEnableClear_frame :
    Frame [.host, .assembly, .writer, .table, .ctrl, .device, .program] s (after .ctrlEnableClear s) :=
  .ite (enterDraining_frame (onHost_frame .refl)) (onHost_frame .refl)

theorem after_setupReadEnd_frame {a} :
    Frame [.host, .assembly, .reclaim, .mount, .ctrl, .device, .scan] s (after (.setupReadEnd a) s) :=
  .ite (setupReadEnded_frame .refl) .refl

theorem after_fetchBegin_frame : Frame [.host] s (after .fetchBegin s) := by
  unfold after exec execFetchBegin
  dsimp only
  split
  · exact onHost_frame .refl
  · exact .refl

/-- The blocks that the end of a fetch may write. -/
abbrev fetchBlocks : List Block := [.host, .assembly, .reader, .holds, .table, .reclaim, .device]

theorem after_submissionFetchEnd_frame {a} : Frame fetchBlocks s (after (.submissionFetchEnd a) s) := by
  unfold after exec execSubmissionFetchEnd
  dsimp only
  split
  · exact .ite (fetchEnded_frame (l := fetchBlocks) .refl) .refl
  · exact .refl

theorem after_completionWriteEnd_frame {ok} : Frame [.host, .device] s (after (.completionWriteEnd ok) s) := by
  unfold after exec execCompletionWriteEnd
  dsimp only
  split
  · exact .ite (entryWriteEnded_frame .refl fun _ _ => ⟨rfl, id⟩) .refl
  · exact .refl

theorem after_noticeWriteEnd_frame {ok} : Frame [.host, .device] s (after (.noticeWriteEnd ok) s) := by
  unfold after exec execNoticeWriteEnd
  dsimp only
  split
  · exact .ite (entryWriteEnded_frame .refl fun _ _ => ⟨rfl, id⟩) .refl
  · exact .refl

theorem after_statusWriteBegin_frame : Frame [.host] s (after .statusWriteBegin s) := by
  unfold after exec execStatusWriteBegin
  dsimp only
  split
  · exact .ite (onHost_frame .refl) .refl
  · exact .refl

theorem after_statusWriteEnd_frame {ok} : Frame [.host, .device] s (after (.statusWriteEnd ok) s) := by
  unfold after exec execStatusWriteEnd
  dsimp only
  split
  · exact .ite (statusEnded_frame .refl) .refl
  · exact .refl

theorem after_queryWriteEnd_frame {slot ok} : Frame [.host] s (after (.queryWriteEnd slot ok) s) := by
  unfold after exec execQueryWriteEnd
  dsimp only
  split
  · exact .ite (queryWritten_frame .refl) .refl
  · exact .refl

/-! ### The Assembly Unit -/

theorem after_tick_frame : Frame [.host, .assembly, .writer] s (after .tick s) := .ite (takeTick_frame .refl) .refl

theorem after_assemblyExpired_frame {i} : Frame [.host, .assembly, .writer] s (after (.assemblyExpired i) s) := by
  unfold after exec execAssemblyExpired
  dsimp only
  split
  · exact .ite (admitStream_frame (expireContext_frame .refl)) .refl
  · exact .refl

theorem after_sequenceSkipped_frame {st} : Frame [.host, .assembly, .writer] s (after (.sequenceSkipped st) s) :=
  .ite (admitStream_frame (skipPosition_frame .refl)) .refl

/-! ### The Journal Writer -/

theorem after_queueHeadTaken_frame :
    Frame [.host, .assembly, .writer, .table, .ctrl, .program] s (after .queueHeadTaken s) :=
  .ite (takeQueueHead_frame .refl) .refl

theorem after_spaceQuestionRetry_frame :
    Frame [.host, .assembly, .writer, .table, .ctrl, .program] s (after .spaceQuestionRetry s) :=
  .ite (askSector_frame (onWriter_frame .refl)) .refl

/-- The blocks that the end of a program of the Journal Writer may write. -/
abbrev writerBlocks : List Block := [.host, .assembly, .writer, .table, .reclaim, .ctrl, .program, .sectors]

theorem after_sectorHeaderProgrammed_frame : Frame writerBlocks s (after .sectorHeaderProgrammed s) := by
  unfold after exec execSectorHeaderProgrammed
  dsimp only
  split
  · exact .ite (.ite (headerProgrammed_frame (takeOutcome_frame .refl))
      (headerProgramFailed_frame (takeOutcome_frame .refl))) .refl
  · exact .refl

theorem after_padProgrammed_frame : Frame writerBlocks s (after .padProgrammed s) := by
  unfold after exec execPadProgrammed
  dsimp only
  split
  · exact .ite (padProgrammed_frame (takeOutcome_frame .refl)) .refl
  · exact .refl

theorem after_burstProgrammed_frame : Frame writerBlocks s (after .burstProgrammed s) := by
  unfold after exec execBurstProgrammed
  dsimp only
  split
  · exact .ite (.ite (continueRecord_frame (takeOutcome_frame .refl)) (relocate_frame (takeOutcome_frame .refl))) .refl
  · exact .refl

theorem after_commitLineProgrammed_frame : Frame writerBlocks s (after .commitLineProgrammed s) := by
  unfold after exec execCommitLineProgrammed
  dsimp only
  split
  · exact .ite (.ite (commitRecord_frame (takeOutcome_frame .refl)) (relocate_frame (takeOutcome_frame .refl))) .refl
  · exact .refl

/-! ### The Reclaim Unit and the Anchor Unit -/

theorem after_reclaimTest_frame : Frame [.host, .writer, .table, .reclaim, .ctrl, .erasing, .sectors] s (after .reclaimTest s) :=
  .ite (reclaimTest_frame (onReclaim_frame .refl)) .refl

theorem after_eraseEnd_frame :
    Frame [.host, .assembly, .writer, .table, .reclaim, .anchor, .ctrl, .program, .erasing, .sectors] s (after .eraseEnd s) := by
  unfold after exec execEraseEnd
  dsimp only
  split
  · exact eraseEnded_frame (takeOutcome_frame .refl)
  · exact .refl

theorem after_snapshotProgramEnd_frame :
    Frame [.host, .holds, .reclaim, .anchor, .ctrl, .erasing] s (after .snapshotProgramEnd s) := by
  unfold after exec execSnapshotProgramEnd
  dsimp only
  split
  · exact .ite (snapshotPartEnded_frame (takeOutcome_frame .refl)) .refl
  · exact .refl

theorem after_rolloverEraseEnd_frame :
    Frame [.host, .table, .holds, .reclaim, .anchor, .ctrl, .erasing] s (after .rolloverEraseEnd s) := by
  unfold after exec execRolloverEraseEnd
  dsimp only
  split
  · exact .ite (rolloverEnded_frame (takeOutcome_frame .refl)) .refl
  · exact .refl

/-! ### The Read Unit -/

theorem after_readBegin_frame : Frame readBlocks s (after .readBegin s) := by
  unfold after exec execReadBegin
  dsimp only
  split
  · exact .ite (nextRead_frame .refl) .refl
  · exact .refl

theorem after_scanBegin_frame : Frame readBlocks s (after .scanBegin s) := by
  unfold after exec execScanBegin
  dsimp only
  split
  · exact .ite (nextRead_frame .refl) .refl
  · exact .refl

theorem after_readUnitLinesRead_frame : Frame readBlocks s (after .readUnitLinesRead s) := by
  unfold after exec execReadUnitLinesRead
  dsimp only
  split
  · exact nextRead_frame (linesRead_frame (takeOutcome_frame .refl))
  · exact .refl

theorem after_imageWriteEnd_frame {ok} : Frame readBlocks s (after (.imageWriteEnd ok) s) := by
  unfold after exec execImageWriteEnd
  dsimp only
  split
  · exact .ite (nextRead_frame (imageWritten_frame .refl)) .refl
  · exact .refl

/-! ### The Array Controller and the Mount Unit -/

theorem after_arrayRequest_frame {who} : Frame [.ctrl] s (after (.arrayRequest who) s) := by
  unfold after exec execArrayRequest
  dsimp only
  split
  · exact .ite (onCtrl_frame .refl (hc := fun _ hx => ArrayCtrl.takeRequest_counts _ _ hx)) .refl
  · exact .refl

theorem after_anchorSlotRead_frame : Frame mountBlocks s (after .anchorSlotRead s) := by
  unfold after exec execAnchorSlotRead
  dsimp only
  split
  · exact .ite (slotRead_frame (takeOutcome_frame .refl)) .refl
  · exact .refl

theorem after_mountLineRead_frame : Frame mountBlocks s (after .mountLineRead s) := by
  unfold after exec execMountLineRead
  dsimp only
  refine .ite ?_ .refl
  split
  · exact mountSectorRead_frame (takeOutcome_frame .refl)
  · exact mountHeaderRead_frame (takeOutcome_frame .refl)
  · exact mountCommitRead_frame (takeOutcome_frame .refl)
  · exact .refl

theorem after_blankCheckEnd_frame : Frame mountBlocks s (after .blankCheckEnd s) := by
  unfold after exec execBlankCheckEnd
  dsimp only
  refine .ite ?_ .refl
  split
  · exact scanAfter_frame (setFinding_frame (takeOutcome_frame .refl))
  · exact scanAfter_frame (setFinding_frame (takeOutcome_frame .refl))
  · exact .refl

/-! ### Every command -/

/-- The blocks, and parts of blocks, that a command may write. -/
def writes : Instr → List Block
  | .append | .openStream | .queryStreams => [.host, .assembly]
  | .closeStream | .abortRecord | .tick | .assemblyExpired _ | .sequenceSkipped _ => [.host, .assembly, .writer]
  | .transferFail _ => [.host, .assembly, .writer]
  | .transferEnd _ _ => [.host, .assembly, .writer, .staging]
  | .read | .scan | .readBegin | .scanBegin | .readUnitLinesRead | .imageWriteEnd _ => readBlocks
  | .hold | .release | .snapshotProgramEnd => [.host, .holds, .reclaim, .anchor, .ctrl, .erasing]
  | .rolloverEraseEnd => [.host, .table, .holds, .reclaim, .anchor, .ctrl, .erasing]
  | .querySectors => [.host, .table]
  | .queryHolds => [.host, .holds]
  | .queryStats => [.host, .assembly, .writer, .reclaim, .ctrl, .reader]
  | .wipe | .eraseEnd =>
    [.host, .assembly, .writer, .table, .reclaim, .anchor, .ctrl, .program, .erasing, .sectors]
  | .reclaimTest => [.host, .writer, .table, .reclaim, .ctrl, .erasing, .sectors]
  | .queueHeadTaken | .spaceQuestionRetry => [.host, .assembly, .writer, .table, .ctrl, .program]
  | .ctrlEnableClear => [.host, .assembly, .writer, .table, .ctrl, .device, .program]
  | .sectorHeaderProgrammed | .padProgrammed | .burstProgrammed | .commitLineProgrammed => writerBlocks
  | .softReset _ | .coldReset _ => resetBlocks
  | .setupReadEnd _ => [.host, .assembly, .reclaim, .mount, .ctrl, .device, .scan]
  | .submissionFetchEnd _ => fetchBlocks
  | .arrayRequest _ | .eraseResumed _ => [.ctrl]
  | .arrayOperationEnd _ _ | .eraseStopped _ | .arrayTimeout _ _ => arrayBlocks
  | .anchorSlotRead | .mountLineRead | .blankCheckEnd => mountBlocks
  | .ctrlEnableSet | .completionWriteEnd _ | .noticeWriteEnd _ | .statusWriteEnd _ | .drainEnd => [.host, .device]
  | .ringIndexSubmission _ _ | .ringIndexCompletion _ | .ringIndexNotice _ | .ringIndexBadSelector _ _
  | .intCauseWrite _ | .intMaskWrite _ | .registerWrite _ _ | .fetchBegin | .postingBegin | .statusWriteBegin
  | .queryWriteEnd _ _ => [.host]

/-- A command changes none but the blocks that it may write. -/
theorem after_frame (c : Instr) (s : State) : Frame (writes c) s (after c s) := by
  cases c with
  | append => exact after_append_frame
  | openStream => exact after_openStream_frame
  | closeStream => exact after_closeStream_frame
  | abortRecord => exact after_abortRecord_frame
  | read => exact after_read_frame
  | scan => exact after_scan_frame
  | hold => exact after_hold_frame
  | release => exact after_release_frame
  | querySectors => exact after_querySectors_frame
  | queryStreams => exact after_queryStreams_frame
  | queryHolds => exact after_queryHolds_frame
  | queryStats => exact after_queryStats_frame
  | wipe => exact after_wipe_frame
  | ctrlEnableSet => exact after_ctrlEnableSet_frame
  | ctrlEnableClear => exact after_ctrlEnableClear_frame
  | softReset left => exact softReset_frame (l := resetBlocks) .refl
  | coldReset left => exact coldReset_frame (l := resetBlocks) .refl
  | ringIndexSubmission ring position => exact indexWrite_frame (l := [.host]) .refl fun _ _ => HostUnit.writeSubmissionTail_stays ..
  | ringIndexCompletion position => exact indexWrite_frame (l := [.host]) .refl fun _ _ => HostUnit.writeCompletionHead_stays ..
  | ringIndexNotice position => exact indexWrite_frame (l := [.host]) .refl fun _ _ => HostUnit.writeNoticeHead_stays ..
  | ringIndexBadSelector seven position => exact .ite (onHost_stays_frame (l := [.host]) .refl fun _ => HostUnit.judged_stays ..) .refl
  | intCauseWrite value => exact onHost_stays_frame (l := [.host]) .refl fun _ => HostUnit.judged_stays ..
  | intMaskWrite value => exact onHost_stays_frame (l := [.host]) .refl fun _ => HostUnit.judged_stays ..
  | registerWrite register value =>
    exact onHost_stays_frame (l := [.host]) .refl fun _ => HostUnit.writePlain_stays ..
  | setupReadEnd answer => exact after_setupReadEnd_frame
  | fetchBegin => exact after_fetchBegin_frame
  | submissionFetchEnd answer => exact after_submissionFetchEnd_frame
  | postingBegin => exact onHost_stays_frame (l := [.host]) .refl HostUnit.beginPosting_stays
  | completionWriteEnd ok => exact after_completionWriteEnd_frame
  | noticeWriteEnd ok => exact after_noticeWriteEnd_frame
  | statusWriteBegin => exact after_statusWriteBegin_frame
  | statusWriteEnd ok => exact after_statusWriteEnd_frame
  | drainEnd => exact .ite (enterStopped_frame (l := [.host, .device]) .refl) .refl
  | tick => exact after_tick_frame
  | assemblyExpired context => exact after_assemblyExpired_frame
  | sequenceSkipped stream => exact after_sequenceSkipped_frame
  | transferEnd slot data => exact .ite (transferEnds_frame (l := [.host, .assembly, .writer, .staging]) .refl) .refl
  | transferFail slot => exact .ite (transferFails_frame (l := [.host, .assembly, .writer]) .refl) .refl
  | queueHeadTaken => exact after_queueHeadTaken_frame
  | spaceQuestionRetry => exact after_spaceQuestionRetry_frame
  | sectorHeaderProgrammed => exact after_sectorHeaderProgrammed_frame
  | padProgrammed => exact after_padProgrammed_frame
  | burstProgrammed => exact after_burstProgrammed_frame
  | commitLineProgrammed => exact after_commitLineProgrammed_frame
  | reclaimTest => exact after_reclaimTest_frame
  | eraseEnd => exact after_eraseEnd_frame
  | snapshotProgramEnd => exact after_snapshotProgramEnd_frame
  | rolloverEraseEnd => exact after_rolloverEraseEnd_frame
  | readBegin => exact after_readBegin_frame
  | scanBegin => exact after_scanBegin_frame
  | readUnitLinesRead => exact after_readUnitLinesRead_frame
  | imageWriteEnd ok => exact after_imageWriteEnd_frame
  | queryWriteEnd slot ok => exact after_queryWriteEnd_frame
  | arrayRequest who => exact after_arrayRequest_frame
  | arrayOperationEnd elapsed report => exact operationEnded_frame (l := arrayBlocks) .refl
  | eraseStopped elapsed => exact eraseStopped_frame (l := arrayBlocks) .refl
  | eraseResumed elapsed => exact eraseResumed_frame (l := [.ctrl]) .refl
  | arrayTimeout elapsed left => exact operationTimedOut_frame (l := arrayBlocks) .refl
  | anchorSlotRead => exact after_anchorSlotRead_frame
  | mountLineRead => exact after_mountLineRead_frame
  | blankCheckEnd => exact after_blankCheckEnd_frame

/-! ### A step -/

/-- A property of the state apart from the waiting commands that every command keeps is kept by a step. -/
theorem step_keeps {p : State → Prop} (hp : ∀ s q, p s → p { s with pending := q })
    (hc : ∀ c s, p s → p (after c s)) (hs : p s) (h : step s = .next t) : p t := by
  unfold step at h
  split at h
  · cases h
    exact hs
  · rw [exec_after] at h
    cases h
    exact hc _ _ (hp _ _ hs)

end Sys2Proof.Machine
end

section
/-! The canonical forms of the array's contents and of staging memory (R1, R69), and the statistics counters (R81, R99,
R115, R146, R158, R171). -/

namespace Sys2Proof.Machine

open Sys2Proof.Laws Sys2Proof.Safety

set_option Elab.async false

/-! ### Operations of the array -/

theorem arrayWf_programCells (i : SectorNo) (raw : List (Nat × LineOutcome)) (fails : Option (Nat × Option Cell)) :
    ∀ (lines : List (List Byte)) (m : List (Nat × Cell)) (first : Nat), arrayWf m = true →
      arrayWf (programCells i raw fails m first lines).1 = true := by
  intro lines
  induction lines with
  | nil => intro m first hm; exact hm
  | cons b rest ih =>
    intro m first hm
    unfold programCells
    dsimp only
    split
    · exact hm
    · split
      · split
        · exact rising_memSet _ _ hm
        · exact ih _ _ (rising_memPut _ hm)
      · exact ih _ _ (rising_memPut _ hm)

/-- What an operation leaves of the array is in canonical form. -/
theorem arrayWf_runOp {m n : List (Nat × Cell)} {barred b : List (Nat × List Byte)} {op : ArrayOp}
    {report : ArrayReport} {o : ArrayOutcome} (hm : arrayWf m = true) (h : runOp m barred op report = some (n, b, o)) :
    arrayWf n = true := by
  unfold runOp at h
  split at h
  · cases h; exact hm
  · cases h; exact arrayWf_programCells _ _ _ _ _ _ hm
  · cases h; exact arrayWf_programCells _ _ _ _ _ _ hm
  · cases h; exact arrayWf_erase _ hm
  · cases h; exact arrayWf_failErase _ _ _ hm
  · cases h; exact hm
  · cases h

theorem operationEnded_arrayWf (e : Nat) (r : ArrayReport) {s : State} (hs : arrayWf s.array = true) :
    arrayWf (operationEnded e r s).array = true := by
  unfold operationEnded
  split
  · exact hs
  · split
    · split
      · exact hs
      next h => exact arrayWf_runOp hs h
    · exact hs

theorem eraseStopped_arrayWf (e : Nat) {s : State} (hs : arrayWf s.array = true) :
    arrayWf (eraseStopped e s).array = true := by
  unfold eraseStopped
  split
  · rw [State.onCtrl_array]
    split
    · exact arrayWf_stopErase _ hs
    · exact hs
  · exact hs

theorem operationTimedOut_arrayWf (e : Nat) (left : Residue) {s : State} (hs : arrayWf s.array = true) :
    arrayWf (operationTimedOut e left s).array = true := by
  unfold operationTimedOut
  split
  · exact hs
  · split
    · rw [(halt_frame (l := [.host, .device]) .refl).array]
      exact arrayWf_cutShort _ _ _ hs
    · exact hs

/-! ### Resets and transfers -/

theorem transferEnds_stagingWf (slot : SlotNo) (data : List Byte) {s : State} (hs : stagingWf s.staging = true) :
    stagingWf (transferEnds slot data s).staging = true := by
  unfold transferEnds
  split
  · exact hs
  next i c _ =>
    split
    · exact hs
    next t _ =>
      have hf : Frame [.host, .assembly, .writer] (landData c t data s)
          (takeHeld (if c.state = .aborting then abortingTransferEnd i c slot (landData c t data s)
            else gatheringTransferEnd i c slot (landData c t data s))) :=
        takeHeld_frame (.ite (abortingTransferEnd_frame .refl) (gatheringTransferEnd_frame .refl))
      exact (congrArg stagingWf hf.staging).trans (stagingWf_write _ _ _ _ hs)

/-! ### Every command -/

/-- A command leaves the array in its canonical form. -/
theorem after_arrayWf (c : Instr) {s : State} (hs : arrayWf s.array = true) : arrayWf (after c s).array = true := by
  by_cases hw : Block.array ∈ writes c
  · cases c with
    | coldReset left => exact arrayWf_abandonedArray _ _ left hs
    | softReset left => exact arrayWf_abandonedArray _ _ left hs
    | arrayOperationEnd e r => exact operationEnded_arrayWf e r hs
    | eraseStopped e => exact eraseStopped_arrayWf e hs
    | arrayTimeout e left => exact operationTimedOut_arrayWf e left hs
    | _ => simp [writes] at hw
  · rw [(after_frame c s).array hw]
    exact hs

/-- A command leaves staging memory in its canonical form. -/
theorem after_stagingWf (c : Instr) {s : State} (hs : stagingWf s.staging = true) :
    stagingWf (after c s).staging = true := by
  by_cases hw : Block.staging ∈ writes c
  · cases c with
    | coldReset left => rfl
    | softReset left => rfl
    | transferEnd slot data =>
      change stagingWf (if s.live then transferEnds slot data s else s).staging = true
      split
      · exact transferEnds_stagingWf slot data hs
      · exact hs
    | _ => simp [writes] at hw
  · rw [(after_frame c s).staging hw]
    exact hs

/-- Settles O8: each command keeps the two canonical forms. -/
theorem canonicalKept : Obligations.CanonicalKept := fun _ _ hs h =>
  step_keeps (p := Canonical) (fun _ _ h => h) (fun c _ h => ⟨after_arrayWf c h.1, after_stagingWf c h.2⟩) hs h

/-! ### The statistics counters -/

/-- Settles O12: every change of a counter saturates. -/
theorem countersKept : Obligations.CountersKept := fun s t hs h =>
  (counts_iff t).mp (step_keeps (p := Counts)
    (fun _ _ h => ⟨h.host, h.assembly, h.writer, h.reclaim, h.ctrl, h.reader⟩)
    (fun c s h => (after_frame c s).counters (by cases c <;> simp [writes]) h) ((counts_iff s).mpr hs) h)

end Sys2Proof.Machine
end

section
/-! What the part does to the contexts and the free block list: each operation of the Assembly Unit is a run of a few
kinds of moves, and an invariant of contexts and blocks need only be kept by each kind (R60 to R73). -/

namespace Sys2Proof.Machine

open Sys2Proof.Laws Sys2Proof.Safety

set_option Elab.async false

/-- A command waits at the Assembly Unit: in its queue, or held. -/
def Waits (a : Assembly) (r : Routed) : Prop := r ∈ a.queue ∨ a.held = some r

/-- If the command is an APPEND, its length is 1 or above. -/
def AppendLong (r : Routed) : Prop := ∀ st seq offset length last tag address,
  r.cmd = .append st seq offset length last tag address → 1 ≤ length

/-- Every APPEND that waits has a length of 1 or above (R64). -/
def WaitersLong (a : Assembly) : Prop := ∀ r, Waits a r → AppendLong r

/-- A context that gathers nothing more: at most its transfers become fewer. -/
structure Renewed (c d : Context) : Prop where
  coverage : d.coverage = c.coverage
  total : d.total = c.total
  blockMap : d.blockMap = c.blockMap
  transfers : d.transfers.Sublist c.transfers

/-- A context into which a fragment was accepted, with its blocks taken. -/
def accepted (a : Assembly) (f : Fragment) (i : CtxNo) (c : Context) : Assembly :=
  let filled := fillEntries c.blockMap (absentEntries c.blockMap f.offset f.length) a.freeBlocks
  { a with
    contexts := a.contexts.set i (some (c.accept f filled.1)), freeBlocks := filled.2
    fragmentsAccepted := saturate (a.fragmentsAccepted + 1) }

/-- A context without the bytes of a failed transfer, and its freed blocks. -/
def uncovered (a : Assembly) (i : CtxNo) (c : Context) (x : Transfer) : Assembly :=
  { a with
    contexts := a.contexts.set i (some (c.withoutFragment x))
    freeBlocks := a.freeBlocks ++
      (emptiedEntries (c.withoutFragment x).coverage x.offset x.length).filterMap fun k => c.blockMap[k] }

/-- Commands are taken, or some context is not FREE: fragments may be accepted. -/
def Gathers (s : State) : Prop := s.takesCommands = true ∨ ∃ (i : CtxNo) (c : Context), s.assembly.contexts[i] = some c

/-- The kinds of moves of a command that begins in the state `s`. -/
inductive Move (s : State) : Assembly → Assembly → Prop
  | quiet {a b} (hc : b.contexts = a.contexts) (hf : b.freeBlocks = a.freeBlocks) (hw : ∀ r, Waits b r → Waits a r)
      (hs : ∀ st : StreamNo, a.streams[st].state = .closed → b.streams[st].state = .closed) : Move s a b
  | opens {a b} (hc : b.contexts = a.contexts) (hf : b.freeBlocks = a.freeBlocks) (hw : ∀ r, Waits b r → Waits a r)
      (hwipe : s.reclaim.wipeActive = false) : Move s a b
  | shuts {a b} (hc : b.contexts = a.contexts) (hf : b.freeBlocks = a.freeBlocks) (hw : ∀ r, Waits b r → Waits a r)
      (hopen : ∃ st : StreamNo, a.streams[st].state ≠ .closed) : Move s a b
  | enqueue {a} {r : Routed} (hr : AppendLong r) : Move s a { a with queue := a.queue ++ [r] }
  | renew {a} {i : CtxNo} {c d : Context} (hc : a.contexts[i] = some c) (hd : Renewed c d) :
      Move s a { a with contexts := a.contexts.set i (some d) }
  | release {a} {i : CtxNo} {c d : Context} (hc : a.contexts[i] = some c) (hd : d.blockMap = c.blockMap) :
      Move s a { a with freeBlocks := a.freeBlocks ++ mappedBlocks d.blockMap, contexts := a.contexts.set i none }
  | accept {a f i c} (hv : appendVerdict a f = .ok (i, c)) (hl : WaitersLong s.assembly → 1 ≤ f.length)
      (hg : Gathers s) : Move s a (accepted a f i c)
  | uncover {a} {i : CtxNo} {c x} (hc : a.contexts[i] = some c) (hx : x ∈ c.transfers) :
      Move s a (uncovered a i c x)

/-- A run of moves from one state to another. -/
def Moves (s t : State) : Prop := Relation.ReflTransGen (Move s) s.assembly t.assembly

variable {l : List Block} {s t u : State}

theorem Moves.refl : Moves s s := Relation.ReflTransGen.refl

/-- What a frame without the Assembly Unit adds is no move. -/
theorem Moves.frame (h : Moves s t) (hf : Frame l t u) (hn : Block.assembly ∉ l := by simp) : Moves s u := by
  unfold Moves
  rw [hf.assembly hn]
  exact h

theorem Moves.ite {p : Prop} [Decidable p] (h : Moves s t) (k : Moves s u) : Moves s (if p then t else u) := by
  split
  · exact h
  · exact k

theorem Moves.foldl {α : Type} {f : State → α → State} {xs : List α} (hf : ∀ {t a}, Moves s t → Moves s (f t a))
    (h : Moves s t) : Moves s (xs.foldl f t) := by
  induction xs generalizing t with
  | nil => exact h
  | cons x xs ih => exact ih (hf h)

/-- A move that changes neither contexts nor blocks, lets nothing new wait, and leaves every closed stream closed. -/
theorem Moves.quiet (h : Moves s t) (hc : u.assembly.contexts = t.assembly.contexts)
    (hf : u.assembly.freeBlocks = t.assembly.freeBlocks) (hw : ∀ r, Waits u.assembly r → Waits t.assembly r)
    (hs : ∀ st : StreamNo, t.assembly.streams[st].state = .closed → u.assembly.streams[st].state = .closed) :
    Moves s u :=
  h.tail (.quiet hc hf hw hs)

theorem onAssembly_quiet_moves {f : Assembly → Assembly} (h : Moves s t)
    (hc : (f t.assembly).contexts = t.assembly.contexts) (hf : (f t.assembly).freeBlocks = t.assembly.freeBlocks)
    (hw : ∀ r, Waits (f t.assembly) r → Waits t.assembly r)
    (hs : ∀ st : StreamNo, t.assembly.streams[st].state = .closed → (f t.assembly).streams[st].state = .closed) :
    Moves s (t.onAssembly f) := h.quiet hc hf hw hs

theorem onHost_moves {f} (h : Moves s t) : Moves s (t.onHost f) := h.quiet rfl rfl (fun _ => id) fun _ => id

/-! ### The waiting APPENDs -/

theorem AppendLong.of_fragment {r : Routed} {f : Fragment} (hr : AppendLong r) (hf : r.fragment = some f) :
    1 ≤ f.length := by
  unfold Routed.fragment at hf
  split at hf
  next h =>
    cases hf
    exact hr _ _ _ _ _ _ _ h
  next => cases hf

theorem Move.waitersLong {a b : Assembly} (hm : Move s a b) (h : WaitersLong a) : WaitersLong b := by
  cases hm with
  | quiet _ _ hw _ => exact fun r hr => h r (hw r hr)
  | opens _ _ hw _ => exact fun r hr => h r (hw r hr)
  | shuts _ _ hw _ => exact fun r hr => h r (hw r hr)
  | @enqueue new hnew =>
    intro r hr
    rcases hr with hq | hheld
    · rcases List.mem_append.mp hq with hq | hq
      · exact h r (.inl hq)
      · exact List.mem_singleton.mp hq ▸ hnew
    · exact h r (.inr hheld)
  | renew => exact h
  | release => exact h
  | accept => exact h
  | uncover => exact h

/-- Moves keep every waiting APPEND long. -/
theorem Moves.waitersLong (h : Moves s t) (hs : WaitersLong s.assembly) : WaitersLong t.assembly := by
  unfold Moves at h
  generalize t.assembly = b at h
  induction h with
  | refl => exact hs
  | tail _ hm ih => exact hm.waitersLong ih

/-! ### States without contexts -/

theorem set_none {v : Vector (Option Context) 32} (i : CtxNo) (h : ∀ j : CtxNo, v[j] = none) (j : CtxNo) :
    (v.set i none)[j] = none := by
  by_cases hij : i.val = j.val
  · simp [hij]
  · simpa [Vector.getElem_set, hij] using h j

/-- Where nothing gathers, a move gives no context. -/
theorem Move.contexts_none {a b : Assembly} (hm : Move s a b) (hn : ¬Gathers s)
    (h : ∀ j : CtxNo, a.contexts[j] = none) : ∀ j : CtxNo, b.contexts[j] = none := by
  have absurd_some : ∀ {i : CtxNo} {c : Context}, a.contexts[i] ≠ some c := fun {i c} hc => by
    rw [h i] at hc
    cases hc
  cases hm with
  | quiet hc _ _ _ => rw [hc]; exact h
  | opens hc _ _ _ => rw [hc]; exact h
  | shuts hc _ _ _ => rw [hc]; exact h
  | enqueue => exact h
  | renew hc _ => exact absurd hc absurd_some
  | release hc _ => exact set_none _ h
  | accept _ _ hg => exact absurd hg hn
  | uncover hc _ => exact absurd hc absurd_some

/-! ### Operations of the Assembly Unit -/

/-- The context that a search finds stands at its number. -/
theorem findContext_mem {a : Assembly} {p} {i : CtxNo} {c} (h : a.findContext p = some (i, c)) :
    a.contexts[i] = some c := (findContext_first h).1

theorem contextOf_mem {a : Assembly} {st seq p} {i : CtxNo} {c} (h : a.contextOf st seq p = some (i, c)) :
    a.contexts[i] = some c := findContext_mem h

theorem modStream_get (i j : StreamNo) (f : Stream → Stream) (t : State) :
    (modStream i f t).assembly.streams[j] = if j = i then f t.assembly.streams[j] else t.assembly.streams[j] :=
  tableMod_get _ i j f

theorem modStream_moves {i f} (h : Moves s t)
    (hf : ∀ e, e.state = .closed → (f e).state = .closed := by intro _ he; exact he) : Moves s (modStream i f t) := by
  refine h.quiet rfl rfl (fun _ => id) fun st hst => ?_
  rw [modStream_get]
  split
  · exact hf _ hst
  · exact hst

/-- A change of a stream that is not CLOSED. -/
theorem modStream_shuts_moves {i : StreamNo} {f} (h : Moves s t) (ho : t.assembly.streams[i].state ≠ .closed) :
    Moves s (modStream i f t) := h.tail (.shuts rfl rfl (fun _ => id) ⟨i, ho⟩)

theorem markAbandoned_moves {st k} (h : Moves s t) : Moves s (markAbandoned st k t) := modStream_moves h

theorem setContext_moves {i : CtxNo} {c d} (h : Moves s t) (hc : t.assembly.contexts[i] = some c)
    (hd : Renewed c d) : Moves s (setContext i (some d) t) := h.tail (.renew hc hd)

theorem releaseContext_moves {i : CtxNo} {c d} (h : Moves s t) (hc : t.assembly.contexts[i] = some c)
    (hd : d.blockMap = c.blockMap) : Moves s (releaseContext i d t) := h.tail (.release hc hd)

theorem discardContext_moves {i : CtxNo} {c d} (h : Moves s t) (hc : t.assembly.contexts[i] = some c)
    (hd : d.blockMap = c.blockMap) : Moves s (discardContext i d t) := by
  have hr : Moves s (releaseContext i d t) := releaseContext_moves h hc hd
  unfold discardContext
  dsimp only
  split
  · exact hr.frame (complete_frame (l := [.host]) .refl)
  · exact hr

theorem closeStreamNow_moves {st} (h : Moves s t) : Moves s (closeStreamNow st t) := by
  unfold closeStreamNow
  dsimp only
  split
  · exact (modStream_moves h fun _ _ => rfl).frame (complete_frame (l := [.host]) .refl)
  · exact modStream_moves h fun _ _ => rfl

theorem closeIfDone_moves {st} (h : Moves s t) : Moves s (closeIfDone st t) := .ite (closeStreamNow_moves h) h

theorem Renewed.of_state (c : Context) (q : CtxState) (d : Option SlotNo) (age attempts : Nat) :
    Renewed c { c with state := q, deferred := d, age := age, attempts := attempts } :=
  ⟨rfl, rfl, rfl, List.Sublist.refl _⟩

theorem admitOnce_moves {st} (h : Moves s t) (hu : admitOnce st t = some u) : Moves s u := by
  unfold admitOnce at hu
  dsimp only at hu
  split at hu
  · split at hu
    next i c hc =>
      cases hu
      exact modStream_moves ((setContext_moves h (contextOf_mem hc) (.of_state c .queued c.deferred c.age c.attempts)).frame
        (onWriter_program_frame (l := [.writer, .program]) .refl))
    next =>
      split at hu
      · cases hu
        exact modStream_moves h
      · cases hu
  · cases hu

theorem admitSteps_moves {st n} (h : Moves s t) : Moves s (admitSteps st n t) := by
  induction n generalizing t with
  | zero => exact h
  | succ n ih =>
    unfold admitSteps
    split
    next hu => exact ih (admitOnce_moves h hu)
    next => exact h

theorem admitStream_moves {st} (h : Moves s t) : Moves s (admitStream st t) := admitSteps_moves h

theorem admitAll_moves (h : Moves s t) : Moves s (admitAll t) := .foldl (fun h => admitStream_moves h) h

theorem takeAppend_moves {f} (h : Moves s t) (hg : Gathers s) (hl : WaitersLong s.assembly → 1 ≤ f.length) :
    Moves s (takeAppend f t) := by
  unfold takeAppend
  split
  · exact (onAssembly_quiet_moves h rfl rfl (fun _ => id) fun _ => id).frame (complete_frame (l := [.host]) .refl)
  next hv => exact h.tail (.accept hv hl hg)

theorem takeHeld_moves (h : Moves s t) (hg : Gathers s) : Moves s (takeHeld t) := by
  unfold takeHeld
  split
  · exact h
  next r hr =>
    split
    · exact h
    next f hf =>
      refine .ite h (takeAppend_moves (onAssembly_quiet_moves h rfl rfl ?_ fun _ => id) hg fun hs => ?_)
      · rintro r (hq | hheld)
        · exact .inl hq
        · cases hheld
      · exact (h.waitersLong hs r (.inr hr)).of_fragment hf

theorem abortedContextEnds_moves {i : CtxNo} {c d} (h : Moves s t) (hc : t.assembly.contexts[i] = some c)
    (hd : d.blockMap = c.blockMap) : Moves s (abortedContextEnds i d t) :=
  .ite (admitStream_moves (markAbandoned_moves (discardContext_moves h hc hd)))
    (closeIfDone_moves (discardContext_moves h hc hd))

theorem Renewed.dropTransfer (c : Context) (slot : SlotNo) : Renewed c (c.dropTransfer slot) :=
  ⟨rfl, rfl, rfl, List.filter_sublist⟩

theorem setContext_get (i : CtxNo) (c : Option Context) (t : State) : (setContext i c t).assembly.contexts[i] = c := by
  simp [setContext]

theorem abortingTransferEnd_moves {i : CtxNo} {c slot} (h : Moves s t) (hc : t.assembly.contexts[i] = some c) :
    Moves s (abortingTransferEnd i c slot t) := by
  have hs : Moves s (complete slot .aborted (setContext i (some (c.dropTransfer slot)) t)) :=
    (setContext_moves h hc (.dropTransfer c slot)).frame (complete_frame (l := [.host]) .refl)
  exact .ite (abortedContextEnds_moves hs (setContext_get i _ t) rfl) hs

theorem gatheringTransferEnd_moves {i : CtxNo} {c slot} (h : Moves s t) (hc : t.assembly.contexts[i] = some c) :
    Moves s (gatheringTransferEnd i c slot t) :=
  .ite (admitStream_moves (setContext_moves h hc ⟨rfl, rfl, rfl, List.filter_sublist⟩))
    ((setContext_moves h hc (.dropTransfer c slot)).frame (complete_frame (l := [.host]) .refl))

theorem gatheringTransferFail_moves {i : CtxNo} {c x} (h : Moves s t) (hc : t.assembly.contexts[i] = some c)
    (hx : x ∈ c.transfers) : Moves s (gatheringTransferFail i c x t) := by
  have hs : Moves s (setContext i (some (c.withoutFragment x)) (freeBlocks
      ((emptiedEntries (c.withoutFragment x).coverage x.offset x.length).filterMap fun k => c.blockMap[k]) t)) :=
    h.tail (.uncover hc hx)
  have hf : Moves s _ := hs.frame (complete_frame (l := [.host]) (slot := x.slot) (st := .hostReadError) .refl)
  exact .ite (discardContext_moves hf (setContext_get i _ _) rfl) hf

/-- A state that the moves of a command give a context gathered to begin with. -/
theorem Moves.gathers {i : CtxNo} {c : Context} (h : Moves s t) (hc : t.assembly.contexts[i] = some c) : Gathers s := by
  by_contra hn
  have hnone : ∀ j : CtxNo, t.assembly.contexts[j] = none := by
    unfold Moves at h
    clear hc
    generalize t.assembly = b at h
    induction h with
    | refl =>
      intro j
      by_contra hj
      obtain ⟨c, hc⟩ := Option.ne_none_iff_exists'.mp hj
      exact hn (.inr ⟨j, c, hc⟩)
    | tail _ hm ih => exact hm.contexts_none hn ih
  rw [hnone i] at hc
  cases hc

theorem transferEnds_moves {slot d} (h : Moves s t) : Moves s (transferEnds slot d t) := by
  unfold transferEnds
  split
  · exact h
  next i c hi =>
    split
    · exact h
    next x _ =>
      have hs : Moves s (landData c x d t) := h.frame (landData_frame (l := [.staging]) .refl)
      exact takeHeld_moves (.ite (abortingTransferEnd_moves hs (findContext_mem hi))
        (gatheringTransferEnd_moves hs (findContext_mem hi))) (h.gathers (findContext_mem hi))

theorem transferFails_moves {slot} (h : Moves s t) : Moves s (transferFails slot t) := by
  unfold transferFails
  split
  · exact h
  next i c hi =>
    split
    · exact h
    next x hx =>
      exact takeHeld_moves (.ite (abortingTransferEnd_moves h (findContext_mem hi))
        (gatheringTransferFail_moves h (findContext_mem hi) (List.mem_of_find?_eq_some hx)))
        (h.gathers (findContext_mem hi))

/-! ### The ends of records -/

theorem recordCommitted_moves {i j} (h : Moves s t) : Moves s (recordCommitted i j t) := by
  unfold recordCommitted
  split
  · exact h
  next c hc =>
    refine closeIfDone_moves ?_
    split
    · exact releaseContext_moves (modStream_moves (h.frame (postOutcome_frame (l := [.host]) .refl))) hc rfl
    · exact releaseContext_moves (modStream_moves h) hc rfl

theorem recordFailed_moves {i st} (h : Moves s t) : Moves s (recordFailed i st t) := by
  unfold recordFailed
  split
  · exact h
  next c hc =>
    refine closeIfDone_moves ?_
    split
    · exact releaseContext_moves (modStream_moves (h.frame (complete_frame (l := [.host]) .refl))) hc rfl
    · exact releaseContext_moves (modStream_moves h) hc rfl

/-! ### The commands of the streams -/

theorem takeOpenStream_moves {slot st n a e f} (h : Moves s t) (hr : t.reclaim = s.reclaim) :
    Moves s (takeOpenStream slot st n a e f t) := by
  have hcomplete : ∀ {q}, Moves s (complete slot q t) := h.frame (complete_frame (l := [.host]) .refl)
  unfold takeOpenStream
  dsimp only
  split
  · exact hcomplete
  next hw =>
    refine .ite hcomplete (Moves.frame ?_ (postOutcome_frame (l := [.host]) .refl))
    exact h.tail (.opens rfl rfl (fun _ => id) (by rw [← hr]; simpa using hw))

theorem closeAbort_moves {st i} (h : Moves s t) : Moves s (closeAbort st i t) := by
  unfold closeAbort
  split
  · exact h
  next c hc =>
    refine .ite h ?_
    split
    · exact .ite (discardContext_moves h hc rfl) (setContext_moves h hc (.of_state c _ _ _ _))
    · exact h
    · exact discardContext_moves h hc rfl
    · exact discardContext_moves (h.frame (unqueue_frame (l := [.writer]) .refl)) hc rfl
    · exact h

theorem closeAbort_streams (st : StreamNo) (i : CtxNo) (t : State) :
    (closeAbort st i t).assembly.streams = t.assembly.streams := by
  have discard : ∀ (c : Context) (u : State), (discardContext i c u).assembly.streams = u.assembly.streams := by
    intro c u
    unfold discardContext
    dsimp only
    split
    · rfl
    · rfl
  unfold closeAbort
  split
  · rfl
  · split
    · rfl
    · split
      · split
        · exact discard _ _
        · rfl
      · rfl
      · exact discard _ _
      · exact discard _ _
      · rfl

theorem foldl_closeAbort_streams (st : StreamNo) (is : List CtxNo) (t : State) :
    (is.foldl (fun s i => closeAbort st i s) t).assembly.streams = t.assembly.streams := by
  induction is generalizing t with
  | nil => rfl
  | cons i is ih => exact (ih _).trans (closeAbort_streams st i t)

theorem takeCloseStream_moves {slot st a} (h : Moves s t) : Moves s (takeCloseStream slot st a t) := by
  have hcomplete : ∀ {q u}, Moves s u → Moves s (complete slot q u) := fun hu =>
    hu.frame (complete_frame (l := [.host]) .refl)
  unfold takeCloseStream
  split
  · exact hcomplete h
  · exact hcomplete h
  next hopen =>
    refine .ite (hcomplete (closeStreamNow_moves h)) (.ite (closeIfDone_moves ?_) (hcomplete h))
    have hf : Moves s (allContexts.foldl (fun s i => closeAbort st i s) t) := .foldl (fun h => closeAbort_moves h) h
    have hst : (allContexts.foldl (fun s i => closeAbort st i s) t).assembly.streams[st].state ≠ .closed := by
      rw [foldl_closeAbort_streams, hopen]
      decide
    exact modStream_shuts_moves hf hst

theorem abortPosition_moves {st q k} (h : Moves s t) : Moves s (abortPosition st q k t) := by
  have marks : ∀ {x : State}, Moves s x → Moves s (admitStream st (markAbandoned st k x)) :=
    fun hx => admitStream_moves (markAbandoned_moves hx)
  unfold abortPosition
  split
  · exact .ite h (marks h)
  next i c hi =>
    have hc := contextOf_mem hi
    split
    · exact .ite (marks (discardContext_moves h hc rfl)) (setContext_moves h hc (.of_state c _ _ _ _))
    · exact marks (discardContext_moves h hc rfl)
    · exact h
    · exact h
    · exact h

theorem takeAbortRecord_moves {slot st q} (h : Moves s t) : Moves s (takeAbortRecord slot st q t) := by
  have hcomplete : ∀ {q u}, Moves s u → Moves s (complete slot q u) := fun hu =>
    hu.frame (complete_frame (l := [.host]) .refl)
  unfold takeAbortRecord
  refine .ite (hcomplete h) (.ite (hcomplete h) ?_)
  split
  next i c hi =>
    exact hcomplete (modStream_moves (discardContext_moves (h.frame (unqueue_frame (l := [.writer]) .refl))
      (contextOf_mem hi) rfl))
  next => exact .ite (hcomplete h) (.ite (hcomplete h) (hcomplete (abortPosition_moves h)))

/-! ### Ticks and the start of DRAINING -/

theorem expireContext_moves {i : CtxNo} {c d} (h : Moves s t) (hc : t.assembly.contexts[i] = some c)
    (hd : d.blockMap = c.blockMap) : Moves s (expireContext i d t) :=
  (markAbandoned_moves (discardContext_moves h hc hd)).frame (postNotice_frame (l := [.host]) .refl)

theorem ageContext_moves {i} (h : Moves s t) : Moves s (ageContext i t) := by
  unfold ageContext
  split
  · exact h
  next c hc => exact .ite (.ite (expireContext_moves h hc rfl) (setContext_moves h hc (.of_state c _ _ _ _))) h

theorem skipPosition_moves {st} (h : Moves s t) : Moves s (skipPosition st t) :=
  (markAbandoned_moves h).frame (postNotice_frame (l := [.host]) .refl)

theorem ageStall_moves {st} (h : Moves s t) : Moves s (ageStall st t) :=
  .ite (.ite (.ite (skipPosition_moves (modStream_moves h)) (modStream_moves h)) (modStream_moves h)) h

theorem takeTick_moves (h : Moves s t) : Moves s (takeTick t) := by
  unfold takeTick
  refine admitAll_moves (.foldl (fun h => ageStall_moves h) (.foldl (fun h => ageContext_moves h) ?_))
  exact onAssembly_quiet_moves h rfl rfl (fun _ => id) fun _ => id

theorem drainContext_moves {i} (h : Moves s t) : Moves s (drainContext i t) := by
  have hn : ∀ {n}, Moves s (postNotice n t) := h.frame (postNotice_frame (l := [.host]) .refl)
  unfold drainContext
  split
  · exact h
  next c hc =>
    have hg : ∀ n, (postNotice n t).assembly.contexts[i] = some c := fun n => by
      rw [(postNotice_frame (l := [.host]) .refl).assembly]
      exact hc
    split
    · exact .ite (.ite (markAbandoned_moves (discardContext_moves hn (hg _) rfl)) (discardContext_moves hn (hg _) rfl))
        (setContext_moves hn (hg _) (.of_state c _ _ _ _))
    · exact hn
    · exact h
    · exact h
    · exact h

theorem drainSkipPosition_moves {st k} (h : Moves s t) : Moves s (drainSkipPosition st k t) :=
  .ite h ((markAbandoned_moves h).frame (postNotice_frame (l := [.host]) .refl))

theorem drainSkips_moves {st} (h : Moves s t) : Moves s (drainSkips st t) := by
  unfold drainSkips
  refine .ite ?_ h
  split
  · exact h
  · exact .foldl (fun h => drainSkipPosition_moves h) h

theorem drainAssembly_moves (h : Moves s t) (hg : Gathers s) : Moves s (drainAssembly t) := by
  unfold drainAssembly
  refine takeHeld_moves (admitAll_moves (.foldl (fun h => drainSkips_moves h)
    (.foldl (fun h => drainContext_moves h) ?_))) hg
  exact onAssembly_quiet_moves h rfl rfl (fun _ => id) fun _ => id

/-! ### The Journal Writer -/

theorem failRecord_moves {st} (h : Moves s t) : Moves s (failRecord st t) := by
  unfold failRecord
  split
  · exact h
  next i _ =>
    have hr : Moves s (recordFailed i st t) := recordFailed_moves h
    exact (Moves.ite (hr.frame (markFull_frame (l := [.host, .writer]) .refl)) hr).frame
      (onWriter_program_frame (l := [.writer, .program]) .refl (hc := fun _ hx => ⟨hx.1, hx.2.1, saturate_le _⟩))

theorem askSector_moves (h : Moves s t) : Moves s (askSector t) := by
  unfold askSector
  refine .ite (failRecord_moves h) ?_
  split
  · exact h.frame (placeRequest_frame (onWriter_program_frame (takeInHand_frame (l := [.table, .writer, .ctrl, .program]) .refl)))
  · exact .ite (h.frame (waitForSpace_frame (l := [.writer, .program]) .refl)) (failRecord_moves h)

theorem placeRecord_moves {i : CtxNo} {c o p} (h : Moves s t) (hc : t.assembly.contexts[i] = some c) :
    Moves s (placeRecord i c o p t) := by
  have hs : ∀ x : State, x.assembly.contexts = t.assembly.contexts → Moves s x →
      Moves s (setContext i (some { c with attempts := c.attempts + 1 }) x) := fun x hx h =>
    setContext_moves h ((congrArg (fun v => v[i]) hx).trans hc) (.of_state c _ _ _ _)
  have hm : Moves s (setContext i (some { c with attempts := c.attempts + 1 })
      (if c.attempts = 0 then modStream c.stream (fun e => { e with gapPending := false }) t else t)) := by
    split
    · exact hs _ rfl (modStream_moves h)
    · exact hs _ rfl h
  exact hm.frame (placeRequest_frame (onWriter_program_frame (l := [.writer, .ctrl, .program]) .refl))

theorem recordContext_mem {i : CtxNo} {c} (h : t.recordContext = some (i, c)) : t.assembly.contexts[i] = some c := by
  unfold State.recordContext at h
  split at h
  · cases h
  · obtain ⟨x, hx, he⟩ := Option.map_eq_some_iff.mp h
    cases he
    exact hx

theorem roomCheck_moves (h : Moves s t) : Moves s (roomCheck t) := by
  unfold roomCheck
  split
  · exact h
  next i c hi =>
    split
    · exact askSector_moves h
    · split
      · exact askSector_moves h
      · exact .ite (placeRecord_moves h (recordContext_mem hi)) (askSector_moves h)

theorem takeQueueHead_moves (h : Moves s t) : Moves s (takeQueueHead t) := by
  unfold takeQueueHead
  split
  · exact h
  next i rest _ =>
    have hw : Moves s (t.onWriter fun w => { w with queue := rest, record := some i }) :=
      h.frame (onWriter_program_frame (l := [.writer, .program]) .refl)
    dsimp only
    split
    next c hc =>
      have hs : Moves s _ := setContext_moves hw hc (.of_state c .writing c.deferred c.age c.attempts)
      exact .ite (failRecord_moves hs) (roomCheck_moves hs)
    next => exact .ite (failRecord_moves hw) (roomCheck_moves hw)

theorem openInHand_moves {e} (h : Moves s t) : Moves s (openInHand e t) := by
  unfold openInHand
  split
  · exact h
  · exact roomCheck_moves (h.frame (onWriter_program_frame (openClaim_frame (l := [.table, .reclaim, .writer, .program, .sectors]) .refl)))

theorem closeClaim_moves {i k} (h : Moves s t) : Moves s (closeClaim i k t) :=
  h.frame (closeClaim_frame (l := [.table, .reclaim, .sectors]) .refl)

theorem headerProgrammed_moves (h : Moves s t) : Moves s (headerProgrammed t) := by
  have ha : Moves s (advanceEpoch t) := h.frame (advanceEpoch_frame (l := [.writer, .program]) .refl)
  unfold headerProgrammed
  dsimp only
  split
  · exact openInHand_moves ha
  · split
    · exact openInHand_moves (closeClaim_moves ha)
    · exact .ite (ha.frame (placeRequest_frame (onWriter_program_frame (l := [.writer, .ctrl, .program]) .refl)))
        (openInHand_moves (closeClaim_moves ha))

theorem headerProgramFailed_moves (h : Moves s t) : Moves s (headerProgramFailed t) := by
  unfold headerProgramFailed
  split
  · exact h
  · exact askSector_moves (h.frame
      (onWriter_program_frame (headerFailed_frame (advanceEpoch_frame
      (l := [.writer, .table, .reclaim, .program, .sectors]) .refl))))

theorem padProgrammed_moves {e ok} (h : Moves s t) : Moves s (padProgrammed e ok t) := by
  unfold padProgrammed
  split
  · exact openInHand_moves h
  · exact openInHand_moves (closeClaim_moves h)

theorem relocate_moves {c pl} (h : Moves s t) : Moves s (relocate c pl t) := by
  have hc : Moves s ((closeClaim pl.sector .recordFailed t).onWriter fun w => { w with placement := none }) :=
    (closeClaim_moves h).frame (onWriter_program_frame (l := [.writer, .program]) .refl)
  exact .ite (roomCheck_moves hc) (failRecord_moves hc)

theorem commitRecord_moves {i c pl} (h : Moves s t) : Moves s (commitRecord i c pl t) :=
  (recordCommitted_moves (h.frame (onWriter_program_frame (extendClaim_frame (l := [.table, .writer, .program, .sectors]) .refl)))).frame
    (onWriter_program_frame (l := [.writer, .program]) .refl (hc := fun _ hx => ⟨saturate_le _, saturate_le _, hx.2.2⟩))

/-! ### Wipes, the device and the mount -/

theorem continueWipe_moves (h : Moves s t) : Moves s (continueWipe t) := by
  unfold continueWipe
  split
  · exact h.frame (eraseVictim_frame (l := [.host, .table, .reclaim, .ctrl, .erasing, .sectors]) .refl)
  · refine Moves.frame (onAssembly_quiet_moves (h.frame (onWriter_program_frame (l := [.writer, .program]) .refl)) rfl rfl
      (fun _ => id) fun st hst => ?_)
      (takeChange_frame (onReclaim_erasing_frame (l := [.host, .reclaim, .anchor, .ctrl, .erasing]) .refl))
    rw [tableMap_get]
    exact hst

theorem eraseEnded_moves {i ok} (h : Moves s t) : Moves s (eraseEnded i ok t) := by
  have hs : Moves s (settleSector i ok t) :=
    h.frame (settleSector_frame (l := [.host, .writer, .table, .reclaim, .anchor, .ctrl, .erasing, .sectors]) .refl)
  unfold eraseEnded
  dsimp only
  split
  · exact continueWipe_moves hs
  · exact hs.frame (reclaimTest_frame (onReclaim_erasing_frame
      (l := [.host, .writer, .table, .reclaim, .ctrl, .erasing, .sectors]) .refl))
  · exact hs
  · exact hs

theorem takeWipe_moves {slot} (h : Moves s t) : Moves s (takeWipe slot t) := by
  have hcomplete : ∀ {q}, Moves s (complete slot q t) := h.frame (complete_frame (l := [.host]) .refl)
  refine .ite hcomplete (.ite hcomplete (.ite hcomplete (.ite (continueWipe_moves ?_) ?_)))
  all_goals exact h.frame (onReclaim_erasing_frame (wipeStart_frame (onReclaim_erasing_frame
    (l := [.host, .table, .reclaim, .erasing, .sectors]) .refl)))

theorem enterOnline_moves (h : Moves s t) : Moves s (enterOnline t) :=
  (onAssembly_quiet_moves (h.frame (onHost_device_frame (l := [.host, .device]) .refl)) rfl rfl (fun _ => id) fun _ => id).frame
    (signalReclaim_frame (l := [.reclaim]) .refl)

theorem enterDraining_moves (h : Moves s t) (hg : Gathers s) : Moves s (enterDraining t) := by
  have hd : Moves s (drainAssembly (t.onHost fun h => h.changeState .draining)) :=
    drainAssembly_moves (h.frame (onHost_device_frame (l := [.host, .device]) .refl)) hg
  unfold enterDraining drainWriter
  exact .ite (askSector_moves hd) hd

theorem handOver_moves (h : Moves s t) : Moves s (handOver t) := by
  unfold handOver
  refine .ite (enterOnline_moves ?_) (Moves.frame ?_ (enterStopped_frame (l := [.host, .device]) .refl))
  all_goals
    refine Moves.frame ?_ (onMount_scan_frame (postNotice_frame (l := [.host, .mount, .scan]) .refl))
    refine onAssembly_quiet_moves ?_ rfl rfl (fun _ => id) fun st hst => ?_
    · exact h.frame (onAnchor_frame (onHolds_frame (onWriter_program_frame (onTable_sectors_frame
        (l := [.table, .writer, .holds, .anchor, .program, .sectors]) .refl))))
    · rw [tabulate_get]
      exact hst

theorem scanSectors_moves {is} (h : Moves s t) : Moves s (scanSectors is t) := by
  induction is generalizing t with
  | nil => exact handOver_moves (h.frame (onMount_scan_frame (l := [.mount, .scan]) .refl))
  | cons i is ih =>
    exact .ite (ih (h.frame (setFinding_frame (l := [.mount, .scan]) .refl)))
      (h.frame (requestMountLine_frame (l := [.mount, .ctrl, .scan]) .refl))

theorem scanAfter_moves {i} (h : Moves s t) : Moves s (scanAfter i t) := scanSectors_moves h

theorem slotRead_moves {a k ls} (h : Moves s t) : Moves s (slotRead a k ls t) := by
  have hm : ∀ f, Moves s (t.onMount f) := fun f => h.frame (onMount_scan_frame (l := [.mount, .scan]) .refl)
  refine .ite ((hm _).frame (requestSlot_frame (l := [.mount, .ctrl, .scan]) .refl)) (.ite
    ((hm _).frame (requestSlot_frame (l := [.mount, .ctrl, .scan]) .refl)) (scanSectors_moves ?_))
  exact (hm _).frame (onMount_scan_frame (l := [.mount, .scan]) .refl)

theorem mountWalkEnded_moves {i w e p} (h : Moves s t) : Moves s (mountWalkEnded i w e p t) :=
  scanAfter_moves (h.frame (onMount_frame (setFinding_frame (l := [.mount, .scan]) .refl)))

theorem mountLine_moves {i n p} (h : Moves s t) : Moves s (requestMountLine i n p t) :=
  h.frame (requestMountLine_frame (l := [.mount, .ctrl, .scan]) .refl)

theorem mountHeaderRead_moves {i p w o} (h : Moves s t) : Moves s (mountHeaderRead i p w o t) := by
  unfold mountHeaderRead
  split
  · exact mountWalkEnded_moves h
  · exact mountWalkEnded_moves h
  · exact mountWalkEnded_moves h
  · exact mountWalkEnded_moves h
  · exact mountLine_moves h

theorem mountCommitRead_moves {i p rh w o} (h : Moves s t) : Moves s (mountCommitRead i p rh w o t) := by
  unfold mountCommitRead
  split
  · exact mountWalkEnded_moves h
  · exact .ite (mountWalkEnded_moves h) (mountLine_moves h)

theorem mountSectorRead_moves {i o} (h : Moves s t) : Moves s (mountSectorRead i o t) := by
  unfold mountSectorRead
  split
  · exact mountLine_moves h
  · exact .ite (h.frame (placeRequest_frame (onMount_scan_frame (l := [.mount, .ctrl, .scan]) .refl)))
      (scanAfter_moves (h.frame (setFinding_frame (l := [.mount, .scan]) .refl)))

end Sys2Proof.Machine
end

section
/-! Every command but a reset is a run of moves of contexts and blocks. -/

namespace Sys2Proof.Machine

open Sys2Proof.Laws Sys2Proof.Safety

set_option Elab.async false

variable {s t : State}

/-! ### Entries that are fetched -/

@[simp] theorem orBadField_eq_command {o : Option EntryVerdict} {w c} :
    orBadField o = .command w c ↔ o = some (.command w c) := by
  cases o with
  | none => exact ⟨nofun, nofun⟩
  | some v => exact ⟨fun h => congrArg some h, Option.some.inj⟩

theorem appendEntry_long {l : List Byte} {w st seq offset length last tag address}
    (h : appendEntry l = some (.command w (.append st seq offset length last tag address))) : 1 ≤ length := by
  obtain ⟨_, _, h⟩ := Option.bind_eq_some_iff.mp h
  split at h
  next hl =>
    cases h
    exact hl.2.1
  next => cases h

/-- An APPEND that is fetched has a length of 1 or above (R64). -/
theorem entryVerdict_long {l : List Byte} {w st seq offset length last tag address}
    (h : entryVerdict l = .command w (.append st seq offset length last tag address)) : 1 ≤ length := by
  unfold entryVerdict at h
  split at h
  case h_1 => exact appendEntry_long (orBadField_eq_command.mp h)
  case h_2 => simp [openStreamEntry, Option.bind_eq_some_iff] at h
  case h_3 => simp at h
  case h_4 => simp at h
  case h_5 => simp [readEntry] at h
  case h_6 => simp [scanEntry, Option.bind_eq_some_iff] at h
  case h_7 => simp [holdEntry] at h
  case h_8 => simp [releaseEntry] at h
  case h_9 =>
    unfold queryEntry at h
    dsimp only at h
    split at h
    all_goals simp at h
  case h_10 => cases h
  case h_11 => cases h

theorem takeEntry_moves {i ring l} (h : Moves s t) : Moves s (takeEntry i ring l t) := by
  have hs : ∀ f, Moves s (t.onHost f) := fun f => onHost_moves h
  unfold takeEntry
  dsimp only
  split
  · exact (hs _).frame (complete_frame (l := [.host]) .refl)
  · exact (hs _).frame (complete_frame (l := [.host]) .refl)
  next w cmd hv =>
    cases w with
    | assembly =>
      refine (hs _).tail (.enqueue (r := ⟨i, cmd⟩) fun _ _ _ _ _ _ _ hc => ?_)
      cases hc
      exact entryVerdict_long hv
    | hostRing => exact (hs _).frame (onHost_frame (l := [.host]) .refl)
    | readUnit => exact (hs _).frame (onReader_frame (l := [.reader]) .refl)
    | holdTable => exact (hs _).frame (onHolds_frame (l := [.holds]) .refl)
    | sectorTable => exact (hs _).frame (onTable_frame (l := [.table]) .refl)
    | reclaim => exact (hs _).frame (onReclaim_frame (l := [.reclaim]) .refl)

/-! ### The head of the Assembly Unit's queue -/

theorem popAssembly_waits {r : Routed} (h : Waits (popAssembly t).assembly r) : Waits t.assembly r :=
  h.imp_left List.mem_of_mem_tail

theorem popAssembly_moves (h : Moves s t) : Moves s (popAssembly t) :=
  h.quiet rfl rfl (fun _ => popAssembly_waits) fun _ => id

/-- The command that the Assembly Unit may take waits at it, and commands are taken. -/
theorem assemblyHead_waits {r : Routed} (h : s.assemblyHead = some r) : Waits s.assembly r ∧ Gathers s := by
  unfold State.assemblyHead at h
  split at h
  next ht => exact ⟨.inl (List.mem_of_mem_head? h), .inl ht.1⟩
  next => cases h

theorem after_append_moves : Moves s (after .append s) := by
  unfold after exec execAppend
  dsimp only
  split
  next r hr =>
    split
    next f hf =>
      obtain ⟨hwaits, hg⟩ := assemblyHead_waits hr
      refine .ite (Moves.refl.quiet rfl rfl ?_ fun _ => id) (takeAppend_moves (popAssembly_moves .refl) hg fun hs => ?_)
      · rintro x (hq | hheld)
        · exact .inl (List.mem_of_mem_tail hq)
        · cases hheld
          exact hwaits
      · exact (hs r hwaits).of_fragment hf
    next => exact .refl
  next => exact .refl

/-! ### Every command but a reset -/

theorem after_setupReadEnd_moves {a} : Moves s (after (.setupReadEnd a) s) := by
  refine .ite ?_ .refl
  unfold setupReadEnded setupBlockRead
  split
  · dsimp only
    split
    · exact Moves.refl.frame (enterOffline_frame (l := [.host, .device]) .refl)
    · have hs : ∀ f, Moves s (s.onHost f) := fun f => onHost_moves .refl
      exact .ite (.ite (enterOnline_moves (hs _)) ((hs _).frame (enterMounting_frame (l := [.host, .mount, .ctrl, .device, .scan]) .refl)))
        (onHost_moves (hs _))
  · exact Moves.refl.frame (enterOffline_frame (l := [.host, .device]) .refl)

theorem after_submissionFetchEnd_moves {a} : Moves s (after (.submissionFetchEnd a) s) := by
  unfold after exec execSubmissionFetchEnd
  dsimp only
  split
  · refine .ite ?_ .refl
    unfold fetchEnded
    split
    · exact Moves.refl.frame (halt_frame (l := [.host, .device]) .refl)
    · exact takeEntry_moves (onHost_moves .refl)
  · exact .refl

theorem after_queryStreams_moves : Moves s (after .queryStreams s) := by
  unfold after exec execQueryStreams
  dsimp only
  split
  · exact (popAssembly_moves .refl).frame (answerQuery_frame (l := [.host]) .refl)
  · exact .refl

theorem after_queryStats_moves : Moves s (after .queryStats s) := by
  unfold after exec execQueryStats
  dsimp only
  split
  · have hp : Moves s (popHost s) := Moves.refl.frame (popHost_frame (l := [.host]) .refl)
    exact (Moves.ite (hp.quiet (u := clearCounters _) rfl rfl (fun _ => id) fun _ => id) hp).frame
      (answerQuery_frame (l := [.host]) .refl)
  · exact .refl

theorem after_openStream_moves : Moves s (after .openStream s) := by
  unfold after exec execOpenStream
  dsimp only
  split
  · exact takeOpenStream_moves (popAssembly_moves .refl) rfl
  · exact .refl

theorem after_closeStream_moves : Moves s (after .closeStream s) := by
  unfold after exec execCloseStream
  dsimp only
  split
  · exact takeCloseStream_moves (popAssembly_moves .refl)
  · exact .refl

theorem after_abortRecord_moves : Moves s (after .abortRecord s) := by
  unfold after exec execAbortRecord
  dsimp only
  split
  · exact takeAbortRecord_moves (popAssembly_moves .refl)
  · exact .refl

theorem after_wipe_moves : Moves s (after .wipe s) := by
  unfold after exec execWipe
  dsimp only
  split
  · exact takeWipe_moves (Moves.refl.frame (popReclaim_frame (l := [.reclaim]) .refl))
  · exact .refl

theorem after_assemblyExpired_moves {i} : Moves s (after (.assemblyExpired i) s) := by
  unfold after exec execAssemblyExpired
  dsimp only
  split
  next c hc => exact .ite (admitStream_moves (expireContext_moves .refl hc rfl)) .refl
  next => exact .refl

theorem takeOutcome_moves {who} : Moves s (takeOutcome who s) :=
  Moves.refl.frame (takeOutcome_frame (l := [.ctrl]) .refl)

theorem after_sectorHeaderProgrammed_moves : Moves s (after .sectorHeaderProgrammed s) := by
  unfold after exec execSectorHeaderProgrammed
  dsimp only
  split
  · exact .ite (.ite (headerProgrammed_moves takeOutcome_moves) (headerProgramFailed_moves takeOutcome_moves)) .refl
  · exact .refl

theorem after_padProgrammed_moves : Moves s (after .padProgrammed s) := by
  unfold after exec execPadProgrammed
  dsimp only
  split
  · exact .ite (padProgrammed_moves takeOutcome_moves) .refl
  · exact .refl

theorem after_burstProgrammed_moves : Moves s (after .burstProgrammed s) := by
  unfold after exec execBurstProgrammed
  dsimp only
  split
  · exact .ite (.ite (takeOutcome_moves.frame (continueRecord_frame (l := [.writer, .ctrl, .program]) .refl))
      (relocate_moves takeOutcome_moves)) .refl
  · exact .refl

theorem after_commitLineProgrammed_moves : Moves s (after .commitLineProgrammed s) := by
  unfold after exec execCommitLineProgrammed
  dsimp only
  split
  · exact .ite (.ite (commitRecord_moves takeOutcome_moves) (relocate_moves takeOutcome_moves)) .refl
  · exact .refl

theorem after_eraseEnd_moves : Moves s (after .eraseEnd s) := by
  unfold after exec execEraseEnd
  dsimp only
  split
  · exact eraseEnded_moves takeOutcome_moves
  · exact .refl

theorem after_anchorSlotRead_moves : Moves s (after .anchorSlotRead s) := by
  unfold after exec execAnchorSlotRead
  dsimp only
  split
  · exact .ite (slotRead_moves takeOutcome_moves) .refl
  · exact .refl

theorem after_mountLineRead_moves : Moves s (after .mountLineRead s) := by
  unfold after exec execMountLineRead
  dsimp only
  refine .ite ?_ .refl
  split
  · exact mountSectorRead_moves takeOutcome_moves
  · exact mountHeaderRead_moves takeOutcome_moves
  · exact mountCommitRead_moves takeOutcome_moves
  · exact .refl

theorem after_blankCheckEnd_moves : Moves s (after .blankCheckEnd s) := by
  have hf : ∀ i f, Moves s (setFinding i f (takeOutcome .mount s)) := fun i f =>
    takeOutcome_moves.frame (setFinding_frame (l := [.mount, .scan]) .refl)
  unfold after exec execBlankCheckEnd
  dsimp only
  refine .ite ?_ .refl
  split
  · exact scanAfter_moves (hf _ _)
  · exact scanAfter_moves (hf _ _)
  · exact .refl

/-- Every command but a reset is a run of moves. -/
theorem after_moves (c : Instr) (s : State) (hr : isReset c = false) : Moves s (after c s) := by
  by_cases hw : Block.assembly ∈ writes c
  · cases c with
    | softReset left => cases hr
    | coldReset left => cases hr
    | append => exact after_append_moves
    | openStream => exact after_openStream_moves
    | closeStream => exact after_closeStream_moves
    | abortRecord => exact after_abortRecord_moves
    | queryStreams => exact after_queryStreams_moves
    | queryStats => exact after_queryStats_moves
    | wipe => exact after_wipe_moves
    | ctrlEnableClear =>
      have hs : ∀ f, Moves s (s.onHost f) := fun f => onHost_moves .refl
      change Moves s (if s.host.device = .online then _ else _)
      split
      next ho => exact enterDraining_moves (hs _) (.inl (by simp [State.takesCommands, ho]))
      next => exact hs _
    | setupReadEnd a => exact after_setupReadEnd_moves
    | submissionFetchEnd a => exact after_submissionFetchEnd_moves
    | tick => exact .ite (takeTick_moves .refl) .refl
    | assemblyExpired i => exact after_assemblyExpired_moves
    | sequenceSkipped st => exact .ite (admitStream_moves (skipPosition_moves .refl)) .refl
    | transferEnd slot data => exact .ite (transferEnds_moves .refl) .refl
    | transferFail slot => exact .ite (transferFails_moves .refl) .refl
    | queueHeadTaken => exact .ite (takeQueueHead_moves .refl) .refl
    | spaceQuestionRetry =>
      exact .ite (askSector_moves (Moves.refl.frame (onWriter_frame (l := [.writer]) .refl))) .refl
    | sectorHeaderProgrammed => exact after_sectorHeaderProgrammed_moves
    | padProgrammed => exact after_padProgrammed_moves
    | burstProgrammed => exact after_burstProgrammed_moves
    | commitLineProgrammed => exact after_commitLineProgrammed_moves
    | eraseEnd => exact after_eraseEnd_moves
    | anchorSlotRead => exact after_anchorSlotRead_moves
    | mountLineRead => exact after_mountLineRead_moves
    | blankCheckEnd => exact after_blankCheckEnd_moves
    | _ => simp [writes] at hw
  · exact Moves.refl.frame (after_frame c s) hw

end Sys2Proof.Machine
end

section
/-! Every staging block stands on the free block list or in one block map, once (R62): each kind of move keeps the
number of its places. -/

namespace Sys2Proof.Machine

open Sys2Proof.Laws Sys2Proof.Safety

set_option Elab.async false

/-! ### Counting over a table -/

/-- Setting one entry of a table changes a sum over it by the change of that entry. -/
theorem sum_map_set {α : Type} {n : Nat} (v : Vector α n) (f : α → Nat) (i : Fin n) (x : α) :
    ((v.set i x).toList.map f).sum + f v[i] = (v.toList.map f).sum + f x := by
  have hlen : i.val < (v.toList.map f).length := by simp
  have hold := List.sum_set (v.toList.map f) i.val (f v[i])
  have hself : (v.toList.map f).set i.val (f v[i]) = v.toList.map f := by
    have hget : (v.toList.map f)[i.val] = f v[i] := by simp
    rw [← hget, List.set_getElem_self]
  rw [hself, if_pos hlen] at hold
  rw [Vector.toList_set, List.map_set, List.sum_set, if_pos hlen, hold]
  omega

/-- How often a block map names a block, as a sum over its entries. -/
theorem count_mappedBlocks (map : Vector (Option BlockNo) 16) (b : BlockNo) :
    (mappedBlocks map).count b = (map.toList.map fun e => if e = some b then 1 else 0).sum := by
  unfold mappedBlocks
  rw [List.count_filterMap]
  induction map.toList with
  | nil => rfl
  | cons e l ih =>
    simp only [id] at ih ⊢
    simp [List.countP_cons, ih, Nat.add_comm]

theorem count_mappedBlocks_set (map : Vector (Option BlockNo) 16) (i : Fin 16) (x : Option BlockNo) (b : BlockNo) :
    (mappedBlocks (map.set i x)).count b + (if map[i] = some b then 1 else 0) =
      (mappedBlocks map).count b + (if x = some b then 1 else 0) := by
  rw [count_mappedBlocks, count_mappedBlocks]
  exact sum_map_set map (fun e => if e = some b then 1 else 0) i x

/-- How often a context's block map names a block; a FREE context names none. -/
def ownCount (b : BlockNo) (e : Option Context) : Nat :=
  match e with
  | some c => (mappedBlocks c.blockMap).count b
  | none => 0

theorem mappedCount_eq (a : Assembly) (b : BlockNo) : mappedCount a b = (a.contexts.toList.map (ownCount b)).sum := rfl

/-- How often a block stands on the free block list or in a block map. -/
def places (a : Assembly) (b : BlockNo) : Nat := a.freeBlocks.count b + mappedCount a b

/-- With a context put at a number and another free block list, the places are as many, if these two make up for each
other. -/
theorem places_of_set {a a' : Assembly} {i : CtxNo} {e : Option Context} {b : BlockNo}
    (hc : a'.contexts = a.contexts.set i e)
    (h : a'.freeBlocks.count b + ownCount b e = a.freeBlocks.count b + ownCount b a.contexts[i]) :
    places a' b = places a b := by
  have hs := sum_map_set a.contexts (ownCount b) i e
  unfold places
  rw [mappedCount_eq, mappedCount_eq, hc]
  omega

/-! ### Block maps that gain and lose blocks -/

/-- Blocks given to absent entries leave the free block list for the map. -/
theorem count_fillEntries (b : BlockNo) : ∀ (es : List (Fin 16)) (map : Vector (Option BlockNo) 16) (free : List BlockNo),
    es.Nodup → (∀ k ∈ es, map[k] = none) → es.length ≤ free.length →
      (fillEntries map es free).2.count b + (mappedBlocks (fillEntries map es free).1).count b =
        free.count b + (mappedBlocks map).count b := by
  intro es
  induction es with
  | nil => intros; rfl
  | cons k es ih =>
    intro map free hn habs hlen
    cases free with
    | nil => cases hlen
    | cons x free =>
      obtain ⟨hk, hn⟩ := List.nodup_cons.mp hn
      have habs' : ∀ j ∈ es, (map.set k (some x))[j] = none := fun j hj => by
        have hne : k.val ≠ j.val := fun he => hk (Fin.ext he ▸ hj)
        simpa [Vector.getElem_set, hne] using habs j (List.mem_cons_of_mem _ hj)
      have hset := count_mappedBlocks_set map k (some x) b
      rw [if_neg (by simp [habs k List.mem_cons_self])] at hset
      have hrest := ih (map.set k (some x)) free hn habs' (Nat.le_of_succ_le_succ hlen)
      calc _ = free.count b + (mappedBlocks (map.set k (some x))).count b := hrest
        _ = _ := by
          rw [List.count_cons]
          simp only [beq_iff_eq, Option.some.injEq] at hset ⊢
          omega

/-- Blocks of entries that are cleared leave the map. -/
theorem count_clearEntries (b : BlockNo) : ∀ (es : List (Fin 16)) (map : Vector (Option BlockNo) 16), es.Nodup →
    (mappedBlocks (clearEntries map es)).count b + (es.filterMap fun k => map[k]).count b =
      (mappedBlocks map).count b := by
  intro es
  induction es with
  | nil => intros; rfl
  | cons k es ih =>
    intro map hn
    obtain ⟨hk, hn⟩ := List.nodup_cons.mp hn
    have hrest := ih (map.set k none) hn
    have hset := count_mappedBlocks_set map k none b
    have htail : (es.filterMap fun j => (map.set k none)[j]) = es.filterMap fun j => map[j] :=
      List.filterMap_congr fun j hj => by
        have hne : k.val ≠ j.val := fun he => hk (Fin.ext he ▸ hj)
        simp [hne]
    rw [htail] at hrest
    have hhead : ((k :: es).filterMap fun j => map[j]).count b =
        (if map[k] = some b then 1 else 0) + (es.filterMap fun j => map[j]).count b := by
      rw [List.filterMap_cons]
      cases map[k] with
      | none => simp
      | some x => simp [List.count_cons, Nat.add_comm]
    rw [hhead]
    change (mappedBlocks (clearEntries (map.set k none) es)).count b + _ = _
    simp only [reduceCtorEq, if_false] at hset
    omega

theorem nodup_absentEntries (map : Vector (Option BlockNo) 16) (offset length : Nat) :
    (absentEntries map offset length).Nodup := ((List.nodup_finRange 16).filter _).filter _

theorem nodup_emptiedEntries (coverage : List (Nat × Nat)) (offset length : Nat) :
    (emptiedEntries coverage offset length).Nodup := ((List.nodup_finRange 16).filter _).filter _

theorem absentEntries_none {map : Vector (Option BlockNo) 16} {offset length : Nat} {k : Fin 16}
    (h : k ∈ absentEntries map offset length) : map[k] = none := by
  simpa using (List.mem_filter.mp h).2

/-! ### The verdict on an APPEND -/

/-- A fragment is accepted into a context that passes its tests: one that stands at its number, or a new one. -/
structure Accepts (a : Assembly) (f : Fragment) (i : CtxNo) (c : Context) : Prop where
  context : a.contexts[i] = some c ∨ (a.contexts[i] = none ∧ c = newContext f)
  passes : fragmentRefusal c a.freeBlocks.length f.offset f.length f.last = none

theorem contextFor_ok {a : Assembly} {f : Fragment} {i : CtxNo} {c : Context} (h : contextFor a f = .ok (i, c)) :
    a.contexts[i] = some c ∨ (a.contexts[i] = none ∧ c = newContext f) := by
  unfold contextFor at h
  split at h
  next hc =>
    split at h
    · cases h
    · cases h
      exact .inl (findContext_mem hc)
  next =>
    split at h
    · cases h
    · split at h
      · cases h
      next hfree =>
        cases h
        exact .inr ⟨by simpa using List.find?_some hfree, rfl⟩

theorem appendVerdict_ok {a : Assembly} {f : Fragment} {i : CtxNo} {c : Context}
    (h : appendVerdict a f = .ok (i, c)) : Accepts a f i c := by
  unfold appendVerdict at h
  split at h
  · cases h
  · split at h
    · cases h
    · split at h
      · cases h
      next hc =>
        split at h
        · cases h
        next hr =>
          cases h
          exact ⟨contextFor_ok hc, hr⟩

/-- The range and staging tests that a fragment passes (R66, R67). -/
structure Fits (c : Context) (free offset length : Nat) (last : Bool) : Prop where
  within : offset + length ≤ Config.maxPayload
  fresh : covers c.coverage offset (offset + length) = false
  pieces : c.pieces + 1 ≤ Config.maxPieces
  total : ∀ n, c.total = some n → offset + length ≤ n
  last : last = true → ∀ iv ∈ c.coverage, iv.2 ≤ offset + length
  blocks : (absentEntries c.blockMap offset length).length ≤ free

theorem fits_of_passes {c : Context} {free offset length : Nat} {last : Bool}
    (h : fragmentRefusal c free offset length last = none) : Fits c free offset length last := by
  rw [frag_eq] at h
  split at h
  · cases h
  next hwithin =>
    split at h
    · cases h
    next hfresh =>
      split at h
      · cases h
      next hpieces =>
        split at h
        · cases h
        next htotal =>
          split at h
          · cases h
          next hblocks =>
            obtain ⟨htotal, hlast⟩ := not_or.mp htotal
            exact {
              within := Nat.le_of_not_lt hwithin
              fresh := by simpa [covers] using hfresh
              pieces := Nat.le_of_not_lt hpieces
              total := fun n hn => by simpa [hn] using htotal
              last := fun hl iv hiv => Nat.le_of_not_lt fun hlt => hlast ⟨hl, iv, hiv, hlt⟩
              blocks := Nat.le_of_not_lt hblocks }

/-! ### Moves keep the places -/

theorem ownCount_newContext (f : Fragment) (b : BlockNo) : ownCount b (some (newContext f)) = 0 := by
  simp [ownCount, newContext, mappedBlocks]

theorem Accepts.ownCount {a : Assembly} {f : Fragment} {i : CtxNo} {c : Context} (h : Accepts a f i c) (b : BlockNo) :
    ownCount b a.contexts[i] = (mappedBlocks c.blockMap).count b := by
  rcases h.context with hc | ⟨hc, rfl⟩
  · rw [hc]; rfl
  · rw [hc]; exact (ownCount_newContext f b).symm

/-- A move keeps the number of places of each block. -/
theorem Move.places {s : State} {a a' : Assembly} (h : Move s a a') (b : BlockNo) :
    Machine.places a' b = Machine.places a b := by
  cases h with
  | quiet hc hf _ _ => unfold Machine.places mappedCount; rw [hc, hf]
  | opens hc hf _ _ => unfold Machine.places mappedCount; rw [hc, hf]
  | shuts hc hf _ _ => unfold Machine.places mappedCount; rw [hc, hf]
  | enqueue => rfl
  | renew hc hd =>
    refine places_of_set rfl ?_
    rw [hc]
    exact congrArg (fun m => _ + (mappedBlocks m).count b) hd.blockMap
  | release hc hd =>
    refine places_of_set rfl ?_
    rw [hc]
    simp [ownCount, List.count_append, hd]
  | @accept f i c hv _ _ =>
    have ha := appendVerdict_ok hv
    refine places_of_set rfl ?_
    rw [ha.ownCount b]
    exact count_fillEntries b _ _ _ (nodup_absentEntries ..) (fun _ => absentEntries_none) (fits_of_passes ha.passes).blocks
  | @uncover i c x hc hx =>
    refine places_of_set rfl ?_
    rw [hc]
    have hclear := count_clearEntries b _ c.blockMap
      (nodup_emptiedEntries (removeInterval x.offset (x.offset + x.length) c.coverage) x.offset x.length)
    simp only [uncovered, ownCount, List.count_append]
    change _ + _ + (mappedBlocks (clearEntries c.blockMap (emptiedEntries _ x.offset x.length))).count b = _
    have hcov : (c.withoutFragment x).coverage = removeInterval x.offset (x.offset + x.length) c.coverage := rfl
    rw [hcov]
    omega

theorem Moves.places {s t : State} (h : Moves s t) (b : BlockNo) : Machine.places t.assembly b = places s.assembly b := by
  unfold Moves at h
  generalize t.assembly = a at h
  induction h with
  | refl => rfl
  | tail _ hm ih => exact (hm.places b).trans ih

/-- With every context FREE and every block on the free block list, each block has one place. -/
theorem places_fresh {a : Assembly} (hc : a.contexts = Vector.replicate 32 none) (hf : a.freeBlocks = List.finRange 384)
    (b : BlockNo) : places a b = 1 := by
  have hmapped : mappedCount a b = 0 := by simp [mappedCount_eq, hc, ownCount]
  unfold places
  rw [hmapped, hf, List.count_eq_one_of_mem (List.nodup_finRange 384) (List.mem_finRange b)]

/-- A reset leaves every context FREE, every block on the free block list, and no command at the Assembly Unit (R59). -/
theorem reset_assembly (c : Instr) (s : State) (h : isReset c = true) :
    (after c s).assembly.contexts = Vector.replicate 32 none ∧ (after c s).assembly.freeBlocks = List.finRange 384 ∧
      (after c s).assembly.queue = [] ∧ (after c s).assembly.held = none := by
  cases c with
  | coldReset left =>
    have ha : (after (.coldReset left) s).assembly = Assembly.reset := rfl
    rw [ha]
    simp [Assembly.reset]
  | softReset left =>
    have ha : (after (.softReset left) s).assembly = { Assembly.reset with
      fragmentsAccepted := s.assembly.fragmentsAccepted, fragmentsRefused := s.assembly.fragmentsRefused } := rfl
    rw [ha]
    simp [Assembly.reset]
  | _ => cases h

theorem reset_places (c : Instr) (s : State) (h : isReset c = true) (b : BlockNo) :
    places (after c s).assembly b = 1 := by
  obtain ⟨hc, hf, _⟩ := reset_assembly c s h
  exact places_fresh hc hf b

/-- A command keeps every block on the free block list or in one block map. -/
theorem after_blocksApart (c : Instr) {s : State} (hs : BlocksApart s) : BlocksApart (after c s) := fun b => by
  cases hr : isReset c with
  | true => exact reset_places c s hr b
  | false => exact ((after_moves c s hr).places b).trans (hs b)

/-- Settles O11, by the kinds of moves that a command is made of. -/
theorem blocksKept : Obligations.BlocksKept := fun _ _ hs h =>
  step_keeps (p := BlocksApart) (fun _ _ h => h) (fun c _ h => after_blocksApart c h) hs h

end Sys2Proof.Machine
end

section
/-! Coverage lists (R63): lists of intervals in order, disjoint and not adjacent, and the moves that keep them so. -/

namespace Sys2Proof.Machine

open Sys2Proof.Laws Sys2Proof.Safety

set_option Elab.async false

/-! ### Interval lists in canonical form -/

/-- An interval list in order, disjoint and not adjacent, with no empty interval. -/
structure Canon (l : List (Nat × Nat)) : Prop where
  sorted : l.Pairwise fun a b => a.2 < b.1
  proper : ∀ iv ∈ l, iv.1 < iv.2

/-- A byte lies in an interval of the list. -/
def Holds (l : List (Nat × Nat)) (x : Nat) : Prop := ∃ iv ∈ l, iv.1 ≤ x ∧ x < iv.2

theorem holds_nil {x : Nat} : ¬Holds [] x := by simp [Holds]

theorem holds_cons {a b x : Nat} {l : List (Nat × Nat)} : Holds ((a, b) :: l) x ↔ (a ≤ x ∧ x < b) ∨ Holds l x := by
  simp [Holds]

theorem holds_append {l m : List (Nat × Nat)} {x : Nat} : Holds (l ++ m) x ↔ Holds l x ∨ Holds m x := by
  simp [Holds, or_and_right, exists_or]

theorem canon_nil : Canon [] := ⟨.nil, by simp⟩

theorem canon_cons {a b : Nat} {l : List (Nat × Nat)} :
    Canon ((a, b) :: l) ↔ a < b ∧ (∀ iv ∈ l, b < iv.1) ∧ Canon l := by
  constructor
  · rintro ⟨hs, hp⟩
    obtain ⟨hlow, hs⟩ := List.pairwise_cons.mp hs
    exact ⟨hp _ List.mem_cons_self, hlow, hs, fun iv h => hp iv (List.mem_cons_of_mem _ h)⟩
  · rintro ⟨hab, hlow, hs, hp⟩
    exact ⟨List.pairwise_cons.mpr ⟨hlow, hs⟩, List.forall_mem_cons.mpr ⟨hab, hp⟩⟩

/-- Every byte of a canonical list lies above a bound below all of its intervals. -/
theorem Holds.above {l : List (Nat × Nat)} {b x : Nat} (h : Holds l x) (hl : ∀ iv ∈ l, b < iv.1) : b < x := by
  obtain ⟨iv, hiv, hx, _⟩ := h
  exact Nat.lt_of_lt_of_le (hl iv hiv) hx

/-- A canonical list is determined by its bytes. -/
theorem canon_ext : ∀ {l m : List (Nat × Nat)}, Canon l → Canon m → (∀ x, Holds l x ↔ Holds m x) → l = m := by
  intro l
  induction l with
  | nil =>
    rintro (_ | ⟨⟨c, d⟩, m⟩) _ hm h
    · rfl
    · obtain ⟨hcd, _⟩ := canon_cons.mp hm
      exact absurd ((h c).mpr (holds_cons.mpr (.inl ⟨le_rfl, hcd⟩))) holds_nil
  | cons p l ih =>
    obtain ⟨a, b⟩ := p
    rintro (_ | ⟨⟨c, d⟩, m⟩) hl hm h
    · obtain ⟨hab, _⟩ := canon_cons.mp hl
      exact absurd ((h a).mp (holds_cons.mpr (.inl ⟨le_rfl, hab⟩))) holds_nil
    · obtain ⟨hab, hlow, hl'⟩ := canon_cons.mp hl
      obtain ⟨hcd, mlow, hm'⟩ := canon_cons.mp hm
      have key : ∀ x, (a ≤ x ∧ x < b) ∨ Holds l x ↔ (c ≤ x ∧ x < d) ∨ Holds m x := fun x => by
        simpa only [holds_cons] using h x
      have hac : a = c := by
        have h1 : c ≤ a := ((key a).mp (.inl ⟨le_rfl, hab⟩)).elim And.left fun hx => by
          have := hx.above mlow
          omega
        have h2 : a ≤ c := ((key c).mpr (.inl ⟨le_rfl, hcd⟩)).elim And.left fun hx => by
          have := hx.above hlow
          omega
        omega
      subst hac
      have hbd : b = d := by
        have h1 := (key b).mpr
        have h2 := (key d).mp
        have h3 : Holds m d → d < d := fun hx => hx.above mlow
        have h4 : Holds l b → b < b := fun hx => hx.above hlow
        rcases Nat.lt_trichotomy b d with hlt | heq | hgt
        · exact absurd (h4 ((h1 (.inl ⟨by omega, hlt⟩)).resolve_left (by omega))) (lt_irrefl _)
        · exact heq
        · exact absurd (h3 ((h2 (.inl ⟨by omega, hgt⟩)).resolve_left (by omega))) (lt_irrefl _)
      subst hbd
      congr 1
      refine ih hl' hm' fun x => ?_
      have hx := key x
      have h1 : Holds l x → b < x := fun hx => hx.above hlow
      have h2 : Holds m x → b < x := fun hx => hx.above mlow
      constructor
      · intro hlx
        have := h1 hlx
        exact (hx.mp (.inr hlx)).resolve_left (by omega)
      · intro hmx
        have := h2 hmx
        exact (hx.mpr (.inr hmx)).resolve_left (by omega)

/-- A run of bytes of a canonical list lies within one interval. -/
theorem within_interval {l : List (Nat × Nat)} (hl : Canon l) {x y : Nat} (hxy : x < y)
    (h : ∀ z, x ≤ z → z < y → Holds l z) : ∃ iv ∈ l, iv.1 ≤ x ∧ y ≤ iv.2 := by
  induction l with
  | nil => exact absurd (h x le_rfl hxy) holds_nil
  | cons p l ih =>
    obtain ⟨a, b⟩ := p
    obtain ⟨hab, hlow, hl⟩ := canon_cons.mp hl
    have above : ∀ z, Holds l z → b < z := fun z hz => hz.above hlow
    by_cases hxb : x < b
    · refine ⟨(a, b), List.mem_cons_self, ?_⟩
      have hx := holds_cons.mp (h x le_rfl hxy)
      have hax : a ≤ x := by
        rcases hx with hx | hx
        · exact hx.1
        · have := above x hx; omega
      refine ⟨hax, ?_⟩
      by_contra hby
      have hb := holds_cons.mp (h b (by omega) (by simpa using hby))
      rcases hb with hb | hb
      · omega
      · exact absurd (above b hb) (lt_irrefl _)
    · obtain ⟨iv, hiv, hw⟩ := ih hl fun z hz hzy =>
        (holds_cons.mp (h z hz hzy)).resolve_left (by omega)
      exact ⟨iv, List.mem_cons_of_mem _ hiv, hw⟩

/-! ### Adding an interval -/

theorem holds_addInterval {x : Nat} : ∀ {l : List (Nat × Nat)} {a b : Nat}, a < b → (∀ iv ∈ l, iv.1 < iv.2) →
    (Holds (addInterval a b l) x ↔ (a ≤ x ∧ x < b) ∨ Holds l x) := by
  intro l
  induction l with
  | nil => intro a b _ _; exact holds_cons
  | cons p l ih =>
    obtain ⟨u, v⟩ := p
    intro a b hab hp
    obtain ⟨huv, hp⟩ := List.forall_mem_cons.mp hp
    unfold addInterval
    split
    · exact holds_cons
    · split
      · rw [holds_cons, ih hab hp, holds_cons]
        tauto
      · rw [ih (by omega) hp, holds_cons, ← or_assoc]
        refine or_congr_left ?_
        simp only at huv
        omega

theorem addInterval_low {c : Nat} : ∀ {l : List (Nat × Nat)} {a b : Nat}, c < a → (∀ iv ∈ l, c < iv.1) →
    ∀ iv ∈ addInterval a b l, c < iv.1 := by
  intro l
  induction l with
  | nil => intro a b ha _ iv hiv; cases List.mem_singleton.mp hiv; exact ha
  | cons p l ih =>
    obtain ⟨u, v⟩ := p
    intro a b ha hl iv hiv
    obtain ⟨hu, hrest⟩ := List.forall_mem_cons.mp hl
    unfold addInterval at hiv
    split at hiv
    · rcases List.mem_cons.mp hiv with rfl | hiv
      · exact ha
      · exact hl iv hiv
    · split at hiv
      · rcases List.mem_cons.mp hiv with rfl | hiv
        · exact hu
        · exact ih ha hrest iv hiv
      · exact ih (lt_min ha hu) hrest iv hiv

theorem canon_addInterval : ∀ {l : List (Nat × Nat)} {a b : Nat}, a < b → Canon l → Canon (addInterval a b l) := by
  intro l
  induction l with
  | nil => intro a b hab _; exact canon_cons.mpr ⟨hab, by simp, canon_nil⟩
  | cons p l ih =>
    obtain ⟨u, v⟩ := p
    intro a b hab h
    obtain ⟨huv, hlow, hl⟩ := canon_cons.mp h
    unfold addInterval
    split
    next hbu =>
      refine canon_cons.mpr ⟨hab, List.forall_mem_cons.mpr ⟨hbu, fun iv hiv => ?_⟩, h⟩
      have := hlow iv hiv
      omega
    next =>
      split
      next hva => exact canon_cons.mpr ⟨huv, addInterval_low hva hlow, ih hab hl⟩
      next => exact ih (by omega) hl

theorem length_addInterval (l : List (Nat × Nat)) : ∀ a b : Nat, (addInterval a b l).length ≤ l.length + 1 := by
  induction l with
  | nil => intro a b; exact le_rfl
  | cons p l ih =>
    obtain ⟨u, v⟩ := p
    intro a b
    unfold addInterval
    split
    · exact le_rfl
    · split
      · exact Nat.succ_le_succ (ih a b)
      · exact (ih _ _).trans (Nat.le_succ _)

/-! ### Removing an interval -/

theorem removeInterval_within {a b : Nat} {l : List (Nat × Nat)} {iv : Nat × Nat} (h : iv ∈ removeInterval a b l) :
    iv.1 < iv.2 ∧ ∃ p ∈ l, p.1 ≤ iv.1 ∧ iv.2 ≤ p.2 := by
  induction l with
  | nil => cases h
  | cons p l ih =>
    obtain ⟨u, v⟩ := p
    unfold removeInterval at h
    rcases List.mem_append.mp h with h | h
    · rcases List.mem_append.mp h with h | h
      · split at h
        next hlt =>
          cases List.mem_singleton.mp h
          exact ⟨hlt, (u, v), List.mem_cons_self, le_rfl, min_le_left _ _⟩
        next => cases h
      · split at h
        next hlt =>
          cases List.mem_singleton.mp h
          exact ⟨hlt, (u, v), List.mem_cons_self, le_max_left _ _, le_rfl⟩
        next => cases h
    · obtain ⟨hlt, q, hq, hw⟩ := ih h
      exact ⟨hlt, q, List.mem_cons_of_mem _ hq, hw⟩

theorem holds_removeInterval {a b x : Nat} (l : List (Nat × Nat)) :
    Holds (removeInterval a b l) x ↔ Holds l x ∧ ¬(a ≤ x ∧ x < b) := by
  induction l with
  | nil => simp [removeInterval, Holds]
  | cons p l ih =>
    obtain ⟨u, v⟩ := p
    have single : ∀ c d : Nat, Holds (if c < d then [(c, d)] else []) x ↔ c ≤ x ∧ x < d := fun c d => by
      split
      · simp [Holds]
      · simp [Holds]; omega
    unfold removeInterval
    rw [holds_append, holds_append, ih, holds_cons, single, single]
    constructor
    · rintro ((h | h) | h)
      · exact ⟨.inl (by omega), by omega⟩
      · exact ⟨.inl (by omega), by omega⟩
      · exact ⟨.inr h.1, h.2⟩
    · rintro ⟨h | h, hn⟩
      · exact .inl (by omega)
      · exact .inr ⟨h, hn⟩

theorem canon_removeInterval {a b : Nat} (hab : a < b) {l : List (Nat × Nat)} (hl : Canon l) :
    Canon (removeInterval a b l) := by
  refine ⟨?_, fun iv h => (removeInterval_within h).1⟩
  induction l with
  | nil => exact .nil
  | cons p l ih =>
    obtain ⟨u, v⟩ := p
    obtain ⟨huv, hlow, hl⟩ := canon_cons.mp hl
    have single : ∀ c d : Nat, (if c < d then [(c, d)] else []).Pairwise fun a b : Nat × Nat => a.2 < b.1 :=
      fun c d => by split <;> simp
    have rest : ∀ iv ∈ removeInterval a b l, v < iv.1 := fun iv h => by
      obtain ⟨_, q, hq, hw, _⟩ := removeInterval_within h
      exact Nat.lt_of_lt_of_le (hlow q hq) hw
    have mem : ∀ {c d : Nat} {iv : Nat × Nat}, iv ∈ (if c < d then [(c, d)] else []) → iv = (c, d) := fun h => by
      split at h
      · exact List.mem_singleton.mp h
      · cases h
    unfold removeInterval
    refine List.pairwise_append.mpr ⟨List.pairwise_append.mpr ⟨single _ _, single _ _, ?_⟩, ih hl, ?_⟩
    · intro x hx y hy
      cases mem hx
      cases mem hy
      simp only
      omega
    · intro x hx y hy
      have hv := rest y hy
      rcases List.mem_append.mp hx with hx | hx
      · cases mem hx
        simp only
        omega
      · cases mem hx
        exact hv

end Sys2Proof.Machine
end

section
/-! Every move keeps the coverage list of every context, and its pieces at 8 or below (R63). -/

namespace Sys2Proof.Machine

open Sys2Proof.Laws Sys2Proof.Safety

set_option Elab.async false

/-! ### Received runs -/

/-- A byte of a transfer. -/
def Transfer.has (t : Transfer) (x : Nat) : Prop := t.offset ≤ x ∧ x < t.offset + t.length

/-- Two transfers share no byte. -/
def TransferApart (t u : Transfer) : Prop := t.offset + t.length ≤ u.offset ∨ u.offset + u.length ≤ t.offset

/-- An interval list less the bytes of transfers. -/
def runs (l : List (Nat × Nat)) (ts : List Transfer) : List (Nat × Nat) :=
  ts.foldl (fun l t => removeInterval t.offset (t.offset + t.length) l) l

theorem Context.receivedRuns_eq (c : Context) : c.receivedRuns = runs c.coverage c.transfers := rfl

theorem canon_runs {l : List (Nat × Nat)} {ts : List Transfer} (hl : Canon l) (hts : ∀ t ∈ ts, 1 ≤ t.length) :
    Canon (runs l ts) := by
  induction ts generalizing l with
  | nil => exact hl
  | cons t ts ih =>
    obtain ⟨ht, hts⟩ := List.forall_mem_cons.mp hts
    exact ih (canon_removeInterval (by omega) hl) hts

theorem holds_runs {l : List (Nat × Nat)} {ts : List Transfer} (hts : ∀ t ∈ ts, 1 ≤ t.length) (x : Nat) :
    Holds (runs l ts) x ↔ Holds l x ∧ ∀ t ∈ ts, ¬t.has x := by
  induction ts generalizing l with
  | nil => simp [runs]
  | cons t ts ih =>
    obtain ⟨ht, hts⟩ := List.forall_mem_cons.mp hts
    have hrest : Holds (runs l (t :: ts)) x ↔ _ := ih (l := removeInterval t.offset (t.offset + t.length) l) hts
    rw [hrest, holds_removeInterval, List.forall_mem_cons, and_assoc]
    rfl

/-- Transfers of bytes that a list holds, apart from each other. -/
structure Laid (l : List (Nat × Nat)) (ts : List Transfer) : Prop where
  long : ∀ t ∈ ts, 1 ≤ t.length
  inside : ∀ t ∈ ts, ∀ x, t.has x → Holds l x
  apart : ts.Pairwise TransferApart

theorem Laid.sublist {l : List (Nat × Nat)} {ts us : List Transfer} (h : Laid l us) (hs : ts.Sublist us) : Laid l ts :=
  ⟨fun t ht => h.long t (hs.subset ht), fun t ht => h.inside t (hs.subset ht), h.apart.sublist hs⟩

theorem TransferApart.not_has {t u : Transfer} (h : TransferApart t u) {x : Nat} (ht : t.has x) : ¬u.has x := by
  unfold Transfer.has at *
  unfold TransferApart at h
  omega

theorem Laid.tail {l : List (Nat × Nat)} {t : Transfer} {ts : List Transfer} (h : Laid l (t :: ts)) :
    Laid (removeInterval t.offset (t.offset + t.length) l) ts where
  long := fun u hu => h.long u (List.mem_cons_of_mem _ hu)
  inside := fun u hu x hx => by
    have ht := h.long t List.mem_cons_self
    have hap := (List.pairwise_cons.mp h.apart).1 u hu
    exact (holds_removeInterval l).mpr
      ⟨h.inside u (List.mem_cons_of_mem _ hu) x hx, fun hin => hap.not_has hin hx⟩
  apart := (List.pairwise_cons.mp h.apart).2

/-- A transfer that leaves gives back its bytes: the runs become one more at most. -/
theorem length_runs_le_tail {l : List (Nat × Nat)} {t : Transfer} {ts : List Transfer} (hl : Canon l)
    (h : Laid l (t :: ts)) : (runs l ts).length ≤ (runs l (t :: ts)).length + 1 := by
  have ht := h.long t List.mem_cons_self
  have hts : ∀ u ∈ ts, 1 ≤ u.length := fun u hu => h.long u (List.mem_cons_of_mem _ hu)
  have hc : Canon (runs l (t :: ts)) := canon_runs hl h.long
  have hadd : runs l ts = addInterval t.offset (t.offset + t.length) (runs l (t :: ts)) := by
    refine canon_ext (canon_runs hl hts) (canon_addInterval (by omega) hc) fun x => ?_
    rw [holds_addInterval (by omega) hc.proper, holds_runs hts, holds_runs h.long, List.forall_mem_cons]
    have hin : t.has x → Holds l x ∧ ∀ u ∈ ts, ¬u.has x := fun hx =>
      ⟨h.inside t List.mem_cons_self x hx, fun u hu => ((List.pairwise_cons.mp h.apart).1 u hu).not_has hx⟩
    change _ ↔ t.has x ∨ _
    tauto
  rw [hadd]
  exact length_addInterval _ _ _

/-- With fewer transfers there are no more pieces. -/
theorem length_runs_sublist {ts us : List Transfer} (hs : ts.Sublist us) : ∀ {l : List (Nat × Nat)}, Canon l →
    Laid l us → (runs l ts).length + ts.length ≤ (runs l us).length + us.length := by
  induction hs with
  | slnil => intro l _ _; exact le_rfl
  | @cons ts us t _ ih =>
    intro l hl h
    have h1 := ih hl (h.sublist (List.sublist_cons_self t us))
    have h2 := length_runs_le_tail hl h
    rw [List.length_cons]
    omega
  | @cons_cons ts us t _ ih =>
    intro l hl h
    have h1 := ih (canon_removeInterval (by have := h.long t List.mem_cons_self; omega) hl) h.tail
    rw [List.length_cons, List.length_cons]
    change (runs (removeInterval t.offset (t.offset + t.length) l) ts).length + _ ≤
      (runs (removeInterval t.offset (t.offset + t.length) l) us).length + _
    omega

end Sys2Proof.Machine

namespace Sys2Proof.Safety

open Sys2Proof.Machine

set_option Elab.async false

/-! ### Coverage of a context -/

theorem Covered.canon {c : Context} (h : Covered c) : Canon c.coverage := ⟨h.sorted, fun iv hiv => (h.within iv hiv).1⟩

theorem Covered.laid {c : Context} (h : Covered c) : Laid c.coverage c.transfers where
  long := fun t ht => (h.transfers t ht).1
  inside := fun t ht x hx => by
    obtain ⟨_, iv, hiv, hlo, hhi⟩ := h.transfers t ht
    exact ⟨iv, hiv, hlo.trans hx.1, hx.2.trans_le hhi⟩
  apart := h.apart

/-- The bytes that a context holds lie below 8,192 and below its total. -/
structure Bounded (l : List (Nat × Nat)) (total : Option Nat) : Prop where
  payload : ∀ x, Holds l x → x < 8192
  total : ∀ x, Holds l x → ∀ n, total = some n → x < n

theorem Covered.bounded {c : Context} (h : Covered c) : Bounded c.coverage c.total where
  payload := fun _ ⟨iv, hiv, _, hx⟩ => hx.trans_le (h.within iv hiv).2.1
  total := fun _ ⟨iv, hiv, _, hx⟩ n hn => hx.trans_le ((h.within iv hiv).2.2 n hn)

/-- A context is covered if its coverage is canonical and bounded, its transfers laid within it, its pieces few. -/
theorem covered_of {c : Context} (hc : Canon c.coverage) (hl : Laid c.coverage c.transfers)
    (hb : Bounded c.coverage c.total) (hp : c.pieces ≤ 8) : Covered c where
  sorted := hc.sorted
  within := fun iv hiv => by
    have hproper := hc.proper iv hiv
    have hlast : Holds c.coverage (iv.2 - 1) := ⟨iv, hiv, by omega, by omega⟩
    have h1 := hb.payload _ hlast
    refine ⟨hproper, by omega, fun n hn => ?_⟩
    have h2 := hb.total _ hlast n hn
    omega
  few := by
    have h := length_runs_sublist (List.nil_sublist c.transfers) hc hl
    have hnil : runs c.coverage [] = c.coverage := rfl
    have hpieces : c.pieces = (runs c.coverage c.transfers).length + c.transfers.length := rfl
    rw [hnil, List.length_nil] at h
    omega
  pieces := hp
  transfers := fun t ht => by
    have hlong := hl.long t ht
    obtain ⟨iv, hiv, hw⟩ := within_interval hc (x := t.offset) (y := t.offset + t.length) (by omega)
      fun z h1 h2 => hl.inside t ht z ⟨h1, h2⟩
    exact ⟨hlong, iv, hiv, hw⟩
  apart := hl.apart

/-- A context that only loses transfers stays covered. -/
theorem Covered.renew {c d : Context} (h : Covered c) (hd : Renewed c d) : Covered d := by
  refine covered_of (hd.coverage ▸ h.canon) ?_ ?_ ?_
  · rw [hd.coverage]
    exact h.laid.sublist hd.transfers
  · rw [hd.coverage, hd.total]
    exact h.bounded
  · have hp := length_runs_sublist hd.transfers h.canon h.laid
    have h8 := h.pieces
    unfold Context.pieces at h8 ⊢
    rw [Context.receivedRuns_eq] at h8 ⊢
    rw [hd.coverage]
    omega

theorem covered_newContext (f : Fragment) : Covered (newContext f) :=
  covered_of canon_nil ⟨by simp [newContext], by simp [newContext], by simp [newContext]⟩
    ⟨fun x h => absurd h holds_nil, fun x h => absurd h holds_nil⟩ (by simp [Context.pieces, Context.receivedRuns, newContext])

/-- What a fragment that passed its tests does not meet. -/
theorem not_holds_of_covers {l : List (Nat × Nat)} {a b : Nat} (h : covers l a b = false) {x : Nat} (hx : a ≤ x ∧ x < b) :
    ¬Holds l x := by
  rintro ⟨iv, hiv, hlo, hhi⟩
  have := List.any_eq_false.mp h iv hiv
  simp only [Bool.and_eq_true, decide_eq_true_eq] at this
  omega

/-- A context into which a fragment is accepted stays covered. -/
theorem Covered.accept {c : Context} {f : Fragment} {free : Nat} (h : Covered c) (hf : 1 ≤ f.length)
    (hfit : Fits c free f.offset f.length f.last) (map : Vector (Option BlockNo) 16) : Covered (c.accept f map) := by
  let t : Transfer := ⟨f.slot, f.offset, f.length, f.last, f.address⟩
  have hcov : (c.accept f map).coverage = addInterval f.offset (f.offset + f.length) c.coverage := rfl
  have hts : (c.accept f map).transfers = c.transfers ++ [t] := rfl
  have hlt : f.offset < f.offset + f.length := by omega
  have hcanon : Canon (c.accept f map).coverage := canon_addInterval hlt h.canon
  have hholds : ∀ x, Holds (c.accept f map).coverage x ↔ t.has x ∨ Holds c.coverage x := fun x =>
    holds_addInterval hlt h.canon.proper
  have hfresh : ∀ x, t.has x → ¬Holds c.coverage x := fun x hx => not_holds_of_covers hfit.fresh hx
  have hlaid : Laid (c.accept f map).coverage (c.accept f map).transfers := by
    rw [hts]
    refine ⟨fun u hu => ?_, fun u hu x hx => (hholds x).mpr ?_, List.pairwise_append.mpr ⟨h.apart, by simp, ?_⟩⟩
    · rcases List.mem_append.mp hu with hu | hu
      · exact h.laid.long u hu
      · cases List.mem_singleton.mp hu
        exact hf
    · rcases List.mem_append.mp hu with hu | hu
      · exact .inr (h.laid.inside u hu x hx)
      · cases List.mem_singleton.mp hu
        exact .inl hx
    · intro u hu v hv
      cases List.mem_singleton.mp hv
      by_contra hmeet
      have hulong := h.laid.long u hu
      obtain ⟨x, hxu, hxt⟩ : ∃ x, u.has x ∧ t.has x := by
        refine ⟨max u.offset f.offset, ?_⟩
        unfold TransferApart at hmeet
        unfold Transfer.has
        simp only [t] at hmeet ⊢
        omega
      exact hfresh x hxt (h.laid.inside u hu x hxu)
  refine covered_of hcanon hlaid ⟨fun x hx => ?_, fun x hx n hn => ?_⟩ ?_
  · rcases (hholds x).mp hx with ht | hx
    · have := hfit.within
      exact ht.2.trans_le this
    · exact h.bounded.payload x hx
  · rcases (hholds x).mp hx with ht | hx
    · refine ht.2.trans_le ?_
      change (if f.last then some (f.offset + f.length) else c.total) = some n at hn
      split at hn
      · cases hn
        exact le_rfl
      · exact hfit.total n hn
    · change (if f.last then some (f.offset + f.length) else c.total) = some n at hn
      split at hn
      next hlast =>
        cases hn
        obtain ⟨iv, hiv, _, hxv⟩ := hx
        exact hxv.trans_le (hfit.last hlast iv hiv)
      next => exact h.bounded.total x hx n hn
  · have hruns : runs (c.accept f map).coverage (c.transfers ++ [t]) = runs c.coverage c.transfers := by
      refine canon_ext (canon_runs hcanon (hts ▸ hlaid.long)) (canon_runs h.canon h.laid.long) fun x => ?_
      rw [holds_runs (hts ▸ hlaid.long), holds_runs h.laid.long, hholds]
      have hx := hfresh x
      simp only [List.mem_append, List.mem_singleton, or_imp, forall_and, forall_eq]
      tauto
    have hp : c.pieces + 1 ≤ 8 := hfit.pieces
    unfold Context.pieces at hp ⊢
    rw [Context.receivedRuns_eq] at hp ⊢
    rw [hts, hruns, List.length_append, List.length_singleton]
    omega

/-- A context whose transfer has failed stays covered. -/
theorem Covered.withoutFragment {c : Context} {t : Transfer} (h : Covered c) (ht : t ∈ c.transfers) :
    Covered (c.withoutFragment t) := by
  have hlong := h.laid.long t ht
  have hlt : t.offset < t.offset + t.length := by omega
  have hcanon : Canon (c.withoutFragment t).coverage := canon_removeInterval hlt h.canon
  have hholds : ∀ x, Holds (c.withoutFragment t).coverage x ↔ Holds c.coverage x ∧ ¬t.has x := fun x =>
    holds_removeInterval c.coverage
  have hts : (c.withoutFragment t).transfers = c.transfers.filter fun u => u.slot != t.slot := rfl
  have hsub : (c.withoutFragment t).transfers.Sublist c.transfers := List.filter_sublist
  have hapart : ∀ u ∈ (c.withoutFragment t).transfers, TransferApart t u := fun u hu => by
    obtain ⟨hu, hslot⟩ := List.mem_filter.mp (hts ▸ hu)
    have : Std.Symm TransferApart := ⟨fun _ _ => Or.symm⟩
    refine List.Pairwise.forall (R := TransferApart) h.apart ht hu ?_
    rintro rfl
    simp at hslot
  have hlaid : Laid (c.withoutFragment t).coverage (c.withoutFragment t).transfers :=
    ⟨fun u hu => h.laid.long u (hsub.subset hu),
      fun u hu x hx => (hholds x).mpr
        ⟨h.laid.inside u (hsub.subset hu) x hx, fun htx => (hapart u hu).not_has htx hx⟩,
      h.laid.apart.sublist hsub⟩
  refine covered_of hcanon hlaid ⟨fun x hx => ?_, fun x hx n hn => ?_⟩ ?_
  · exact h.bounded.payload x ((hholds x).mp hx).1
  · change (if t.last then none else c.total) = some n at hn
    split at hn
    · cases hn
    · exact h.bounded.total x ((hholds x).mp hx).1 n hn
  · let us := c.transfers.filter fun u => u.slot != t.slot || u == t
    have hus : us.Sublist c.transfers := List.filter_sublist
    have husl : ∀ u ∈ us, 1 ≤ u.length := fun u hu => h.laid.long u (hus.subset hu)
    have hruns : runs (c.withoutFragment t).coverage (c.withoutFragment t).transfers = runs c.coverage us := by
      refine canon_ext (canon_runs hcanon hlaid.long) (canon_runs h.canon husl) fun x => ?_
      rw [holds_runs hlaid.long, holds_runs husl, hholds, hts, and_assoc]
      refine and_congr_right fun _ => ?_
      simp only [us, List.mem_filter, Bool.or_eq_true, bne_iff_ne, beq_iff_eq]
      constructor
      · rintro ⟨htx, hrest⟩ u ⟨hu, hslot | rfl⟩
        · exact hrest u ⟨hu, hslot⟩
        · exact htx
      · intro hrest
        exact ⟨hrest t ⟨ht, .inr rfl⟩, fun u ⟨hu, hslot⟩ => hrest u ⟨hu, .inl hslot⟩⟩
    have hlen : (c.withoutFragment t).transfers.length ≤ us.length := by
      refine (List.Sublist.length_le ?_)
      exact List.monotone_filter_right _ fun u hu => by simp only [Bool.or_eq_true]; exact .inl hu
    have hp := length_runs_sublist hus h.canon h.laid
    have h8 := h.pieces
    unfold Context.pieces at h8 ⊢
    rw [Context.receivedRuns_eq] at h8 ⊢
    rw [hruns]
    omega

end Sys2Proof.Safety

namespace Sys2Proof.Machine

open Sys2Proof.Laws Sys2Proof.Safety

set_option Elab.async false

/-! ### Moves keep the coverage -/

/-- The coverage of every context of the Assembly Unit, and the lengths of the APPENDs that wait. -/
structure AssemblyCovered (a : Assembly) : Prop where
  contexts : ∀ (i : CtxNo) (c : Context), a.contexts[i] = some c → Covered c
  waiting : WaitersLong a

theorem coverageHeld_iff {s : State} : CoverageHeld s ↔ AssemblyCovered s.assembly :=
  ⟨fun h => ⟨h.contexts, h.waiting⟩, fun h => ⟨h.contexts, h.waiting⟩⟩

/-- A context put at a number leaves the others as they are. -/
theorem contexts_of_set {v : Vector (Option Context) 32} {i : CtxNo} {e : Option Context}
    (hv : ∀ (j : CtxNo) (c : Context), v[j] = some c → Covered c) (he : ∀ c, e = some c → Covered c)
    (j : CtxNo) (c : Context) (h : (v.set i e)[j] = some c) : Covered c := by
  by_cases hij : i = j
  · subst hij
    exact he c (by simpa using h)
  · refine hv j c ?_
    have hne : i.val ≠ j.val := fun heq => hij (Fin.ext heq)
    simpa [Vector.getElem_set, hne] using h

theorem Move.covered {s : State} {a b : Assembly} (hm : Move s a b) (hl : WaitersLong s.assembly) (h : AssemblyCovered a) :
    AssemblyCovered b := by
  refine ⟨?_, hm.waitersLong h.waiting⟩
  cases hm with
  | quiet hc _ _ _ => rw [hc]; exact h.contexts
  | opens hc _ _ _ => rw [hc]; exact h.contexts
  | shuts hc _ _ _ => rw [hc]; exact h.contexts
  | enqueue => exact h.contexts
  | renew hc hd => exact contexts_of_set h.contexts fun _ he => Option.some.inj he ▸ (h.contexts _ _ hc).renew hd
  | release => exact contexts_of_set h.contexts nofun
  | @accept f i c hv hf _ =>
    have ha := appendVerdict_ok hv
    have hc : Covered c := by
      rcases ha.context with hc | ⟨_, rfl⟩
      · exact h.contexts i c hc
      · exact covered_newContext f
    exact contexts_of_set h.contexts fun _ he => Option.some.inj he ▸ hc.accept (hf hl) (fits_of_passes ha.passes) _
  | uncover hc hx =>
    exact contexts_of_set h.contexts fun _ he => Option.some.inj he ▸ (h.contexts _ _ hc).withoutFragment hx

theorem Moves.covered {s t : State} (hm : Moves s t) (h : AssemblyCovered s.assembly) : AssemblyCovered t.assembly := by
  unfold Moves at hm
  generalize t.assembly = b at hm
  induction hm with
  | refl => exact h
  | tail _ hm ih => exact hm.covered h.waiting ih

/-- A command keeps every context's coverage list. -/
theorem after_coverageHeld (c : Instr) {s : State} (hs : CoverageHeld s) : CoverageHeld (after c s) := by
  rw [coverageHeld_iff] at hs ⊢
  cases hr : isReset c with
  | true =>
    obtain ⟨hc, _, hq, hh⟩ := reset_assembly c s hr
    refine ⟨fun i c hi => ?_, fun r hw => ?_⟩
    · simp [hc] at hi
    · rcases hw with hw | hw
      · simp [hq] at hw
      · simp [hh] at hw
  | false => exact (after_moves c s hr).covered hs

theorem step_coverageHeld {s t : State} (hs : CoverageHeld s) (h : step s = .next t) : CoverageHeld t :=
  step_keeps (p := CoverageHeld) (fun _ _ h => ⟨h.contexts, h.waiting⟩) (fun c _ h => after_coverageHeld c h) hs h

end Sys2Proof.Machine
end

section
/-! The whole machine: a step, the two resets, and the invariants at reset (R171, R182). -/

namespace Sys2Proof.Safety

open Sys2Proof.Machine Sys2Proof.Laws

set_option Elab.async false

/-! ### A step -/

/-- Settles O1: both halves are the two equations of `step`. -/
theorem stepRunsFrontCommand : Obligations.StepRunsFrontCommand :=
  fun s => ⟨fun c rest h => by rw [step, h], fun h => by rw [step, h]⟩

/-! ### The registers and the blocks after a reset -/

/-- Settles O2: either reset leaves the registers at constants. -/
theorem resetRegisters : Obligations.ResetRegisters := by
  rintro left s c (rfl | rfl)
  · exact ⟨coldReset left s, rfl, rfl, rfl, rfl, rfl, rfl, rfl, rfl, rfl, rfl⟩
  · exact ⟨softReset left s, rfl, rfl, rfl, rfl, rfl, rfl, rfl, rfl, rfl, rfl⟩

/-- Settles O4: the two resets write each block out, the soft one with its counters kept. -/
theorem resetBlocks : Obligations.ResetBlocks :=
  fun left s => ⟨coldReset left s, softReset left s, rfl, rfl, rfl, rfl, rfl, rfl, rfl, rfl, rfl, rfl, rfl, rfl, rfl,
    rfl, rfl, rfl, rfl, rfl, rfl, rfl, rfl, rfl, rfl, rfl, rfl, rfl, rfl, rfl⟩

/-! ### The invariants where every block is at its reset values -/

/-- The tables, the writer, the Reclaim Unit and the Mount Unit hold nothing of the journal. -/
structure Blank (s : State) : Prop where
  states : ∀ i : SectorNo, s.table.entries[i].state = if i.val < 2 then .anchor else .dirty
  journal : s.table.journal = []
  idle : s.writer.state = .idle
  inHand : s.writer.sectorInHand = none
  epoch : s.writer.headerEpoch = none
  placement : s.writer.placement = none
  erase : s.reclaim.erase = none
  rests : s.reclaim.state = .idle
  wipe : s.reclaim.wipeActive = false
  contexts : ∀ i : CtxNo, s.assembly.contexts[i] = none
  offline : s.host.device = .offline
  findings : ∀ i : SectorNo, s.mount.findings[i] = .none
  position : s.mount.position = .none

theorem Blank.anchorsApart {s : State} (h : Blank s) : AnchorsApart s where
  anchors i := by
    rw [h.states i]
    by_cases hi : i.val < 2
    · simp [hi]
    · simp [hi]
  journal i hi := by simp [h.journal] at hi
  inHand i hi := by simp [h.inHand] at hi
  placement pl hpl := by simp [h.placement] at hpl
  erase i hi := by simp [h.erase] at hi
  findings i hi := by simp [h.findings i, isValid] at hi
  scan i hi := by simp [h.position, scanned] at hi

/-- Every sector is ANCHOR or DIRTY, so none is a member. -/
theorem Blank.not_member {s : State} (h : Blank s) (i : SectorNo) :
    s.table.entries[i].state ≠ .opened ∧ s.table.entries[i].state ≠ .closed := by
  rw [h.states i]
  by_cases hi : i.val < 2
  · simp [hi]
  · simp [hi]

theorem Blank.journalHeld {s : State} (h : Blank s) : JournalHeld s where
  nodup := by simp [h.journal]
  members i := by
    obtain ⟨ho, hc⟩ := h.not_member i
    simp only [h.journal, List.not_mem_nil, ho, hc, or_self]
  openLast i hi := absurd hi (h.not_member i).1
  epochs i hi := by simp [h.journal] at hi
  rising := by simp [h.journal]
  ranges i hi := by simp [h.journal] at hi
  apart := by simp [h.journal]
  opening hs := by simp [h.idle] at hs
  hand i hi := by simp [h.inHand] at hi
  header e he := by simp [h.epoch] at he
  placed pl hpl := by simp [h.placement] at hpl
  erasing i hi := by simp [h.erase] at hi
  wiping hs := by simp [h.rests] at hs
  wipe hw := by simp [h.wipe] at hw
  unmounted _ := ⟨by simp [h.offline], by simp [h.offline], ⟨h.idle, h.contexts⟩, h.erase, h.wipe⟩
  mounting hd := by simp [h.offline] at hd
  findings i w e p hf := by simp [h.findings i] at hf
  scan w hw := by simp [h.position, walking] at hw

theorem blank_coldReset (left : Residue) (s : State) : Blank (coldReset left s) where
  states i := by rw [coldReset_table, SectorTable.reset_entry]
  journal := rfl
  idle := rfl
  inHand := rfl
  epoch := rfl
  placement := rfl
  erase := rfl
  rests := rfl
  wipe := rfl
  contexts i := Vector.getElem_replicate i.isLt
  offline := rfl
  findings i := Vector.getElem_replicate i.isLt
  position := rfl

theorem blank_softReset (left : Residue) (s : State) : Blank (softReset left s) where
  states i := by rw [softReset_entry, SectorTable.reset_entry]; rfl
  journal := rfl
  idle := rfl
  inHand := rfl
  epoch := rfl
  placement := rfl
  erase := rfl
  rests := rfl
  wipe := rfl
  contexts i := Vector.getElem_replicate i.isLt
  offline := rfl
  findings i := Vector.getElem_replicate i.isLt
  position := rfl

theorem blank_reset : Blank State.reset where
  states i := SectorTable.reset_entry i ▸ rfl
  journal := rfl
  idle := rfl
  inHand := rfl
  epoch := rfl
  placement := rfl
  erase := rfl
  rests := rfl
  wipe := rfl
  contexts i := Vector.getElem_replicate i.isLt
  offline := rfl
  findings i := Vector.getElem_replicate i.isLt
  position := rfl

/-- Settles O9: the journal's blocks are `Blank`; no context is in use, so every block is free and no interval is
covered; every counter is 0. -/
theorem invariantsAtReset : Obligations.InvariantsAtReset := by
  refine ⟨⟨rfl, rfl⟩, blank_reset.anchorsApart, blank_reset.journalHeld, ?blocks, ⟨?contexts, ?waiting⟩, ?counters⟩
  case blocks =>
    exact fun b => places_fresh (a := Assembly.reset) (by simp [Assembly.reset]) (by simp [Assembly.reset]) b
  case contexts => exact fun i c hc => absurd (hc.symm.trans (blank_reset.contexts i)) (Option.some_ne_none c)
  case waiting =>
    rintro r (hr | hr)
    · simp [State.reset, Assembly.reset] at hr
    · simp [State.reset, Assembly.reset] at hr
  case counters =>
    intro n hn
    have hcounters : State.reset.counters = List.replicate 12 0 := rfl
    rw [hcounters] at hn
    rw [List.eq_of_mem_replicate hn]
    exact Nat.zero_le _

end Sys2Proof.Safety
end

section
/-! The register window and the entries to SETUP, STOPPED and DRAINING's end (R172, R173, R180, R185, R186). -/

namespace Sys2Proof.Machine

open Sys2Proof.Laws Sys2Proof.Safety

/-! ### The registers as read (R185) -/

theorem enable_getLsbD (b : Bool) (k : Nat) : (BitVec.ofNat 32 b.toNat).getLsbD k = (decide (k = 0) && b) := by
  cases b with
  | false => simp
  | true => simp [BitVec.getLsbD_one]

theorem widened_getLsbD (b : BitVec 4) (k : Nat) : (b.setWidth 32).getLsbD k = b.getLsbD k := by
  rw [BitVec.getLsbD_setWidth]
  by_cases hk : k < 4
  · simp [show k < 32 by omega]
  · rw [BitVec.getLsbD_of_ge b k (by omega), Bool.and_false]

/-- A word made of three bytes, the lowest of them at most 15 (STATE, R185). -/
theorem stateWord_fields {a b c : Nat} (ha : a < 16) (hb : b < 256) (hc : c < 256) :
    let v := BitVec.ofNat 32 (a + 256 * b + 65536 * c)
    (v.extractLsb' 0 4).toNat = a ∧ v.extractLsb' 4 4 = 0#4 ∧ (v.extractLsb' 8 8).toNat = b ∧
      (v.extractLsb' 16 8).toNat = c ∧ v.extractLsb' 24 8 = 0#8 := by
  intro v
  have hv : v.toNat = a + 256 * b + 65536 * c := by
    rw [BitVec.toNat_ofNat]
    exact Nat.mod_eq_of_lt (by omega)
  refine ⟨?_, BitVec.eq_of_toNat_eq ?_, ?_, ?_, BitVec.eq_of_toNat_eq ?_⟩ <;>
    simp only [BitVec.extractLsb'_toNat, hv, Nat.shiftRight_eq_div_pow, BitVec.toNat_ofNat] <;> omega

theorem deviceCode_lt_sixteen (d : DeviceState) : d.code < 16 := by cases d <;> decide

theorem readRegister_state {h : HostUnit} (hi : h.badIndex ≤ 255) :
    ∃ v, h.readRegister 0x08 = some v ∧
      deviceStates[(v.extractLsb' 0 4).toNat]? = some h.device ∧ v.extractLsb' 4 4 = 0#4 ∧
      reasons[(v.extractLsb' 8 8).toNat]? = some h.reason ∧ (v.extractLsb' 16 8).toNat = h.badIndex ∧
      v.extractLsb' 24 8 = 0#8 := by
  obtain ⟨hdevice, hzero, hreason, hindex, htop⟩ :=
    stateWord_fields (deviceCode_lt_sixteen h.device) (reasonCode_lt h.reason) (Nat.lt_succ_of_le hi)
  refine ⟨_, rfl, ?_, hzero, ?_, hindex, htop⟩
  · rw [hdevice, deviceStates_code]
  · rw [hreason, reasons_code]

/-! ### The command that a write is (R186) -/

/-- One byte lane of a write: its eight bits, if it is enabled. -/
theorem lane_getLsbD (b : Bool) (j k : Nat) :
    (if b then 0xFF#32 <<< (8 * j) else 0#32).getLsbD k = (b && decide (k < 32) && decide (k / 8 = j)) := by
  cases b with
  | false => simp
  | true =>
    have hff : ∀ i : Nat, (255#32).getLsbD i = decide (i < 8) := fun i => by
      by_cases hi : i < 32
      · interval_cases i <;> rfl
      · rw [BitVec.getLsbD_of_ge _ _ (by omega)]
        simp; omega
    simp only [if_true, BitVec.getLsbD_shiftLeft, hff, Bool.true_and]
    by_cases hk : k < 32
    · simp only [hk, decide_true, Bool.true_and]
      rw [Bool.eq_iff_iff]
      simp
      omega
    · simp [hk]

theorem writtenWord_getLsbD (enables : BitVec 4) (value : Word) (k : Nat) :
    (writtenWord enables value).getLsbD k = (value.getLsbD k && enables.getLsbD (k / 8)) := by
  unfold writtenWord
  simp only [BitVec.getLsbD_and, BitVec.getLsbD_or]
  by_cases hk : k < 32
  · have hlane : k / 8 = 0 ∨ k / 8 = 1 ∨ k / 8 = 2 ∨ k / 8 = 3 := by omega
    rw [lane_getLsbD _ 0, lane_getLsbD _ 1, lane_getLsbD _ 2, lane_getLsbD _ 3]
    rcases hlane with h | h | h | h <;> simp [h, hk]
  · rw [BitVec.getLsbD_of_ge value k (by omega), Bool.false_and, Bool.false_and]

theorem ctrlCommand_softReset {v : Word} (left : Residue) (h : v.getLsbD 1 = true) :
    ctrlCommand v left = .softReset left := if_pos h

theorem ctrlCommand_set {v : Word} (left : Residue) (h : v.getLsbD 1 = false) (h0 : v.getLsbD 0 = true) :
    ctrlCommand v left = .ctrlEnableSet := by
  rw [ctrlCommand, h, h0]; rfl

theorem ctrlCommand_clear {v : Word} (left : Residue) (h : v.getLsbD 1 = false) (h0 : v.getLsbD 0 = false) :
    ctrlCommand v left = .ctrlEnableClear := by
  rw [ctrlCommand, h, h0]; rfl

/-- The low six bits of SETUP_LO are stored as 0 (R185). -/
theorem setupLo_getLsbD (v : Word) (k : Nat) : (v &&& 0xFFFFFFC0#32).getLsbD k = (decide (6 ≤ k) && v.getLsbD k) := by
  rw [BitVec.getLsbD_and, Bool.and_comm]
  by_cases hk : k < 32
  · congr 1
    interval_cases k <;> rfl
  · rw [BitVec.getLsbD_of_ge v k (by omega), Bool.and_false, Bool.and_false]

/-- Settles O13: the reads are `readRegister` at each offset, the commands `registerWriteCommand` at the word written,
and REGISTER_WRITE stores the two setup registers. -/
theorem registerWrites : Obligations.RegisterWrites := by
  refine ⟨fun h => ⟨rfl, rfl, rfl, rfl, ?enable, ?cause, ?mask, readRegister_state⟩,
    fun enables value left => ⟨writtenWord enables value, writtenWord_getLsbD enables value, ?commands⟩,
    fun v s => ⟨rfl, rfl, rfl, _, rfl, setupLo_getLsbD v⟩⟩
  case enable => exact ⟨_, rfl, enable_getLsbD h.enable⟩
  case cause => exact ⟨_, rfl, widened_getLsbD h.intCause⟩
  case mask => exact ⟨_, rfl, widened_getLsbD h.intMask⟩
  case commands =>
    exact ⟨rfl, rfl, rfl, rfl, rfl, rfl, rfl, fun h => congrArg some (ctrlCommand_softReset left h),
      fun h h0 => congrArg some (ctrlCommand_set left h h0), fun h h0 => congrArg some (ctrlCommand_clear left h h0)⟩

/-! ### SETUP is entered (R172, R173) -/

/-- The Host Ring Unit with the device in SETUP, its stage as yet what it was. -/
abbrev HostUnit.inSetup (h : HostUnit) : HostUnit := { h with device := .setup, reason := .noReason, badIndex := 0 }

theorem enterSetup_waits {s : State} (h : s.host.ringWrite ≠ none) :
    enterSetup s = { s with host := { s.host.inSetup with setupStage := .waiting s.host.setupAddress } } := by
  have hwrite : s.host.ringWrite.isSome = true := Option.isSome_iff_ne_none.mpr h
  simp only [enterSetup, State.onHost, hwrite, if_true]

theorem enterSetup_reads {s : State} (h : s.host.ringWrite = none) :
    enterSetup s = { s with host := setUp s.host.setupAddress s.host.inSetup } := by
  have hwrite : s.host.ringWrite.isSome = false := Option.isSome_eq_false_iff.mpr (Option.isNone_iff_eq_none.mpr h)
  simp only [enterSetup, State.onHost, hwrite, Bool.false_eq_true, if_false]
  rfl

/-- Settles O16: from OFFLINE and STOPPED the command enters SETUP with ENABLE stored; else it is stored alone. -/
theorem enableSet : Obligations.EnableSet := by
  intro s address entered starts
  have hrun : exec .ctrlEnableSet s = .next (if starts then
      enterSetup (s.onHost fun h => { h with enable := true }) else s.onHost fun h => { h with enable := true }) := rfl
  refine ⟨fun hn => ?_, fun hs hw => ?_, fun hs hw => ?_⟩
  · rw [hrun, if_neg hn]; rfl
  · rw [hrun, if_pos hs, enterSetup_waits (by exact hw)]; rfl
  · rw [hrun, if_pos hs, enterSetup_reads (by exact hw)]; rfl

/-! ### The end of DRAINING (R180) -/

/-- Everything R180 lists has come to rest. -/
def AtRest (s : State) : Prop :=
  (∀ i : SlotNo, s.host.slots[i] = .free) ∧ s.host.posting = [] ∧ s.host.fetch = none ∧
    s.writer.queue = [] ∧ s.writer.state = .idle ∧ s.anchor.state = .idle ∧ s.reader.active = none ∧
    s.reader.fifo = [] ∧ s.ctrl.state = .idle ∧ s.ctrl.placed = .empty ∧ s.ctrl.outcomes = .empty

theorem all_free_iff (v : Vector Slot 64) : (v.toList.all fun x => x == .free) = true ↔ ∀ i : SlotNo, v[i] = .free := by
  simp only [List.all_eq_true, beq_iff_eq, Vector.mem_toList_iff, Vector.mem_iff_getElem]
  constructor
  · exact fun h i => h _ ⟨i.val, i.isLt, rfl⟩
  · rintro h x ⟨k, hk, rfl⟩
    exact h ⟨k, hk⟩

theorem drained_iff (s : State) : drained s = true ↔ AtRest s := by
  simp only [drained, AtRest, Bool.and_eq_true, all_free_iff, List.isEmpty_iff, Option.isNone_iff_eq_none, beq_iff_eq,
    and_assoc]

theorem enterStopped_stays {s : State} (h : s.host.enable = false) :
    enterStopped s = { s with host := s.host.changeState .stopped } := by
  have he : (s.host.changeState .stopped).enable = false := h
  simp only [enterStopped, State.onHost, he, Bool.false_eq_true, if_false]

theorem enterStopped_enters {s : State} (h : s.host.enable = true) :
    enterStopped s = enterSetup { s with host := s.host.changeState .stopped } := by
  have he : (s.host.changeState .stopped).enable = true := h
  simp only [enterStopped, State.onHost, he, if_true]

/-- Settles O28: DRAINING ends where `AtRest` holds, in STOPPED, or in SETUP with CTRL.ENABLE set. -/
theorem drainEnds : Obligations.DrainEnds := by
  intro s hd rest
  have hrun : exec .drainEnd s = .next (if s.host.device = .draining ∧ drained s then enterStopped s else s) := rfl
  have hends (hr : rest) : exec .drainEnd s = .next (enterStopped s) := by
    rw [hrun, if_pos ⟨hd, (drained_iff s).mpr hr⟩]
  refine ⟨fun hr => ?_, fun hr he => ?_, fun hr he hw => ?_, fun hr he hw => ?_⟩
  · rw [hrun, if_neg fun h => hr ((drained_iff s).mp h.2)]
  · rw [hends hr, enterStopped_stays he]; rfl
  · rw [hends hr, enterStopped_enters he, enterSetup_waits (by exact hw)]; rfl
  · rw [hends hr, enterStopped_enters he, enterSetup_reads (by exact hw)]; rfl

end Sys2Proof.Machine
end

section
/-! The setup block: its tests, its layout, and the end of its read (R172, R173, R189). -/

namespace Sys2Proof.Machine

open Sys2Proof.Laws Sys2Proof.Safety

/-! ### The first of a run of tests that fails -/

/-- The tests of a run of numbers, of which `o` is the first to fail. -/
def FirstFailing (p : Nat → Prop) (lo hi : Nat) : Option Nat → Prop
  | some k => lo ≤ k ∧ k < hi ∧ ¬p k ∧ ∀ j, lo ≤ j → j < k → p j
  | none => ∀ j, lo ≤ j → j < hi → p j

theorem FirstFailing.append {p : Nat → Prop} {lo mid hi : Nat} {a b : Option Nat} (ha : FirstFailing p lo mid a)
    (hb : FirstFailing p mid hi b) (hlo : lo ≤ mid) (hhi : mid ≤ hi) : FirstFailing p lo hi (a <|> b) := by
  cases a with
  | some k =>
    obtain ⟨hlk, hk, hfails, hbefore⟩ := ha
    exact ⟨hlk, hk.trans_le hhi, hfails, hbefore⟩
  | none =>
    have hjoin (n : Nat) (h : ∀ j, mid ≤ j → j < n → p j) (hn : n ≤ hi) : ∀ j, lo ≤ j → j < n → p j := fun j hj hjn => by
      by_cases hm : j < mid
      · exact ha j hj hm
      · exact h j (Nat.le_of_not_lt hm) hjn
    cases b with
    | some k =>
      obtain ⟨hmk, hk, hfails, hbefore⟩ := hb
      exact ⟨hlo.trans hmk, hk, hfails, hjoin k hbefore hk.le⟩
    | none => exact hjoin hi hb le_rfl

theorem FirstFailing.some_iff {p : Nat → Prop} {hi : Nat} {o : Option Nat} (h : FirstFailing p 0 hi o) (k : Nat) :
    o = some k ↔ k < hi ∧ ¬p k ∧ ∀ j, j < k → p j := by
  constructor
  · rintro rfl
    obtain ⟨-, hk, hfails, hbefore⟩ := h
    exact ⟨hk, hfails, fun j => hbefore j (Nat.zero_le j)⟩
  · rintro ⟨hk, hfails, hbefore⟩
    cases o with
    | none => exact absurd (h k (Nat.zero_le k) hk) hfails
    | some i =>
      obtain ⟨-, -, hi, hbelow⟩ := h
      rcases Nat.lt_trichotomy i k with hlt | rfl | hgt
      · exact absurd (hbefore i hlt) hi
      · rfl
      · exact absurd (hbelow k (Nat.zero_le k) hgt) hfails

theorem FirstFailing.none_iff {p : Nat → Prop} {hi : Nat} {o : Option Nat} (h : FirstFailing p 0 hi o) :
    o = none ↔ ∀ j, j < hi → p j := by
  constructor
  · rintro rfl
    exact fun j => h j (Nat.zero_le j)
  · intro hall
    cases o with
    | none => rfl
    | some k =>
      obtain ⟨-, hk, hfails, -⟩ := h
      exact absurd (hall k hk) hfails

/-- A run of one test. -/
theorem FirstFailing.single {p : Nat → Prop} (k : Nat) {b : Prop} [Decidable b] (h : b ↔ p k) :
    FirstFailing p k (k + 1) (if b then none else some k) := by
  by_cases hb : b
  · rw [if_pos hb]
    intro j hj hk
    obtain rfl : j = k := by omega
    exact h.mp hb
  · rw [if_neg hb]
    exact ⟨le_rfl, Nat.lt_succ_self k, fun hp => hb (h.mpr hp), fun j hj hk => absurd hk (Nat.not_lt.mpr hj)⟩

/-! ### Areas and alignment -/

theorem aligned_iff (a : Addr) : aligned a = true ↔ a.toNat % 64 = 0 := by simp [aligned]

theorem clearOf_cons (a b : Area) (l : List Area) : clearOf a (b :: l) = true ↔ Apart a b ∧ clearOf a l = true := by
  simp only [clearOf, List.any_cons, Bool.not_or, Bool.and_eq_true, areasMeet, Apart]
  simp only [Bool.not_eq_true', Bool.and_eq_false_iff, decide_eq_false_iff_not, Nat.not_lt]
  tauto

theorem clearOf_append (a : Area) (l m : List Area) :
    clearOf a (l ++ m) = true ↔ clearOf a l = true ∧ clearOf a m = true := by
  simp [clearOf]

@[simp] theorem clearOf_nil (a : Area) : clearOf a [] = true := rfl

theorem clearOf_iff (a : Area) (l : List Area) : clearOf a l = true ↔ ∀ b ∈ l, Apart a b := by
  induction l with
  | nil => simp
  | cons b l ih => simp [clearOf_cons, ih]

theorem mem_areasBefore (c : Setup) (n : Nat) (a : Area) :
    a ∈ c.areasBefore n ↔ ∃ j : Fin 4, j.val < n ∧ InUse c j ∧ a = area c.rings[j].base c.rings[j].size 64 := by
  simp only [Setup.areasBefore, List.mem_map, List.mem_filter, List.mem_take_iff_getElem, bne_iff_ne]
  constructor
  · rintro ⟨r, ⟨⟨j, hj, rfl⟩, huse⟩, rfl⟩
    have hj4 : j < 4 := by simp at hj; omega
    exact ⟨⟨j, hj4⟩, by simp at hj ⊢; omega, huse, rfl⟩
  · rintro ⟨j, hj, huse, rfl⟩
    exact ⟨c.rings[j], ⟨⟨j.val, by simp; omega, rfl⟩, huse⟩, rfl⟩

theorem clearOf_areasBefore (c : Setup) (n : Nat) (a : Area) :
    clearOf a (c.areasBefore n) = true ↔ ApartFromRings c n a := by
  simp only [clearOf_iff, mem_areasBefore, ApartFromRings]
  constructor
  · exact fun h j hj huse => h _ ⟨j, hj, huse, rfl⟩
  · rintro h _ ⟨j, hj, huse, rfl⟩
    exact h j hj huse

/-! ### The nineteen tests (R173) -/

theorem fieldPasses_ring (c : Setup) (i : Fin 4) {k : Nat} (hk : k < 3) :
    fieldPasses c (3 * i.val + k) ↔ ringPasses c i k := by
  fin_cases i <;> interval_cases k <;> rfl

theorem noRing_iff (c : Setup) : (c.rings.toList.all fun r => r.weight == 0) = false ↔ ∃ j, InUse c j := by
  rw [List.all_eq_false]
  simp only [Vector.mem_toList_iff, Vector.mem_iff_getElem, beq_iff_eq, InUse]
  constructor
  · rintro ⟨_, ⟨k, hk, rfl⟩, hw⟩
    exact ⟨⟨k, hk⟩, hw⟩
  · rintro ⟨j, hw⟩
    exact ⟨_, ⟨j.val, j.isLt, rfl⟩, hw⟩

/-- The weight of submission ring `i` is refused. -/
def Setup.weightBad (c : Setup) (i : Fin 4) : Bool :=
  decide (8 < c.rings[i].weight) || (i.val == 3 && c.rings.toList.all fun r => r.weight == 0)

/-- The size of submission ring `i`, in use, is refused. -/
def Setup.sizeBad (c : Setup) (i : Fin 4) : Bool :=
  decide (c.rings[i].size < 8) || decide (4096 < c.rings[i].size)
    || !clearOf (ringArea c.rings[i].base c.rings[i].size 64) (c.areasBefore i.val)

theorem weight_passes (c : Setup) (i : Fin 4) : c.weightBad i = false ↔ ringPasses c i 0 := by
  have h3 : i.val = 3 ↔ i = 3 := by rw [Fin.ext_iff]; rfl
  rw [Setup.weightBad, Bool.or_eq_false_iff, decide_eq_false_iff_not, Nat.not_lt, Bool.and_eq_false_iff, noRing_iff,
    beq_eq_false_iff_ne, Ne, h3]
  simp only [ringPasses]
  tauto

theorem base_passes (c : Setup) (i : Fin 4) :
    (c.rings[i].weight = 0 ∨ aligned c.rings[i].base = true) ↔ ringPasses c i 1 := by
  simp only [ringPasses, InUse, aligned_iff]
  tauto

theorem size_passes (c : Setup) (i : Fin 4) : (c.rings[i].weight = 0 ∨ c.sizeBad i = false) ↔ ringPasses c i 2 := by
  simp only [Setup.sizeBad, Bool.or_eq_false_iff, decide_eq_false_iff_not, Nat.not_lt, Bool.not_eq_false',
    clearOf_areasBefore, ringPasses, InUse, and_assoc]
  change _ ∨ _ ∧ _ ∧ ApartFromRings c i.val (area _ _ _) ↔ _
  tauto

/-- The tests on a submission ring, one after another. -/
theorem ringFault_eq (c : Setup) (i : Fin 4) : c.ringFault i =
    (((if c.weightBad i = false then none else some (3 * i.val))
      <|> (if c.rings[i].weight = 0 ∨ aligned c.rings[i].base = true then none else some (3 * i.val + 1)))
      <|> (if c.rings[i].weight = 0 ∨ c.sizeBad i = false then none else some (3 * i.val + 2))) := by
  change (if c.weightBad i then some (3 * i.val) else if c.rings[i].weight = 0 then none
    else if !aligned c.rings[i].base then some (3 * i.val + 1) else if c.sizeBad i then some (3 * i.val + 2)
    else none) = _
  generalize c.weightBad i = weightBad, c.rings[i].weight = weight, aligned c.rings[i].base = isAligned,
    c.sizeBad i = sizeBad
  cases weightBad with
  | true => rfl
  | false =>
    by_cases hz : weight = 0
    · simp [hz]
    · cases isAligned with
      | false => simp [hz]
      | true =>
        cases sizeBad with
        | true => simp [hz]
        | false => simp [hz]

theorem ringFault_first (c : Setup) (i : Fin 4) :
    FirstFailing (fieldPasses c) (3 * i.val) (3 * i.val + 3) (c.ringFault i) := by
  have hweight := (weight_passes c i).trans (fieldPasses_ring c i (k := 0) (by decide)).symm
  have hbase := (base_passes c i).trans (fieldPasses_ring c i (k := 1) (by decide)).symm
  have hsize := (size_passes c i).trans (fieldPasses_ring c i (k := 2) (by decide)).symm
  rw [ringFault_eq]
  exact ((FirstFailing.single _ hweight).append (FirstFailing.single _ hbase) (by omega) (by omega)).append
    (FirstFailing.single _ hsize) (by omega) (by omega)

theorem findSome_cons {α β : Type} (f : α → Option β) (x : α) (l : List α) :
    (x :: l).findSome? f = (f x <|> l.findSome? f) := by
  cases h : f x with
  | none => simp [h]
  | some y => simp [h]

/-- The tests on the four submission rings. -/
theorem ringFaults_first (c : Setup) :
    FirstFailing (fieldPasses c) 0 12 (([0, 1, 2, 3] : List (Fin 4)).findSome? c.ringFault) := by
  simp only [findSome_cons, List.findSome?_nil]
  exact (ringFault_first c 0).append ((ringFault_first c 1).append ((ringFault_first c 2).append
    ((ringFault_first c 3).append (hi := 12) (fun _ hj hk => absurd hk (Nat.not_lt.mpr hj)) (by decide) (by decide))
    (by decide) (by decide)) (by decide) (by decide)) (by decide) (by decide)

/-- The tests on a ring of 16-byte entries: its base, then its size and place. -/
theorem ring16Fault_first {p : Nat → Prop} {base : Addr} {size most k : Nat} {before : List Area}
    (hbase : base.toNat % 64 = 0 ↔ p k)
    (hsize : (16 ≤ size ∧ size ≤ most ∧ clearOf (area base size 16) before = true) ↔ p (k + 1)) :
    FirstFailing p k (k + 2) (ring16Fault base size most k before) := by
  have heq : ring16Fault base size most k before = ((if base.toNat % 64 = 0 then none else some k)
      <|> (if 16 ≤ size ∧ size ≤ most ∧ clearOf (area base size 16) before = true then none else some (k + 1))) := by
    change (if !aligned base then some k
      else if size < 16 || most < size || !clearOf (area base size 16) before then some (k + 1) else none) = _
    by_cases ha : base.toNat % 64 = 0
    · rw [(aligned_iff base).mpr ha, if_pos ha]
      by_cases hs : 16 ≤ size ∧ size ≤ most ∧ clearOf (area base size 16) before = true
      · obtain ⟨hlow, hhigh, hclear⟩ := hs
        simp [hlow, hhigh, hclear]
      · rw [if_neg hs, if_neg (by simp), if_pos]
        · rfl
        · simp only [Bool.or_eq_true, decide_eq_true_eq, Bool.not_eq_true']
          by_contra hnot
          simp only [not_or, Nat.not_lt, Bool.not_eq_false] at hnot
          exact hs ⟨hnot.1.1, hnot.1.2, hnot.2⟩
    · have hal : aligned base = false := Bool.eq_false_iff.mpr fun h => ha ((aligned_iff base).mp h)
      rw [hal, if_neg ha]
      rfl
  rw [heq]
  exact (FirstFailing.single k hbase).append (FirstFailing.single (k + 1) hsize) (by omega) (by omega)

theorem firstFault_first (c : Setup) : FirstFailing (fieldPasses c) 0 19 c.firstFault := by
  have hcompletion : FirstFailing (fieldPasses c) 12 14
      (ring16Fault c.completionBase c.completionSize 4096 12 (c.areasBefore 4)) :=
    ring16Fault_first Iff.rfl (by rw [clearOf_areasBefore]; rfl)
  have hnotice : FirstFailing (fieldPasses c) 14 16
      (ring16Fault c.noticeBase c.noticeSize 1024 14 (c.areasBefore 4 ++ [c.completionArea])) :=
    ring16Fault_first Iff.rfl (by
      rw [clearOf_append, clearOf_areasBefore, clearOf_cons, clearOf_nil, and_iff_left rfl]; rfl)
  have hstatus := FirstFailing.single (p := fieldPasses c) 16
    (b := (aligned c.statusAddress && clearOf (c.statusAddress.toNat, c.statusAddress.toNat + 64)
      (c.areasBefore 4 ++ [c.completionArea, c.noticeArea])) = true) (by
      rw [Bool.and_eq_true, aligned_iff, clearOf_append, clearOf_areasBefore, clearOf_cons, clearOf_cons, clearOf_nil,
        and_iff_left rfl]
      rfl)
  have hperiod := FirstFailing.single (p := fieldPasses c) 17 (b := 1 ≤ c.tickPeriod ∧ c.tickPeriod ≤ 1000) Iff.rfl
  have hreserve := FirstFailing.single (p := fieldPasses c) 18 (b := 2 ≤ c.reserve ∧ c.reserve ≤ 16) Iff.rfl
  exact (((((ringFaults_first c).append hcompletion (by decide) (by decide)).append hnotice (by decide)
    (by decide)).append hstatus (by decide) (by decide)).append hperiod (by decide) (by decide)).append hreserve
    (by decide) (by decide)

/-- Settles O18: the tests are made in a chain, of which `firstFault` is the first to fail. -/
theorem setupFieldsInOrder : Obligations.SetupFieldsInOrder := by
  intro c
  refine ⟨fun k => ?_, ?_⟩
  · rw [(firstFault_first c).some_iff k, Nat.lt_succ_iff]
  · rw [(firstFault_first c).none_iff]
    exact forall_congr' fun j => by rw [Nat.lt_succ_iff]

/-! ### The layout (R189) -/

/-- A field behind a list that ends before it. -/
theorem fieldAt_past {a : List Byte} (l : List Byte) {i : Nat} (n : Nat) (h : a.length ≤ i) :
    fieldAt (a ++ l) i n = fieldAt l (i - a.length) n :=
  fieldAt_skip a.length (i - a.length) i n a l rfl (Nat.add_sub_cancel' h)

/-- A 64-bit address out of its eight bytes. -/
theorem address_bytes (x : Addr) : BitVec.ofNat 64 (x.toNat % 256 ^ 8) = x := by
  rw [Nat.mod_eq_of_lt (x.isLt.trans_le (by decide)), BitVec.ofNat_toNat, BitVec.setWidth_eq]

/-- A submission ring of the setup block: base, size and weight (R189). -/
def ringBytes (r : RingSetup) : List Byte := leBytes 8 r.base.toNat ++ leBytes 4 r.size ++ leBytes 1 r.weight

@[simp] theorem ringBytes_length (r : RingSetup) : (ringBytes r).length = 13 := by simp [ringBytes]

/-- A ring is read at its place: ring `i` stands behind 16 bytes for each ring before it. -/
theorem ringField_at {r : RingSetup} (hsize : r.size < 2 ^ 32) (hweight : r.weight < 256) {i : Nat}
    {before : List Byte} (h : before.length = 16 * i) (rest : List Byte) :
    ringField (before ++ (ringBytes r ++ rest)) i = r := by
  have hat (m n : Nat) : fieldAt (before ++ (ringBytes r ++ rest)) (16 * i + m) n = fieldAt (ringBytes r ++ rest) m n :=
    fieldAt_skip (16 * i) m _ n _ _ h rfl
  have hbase := hat 0 8
  rw [Nat.add_zero] at hbase
  simp only [ringField, hbase, hat 8, hat 12]
  have hs : r.size % 256 ^ 4 = r.size := Nat.mod_eq_of_lt hsize
  have hw : r.weight % 256 ^ 1 = r.weight := Nat.mod_eq_of_lt hweight
  simp only [ringBytes, List.append_assoc, fieldAt_head, fieldAt_past_leBytes, Nat.reduceLeDiff, Nat.reduceSub,
    address_bytes, hs, hw]

/-- Settles O19: each field stands behind those before it. -/
theorem setupLayout : Obligations.SetupLayout := by
  intro c hrings hcompletion hnotice htick hreserve r0 r1 r2 r3 a b tail h0 h1 h2 h3 ha hb htail ring block
  have hblock : block = ringBytes c.rings[0] ++ (r0 ++ (ringBytes c.rings[1] ++ (r1 ++ (ringBytes c.rings[2] ++ (r2
      ++ (ringBytes c.rings[3] ++ (r3 ++ (leBytes 8 c.completionBase.toNat ++ (leBytes 4 c.completionSize ++ (a
      ++ (leBytes 8 c.noticeBase.toNat ++ (leBytes 4 c.noticeSize ++ (b ++ (leBytes 8 c.statusAddress.toNat
      ++ (leBytes 2 c.tickPeriod ++ (leBytes 1 c.reserve ++ tail)))))))))))))))) := by
    simp only [block, ring, ringBytes, List.append_assoc]
    rfl
  have hring (i : Fin 4) : ringField block i.val = c.rings[i] := by
    obtain ⟨before, rest, hlength, heq⟩ : ∃ before rest, before.length = 16 * i.val ∧
        block = before ++ (ringBytes c.rings[i] ++ rest) := by
      fin_cases i
      · exact ⟨[], _, rfl, hblock⟩
      · exact ⟨ringBytes c.rings[0] ++ r0, _, by simp [h0], by rw [hblock, List.append_assoc]; rfl⟩
      · exact ⟨ringBytes c.rings[0] ++ (r0 ++ (ringBytes c.rings[1] ++ r1)), _, by simp [h0, h1], by
          rw [hblock]; simp only [List.append_assoc]; rfl⟩
      · exact ⟨ringBytes c.rings[0] ++ (r0 ++ (ringBytes c.rings[1] ++ (r1 ++ (ringBytes c.rings[2] ++ r2)))), _, by
          simp [h0, h1, h2], by rw [hblock]; simp only [List.append_assoc]; rfl⟩
    obtain ⟨hsize, hweight⟩ := hrings i
    rw [heq, ringField_at hsize hweight hlength]
  have hfields : fieldAt block 64 8 = c.completionBase.toNat % 256 ^ 8 ∧ fieldAt block 72 4 = c.completionSize % 256 ^ 4 ∧
      fieldAt block 80 8 = c.noticeBase.toNat % 256 ^ 8 ∧ fieldAt block 88 4 = c.noticeSize % 256 ^ 4 ∧
      fieldAt block 96 8 = c.statusAddress.toNat % 256 ^ 8 ∧ fieldAt block 104 2 = c.tickPeriod % 256 ^ 2 ∧
      fieldAt block 106 1 = c.reserve % 256 ^ 1 := by
    simp only [hblock, fieldAt_past, h0, h1, h2, h3, ha, hb, ringBytes_length, leBytes_length, fieldAt_head,
      Nat.reduceLeDiff, Nat.reduceSub, and_self]
  obtain ⟨hcb, hcs, hnb, hns, hsa, htp, hre⟩ := hfields
  refine ⟨by simp [hblock, h0, h1, h2, h3, ha, hb, htail], ?_⟩
  have hvector : (tabulate 4 fun i => ringField block i.val) = c.rings :=
    Vector.ext fun k hk => (tabulate_get _ ⟨k, hk⟩).trans (hring ⟨k, hk⟩)
  rw [parseSetup, hvector, hcb, hcs, hnb, hns, hsa, htp, hre, address_bytes, address_bytes, address_bytes,
    Nat.mod_eq_of_lt (b := 256 ^ 4) hcompletion, Nat.mod_eq_of_lt (b := 256 ^ 4) hnotice,
    Nat.mod_eq_of_lt (b := 256 ^ 2) htick, Nat.mod_eq_of_lt (b := 256 ^ 1) hreserve]

/-! ### The end of the read (R172, R173) -/

theorem setupBlockRead_invalid {l : List Byte} {k : Nat} (h : (parseSetup l).firstFault = some k) (s : State) :
    setupBlockRead l s = enterOffline .setupInvalid k s := by
  simp only [setupBlockRead, h]

/-- The Host Ring Unit with a setup block in force (R173). -/
def HostUnit.withSetup (c : Setup) (h : HostUnit) : HostUnit :=
  { h with setup := some c, setupStage := .idle, statusMark := true }

theorem setupBlockRead_valid {l : List Byte} (h : (parseSetup l).firstFault = none) (s : State) :
    setupBlockRead l s = (let s := s.onHost (HostUnit.withSetup (parseSetup l))
      if s.host.enable then (if s.mount.mounted then enterOnline s else enterMounting s)
      else s.onHost fun h => h.changeState .stopped) := by
  simp only [setupBlockRead, h]
  rfl

/-- A stop leaves the setup stage alone. -/
theorem stopWith_stage (h : HostUnit) (d : DeviceState) (r : Reason) (k : Nat) (st : SetupStage) :
    { h.stopWith d r k with setupStage := st } = stopped d r k { h with setupStage := st } := by
  simp only [HostUnit.stopWith, stopped, HostUnit.withCauses, judged_turns]

theorem enterOffline_eq (r : Reason) (k : Nat) (s : State) :
    enterOffline r k s = { s with host := stopped .offline r k { s.host with setupStage := .idle } } := by
  simp only [enterOffline, State.onHost, stopWith_stage]

theorem enterMounting_eq (s : State) : enterMounting s = { s with
    host := s.host.changeState .mounting
    mount := { Mount.reset s.mount.resetKind with
      phase := .anchorScan, mounted := s.mount.mounted, position := .slot 0 0 }
    ctrl := asked .mount (.readLines 0 0 19) s.ctrl } := rfl

/-- Settles O20: a read that fails and a block that is invalid lead to OFFLINE; else the setup is in force and the state
changes by CTRL.ENABLE and the mounted mark. -/
theorem setupReadEnds : Obligations.SetupReadEnds := by
  intro s address hd hstage ended
  have hreads : s.host.readingSetup = true := by simp only [HostUnit.readingSetup, hstage, hd, beq_self_eq_true]
  have hrun (answer : Option (List Byte)) : exec (.setupReadEnd answer) s = .next (setupReadEnded answer s) :=
    congrArg Host.Outcome.next (if_pos hreads)
  refine ⟨?_, fun l k hk => ?_, fun l hl => ⟨fun he => ?_, fun he hm => ?_, fun he hm => ?_⟩⟩
  · rw [hrun, setupReadEnded, enterOffline_eq]
  · rw [hrun, setupReadEnded, setupBlockRead_invalid hk, enterOffline_eq]
  · have he' : (s.onHost (HostUnit.withSetup (parseSetup l))).host.enable = false := he
    simp only [hrun, setupReadEnded, setupBlockRead_valid hl, he', Bool.false_eq_true, if_false]
    rfl
  · have he' : (s.onHost (HostUnit.withSetup (parseSetup l))).host.enable = true := he
    have hm' : (s.onHost (HostUnit.withSetup (parseSetup l))).mount.mounted = true := hm
    simp only [hrun, setupReadEnded, setupBlockRead_valid hl, he', hm', if_true, enterOnline, signalReclaim_eq]
    rfl
  · have he' : (s.onHost (HostUnit.withSetup (parseSetup l))).host.enable = true := he
    have hm' : (s.onHost (HostUnit.withSetup (parseSetup l))).mount.mounted = false := hm
    simp only [hrun, setupReadEnded, setupBlockRead_valid hl, he', hm', if_true, Bool.false_eq_true, if_false,
      enterMounting_eq]
    rfl

end Sys2Proof.Machine
end

section
/-! Fetching and routing of submission entries (R175, R176, R190). -/

namespace Sys2Proof.Machine

open Sys2Proof.Laws Sys2Proof.Safety

/-! ### Which entry is fetched next (R175) -/

theorem freeSlot_lowest {h : HostUnit} {i : SlotNo} (hi : h.slots[i] = .free)
    (hl : ∀ j : SlotNo, j < i → h.slots[j] ≠ .free) : h.freeSlot = some i :=
  find_first (beq_iff_eq.mpr hi) fun j hj => beq_eq_false_iff_ne.mpr (hl j hj)

/-- The rings that follow `r`, by their distance from it. -/
theorem ringsAfter_eq (r : Fin 4) : ringsAfter r = [1, 2, 3, 4].map fun d : Nat => r + Fin.ofNat 4 d := by
  fin_cases r <;> rfl

/-- The visit of a ring goes on (R175). -/
def GoesOn (h : HostUnit) (c : Setup) : Prop :=
  0 < h.pendingEntries c h.roundRing ∧ h.roundYield < c.rings[h.roundRing].weight

theorem nextRing_goesOn {h : HostUnit} {c : Setup} (hg : GoesOn h c) :
    h.nextRing c = some (h.roundRing, h.roundYield + 1) := if_pos hg

/-- The next ring round with a pending entry begins its visit (R175). -/
theorem nextRing_visits {h : HostUnit} {c : Setup} (hg : ¬GoesOn h c) {d : Nat} (h1 : 1 ≤ d) (h4 : d ≤ 4)
    (hp : 0 < h.pendingEntries c (h.roundRing + Fin.ofNat 4 d))
    (hz : ∀ e : Nat, 1 ≤ e → e < d → h.pendingEntries c (h.roundRing + Fin.ofNat 4 e) = 0) :
    h.nextRing c = some (h.roundRing + Fin.ofNat 4 d, 1) := by
  have hfind : (ringsAfter h.roundRing).find? (fun r => decide (0 < h.pendingEntries c r)) =
      some (h.roundRing + Fin.ofNat 4 d) := by
    have hsplit : [1, 2, 3, 4] = List.range' 1 (d - 1) ++ d :: List.range' (d + 1) (4 - d) := by
      interval_cases d <;> rfl
    rw [ringsAfter_eq, hsplit, List.map_append, List.map_cons]
    refine find_append (decide_eq_true hp) fun r hr => decide_eq_false ?_
    obtain ⟨e, he, rfl⟩ := List.mem_map.mp hr
    have hlow := (List.mem_range'_1.mp he).1
    have hhigh := (List.mem_range'_1.mp he).2
    rw [hz e hlow (by omega)]
    exact Nat.lt_irrefl 0
  refine (if_neg hg).trans ?_
  rw [hfind, Option.map_some]

theorem nextRing_none {h : HostUnit} {c : Setup} (hz : ∀ ring, h.pendingEntries c ring = 0) : h.nextRing c = none := by
  have hg : ¬GoesOn h c := fun hg => absurd (hz _) hg.1.ne'
  have hfind : (ringsAfter h.roundRing).find? (fun r => decide (0 < h.pendingEntries c r)) = none :=
    List.find?_eq_none.mpr fun r _ => by simp [hz r]
  refine (if_neg hg).trans ?_
  rw [hfind, Option.map_none]

/-! ### FETCH_BEGIN -/

theorem hasCredit_iff (h : HostUnit) (c : Setup) :
    h.hasCredit c = true ↔ h.slotsInUse + h.completionsPosted c < c.completionSize - 1 := decide_eq_true_iff

theorem nextFetch_eq {h : HostUnit} {c : Setup} {i : SlotNo} (hd : h.device = .online) (hf : h.fetch = none)
    (hc : h.setup = some c) (hi : h.freeSlot = some i) :
    h.nextFetch = if h.hasCredit c then (h.nextRing c).map fun x => (i, x) else none := by
  simp only [HostUnit.nextFetch, hc, hi, hd, hf, true_and]

theorem exec_fetchBegin_none {s : State} (h : s.host.nextFetch = none) : exec .fetchBegin s = .next s := by
  change Host.Outcome.next _ = _
  simp only [h]

theorem exec_fetchBegin_some {s : State} {i : SlotNo} {ring : Fin 4} {yielded : Nat}
    (h : s.host.nextFetch = some (i, ring, yielded)) :
    exec .fetchBegin s = .next { s with host := s.host.beginFetch i ring yielded } := by
  change Host.Outcome.next _ = _
  simp only [h]
  rfl

/-- Settles O21: with credit the lowest FREE slot is claimed for the ring that `nextRing` finds. -/
theorem fetchBegins : Obligations.FetchBegins := by
  intro s c i hd hf hc hi hl credit claims r goesOn
  have hnext := nextFetch_eq hd hf hc (freeSlot_lowest hi hl)
  have hcredit : credit → s.host.hasCredit c = true := (hasCredit_iff _ _).mpr
  refine ⟨fun ring yielded => ?_, fun hk hg => ?_, fun hk hg d h1 h4 hp hz => ?_, fun hz => ?_, fun hk => ?_⟩
  · simp only [claims, HostUnit.fetchAddress, hc]
  · refine exec_fetchBegin_some ?_
    rw [hnext, hcredit hk, if_pos rfl, nextRing_goesOn hg]
    rfl
  · refine exec_fetchBegin_some ?_
    rw [hnext, hcredit hk, if_pos rfl, nextRing_visits hg h1 h4 hp hz]
    rfl
  · refine exec_fetchBegin_none ?_
    rw [hnext, nextRing_none hz, Option.map_none, ite_self]
  · refine exec_fetchBegin_none ?_
    rw [hnext, if_neg fun h => hk ((hasCredit_iff _ _).mp h)]

/-! ### SUBMISSION_FETCH_END -/

theorem exec_submissionFetchEnd {s : State} {c : Setup} {i : SlotNo} {ring : Fin 4} (ht : Takes s)
    (hc : s.host.setup = some c) (hf : s.host.fetch = some (i, ring)) (answer : Option (List Byte)) :
    exec (.submissionFetchEnd answer) s = .next (fetchEnded i ring c answer s) := by
  change Host.Outcome.next _ = _
  simp only [hf, hc, takes_iff ht, if_true]

theorem halt_live {r : Reason} {s : State} (h : s.host.device ≠ .halted) :
    halt r s = { s with host := stopped .halted r 0 s.host } := if_neg h

theorem takes_live {s : State} (h : Takes s) : s.host.device ≠ .halted := by
  rcases h with h | h <;> simp [h]

/-- Settles O22: a failed read halts the part; else the entry is recorded and its verdict carried out. -/
theorem fetchEnds : Obligations.FetchEnds := by
  intro s c i ring ht hc hf
  have hrun := exec_submissionFetchEnd ht hc hf
  refine ⟨?_, fun l => ?_⟩
  · rw [hrun, fetchEnded, halt_live (takes_live ht)]
  · intro h
    refine ⟨fun hv => ?_, fun hv => ?_, fun cmd => ⟨fun hv => ?_, fun hv => ?_, fun hv => ?_, fun hv => ?_,
      fun hv => ?_, fun hv => ?_⟩⟩
    all_goals
      rw [hrun, fetchEnded]
      simp only [takeEntry, hv]
      rfl

/-! ### The verdict on an entry (R176, R190) -/

theorem streamField_some {l : List Byte} {st : StreamNo} (h : fieldAt l 4 1 = st.val) : streamField l = some st := by
  have hlt : fieldAt l 4 1 < 16 := h ▸ st.isLt
  rw [streamField, dif_pos hlt]
  exact congrArg some (Fin.ext h)

theorem streamField_none {l : List Byte} (h : 16 ≤ fieldAt l 4 1) : streamField l = none :=
  dif_neg (Nat.not_lt.mpr h)

theorem filterField_all {l : List Byte} (h : fieldAt l 4 1 = 0xFF) : filterField l = some none := if_pos h

theorem filterField_stream {l : List Byte} {st : StreamNo} (h : fieldAt l 4 1 = st.val) :
    filterField l = some (some st) := by
  have hne : fieldAt l 4 1 ≠ 0xFF := by have := st.isLt; omega
  rw [filterField, if_neg hne, streamField_some h, Option.map_some]

theorem filterField_none {l : List Byte} (h : 16 ≤ fieldAt l 4 1) (hne : fieldAt l 4 1 ≠ 0xFF) :
    filterField l = none := by
  rw [filterField, if_neg hne, streamField_none h, Option.map_none]

theorem inJsnRange_iff (n : Nat) : inJsnRange n = true ↔ 1 ≤ n ∧ n ≤ 0xFFFFFFFE := by
  rw [inJsnRange, Bool.and_eq_true, decide_eq_true_iff, decide_eq_true_iff]
  rfl

/-- What the Host Ring Unit makes of an entry by its kind. -/
theorem entryVerdict_kind (l : List Byte) :
    (fieldAt l 0 1 = 1 → entryVerdict l = orBadField (appendEntry l)) ∧
    (fieldAt l 0 1 = 2 → entryVerdict l = orBadField (openStreamEntry l)) ∧
    (fieldAt l 0 1 = 3 → entryVerdict l = orBadField ((streamField l).map fun st =>
      .command .assembly (.closeStream st (entryFlag l)))) ∧
    (fieldAt l 0 1 = 4 → entryVerdict l = orBadField ((streamField l).map fun st =>
      .command .assembly (.abortRecord st (BitVec.ofNat 16 (fieldAt l 6 2))))) ∧
    (fieldAt l 0 1 = 5 → entryVerdict l = orBadField (readEntry l)) ∧
    (fieldAt l 0 1 = 6 → entryVerdict l = orBadField (scanEntry l)) ∧
    (fieldAt l 0 1 = 7 → entryVerdict l = orBadField (holdEntry l)) ∧
    (fieldAt l 0 1 = 8 → entryVerdict l = orBadField (releaseEntry l)) ∧
    (fieldAt l 0 1 = 9 → entryVerdict l = orBadField (queryEntry l)) ∧
    (fieldAt l 0 1 = 10 → entryVerdict l = .command .reclaim .wipe) ∧
    (fieldAt l 0 1 = 0 ∨ 10 < fieldAt l 0 1 → entryVerdict l = .badKind) := by
  unfold entryVerdict entryKind
  refine ⟨fun h => ?_, fun h => ?_, fun h => ?_, fun h => ?_, fun h => ?_, fun h => ?_, fun h => ?_, fun h => ?_,
    fun h => ?_, fun h => ?_, fun h => ?_⟩
  case refine_11 =>
    split
    case h_11 => rfl
    all_goals omega
  all_goals simp only [h]

theorem appendEntry_eq {l : List Byte} {st : StreamNo} (h : fieldAt l 4 1 = st.val) :
    appendEntry l = if fieldAt l 8 2 ≤ 8191 ∧ 1 ≤ fieldAt l 10 2 ∧ fieldAt l 10 2 ≤ 4096 then
      some (.command .assembly (.append st (BitVec.ofNat 16 (fieldAt l 6 2)) (fieldAt l 8 2) (fieldAt l 10 2)
        (entryFlag l) (BitVec.ofNat 32 (fieldAt l 12 4)) (addressField l))) else none := by
  rw [appendEntry, streamField_some h, Option.bind_some]

theorem openStreamEntry_eq {l : List Byte} {st : StreamNo} (h : fieldAt l 4 1 = st.val) :
    openStreamEntry l = if 1 ≤ fieldAt l 5 1 ∧ fieldAt l 5 1 ≤ 8 then
      some (.command .assembly (.openStream st (fieldAt l 5 1) (fieldAt l 6 1) (entryFlag l)
        (BitVec.ofNat 16 (fieldAt l 8 2)))) else none := by
  rw [openStreamEntry, streamField_some h, Option.bind_some]

theorem scanEntry_eq {l : List Byte} {filter : Option StreamNo} (h : filterField l = some filter) :
    scanEntry l = if inJsnRange (fieldAt l 8 4) ∧ 32 ≤ fieldAt l 12 4 ∧ 1 ≤ fieldAt l 5 1 ∧ fieldAt l 5 1 ≤ 64 then
      some (.command .readUnit (.scan (fieldAt l 8 4) filter (fieldAt l 5 1) (addressField l) (fieldAt l 12 4)))
    else none := by
  rw [scanEntry, h, Option.bind_some]

/-- A stream number is in range or not. -/
theorem stream_or_not (l : List Byte) : (∃ st : StreamNo, fieldAt l 4 1 = st.val) ∨ 16 ≤ fieldAt l 4 1 := by
  by_cases h : fieldAt l 4 1 < 16
  · exact .inl ⟨⟨_, h⟩, rfl⟩
  · exact .inr (Nat.le_of_not_lt h)

/-- Settles O23: the kind selects the entry's tests, and its fields decide them. -/
theorem entryVerdicts : Obligations.EntryVerdicts := by
  intro l f flag address named
  obtain ⟨happend, hopen, hclose, habort, hread, hscan, hhold, hrelease, hquery, hwipe, hbad⟩ := entryVerdict_kind l
  have hnamed (n : Nat) : named n ↔ inJsnRange n = true := (inJsnRange_iff n).symm
  refine ⟨hbad, ?append, ?badAppend, ?openStream, ?badOpen, ?closeStream, ?abortRecord, ?read, ?badRead, ?scan,
    ?badScan, ?hold, ?badHold, ?release, ?sectors, ?streams, ?holds, ?stats, ?badQuery, ?badStream, hwipe⟩
  case append =>
    intro hk st hst h1 h2 h3
    rw [happend hk, appendEntry_eq hst, if_pos ⟨h1, h2, h3⟩]
    rfl
  case badAppend =>
    intro hk h
    simp only [f] at h
    rcases stream_or_not l with ⟨st, hst⟩ | hout
    · have hlt := st.isLt
      rw [happend hk, appendEntry_eq hst, if_neg (by omega)]
      rfl
    · rw [happend hk, appendEntry, streamField_none hout]
      rfl
  case openStream =>
    intro hk st hst h1 h2
    rw [hopen hk, openStreamEntry_eq hst, if_pos ⟨h1, h2⟩]
    rfl
  case badOpen =>
    intro hk h
    simp only [f] at h
    rcases stream_or_not l with ⟨st, hst⟩ | hout
    · have hlt := st.isLt
      rw [hopen hk, openStreamEntry_eq hst, if_neg (by omega)]
      rfl
    · rw [hopen hk, openStreamEntry, streamField_none hout]
      rfl
  case closeStream =>
    intro hk st hst
    rw [hclose hk, streamField_some hst]
    rfl
  case abortRecord =>
    intro hk st hst
    rw [habort hk, streamField_some hst]
    rfl
  case read =>
    intro hk h1 h2
    rw [hread hk, readEntry, if_pos ⟨(hnamed _).mp h1, h2⟩]
    rfl
  case badRead =>
    intro hk h
    rw [hread hk, readEntry, if_neg fun hgood => h.elim (fun hn => hn ((hnamed _).mpr hgood.1)) (Nat.not_lt.mpr hgood.2)]
    rfl
  case scan =>
    intro hk h1 h2 h3 h4
    have hgood := And.intro ((hnamed _).mp h1) (And.intro h2 (And.intro h3 h4))
    refine ⟨fun hall => ?_, fun st hst => ?_⟩
    · rw [hscan hk, scanEntry_eq (filterField_all hall), if_pos hgood]
      rfl
    · rw [hscan hk, scanEntry_eq (filterField_stream hst), if_pos hgood]
      rfl
  case badScan =>
    intro hk h
    rw [hscan hk]
    cases hf : filterField l with
    | none => rw [scanEntry, hf]; rfl
    | some filter =>
      rw [scanEntry_eq hf, if_neg]
      · rfl
      · rintro ⟨hjsn, hroom, hlow, hhigh⟩
        rcases h with h | h | h | h | ⟨h, hne⟩
        · exact h ((hnamed _).mpr hjsn)
        · exact Nat.not_lt.mpr hroom h
        · exact absurd h (Nat.ne_of_gt hlow)
        · exact Nat.not_lt.mpr hhigh h
        · rw [filterField_none h hne] at hf
          cases hf
  case hold =>
    intro hk h1 h2
    refine ⟨fun hflag => ?_, fun hflag h3 h4 => ?_⟩
    · have hf : entryFlag l = true := hflag
      rw [hhold hk, holdEntry, if_pos ⟨(hnamed _).mp h1, h2, .inl hf⟩, hf]
      rfl
    · have hf : entryFlag l = false := hflag
      rw [hhold hk, holdEntry, if_pos ⟨(hnamed _).mp h1, h2, .inr ⟨(hnamed _).mp h3, h4⟩⟩, hf]
      rfl
  case badHold =>
    intro hk h
    rw [hhold hk, holdEntry, if_neg]
    · rfl
    · rintro ⟨hjsn, htype, hlast⟩
      rcases h with h | h | ⟨hflag, h⟩
      · exact h ((hnamed _).mpr hjsn)
      · exact Nat.not_lt.mpr htype h
      · have hf : entryFlag l = false := hflag
        rcases hlast with hlast | ⟨hl, hle⟩
        · rw [hf] at hlast
          cases hlast
        · exact h.elim (fun hn => hn ((hnamed _).mpr hl)) (Nat.not_lt.mpr hle)
  case release =>
    intro hk id hid
    rw [hrelease hk, releaseEntry, streamField_some hid]
    rfl
  case sectors =>
    intro hk hsubject
    simp only [hquery hk, queryEntry, show fieldAt l 4 1 = 0 from hsubject]
    rfl
  case streams =>
    intro hk hsubject
    simp only [hquery hk, queryEntry, show fieldAt l 4 1 = 1 from hsubject]
    rfl
  case holds =>
    intro hk hsubject
    simp only [hquery hk, queryEntry, show fieldAt l 4 1 = 2 from hsubject]
    rfl
  case stats =>
    intro hk hsubject
    simp only [hquery hk, queryEntry, show fieldAt l 4 1 = 3 from hsubject]
    rfl
  case badQuery =>
    intro hk hsubject
    simp only [f] at hsubject
    rw [hquery hk, queryEntry]
    split
    case h_5 => rfl
    all_goals omega
  case badStream =>
    intro hk hout
    rcases hk with hk | hk | hk
    · rw [hclose hk, streamField_none hout]
      rfl
    · rw [habort hk, streamField_none hout]
      rfl
    · rw [hrelease hk, releaseEntry, streamField_none hout]
      rfl

end Sys2Proof.Machine
end

section
/-! Posting of entries, the status block write, and the end of a QUERY output's write (R177, R178, R173, R191). -/

namespace Sys2Proof.Machine

open Sys2Proof.Laws Sys2Proof.Safety

/-- The states in which host writes of entries and of the status block begin (R177, R181). -/
theorem writes_iff (d : DeviceState) :
    d.writes = true ↔ d = .mounting ∨ d = .online ∨ d = .draining ∨ d = .stopped := by
  cases d <;> decide

/-! ### POSTING_BEGIN -/

theorem beginPosting_rests {h : HostUnit} (hn : ¬h.device.writes = true ∨ h.ringWrite ≠ none ∨ h.posting = []) :
    h.beginPosting = h := by
  by_cases hw : h.device.writes = true ∧ h.ringWrite = none
  · obtain hp : h.posting = [] := by tauto
    rw [HostUnit.beginPosting, if_pos hw, hp]
    cases h.setup with
    | none => rfl
    | some c => rfl
  · exact if_neg hw

theorem beginPosting_outcome {h : HostUnit} {c : Setup} {i status r rest} (hw : h.device.writes = true)
    (hr : h.ringWrite = none) (hc : h.setup = some c) (hp : h.posting = .outcome i status r :: rest) :
    h.beginPosting = h.beginCompletion c i status r := by
  rw [HostUnit.beginPosting, if_pos ⟨hw, hr⟩, hc, hp]

theorem beginPosting_notice {h : HostUnit} {c : Setup} {n rest} (hw : h.device.writes = true)
    (hr : h.ringWrite = none) (hc : h.setup = some c) (hp : h.posting = .notice n :: rest) :
    h.beginPosting = h.beginNotice c n := by
  rw [HostUnit.beginPosting, if_pos ⟨hw, hr⟩, hc, hp]

/-- Settles O24: the oldest posting is an outcome, whose entry is written, or a notice, which a full ring drops. -/
theorem postingBegins : Obligations.PostingBegins := by
  intro s c hc writes
  have hrun : exec .postingBegin s = .next { s with host := s.host.beginPosting } := rfl
  have hwrites : s.host.device.writes = true ↔ writes := writes_iff _
  refine ⟨fun hn => ?_, fun hw hr => ⟨fun i status r rest hp => ?_, fun n rest hp => ?_⟩⟩
  · rw [hrun, beginPosting_rests (hn.imp_left (mt hwrites.mp))]
  · rw [hrun, beginPosting_outcome (hwrites.mpr hw) hr hc hp]
    rfl
  · intro filled
    rw [hrun, beginPosting_notice (hwrites.mpr hw) hr hc hp]
    refine ⟨fun hf => ?_, fun hf => ?_⟩
    · rw [HostUnit.beginNotice, if_pos (by exact hf), hp]
      rfl
    · rw [HostUnit.beginNotice, if_neg (by exact hf)]

/-! ### The end of an entry's write -/

theorem live_iff (s : State) : s.live = true ↔ s.host.device ≠ .halted := by simp [State.live]

theorem exec_completionWriteEnd {s : State} {w : BusWrite} (hw : s.host.ringWrite = some (.completion w))
    (hl : s.host.device ≠ .halted) (ok : Bool) : exec (.completionWriteEnd ok) s =
      .next (entryWriteEnded HostUnit.completionWritten .completionWriteError ok s) := by
  change Host.Outcome.next _ = _
  simp only [hw, (live_iff s).mpr hl, if_true]

theorem exec_noticeWriteEnd {s : State} {w : BusWrite} (hw : s.host.ringWrite = some (.notice w))
    (hl : s.host.device ≠ .halted) (ok : Bool) : exec (.noticeWriteEnd ok) s =
      .next (entryWriteEnded HostUnit.noticeWritten .noticeWriteError ok s) := by
  change Host.Outcome.next _ = _
  simp only [hw, (live_iff s).mpr hl, if_true]

theorem entryWriteEnded_fails {s : State} {c : Setup} (f : HostUnit → Setup → HostUnit) (r : Reason)
    (hc : s.host.setup = some c) (hl : s.host.device ≠ .halted) :
    entryWriteEnded f r false s = { s with host := stopped .halted r 0 s.host } := by
  simp only [entryWriteEnded, hc, Bool.false_eq_true, if_false, halt_live hl]

/-- The entry stands in its ring; a SETUP that waits for the write goes on (R173). -/
theorem entryWriteEnded_done {s : State} {c : Setup} (f : HostUnit → Setup → HostUnit) (r : Reason)
    (hc : s.host.setup = some c) :
    entryWriteEnded f r true s = resumeSetup { s with host := f s.host c } := by
  simp only [entryWriteEnded, hc, if_true]
  rfl

/-- Settles O26: with a failure the part halts; else the entry is recorded and a SETUP that waited goes on. -/
theorem entryWritesEnd : Obligations.EntryWritesEnd := by
  intro s c hc hl halts
  refine ⟨fun w i status r rest hw hp => ?completion, fun w n rest hw hp => ?notice⟩
  case completion =>
    intro h
    have hwritten : s.host.completionWritten c = h := by
      simp only [HostUnit.completionWritten, HostUnit.freePosted, hp, h]
      rfl
    have hdone : exec (.completionWriteEnd true) s = .next (resumeSetup { s with host := h }) := by
      rw [exec_completionWriteEnd hw hl, entryWriteEnded_done _ _ hc, hwritten]
    refine ⟨?_, fun hn => ?_, fun address hstage hd => ?_⟩
    · rw [exec_completionWriteEnd hw hl, entryWriteEnded_fails _ _ hc hl]
    · rw [hdone, resumeSetup_none (by exact hn)]
    · rw [hdone, resumeSetup_waits (address := address) (by exact hstage) (by exact hd)]
  case notice =>
    intro h
    have hwritten : s.host.noticeWritten c = h := by
      simp only [HostUnit.noticeWritten, hp, h]
      rfl
    have hdone : exec (.noticeWriteEnd true) s = .next (resumeSetup { s with host := h }) := by
      rw [exec_noticeWriteEnd hw hl, entryWriteEnded_done _ _ hc, hwritten]
    refine ⟨?_, fun hn => ?_, fun address hstage hd => ?_⟩
    · rw [exec_noticeWriteEnd hw hl, entryWriteEnded_fails _ _ hc hl]
    · rw [hdone, resumeSetup_none (by exact hn)]
    · rw [hdone, resumeSetup_waits (address := address) (by exact hstage) (by exact hd)]

/-! ### The status block write -/

theorem statusCauses_getLsbD (a b d : Bool) :
    (statusCauses a b d).getLsbD 0 = a ∧ (statusCauses a b d).getLsbD 1 = b ∧ (statusCauses a b d).getLsbD 2 = d ∧
      (statusCauses a b d).getLsbD 3 = false := by
  cases a <;> cases b <;> cases d <;> decide

theorem exec_statusWriteBegin {s : State} {c : Setup} (hc : s.host.setup = some c) :
    exec .statusWriteBegin s = .next (if s.host.statusMark ∧ s.host.ringWrite = none ∧ s.host.device.writes then
      { s with host := s.host.beginStatus c } else s) := by
  change Host.Outcome.next _ = _
  simp only [hc]
  rfl

theorem exec_statusWriteEnd {s : State} {w : BusWrite} {a b d : Bool} (hw : s.host.ringWrite = some (.status w a b d))
    (hl : s.host.device ≠ .halted) (ok : Bool) :
    exec (.statusWriteEnd ok) s = .next (statusEnded (statusCauses a b d) ok s) := by
  change Host.Outcome.next _ = _
  simp only [hw, (live_iff s).mpr hl, if_true]

/-- Settles O27: the write carries what has happened since the last one, and its end sets those causes. -/
theorem statusWrites : Obligations.StatusWrites := by
  intro s c hc writes
  have hwrites : s.host.device.writes = true ↔ writes := writes_iff _
  refine ⟨fun hw hr hm => ?begin, fun hn => ?rests, fun w a b d hw hl => ⟨?fails, statusCauses a b d, ?done⟩⟩
  case begin =>
    rw [exec_statusWriteBegin hc, if_pos ⟨hm, hr, hwrites.mpr hw⟩]
    rfl
  case rests =>
    rw [exec_statusWriteBegin hc, if_neg]
    rintro ⟨hm, hr, hw⟩
    rcases hn with hn | hn | hn
    · exact hn (hwrites.mp hw)
    · exact hn hr
    · rw [hn] at hm
      cases hm
  case fails => rw [exec_statusWriteEnd hw hl, statusEnded, if_neg Bool.false_ne_true, halt_live hl]
  case done =>
    obtain ⟨h0, h1, h2, h3⟩ := statusCauses_getLsbD a b d
    refine ⟨h0, h1, h2, h3, ?_⟩
    intro h
    have hdone : exec (.statusWriteEnd true) s = .next (resumeSetup { s with host := h }) := by
      rw [exec_statusWriteEnd hw hl, statusEnded, if_pos rfl]
      rfl
    have hdevice : h.device = s.host.device := withCauses_device _ _
    have hstage : h.setupStage = s.host.setupStage := withCauses_setupStage _ _
    refine ⟨fun hn => ?_, fun address hwait hd => ?_⟩
    · rw [hdone, resumeSetup_none fun address hwait => hdevice ▸ hn address (hstage ▸ hwait)]
    · rw [hdone, resumeSetup_waits (hstage.trans hwait) (hdevice.trans hd)]

/-! ### QUERY_WRITE_END -/

/-- Settles O30: the write of the slot is found and removed, and the QUERY completes. -/
theorem queryWriteEnds : Obligations.QueryWriteEnds := by
  intro s before after slot w hl hq hother h
  have hbefore : ∀ q ∈ before, q.slot ≠ slot := fun q hm => hother q (List.mem_append_left _ hm)
  have hfind : s.host.queryWrites.find? (fun q => q.slot == slot) = some ⟨slot, w⟩ := by
    rw [hq]
    exact find_append (beq_self_eq_true slot) fun q hm => beq_eq_false_iff_ne.mpr (hbefore q hm)
  have hkept : s.host.queryWrites.filter (fun x => x.slot != slot) = before ++ after := by
    rw [hq, List.filter_append, List.filter_cons_of_neg (by simp), ← List.filter_append]
    exact List.filter_eq_self.mpr fun q hm => bne_iff_ne.mpr (hother q hm)
  have hrun (ok : Bool) : exec (.queryWriteEnd slot ok) s = .next (queryWritten ⟨slot, w⟩ ok s) := by
    change Host.Outcome.next _ = _
    simp only [hfind, (live_iff s).mpr hl, if_true]
  constructor
  · rw [hrun, queryWritten]
    simp only [State.onHost, hkept]
    rfl
  · rw [hrun, queryWritten]
    simp only [State.onHost, hkept]
    rfl

end Sys2Proof.Machine
end

section
/-! QUERY outputs: each field at its place, and the four QUERYs as they are taken (R37, R38, R56, R57, R131, R183,
R191). -/

namespace Sys2Proof.Machine

open Sys2Proof.Laws Sys2Proof.Safety

/-! ### Fields of lists made of records -/

/-- A field of one byte that begins the list. -/
theorem fieldAt_byte (b : Byte) (l : List Byte) : fieldAt (b :: l) 0 1 = b.toNat := by
  simp [fieldAt, leNat]

/-- A field behind a byte. -/
theorem fieldAt_past_byte (b : Byte) (l : List Byte) {i : Nat} (n : Nat) (h : 1 ≤ i) :
    fieldAt (b :: l) i n = fieldAt l (i - 1) n :=
  fieldAt_past (a := [b]) l n h

/-- Field `i` of a list of numbers of `n` bytes each. -/
theorem fieldAt_numbers {α : Type} (n : Nat) (f : α → Nat) (l : List α) (i : Nat) (h : i < l.length) :
    fieldAt (l.map fun x => leBytes n (f x)).flatten (n * i) n = f l[i] % 256 ^ n := by
  rw [fieldAt, record_at n (fun x => leBytes n (f x)) l (fun _ => leBytes_length n _) i h, leNat_leBytes]

theorem numbers_length {α : Type} (n : Nat) (f : α → Nat) (l : List α) :
    ((l.map fun x => leBytes n (f x)).flatten).length = n * l.length :=
  records_length n _ l fun _ => leBytes_length n _

/-- Record `i` of a table of 32-byte records behind a head of `k` bytes. -/
theorem table_record {m k : Nat} (head : List Byte) (hk : head.length = k) (f : Fin m → List Byte)
    (hf : ∀ i, (f i).length = 32) (i : Fin m) :
    ((head ++ ((List.finRange m).map f).flatten).drop (k + 32 * i.val)).take 32 = f i := by
  have hi : i.val < (List.finRange m).length := by simp
  rw [← hk, List.drop_append, List.drop_eq_nil_of_le (by omega), List.nil_append, Nat.add_sub_cancel_left,
    record_at 32 f _ hf i.val hi]
  simp

theorem table_length {m k : Nat} (head : List Byte) (hk : head.length = k) (f : Fin m → List Byte)
    (hf : ∀ i, (f i).length = 32) : (head ++ ((List.finRange m).map f).flatten).length = k + 32 * m := by
  rw [List.length_append, records_length 32 f _ hf, hk, List.length_finRange]

/-- Byte `k` of a number. -/
theorem fieldAt_number_byte (n k v : Nat) (h : k < n) : fieldAt (leBytes n v) k 1 = v / 256 ^ k % 256 := by
  induction n generalizing k v with
  | zero => omega
  | succ n ih =>
    rw [leBytes]
    cases k with
    | zero => rw [fieldAt_byte, BitVec.toNat_ofNat, Nat.pow_zero, Nat.div_one]
    | succ k =>
      rw [fieldAt_past_byte _ _ _ (Nat.le_add_left 1 k), Nat.add_sub_cancel, ih k (v / 256) (Nat.lt_of_succ_lt_succ h),
        Nat.div_div_eq_div_mul, ← Nat.pow_succ']

/-- A flag field reads as the sum of its bits (R184). -/
theorem flagByte_toNat (b0 b1 b2 b3 : Bool) :
    (flagByte b0 b1 b2 b3).toNat = b0.toNat + 2 * b1.toNat + 4 * b2.toNat + 8 * b3.toNat := by
  cases b0 <;> cases b1 <;> cases b2 <;> cases b3 <;> rfl

/-! ### Counting over the tables -/

theorem toList_eq_map {α : Type} {n : Nat} (v : Vector α n) : v.toList = (List.finRange n).map fun i => v[i] := by
  apply List.ext_getElem
  · simp
  · intro k h1 h2
    simp

/-- Counting the entries of a table is counting its positions. -/
theorem countP_toList {α : Type} {n : Nat} (v : Vector α n) (p : α → Bool) :
    v.toList.countP p = howMany n fun i => p v[i] = true := by
  rw [toList_eq_map, List.countP_map, howMany]
  exact List.countP_congr fun i _ => by simp

/-- Two conditions that agree count alike. -/
theorem howMany_congr {n : Nat} {p q : Fin n → Prop} [DecidablePred p] [DecidablePred q] (h : ∀ i, p i ↔ q i) :
    howMany n p = howMany n q :=
  List.countP_congr fun i _ => by simp [h i]

theorem howMany_le (n : Nat) (p : Fin n → Prop) [DecidablePred p] : howMany n p ≤ n :=
  (List.countP_le_length).trans (by simp)

/-! ### The codes of R192 -/

theorem sectorStates_code (st : SectorState) : sectorStates[st.code]? = some st := by cases st <;> rfl
theorem sectorCode_lt (st : SectorState) : st.code % 256 = st.code := by cases st <;> rfl
theorem streamStates_code (st : StreamState) : streamStates[st.code]? = some st := by cases st <;> rfl
theorem streamCode_lt (st : StreamState) : st.code % 256 = st.code := by cases st <;> rfl
theorem anchorStates_code (st : AnchorState) : anchorStates[st.code]? = some st := by cases st <;> rfl
theorem anchorCode_lt (st : AnchorState) : st.code % 256 = st.code := by cases st <;> rfl
theorem writerStates_code (st : WriterState) : writerStates[st.code]? = some st := by cases st <;> rfl
theorem writerCode_lt (st : WriterState) : st.code % 256 = st.code := by cases st <;> rfl

theorem holdStates_code (e : Option Hold) : holdStates[holdCode e]? = some (e.map fun h => h.state) := by
  cases e with
  | none => rfl
  | some h =>
    simp only [holdCode, Option.map_some]
    cases h.state <;> rfl

theorem holdCode_lt (e : Option Hold) : holdCode e < 5 := by
  cases e with
  | none => decide
  | some h =>
    simp only [holdCode]
    cases h.state <;> decide

/-! ### QUERY SECTORS -/

theorem positionOf_member {t : SectorTable} {i : SectorNo} {before after : List SectorNo}
    (hj : t.journal = before ++ i :: after) (hi : i ∉ before) : t.positionOf i = before.length := by
  have hfind : t.journal.idxOf? i = some before.length := by
    rw [List.idxOf?_eq_some_iff]
    refine ⟨by simp [hj], by simp [hj], fun j hlt he => hi ?_⟩
    have hat : before[j] = i := by simpa [hj, List.getElem_append_left hlt] using he
    exact hat ▸ List.getElem_mem hlt
  rw [SectorTable.positionOf, hfind, Option.getD_some]

theorem positionOf_outside {t : SectorTable} {i : SectorNo} (hi : i ∉ t.journal) : t.positionOf i = 0xFFFF := by
  rw [SectorTable.positionOf, List.idxOf?_eq_none_iff.mpr hi, Option.getD_none]

theorem lowestJsn_member {t : SectorTable} {before after : List SectorNo} {i : SectorNo} {a b : Nat}
    (hj : t.journal = before ++ i :: after) (hr : t.entries[i].range = some (a, b))
    (hb : ∀ k ∈ before, t.entries[k].range = none) : t.lowestJsn = a := by
  have hnone : before.findSome? (fun i => t.entries[i].range.map fun (r : Nat × Nat) => r.1) = none :=
    List.findSome?_eq_none_iff.mpr fun k hk => by rw [hb k hk, Option.map_none]
  rw [SectorTable.lowestJsn, hj, List.findSome?_append, hnone, Option.none_or, findSome_cons, hr]
  rfl

theorem lowestJsn_none {t : SectorTable} (hb : ∀ k ∈ t.journal, t.entries[k].range = none) : t.lowestJsn = 0 := by
  rw [SectorTable.lowestJsn, List.findSome?_eq_none_iff.mpr fun k hk => by rw [hb k hk, Option.map_none],
    Option.getD_none]

@[simp] theorem sectorRecord_length (t : SectorTable) (i : SectorNo) : (sectorRecord t i).length = 32 := by
  simp [sectorRecord]

theorem sectorRecord_fields (t : SectorTable) (i : SectorNo) :
    let r := sectorRecord t i
    let e := t.entries[i]
    fieldAt r 0 1 = i.val ∧ fieldAt r 1 1 = e.state.code ∧
    fieldAt r 2 1 = e.wearEstimated.toNat + 2 * e.weak.toNat + 4 * e.retirePending.toNat + 8 * e.inHand.toNat ∧
    fieldAt r 3 1 = e.reason.code ∧ fieldAt r 4 4 = e.wear % 2 ^ 32 ∧ fieldAt r 8 4 = e.epoch.getD 0 % 2 ^ 32 ∧
    fieldAt r 12 4 = e.baseJsn.getD 0 % 2 ^ 32 ∧
    fieldAt r 16 4 = (e.range.map fun (r : Nat × Nat) => r.1).getD 0 % 2 ^ 32 ∧
    fieldAt r 20 4 = (e.range.map fun (r : Nat × Nat) => r.2).getD 0 % 2 ^ 32 ∧
    fieldAt r 24 2 = e.nextFree.getD 0 % 65536 ∧ fieldAt r 26 1 = e.corrected % 256 ∧ fieldAt r 27 1 = e.pins % 256 ∧
    fieldAt r 28 2 = t.positionOf i % 65536 ∧ fieldAt r 30 2 = 0 := by
  have hi : i.val % 256 = i.val := Nat.mod_eq_of_lt i.isLt
  have hr := Nat.mod_eq_of_lt (retireCode_lt t.entries[i].reason)
  simp only [sectorRecord, List.append_assoc, List.cons_append, List.nil_append, fieldAt_head, fieldAt_past_leBytes,
    fieldAt_byte, fieldAt_past_byte, fieldAt_zeros, Nat.reduceLeDiff, Nat.reduceSub, Nat.le_refl, flagByte_toNat,
    Nat.reducePow, hi, hr, sectorCode_lt, and_true]

/-- The summary of QUERY SECTORS behind its counts. -/
def sectorsRest (t : SectorTable) : List Byte :=
  zeros 1 ++ (leBytes 1 t.journal.length ++ (leBytes 1 (sectorOrNone t.journal.head?)
    ++ (leBytes 1 (sectorOrNone t.openSector) ++ (leBytes 1 (sectorOrNone t.inHandSector)
    ++ (leBytes 4 t.lowestJsn ++ zeros 16)))))

/-- The counts of the sector states, one byte each. -/
def sectorCounts (t : SectorTable) : List Byte :=
  (sectorStates.map fun st => leBytes 1 (t.inState st).length).flatten

theorem sectorCounts_length (t : SectorTable) : (sectorCounts t).length = 7 := by
  rw [sectorCounts, numbers_length]; rfl

theorem sectorsSummary_eq (t : SectorTable) : sectorsSummary t = sectorCounts t ++ sectorsRest t := by
  simp only [sectorsSummary, sectorCounts, sectorsRest, List.append_assoc]
  rfl

theorem sectorsSummary_length (t : SectorTable) : (sectorsSummary t).length = 32 := by
  rw [sectorsSummary_eq, List.length_append, sectorCounts_length]
  simp [sectorsRest]

theorem sectorsRest_fields (t : SectorTable) :
    let r := sectorsRest t
    fieldAt r 0 1 = 0 ∧ fieldAt r 1 1 = t.journal.length % 256 ∧ fieldAt r 2 1 = sectorOrNone t.journal.head? % 256 ∧
    fieldAt r 3 1 = sectorOrNone t.openSector % 256 ∧ fieldAt r 4 1 = sectorOrNone t.inHandSector % 256 ∧
    fieldAt r 5 4 = t.lowestJsn % 2 ^ 32 ∧ fieldAt r 9 16 = 0 := by
  simp only [sectorsRest, fieldAt_zeros_head, fieldAt_head, fieldAt_past_zeros, fieldAt_past_leBytes, fieldAt_zeros,
    Nat.reduceLeDiff, Nat.reduceSub, Nat.le_refl, Nat.reducePow, true_and]

theorem sectorOrNone_some (i : SectorNo) : sectorOrNone (some i) % 256 = i.val := Nat.mod_eq_of_lt i.isLt

/-- A field of the summary is one of the output. -/
theorem sectorsOutput_field (t : SectorTable) {i n : Nat} (h : i + n ≤ 32) :
    fieldAt (sectorsOutput t) i n = fieldAt (sectorsSummary t) i n :=
  fieldAt_within i n _ _ (h.trans_eq (sectorsSummary_length t).symm)

theorem sectorsOutput_rest (t : SectorTable) {i n : Nat} (h7 : 7 ≤ i) (h : i + n ≤ 32) :
    fieldAt (sectorsOutput t) i n = fieldAt (sectorsRest t) (i - 7) n := by
  rw [sectorsOutput_field t h, sectorsSummary_eq, fieldAt_past _ _ (by rw [sectorCounts_length]; exact h7),
    sectorCounts_length]

theorem sectorsOutput_count (t : SectorTable) {k : Nat} {st : SectorState} (h : sectorStates[k]? = some st) :
    fieldAt (sectorsOutput t) k 1 = howMany 256 (fun i : SectorNo => t.entries[i].state = st) % 256 := by
  obtain ⟨hk, hst⟩ := List.getElem?_eq_some_iff.mp h
  have hk7 : k < 7 := hk
  have hat := fieldAt_numbers 1 (fun st => (t.inState st).length) sectorStates k hk
  rw [Nat.one_mul, hst, inState_length] at hat
  rw [sectorsOutput_field t (by omega), sectorsSummary_eq,
    fieldAt_within _ _ _ _ (by rw [sectorCounts_length]; omega)]
  exact hat

theorem inHandSector_of {t : SectorTable} {i : SectorNo} (h : ∀ k : SectorNo, t.entries[k].inHand = true ↔ k = i) :
    t.inHandSector = some i := find_unique h

theorem inHandSector_none {t : SectorTable} (h : ∀ k : SectorNo, t.entries[k].inHand = false) :
    t.inHandSector = none :=
  List.find?_eq_none.mpr fun k _ => by rw [h k]; exact Bool.false_ne_true

theorem sectorsOutput_spec (t : SectorTable) : SectorsOutput t (sectorsOutput t) where
  length := table_length _ (sectorsSummary_length t) _ (sectorRecord_length t)
  counts k st h := sectorsOutput_count t h
  members := by
    obtain ⟨-, hmembers, -⟩ := sectorsRest_fields t
    rw [sectorsOutput_rest t (by decide) (by decide), ← hmembers]
  head := by
    obtain ⟨-, -, hhead, -⟩ := sectorsRest_fields t
    rw [sectorsOutput_rest t (by decide) (by decide), hhead]
    cases t.journal with
    | nil => rfl
    | cons i l => exact sectorOrNone_some i
  opened := by
    obtain ⟨-, -, -, hopen, -⟩ := sectorsRest_fields t
    rw [sectorsOutput_rest t (by decide) (by decide), hopen]
    refine ⟨fun o ho => ?_, fun hn => ?_⟩
    · rw [openSector_isOpen ho, sectorOrNone_some]
    · rw [openSector_none hn]; rfl
  inHand := by
    obtain ⟨-, -, -, -, hhand, -⟩ := sectorsRest_fields t
    rw [sectorsOutput_rest t (by decide) (by decide), hhand]
    refine ⟨fun i hi => ?_, fun hn => ?_⟩
    · rw [inHandSector_of hi, sectorOrNone_some]
    · rw [inHandSector_none hn]; rfl
  lowest := by
    obtain ⟨-, -, -, -, -, hlowest, -⟩ := sectorsRest_fields t
    rw [sectorsOutput_rest t (by decide) (by decide), hlowest]
    refine ⟨fun before i after a b hj hr hb => ?_, fun hn => ?_⟩
    · rw [lowestJsn_member hj hr hb]
    · rw [lowestJsn_none hn]; rfl
  reserved := by
    obtain ⟨hzero, -, -, -, -, -, hzeros⟩ := sectorsRest_fields t
    exact ⟨(sectorsOutput_rest t (by decide) (by decide)).trans hzero,
      (sectorsOutput_rest t (by decide) (by decide)).trans hzeros⟩
  records i := by
    intro r e
    have hr : r = sectorRecord t i := table_record _ (sectorsSummary_length t) _ (sectorRecord_length t) i
    obtain ⟨h0, h1, h2, h3, h4, h8, h12, h16, h20, h24, h26, h27, h28, h30⟩ := sectorRecord_fields t i
    rw [hr]
    refine ⟨h0, by rw [h1, sectorStates_code], h2, by rw [h3, retireReasons_code], h4, h8, h12,
      fun a b hab => ?_, fun hn => ?_, h24, h26, h27, fun before after hj hi => ?_, fun hi => ?_, h30⟩
    · have hrange : t.entries[i].range = some (a, b) := hab
      rw [h16, h20, hrange]
      exact ⟨rfl, rfl⟩
    · have hrange : t.entries[i].range = none := hn
      rw [h16, h20, hrange]
      exact ⟨rfl, rfl⟩
    · rw [h28, positionOf_member hj hi]
    · rw [h28, positionOf_outside hi]

/-! ### QUERY STREAMS -/

@[simp] theorem streamRecord_length (a : Assembly) (i : StreamNo) : (streamRecord a i).length = 32 := by
  simp [streamRecord]

/-- The contexts of a stream in a state, counted over the table. -/
theorem countContexts_state (a : Assembly) (i : StreamNo) (st : CtxState) :
    a.countContexts (fun c => c.stream == i && c.state == st) =
      howMany 32 fun j : CtxNo => (a.contexts[j].map fun c => (c.stream, c.state)) = some (i, st) := by
  rw [Assembly.countContexts, countP_toList]
  refine howMany_congr fun j => ?_
  cases a.contexts[j] with
  | none => simp
  | some c => simp

theorem streamRecord_fields (a : Assembly) (i : StreamNo) :
    let r := streamRecord a i
    let e := a.streams[i]
    let count (st : CtxState) : Nat :=
      howMany 32 fun j : CtxNo => (a.contexts[j].map fun c => (c.stream, c.state)) = some (i, st)
    fieldAt r 0 1 = i.val ∧ fieldAt r 1 1 = e.state.code ∧ fieldAt r 2 1 = e.limit % 256 ∧
    fieldAt r 3 1 = e.ageLimit % 256 ∧ fieldAt r 4 2 = e.nextAdmission.toNat ∧ fieldAt r 6 1 = e.abandoned.toNat ∧
    fieldAt r 7 1 = e.stallAge % 256 ∧ fieldAt r 8 1 = e.gapPending.toNat + 2 * e.recovered.isSome.toNat ∧
    fieldAt r 9 1 = 0 ∧ fieldAt r 10 2 = (e.recovered.getD 0#16).toNat ∧ fieldAt r 12 4 = e.committed % 2 ^ 32 ∧
    fieldAt r 16 1 = count .gathering ∧ fieldAt r 17 1 = count .aborting ∧ fieldAt r 18 1 = count .complete ∧
    fieldAt r 19 1 = count .queued ∧ fieldAt r 20 1 = count .writing ∧ fieldAt r 21 11 = 0 := by
  intro r e count
  have hi : i.val % 256 = i.val := Nat.mod_eq_of_lt (by omega)
  have hcount (st : CtxState) : a.countContexts (fun c => c.stream == i && c.state == st) % 256 = count st := by
    rw [countContexts_state]
    exact Nat.mod_eq_of_lt ((howMany_le 32 _).trans_lt (by decide))
  have hseq (q : Seq) : q.toNat % 65536 = q.toNat := Nat.mod_eq_of_lt q.isLt
  simp only [r, e, streamRecord, List.append_assoc, List.cons_append, List.nil_append, fieldAt_head,
    fieldAt_past_leBytes, fieldAt_byte, fieldAt_past_byte, fieldAt_zeros, fieldAt_zeros_head, fieldAt_past_zeros,
    Nat.reduceLeDiff, Nat.reduceSub, Nat.le_refl, flagByte_toNat, Nat.reducePow, hi, hcount, hseq, streamCode_lt,
    Bool.toNat_false, Nat.mul_zero, Nat.add_zero, and_true]

/-- The summary of QUERY STREAMS. -/
def streamsSummary (a : Assembly) (queued : Nat) : List Byte :=
  leBytes 4 a.tickCounter.toNat ++ leBytes 1 (allContexts.countP fun i => a.contexts[i].isNone) ++ zeros 1
    ++ leBytes 2 a.freeBlocks.length ++ leBytes 1 queued ++ zeros 23

theorem streamsSummary_length (a : Assembly) (queued : Nat) : (streamsSummary a queued).length = 32 := by
  simp [streamsSummary]

theorem freeContexts_count (a : Assembly) :
    (allContexts.countP fun i => a.contexts[i].isNone) = howMany 32 fun i : CtxNo => a.contexts[i] = none :=
  List.countP_congr fun i _ => by simp

theorem streamsSummary_fields (a : Assembly) (queued : Nat) :
    let r := streamsSummary a queued
    fieldAt r 0 4 = a.tickCounter.toNat ∧ fieldAt r 4 1 = howMany 32 (fun i : CtxNo => a.contexts[i] = none) ∧
    fieldAt r 5 1 = 0 ∧ fieldAt r 6 2 = a.freeBlocks.length % 65536 ∧ fieldAt r 8 1 = queued % 256 ∧
    fieldAt r 9 23 = 0 := by
  have htick : a.tickCounter.toNat % 4294967296 = a.tickCounter.toNat := Nat.mod_eq_of_lt a.tickCounter.isLt
  have hfree : howMany 32 (fun i : CtxNo => a.contexts[i] = none) % 256 =
      howMany 32 (fun i : CtxNo => a.contexts[i] = none) := Nat.mod_eq_of_lt ((howMany_le 32 _).trans_lt (by decide))
  simp only [streamsSummary, List.append_assoc, fieldAt_head, fieldAt_past_leBytes, fieldAt_zeros, fieldAt_zeros_head,
    fieldAt_past_zeros, Nat.reduceLeDiff, Nat.reduceSub, Nat.le_refl, Nat.reducePow, htick, freeContexts_count, hfree,
    and_self]

theorem streamsOutput_spec (a : Assembly) (queued : Nat) : StreamsOutput a queued (streamsOutput a queued) := by
  have hfield {i n : Nat} (h : i + n ≤ 32) :
      fieldAt (streamsOutput a queued) i n = fieldAt (streamsSummary a queued) i n :=
    fieldAt_within i n _ _ (h.trans_eq (streamsSummary_length a queued).symm)
  obtain ⟨h0, h4, h5, h6, h8, h9⟩ := streamsSummary_fields a queued
  refine ⟨table_length _ (streamsSummary_length a queued) _ (streamRecord_length a),
    ⟨(hfield (by decide)).trans h0, (hfield (by decide)).trans h4, (hfield (by decide)).trans h6,
      (hfield (by decide)).trans h8⟩, ⟨(hfield (by decide)).trans h5, (hfield (by decide)).trans h9⟩, fun i => ?_⟩
  intro r e count
  have hr : r = streamRecord a i := table_record _ (streamsSummary_length a queued) _ (streamRecord_length a) i
  obtain ⟨hnumber, hstate, hrest⟩ := streamRecord_fields a i
  rw [hr]
  exact ⟨hnumber, by rw [hstate, streamStates_code], hrest⟩

/-! ### QUERY HOLDS -/

@[simp] theorem holdRecord_length (t : HoldTable) (id : Fin 16) : (holdRecord t id).length = 32 := by
  cases h : t.entries[id] with
  | none => simp only [holdRecord, h]; simp
  | some x => simp only [holdRecord, h]; simp

theorem holdRecord_free {t : HoldTable} {id : Fin 16} (h : t.entries[id] = none) :
    fieldAt (holdRecord t id) 2 30 = 0 := by
  simp only [holdRecord, h, List.append_assoc, fieldAt_past_leBytes, Nat.reduceLeDiff, Nat.reduceSub, Nat.le_refl]
  have hz : zeros 14 ++ zeros 16 = zeros 30 := rfl
  rw [hz, fieldAt_zeros]

theorem holdRecord_entry {t : HoldTable} {id : Fin 16} {h : Hold} (he : t.entries[id] = some h) :
    let r := holdRecord t id
    fieldAt r 2 1 = h.last.isNone.toNat + 2 * h.waiting.isSome.toNat ∧
      fieldAt r 3 1 = 0 ∧ fieldAt r 4 4 = h.first % 2 ^ 32 ∧ fieldAt r 8 4 = h.last.getD 0 % 2 ^ 32 ∧
      fieldAt r 12 4 = h.owner.toNat ∧ fieldAt r 16 16 = 0 := by
  have howner : h.owner.toNat % 4294967296 = h.owner.toNat := Nat.mod_eq_of_lt h.owner.isLt
  simp only [holdRecord, he, List.append_assoc, List.cons_append, List.nil_append, fieldAt_head,
    fieldAt_past_leBytes, fieldAt_byte, fieldAt_past_byte, fieldAt_zeros, fieldAt_zeros_head, fieldAt_past_zeros,
    Nat.reduceLeDiff, Nat.reduceSub, Nat.le_refl, flagByte_toNat, Nat.reducePow, howner, Bool.toNat_false,
    Nat.mul_zero, Nat.add_zero, and_self]

theorem holdRecord_head (t : HoldTable) (id : Fin 16) :
    fieldAt (holdRecord t id) 0 1 = id.val ∧ fieldAt (holdRecord t id) 1 1 = holdCode t.entries[id] := by
  have hid : id.val % 256 = id.val := Nat.mod_eq_of_lt (by omega)
  have hcode : holdCode t.entries[id] % 256 = holdCode t.entries[id] :=
    Nat.mod_eq_of_lt ((holdCode_lt _).trans (by decide))
  simp only [holdRecord, List.append_assoc, fieldAt_head, fieldAt_past_leBytes, Nat.le_refl, Nat.reduceSub,
    Nat.reducePow, hid, hcode, and_self]

/-- The counts of the hold states, one byte each. -/
def holdCounts (t : HoldTable) : List Byte :=
  ([0, 1, 2, 3, 4].map fun k => leBytes 1 (t.entries.toList.countP fun e => holdCode e == k)).flatten

theorem holdCounts_length (t : HoldTable) : (holdCounts t).length = 5 := by
  rw [holdCounts, numbers_length]; rfl

/-- The summary of QUERY HOLDS behind its counts. -/
def holdsRest (a : Anchor) : List Byte :=
  leBytes 1 a.state.code ++ (leBytes 1 a.active.val ++ (leBytes 1 a.nextSlot ++ (leBytes 4 a.generation
    ++ (flagByte a.failed a.pendingFlag ((a.snapshot.map (·.rolled)).getD false) false
    :: (leBytes 1 ((a.snapshot.map (·.attempts)).getD 0) ++ (leBytes 1 (retiredCount a.retired) ++ zeros 17))))))

theorem holdsOutput_eq (t : HoldTable) (a : Anchor) : holdsOutput t a =
    ((holdCounts t ++ holdsRest a) ++ retiredLine a.retired) ++ (allHolds.map (holdRecord t)).flatten := by
  simp only [holdsOutput, holdCounts, holdsRest, List.append_assoc, List.cons_append, List.nil_append]

theorem holdsSummary_length (t : HoldTable) (a : Anchor) : (holdCounts t ++ holdsRest a).length = 32 := by
  rw [List.length_append, holdCounts_length]
  simp [holdsRest]

theorem holdsHead_length (t : HoldTable) (a : Anchor) :
    ((holdCounts t ++ holdsRest a) ++ retiredLine a.retired).length = 64 := by
  rw [List.length_append, holdsSummary_length, retiredLine, leBytes_length]

theorem retiredCount_eq (r : BitVec 256) :
    retiredCount r = howMany 256 fun i : SectorNo => r.getLsbD i.val = true :=
  List.countP_congr fun i _ => by simp

theorem holdsRest_fields (a : Anchor) :
    let r := holdsRest a
    fieldAt r 0 1 = a.state.code ∧ fieldAt r 1 1 = a.active.val ∧ fieldAt r 2 1 = a.nextSlot % 256 ∧
    fieldAt r 3 4 = a.generation % 2 ^ 32 ∧
    fieldAt r 7 1 = a.failed.toNat + 2 * a.pendingFlag.toNat
      + 4 * (match a.snapshot with | some x => x.rolled | none => false).toNat ∧
    fieldAt r 8 1 = (match a.snapshot with | some x => x.attempts | none => 0) % 256 ∧
    fieldAt r 9 1 = howMany 256 (fun i : SectorNo => a.retired.getLsbD i.val = true) % 256 ∧
    fieldAt r 10 17 = 0 := by
  have hactive : a.active.val % 256 = a.active.val := Nat.mod_eq_of_lt (by omega)
  cases hs : a.snapshot <;>
  simp only [holdsRest, hs, fieldAt_head, fieldAt_past_leBytes, fieldAt_byte, fieldAt_past_byte, fieldAt_zeros,
    Nat.reduceLeDiff, Nat.reduceSub, Nat.le_refl, flagByte_toNat, Nat.reducePow, hactive, anchorCode_lt,
    retiredCount_eq, Option.map_none, Option.map_some, Option.getD_none, Option.getD_some, Bool.toNat_false,
    Nat.mul_zero, Nat.add_zero, and_self]

theorem holdsOutput_rest (t : HoldTable) (a : Anchor) {i n : Nat} (h5 : 5 ≤ i) (h : i + n ≤ 32) :
    fieldAt (holdsOutput t a) i n = fieldAt (holdsRest a) (i - 5) n := by
  rw [holdsOutput_eq, fieldAt_within _ _ _ _ (by rw [holdsHead_length]; omega),
    fieldAt_within _ _ _ _ (by rw [holdsSummary_length]; exact h), fieldAt_past _ _ (by rw [holdCounts_length]; exact h5),
    holdCounts_length]

/-- Each code stands for one state of a hold. -/
theorem holdCode_eq_iff {k : Nat} {st : Option HoldState} (h : holdStates[k]? = some st) (e : Option Hold) :
    holdCode e = k ↔ (e.map fun h => h.state) = st := by
  obtain ⟨hk, hst⟩ := List.getElem?_eq_some_iff.mp h
  have hk5 : k < 5 := hk
  have hcode := holdStates_code e
  constructor
  · rintro rfl
    exact Option.some.inj (hcode.symm.trans h)
  · rintro rfl
    have hinj : ∀ i j : Fin 5, holdStates[i] = holdStates[j] → i = j := by decide
    obtain ⟨hc, hce⟩ := List.getElem?_eq_some_iff.mp hcode
    exact congrArg Fin.val (hinj ⟨_, holdCode_lt e⟩ ⟨k, hk5⟩ (hce.trans hst.symm))

theorem holdsOutput_count (t : HoldTable) (a : Anchor) {k : Nat} {st : Option HoldState}
    (h : holdStates[k]? = some st) : fieldAt (holdsOutput t a) k 1 =
      howMany 16 fun id : Fin 16 => (t.entries[id].map fun h => h.state) = st := by
  obtain ⟨hk, -⟩ := List.getElem?_eq_some_iff.mp h
  have hk5 : k < 5 := hk
  have hat := fieldAt_numbers 1 (fun k => t.entries.toList.countP fun e => holdCode e == k) [0, 1, 2, 3, 4] k hk5
  have hget : [0, 1, 2, 3, 4][k] = k := by interval_cases k <;> rfl
  rw [Nat.one_mul, hget, countP_toList] at hat
  rw [holdsOutput_eq, fieldAt_within _ _ _ _ (by rw [holdsHead_length]; omega),
    fieldAt_within _ _ _ _ (by rw [holdsSummary_length]; omega),
    fieldAt_within _ _ _ _ (by rw [holdCounts_length]; omega)]
  refine hat.trans ((Nat.mod_eq_of_lt ((howMany_le 16 _).trans_lt (by decide))).trans (howMany_congr fun id => ?_))
  rw [beq_iff_eq]
  exact holdCode_eq_iff h _

/-- A sector's bit of the retired-set line (R14). -/
theorem retiredLine_bit (r : BitVec 256) (i : SectorNo) :
    (fieldAt (retiredLine r) (i.val / 8) 1).testBit (i.val % 8) = r.getLsbD i.val := by
  have hi : i.val < 256 := i.isLt
  have h256 : (256 : Nat) ^ (i.val / 8) = 2 ^ (8 * (i.val / 8)) := by rw [Nat.pow_mul]
  have hbyte (x j : Nat) : (x % 256).testBit j = (decide (j < 8) && x.testBit j) := Nat.testBit_mod_two_pow x 8 j
  rw [retiredLine, fieldAt_number_byte _ _ _ (by omega), h256, ← Nat.shiftRight_eq_div_pow, hbyte,
    Nat.testBit_shiftRight, Nat.div_add_mod, decide_eq_true (Nat.mod_lt _ (by decide)), Bool.true_and]
  rfl

theorem holdsOutput_spec (t : HoldTable) (a : Anchor) : HoldsOutput t a (holdsOutput t a) where
  length := by
    rw [holdsOutput_eq]
    exact table_length _ (holdsHead_length t a) _ (holdRecord_length t)
  counts k st h := holdsOutput_count t a h
  summary := by
    obtain ⟨hstate, hactive, hslot, hgeneration, hflags, hattempts, hretired, hzero⟩ := holdsRest_fields a
    have hrest {i n : Nat} (h5 : 5 ≤ i) (h : i + n ≤ 32) := holdsOutput_rest t a h5 h
    refine ⟨?_, (hrest (by decide) (by decide)).trans hactive, (hrest (by decide) (by decide)).trans hslot,
      (hrest (by decide) (by decide)).trans hgeneration, (hrest (by decide) (by decide)).trans hflags,
      (hrest (by decide) (by decide)).trans hattempts, (hrest (by decide) (by decide)).trans hretired,
      (hrest (by decide) (by decide)).trans hzero⟩
    rw [hrest (by decide) (by decide), hstate, anchorStates_code]
  retired i := by
    have hi : i.val < 256 := i.isLt
    rw [holdsOutput_eq, fieldAt_within _ _ _ _ (by rw [holdsHead_length]; omega),
      fieldAt_past _ _ (by rw [holdsSummary_length]; omega), holdsSummary_length, Nat.add_sub_cancel_left,
      retiredLine_bit]
  records id := by
    intro r
    have hr : r = holdRecord t id := by
      simp only [r, holdsOutput_eq]
      exact table_record _ (holdsHead_length t a) _ (holdRecord_length t) id
    obtain ⟨hid, hcode⟩ := holdRecord_head t id
    rw [hr]
    exact ⟨hid, by rw [hcode, holdStates_code], holdRecord_free, fun h he => holdRecord_entry he⟩

/-! ### QUERY STATS -/

/-- The output of QUERY STATS behind its counters. -/
def statsRest (s : State) : List Byte :=
  zeros 4 ++ (leBytes 1 s.writer.state.code ++ (leBytes 1 s.writer.full.toNat ++ (leBytes 1 s.host.device.code
    ++ (zeros 1 ++ (leBytes 4 (s.writer.nextJsn.getD 0) ++ (leBytes 4 (s.writer.nextEpoch.getD 0) ++ zeros 64))))))

/-- The twelve counters, four bytes each. -/
def statsCounters (s : State) : List Byte := (s.counters.map fun n => leBytes 4 n).flatten

theorem statsCounters_length (s : State) : (statsCounters s).length = 48 := by
  rw [statsCounters, numbers_length]; rfl

theorem statsOutput_eq (s : State) : statsOutput s = statsCounters s ++ statsRest s := by
  simp only [statsOutput, statsCounters, statsRest, List.append_assoc]

theorem statsRest_fields (s : State) :
    let r := statsRest s
    fieldAt r 0 4 = 0 ∧ fieldAt r 4 1 = s.writer.state.code ∧ fieldAt r 5 1 = s.writer.full.toNat ∧
    fieldAt r 6 1 = s.host.device.code ∧ fieldAt r 7 1 = 0 ∧ fieldAt r 8 4 = s.writer.nextJsn.getD 0 % 2 ^ 32 ∧
    fieldAt r 12 4 = s.writer.nextEpoch.getD 0 % 2 ^ 32 ∧ fieldAt r 16 64 = 0 := by
  have hdevice := Nat.mod_eq_of_lt (deviceCode_lt s.host.device)
  have hfull : s.writer.full.toNat % 256 = s.writer.full.toNat := by cases s.writer.full <;> rfl
  simp only [statsRest, fieldAt_head, fieldAt_past_leBytes, fieldAt_zeros, fieldAt_zeros_head, fieldAt_past_zeros,
    Nat.reduceLeDiff, Nat.reduceSub, Nat.le_refl, Nat.reducePow, hdevice, hfull, writerCode_lt, and_self]

theorem statsOutput_rest (s : State) {i n : Nat} (h : 48 ≤ i) :
    fieldAt (statsOutput s) i n = fieldAt (statsRest s) (i - 48) n := by
  rw [statsOutput_eq, fieldAt_past _ _ (by rw [statsCounters_length]; exact h), statsCounters_length]

theorem statsOutput_spec (s : State) : StatsOutput s (statsOutput s) where
  length := by
    rw [statsOutput_eq, List.length_append, statsCounters_length]
    simp [statsRest]
  counters k n h := by
    obtain ⟨hk, hn⟩ := List.getElem?_eq_some_iff.mp h
    have hk12 : k < 12 := hk
    have hat := fieldAt_numbers 4 (fun n => n) s.counters k hk
    rw [statsOutput_eq, fieldAt_within _ _ _ _ (by rw [statsCounters_length]; omega)]
    exact hat.trans (congrArg (· % 2 ^ 32) hn)
  others := by
    obtain ⟨-, hstate, hfull, hdevice, -, hjsn, hepoch, -⟩ := statsRest_fields s
    refine ⟨?_, (statsOutput_rest s (by decide)).trans hfull, ?_, (statsOutput_rest s (by decide)).trans hjsn,
      (statsOutput_rest s (by decide)).trans hepoch⟩
    · rw [statsOutput_rest s (by decide), hstate, writerStates_code]
    · rw [statsOutput_rest s (by decide), hdevice, deviceStates_code]
  reserved := by
    obtain ⟨hzero, -, -, -, hbyte, -, -, hzeros⟩ := statsRest_fields s
    exact ⟨(statsOutput_rest s (by decide)).trans hzero, (statsOutput_rest s (by decide)).trans hbyte,
      (statsOutput_rest s (by decide)).trans hzeros⟩

/-! ### The QUERYs as they are taken -/

/-- A QUERY whose buffer is short (R37, R56, R131, R183). -/
theorem answerQuery_short {slot : SlotNo} {address : Addr} {length needed : Nat} {output : List Byte} {s : State}
    (ho : output.length = needed) (h : length < needed) : answerQuery slot address length output s =
      { s with host := answered slot .shortBuffer { at8 := BitVec.ofNat 32 needed } s.host } := by
  subst ho
  rw [answerQuery, if_pos h]
  rfl

theorem answerQuery_written {slot : SlotNo} {address : Addr} {length needed : Nat} {output : List Byte} {s : State}
    (ho : output.length = needed) (h : needed ≤ length) : answerQuery slot address length output s =
      { s with host := { s.host with queryWrites := s.host.queryWrites ++ [⟨slot, address, output⟩] } } := by
  rw [answerQuery, if_neg (by omega)]
  rfl

/-- An owner takes the head of its queue. -/
theorem head_of {s : State} {queue rest : List Routed} {slot : SlotNo} {cmd : Cmd} (ht : Takes s)
    (hd : HeadIs queue slot cmd rest) : (if s.takesCommands then queue.head? else none) = some ⟨slot, cmd⟩ := by
  rw [takes_iff ht, if_pos rfl, hd, List.head?_cons]

theorem exec_querySectors {s : State} {slot : SlotNo} {clear address length rest} (ht : Takes s)
    (hd : HeadIs s.table.queue slot (.query .sectors clear address length) rest) :
    exec .querySectors s = .next (answerQuery slot address length (sectorsOutput s.table) (popTable s)) := by
  change Host.Outcome.next _ = _
  simp only [State.tableHead, head_of ht hd]

theorem exec_queryStreams {s : State} {slot : SlotNo} {clear address length rest} (ht : Takes s)
    (hh : s.assembly.held = none) (hd : HeadIs s.assembly.queue slot (.query .streams clear address length) rest) :
    exec .queryStreams s = .next (answerQuery slot address length (streamsOutput s.assembly s.writer.queue.length)
      (popAssembly s)) := by
  change Host.Outcome.next _ = _
  simp only [assemblyHead_of ht hh hd]

theorem exec_queryHolds {s : State} {slot : SlotNo} {clear address length rest} (ht : Takes s)
    (hd : HeadIs s.holds.queue slot (.query .holds clear address length) rest) :
    exec .queryHolds s = .next (answerQuery slot address length (holdsOutput s.holds s.anchor) (popHolds s)) := by
  change Host.Outcome.next _ = _
  simp only [State.holdsHead, head_of ht hd]

theorem exec_queryStats {s : State} {slot : SlotNo} {clear address length rest} (ht : Takes s)
    (hd : HeadIs s.host.queue slot (.query .stats clear address length) rest) :
    exec .queryStats s = .next (takeQueryStats slot clear address length (popHost s)) := by
  change Host.Outcome.next _ = _
  simp only [State.hostHead, head_of ht hd]

theorem popTable_of {s : State} {slot : SlotNo} {cmd rest} (hd : HeadIs s.table.queue slot cmd rest) :
    popTable s = { s with table := { s.table with queue := rest } } := by
  rw [popTable, State.onTable, hd, List.tail_cons]

theorem popHolds_of {s : State} {slot : SlotNo} {cmd rest} (hd : HeadIs s.holds.queue slot cmd rest) :
    popHolds s = { s with holds := { s.holds with queue := rest } } := by
  rw [popHolds, State.onHolds, hd, List.tail_cons]

theorem popHost_of {s : State} {slot : SlotNo} {cmd rest} (hd : HeadIs s.host.queue slot cmd rest) :
    popHost s = { s with host := { s.host with queue := rest } } := by
  rw [popHost, State.onHost, hd, List.tail_cons]

/-- A QUERY STATS is taken: the counters are cleared only when its output fits (R183). -/
theorem takeQueryStats_fits {slot : SlotNo} {address : Addr} {length : Nat} (clear : Bool) {s : State}
    (h : 128 ≤ length) : takeQueryStats slot clear address length s =
      answerQuery slot address length (statsOutput s) (if clear then clearCounters s else s) := by
  have hfits : (statsOutput s).length ≤ length := (statsOutput_spec s).length.trans_le h
  simp only [takeQueryStats, hfits, and_true]

theorem takeQueryStats_short {slot : SlotNo} {address : Addr} {length : Nat} (clear : Bool) {s : State}
    (h : length < 128) : takeQueryStats slot clear address length s =
      answerQuery slot address length (statsOutput s) s := by
  have hshort : ¬(statsOutput s).length ≤ length := by rw [(statsOutput_spec s).length]; omega
  simp only [takeQueryStats, hshort, and_false, if_false]

/-- Settles O29: each QUERY is answered by the output whose fields the `_spec` lemmas read; QUERY STATS with CLEAR then
clears the counters. -/
theorem queriesTaken : Obligations.QueriesTaken := by
  intro s slot clear address length rest ht short written
  refine ⟨fun hd => ?sectors, fun hh hd => ?streams, fun hd => ?holds, fun hd => ?stats⟩
  case sectors =>
    have hlength := (sectorsOutput_spec s.table).length
    rw [exec_querySectors ht hd, popTable_of hd]
    refine ⟨fun hs => ?_, fun hs => ⟨_, sectorsOutput_spec s.table, ?_⟩⟩
    · rw [answerQuery_short hlength hs]
    · rw [answerQuery_written hlength hs]
  case streams =>
    have hlength := (streamsOutput_spec s.assembly s.writer.queue.length).length
    rw [exec_queryStreams ht hh hd, popAssembly_of hd]
    refine ⟨fun hs => ?_, fun hs => ⟨_, streamsOutput_spec s.assembly s.writer.queue.length, ?_⟩⟩
    · rw [answerQuery_short hlength hs]
    · rw [answerQuery_written hlength hs]
  case holds =>
    have hlength := (holdsOutput_spec s.holds s.anchor).length
    rw [exec_queryHolds ht hd, popHolds_of hd]
    refine ⟨fun hs => ?_, fun hs => ⟨_, holdsOutput_spec s.holds s.anchor, ?_⟩⟩
    · rw [answerQuery_short hlength hs]
    · rw [answerQuery_written hlength hs]
  case stats =>
    have hlength := (statsOutput_spec (popHost s)).length
    rw [exec_queryStats ht hd]
    refine ⟨fun hs => ?_, fun hs => ⟨_, statsOutput_spec s, fun hc => ?_, fun hc => ?_⟩⟩
    · rw [takeQueryStats_short clear hs, answerQuery_short hlength hs, popHost_of hd]
      rfl
    · rw [takeQueryStats_fits clear hs, hc, if_neg Bool.false_ne_true, answerQuery_written hlength hs, popHost_of hd]
      rfl
    · rw [takeQueryStats_fits clear hs, hc, if_pos rfl, answerQuery_written hlength hs, popHost_of hd]
      rfl

end Sys2Proof.Machine
end

section
/-! OPEN_STREAM and APPEND as they are taken (R41, R60, R64 to R67, R81). -/

namespace Sys2Proof.Machine

open Sys2Proof.Laws Sys2Proof.Safety

/-! ### OPEN_STREAM -/

theorem exec_openStream {s : State} {slot st limit ageLimit explicit first rest} (ht : Takes s)
    (hh : s.assembly.held = none)
    (hd : HeadIs s.assembly.queue slot (.openStream st limit ageLimit explicit first) rest) :
    exec .openStream s = .next (takeOpenStream slot st limit ageLimit explicit first
      { s with assembly := { s.assembly with queue := rest } }) := by
  change Host.Outcome.next _ = _
  simp only [assemblyHead_of ht hh hd, popAssembly_of hd]

theorem modStream_eq (st : StreamNo) (f : Stream → Stream) (s : State) : modStream st f s =
    { s with assembly := { s.assembly with streams := s.assembly.streams.set st (f s.assembly.streams[st]) } } := rfl

theorem takeOpenStream_wipe {slot st limit ageLimit explicit first} {s : State} (h : s.reclaim.wipeActive = true) :
    takeOpenStream slot st limit ageLimit explicit first s = complete slot .wipeActive s := if_pos h

theorem takeOpenStream_open {slot st limit ageLimit explicit first} {s : State} (h : s.reclaim.wipeActive = false)
    (he : s.assembly.streams[st].state ≠ .closed) :
    takeOpenStream slot st limit ageLimit explicit first s = complete slot .streamOpen s := by
  simp only [takeOpenStream, h, Bool.false_eq_true, if_false, if_pos he]

theorem takeOpenStream_opens {slot st limit ageLimit explicit first} {s : State} (h : s.reclaim.wipeActive = false)
    (he : s.assembly.streams[st].state = .closed) : takeOpenStream slot st limit ageLimit explicit first s =
      (let number := if explicit then first else s.assembly.streams[st].recovered.getD 0#16
      postOutcome slot .ok { at4 := number.setWidth 32 } (modStream st (fun e => { e with
        state := .opened, nextAdmission := number, limit := limit, ageLimit := ageLimit, abandoned := 0#8,
        stallAge := 0, gapPending := false, committed := 0 }) s)) := by
  simp only [takeOpenStream, h, Bool.false_eq_true, if_false, he, ne_eq, not_true_eq_false]

/-- Settles O32: the three cases of `takeOpenStream`. -/
theorem openStreamTaken : Obligations.OpenStreamTaken := by
  intro s slot st limit ageLimit explicit first rest ht hh hd a e refused number
  rw [exec_openStream ht hh hd]
  refine ⟨fun hw => ?_, fun hw he => ?_, fun hw he => ?_⟩
  · rw [takeOpenStream_wipe (by exact hw)]
    rfl
  · rw [takeOpenStream_open (by exact hw) (by exact he)]
    rfl
  · rw [takeOpenStream_opens (by exact hw) (by exact he)]
    rfl

/-! ### The tests of an APPEND (R64 to R67) -/

/-- The tests of R45 and the drain mark, before any context is looked for. -/
def earlyRefusal (a : Assembly) (f : Fragment) : Option Status :=
  if a.drainMark then some .aborted else streamRefusal a.streams[f.stream] f.seq

/-- The verdict that a refusal, or its absence, gives for a context. -/
def verdictFor (refusal : Option Status) (i : CtxNo) (c : Context) : Except Status (CtxNo × Context) :=
  match refusal with
  | none => .ok (i, c)
  | some r => .error r

theorem appendVerdict_early {a : Assembly} {f : Fragment} {r : Status} (h : earlyRefusal a f = some r) :
    appendVerdict a f = .error r := by
  unfold earlyRefusal at h
  unfold appendVerdict
  by_cases hd : a.drainMark = true
  · rw [if_pos hd] at h ⊢
    rw [← Option.some.inj h]
  · rw [if_neg hd] at h ⊢
    simp only [h]

/-- With no context to go on with, the first refusal counts (R65). -/
theorem appendVerdict_refuses {a : Assembly} {f : Fragment} {r : Status} (h : contextFor a f = .error r) :
    appendVerdict a f = .error ((earlyRefusal a f).getD r) := by
  cases he : earlyRefusal a f with
  | some x => rw [appendVerdict_early he, Option.getD_some]
  | none =>
    unfold earlyRefusal at he
    unfold appendVerdict
    by_cases hd : a.drainMark = true
    · rw [if_pos hd] at he
      cases he
    · rw [if_neg hd] at he ⊢
      simp only [he, h, Option.getD_none]

theorem appendVerdict_context {a : Assembly} {f : Fragment} {i : CtxNo} {c : Context} (h : contextFor a f = .ok (i, c)) :
    appendVerdict a f = verdictFor ((earlyRefusal a f).or
      (fragmentRefusal c a.freeBlocks.length f.offset f.length f.last)) i c := by
  cases he : earlyRefusal a f with
  | some x => rw [appendVerdict_early he, Option.some_or]; rfl
  | none =>
    unfold earlyRefusal at he
    unfold appendVerdict
    by_cases hd : a.drainMark = true
    · rw [if_pos hd] at he
      cases he
    · rw [if_neg hd] at he ⊢
      simp only [he, h, Option.none_or]
      cases fragmentRefusal c a.freeBlocks.length f.offset f.length f.last with
      | some x => rfl
      | none => rfl

/-! ### The context (R60, R65) -/

theorem contextFor_sole {a : Assembly} {f : Fragment} {i : CtxNo} {c : Context} (h : Sole a f.stream f.seq i c)
    (hw : c.state.inWindow = true) :
    contextFor a f = if c.state = .aborting then .error .aborted else .ok (i, c) := by
  simp only [contextFor, contextOf_sole h hw]

theorem contextOf_unmet {a : Assembly} {st : StreamNo} {seq : Seq} (h : Unmet a st seq) :
    a.contextOf st seq CtxState.inWindow = none :=
  contextOf_none fun j x hj hs hq => (h j x hj hs hq).1

theorem contextFor_busy {a : Assembly} {f : Fragment} (h : Unmet a f.stream f.seq)
    (hr : ¬a.countContexts (fun c => c.stream == f.stream) < a.streams[f.stream].limit) :
    contextFor a f = .error .streamBusy := by
  simp only [contextFor, contextOf_unmet h, if_pos (Nat.le_of_not_lt hr)]

theorem contextFor_full {a : Assembly} {f : Fragment} (h : Unmet a f.stream f.seq)
    (hr : a.countContexts (fun c => c.stream == f.stream) < a.streams[f.stream].limit)
    (hfull : ∀ i : CtxNo, a.contexts[i] ≠ none) : contextFor a f = .error .noContext := by
  simp only [contextFor, contextOf_unmet h, if_neg (Nat.not_le.mpr hr), freeContext_none hfull]

theorem contextFor_fresh {a : Assembly} {f : Fragment} {i : CtxNo} (h : Unmet a f.stream f.seq)
    (hr : a.countContexts (fun c => c.stream == f.stream) < a.streams[f.stream].limit)
    (hi : a.contexts[i] = none) (hl : ∀ j : CtxNo, j < i → a.contexts[j] ≠ none) :
    contextFor a f = .ok (i, newContext f) := by
  simp only [contextFor, contextOf_unmet h, if_neg (Nat.not_le.mpr hr), freeContext_some hi hl]

/-- A context of the window that holds the sequence is what an APPEND is judged by. -/
theorem appendVerdict_sole {a : Assembly} {f : Fragment} {i : CtxNo} {c : Context} (h : Sole a f.stream f.seq i c)
    (hw : c.state.inWindow = true) :
    appendVerdict a f = verdictFor (((earlyRefusal a f).or (if c.state = .aborting then some .aborted else none)).or
      (fragmentRefusal c a.freeBlocks.length f.offset f.length f.last)) i c := by
  have hfor := contextFor_sole h hw
  by_cases ha : c.state = .aborting
  · rw [if_pos ha] at hfor ⊢
    rw [appendVerdict_refuses hfor]
    cases earlyRefusal a f with
    | some x => rfl
    | none => rfl
  · rw [if_neg ha] at hfor ⊢
    rw [appendVerdict_context hfor, Option.or_none]

/-! ### Held or taken (R64) -/

theorem mustHold_sole {a : Assembly} {f : Fragment} {i : CtxNo} {c : Context} (h : Sole a f.stream f.seq i c)
    (hn : a.drainMark = true ∨ c.transfers.length < 4) : mustHold a f = false := by
  obtain ⟨hi, -, -, hsole⟩ := h
  refine Bool.eq_false_iff.mpr fun hm => ?_
  obtain ⟨hd, j, x, hj, hs, hq, h4⟩ := (mustHold_iff a f).mp hm
  obtain rfl := hsole j x hj hs hq
  obtain rfl : c = x := Option.some.inj (hi.symm.trans hj)
  rcases hn with hn | hn
  · rw [hn] at hd
    cases hd
  · omega

theorem mustHold_unmet {a : Assembly} {f : Fragment} (h : Unmet a f.stream f.seq) : mustHold a f = false := by
  refine Bool.eq_false_iff.mpr fun hm => ?_
  obtain ⟨-, j, x, hj, hs, hq, h4⟩ := (mustHold_iff a f).mp hm
  have hlt := (h j x hj hs hq).2
  omega

/-- An APPEND at the head of the Assembly Unit's queue: held, or taken. -/
theorem exec_append {s : State} {slot st seq offset length last tag address rest} (ht : Takes s)
    (hh : s.assembly.held = none)
    (hd : HeadIs s.assembly.queue slot (.append st seq offset length last tag address) rest) :
    let f : Fragment := ⟨slot, st, seq, offset, length, last, tag, address⟩
    exec .append s = .next (if mustHold s.assembly f then
        { s with assembly := { s.assembly with
          queue := rest, held := some ⟨slot, .append st seq offset length last tag address⟩ } }
      else takeAppend f { s with assembly := { s.assembly with queue := rest } }) := by
  change Host.Outcome.next _ = _
  simp only [assemblyHead_of ht hh hd, Routed.fragment, popAssembly_of hd]
  rfl

theorem takeAppend_refused {f : Fragment} {s : State} {r : Status} (h : appendVerdict s.assembly f = .error r) :
    takeAppend f s = complete f.slot r (s.onAssembly fun a =>
      { a with fragmentsRefused := saturate (a.fragmentsRefused + 1) }) := by
  simp only [takeAppend, h]

theorem takeAppend_accepted {f : Fragment} {s : State} {i : CtxNo} {c : Context}
    (h : appendVerdict s.assembly f = .ok (i, c)) : takeAppend f s =
      (let filled := fillEntries c.blockMap (absentEntries c.blockMap f.offset f.length) s.assembly.freeBlocks
      setContext i (some (c.accept f filled.1)) (s.onAssembly fun a =>
        { a with freeBlocks := filled.2, fragmentsAccepted := saturate (a.fragmentsAccepted + 1) })) := by
  simp only [takeAppend, h]

/-- Settles O31: the verdict on the fragment is that of `appendVerdict_sole` where a context of the window holds the
sequence, and that of `contextFor_busy`, `contextFor_full` or
`contextFor_fresh` where none does. -/
theorem appendTaken : Obligations.AppendTaken := by
  intro s slot st seq offset length last tag address rest ht hh hd a e d upTo early late refused accepted judged fresh
    room
  have hrun := exec_append ht hh hd
  set f : Fragment := ⟨slot, st, seq, offset, length, last, tag, address⟩ with hf
  set s' : State := { s with assembly := { s.assembly with queue := rest } } with hs'
  have hearly : earlyRefusal s'.assembly f = early := rfl
  have hlate (c : Context) : fragmentRefusal c s'.assembly.freeBlocks.length f.offset f.length f.last = late c :=
    frag_eq c _ offset length last
  have htaken (hm : mustHold a f = false) : exec .append s = .next (takeAppend f s') := by
    rw [hrun, hm, if_neg Bool.false_ne_true]
  have hrefused (r : Status) (hv : appendVerdict s'.assembly f = .error r) : takeAppend f s' = refused r := by
    rw [takeAppend_refused hv]
    rfl
  have hjudged (hm : mustHold a f = false) {verdict i c} (hv : appendVerdict s'.assembly f = verdictFor verdict i c) :
      judged verdict i c := by
    refine ⟨fun hn => ?_, fun r hr => ?_⟩
    · rw [hn] at hv
      rw [htaken hm, takeAppend_accepted hv]
      rfl
    · rw [hr] at hv
      rw [htaken hm, hrefused r hv]
  refine ⟨fun i c hi hs hq hdrain h4 => ?held, fun i c hsole hw hn => ?window, fun hu => ⟨fun hr => ?busy, fun hr hfull =>
    ?full, fun hr i hi hl => ?fresh⟩⟩
  case held =>
    have hm : mustHold a f = true := (mustHold_iff a f).mpr ⟨hdrain, i, c, hi, hs, hq, h4⟩
    rw [hrun, hm, if_pos rfl]
  case window =>
    have hv := appendVerdict_sole (a := s'.assembly) (f := f) hsole hw
    rw [hearly, hlate] at hv
    exact hjudged (mustHold_sole hsole hn) hv
  case busy => rw [htaken (mustHold_unmet hu), hrefused _ (appendVerdict_refuses (contextFor_busy hu hr)), hearly]
  case full => rw [htaken (mustHold_unmet hu), hrefused _ (appendVerdict_refuses (contextFor_full hu hr hfull)), hearly]
  case fresh =>
    have hv := appendVerdict_context (contextFor_fresh (a := s'.assembly) (f := f) hu hr hi hl)
    rw [hearly, hlate] at hv
    exact hjudged (mustHold_unmet hu) hv

end Sys2Proof.Machine
end

section
/-! CLOSE_STREAM and ABORT_RECORD as they are taken (R42 to R48, R61, R74, R75). -/

namespace Sys2Proof.Machine

open Sys2Proof.Laws Sys2Proof.Safety

/-! ### Discarding a context (R61) -/

theorem discardContext_eq (i : CtxNo) (c : Context) (s : State) : discardContext i c s = { s with
    host := { s.host with posting := s.host.posting ++ discarded c }
    assembly := { s.assembly with
      contexts := s.assembly.contexts.set i none
      freeBlocks := s.assembly.freeBlocks ++ mappedBlocks c.blockMap } } := by
  cases hd : c.deferred with
  | none => simp only [discardContext, hd, discarded, List.append_nil]; rfl
  | some d => simp only [discardContext, hd, discarded]; rfl

/-! ### One context at a CLOSE_STREAM with ABORT (R43) -/

/-- What the close leaves of a context. -/
def closeKept (st : StreamNo) (o : Option Context) : Option Context :=
  o.bind fun c =>
    if c.stream ≠ st then some c
    else if c.state = .gathering ∧ c.transfers ≠ [] then some { c with state := .aborting }
    else if c.state = .aborting ∨ c.state = .writing then some c
    else none

/-- The context, if the close discards it. -/
def closeGone (st : StreamNo) (o : Option Context) : Option Context := if closeKept st o = none then o else none

/-- A QUEUED context of the stream. -/
def queuedIn (st : StreamNo) (o : Option Context) : Bool :=
  match o with
  | some c => c.stream == st && c.state == .queued
  | none => false

/-- What is handed over for a context that the close discards. -/
def closePosts (st : StreamNo) (o : Option Context) : List Posting := ((closeGone st o).map discarded).getD []

/-- The blocks of a context that the close discards. -/
def closeFreed (st : StreamNo) (o : Option Context) : List BlockNo :=
  ((closeGone st o).map fun c => mappedBlocks c.blockMap).getD []

/-- The whole effect of a close on one context, as it stands as `o`. -/
def closeEffect (st : StreamNo) (i : CtxNo) (o : Option Context) (s : State) : State := { s with
  host := { s.host with posting := s.host.posting ++ closePosts st o }
  writer := { s.writer with
    queue := if queuedIn st o then s.writer.queue.filter fun k => k != i else s.writer.queue }
  assembly := { s.assembly with
    contexts := s.assembly.contexts.set i (closeKept st o)
    freeBlocks := s.assembly.freeBlocks ++ closeFreed st o } }

/-- A context that the close leaves as it is. -/
theorem closeEffect_keeps {st : StreamNo} {i : CtxNo} {o : Option Context} {s : State} (ho : s.assembly.contexts[i] = o)
    (hk : closeKept st o = o) (hq : queuedIn st o = false) : closeEffect st i o s = s := by
  have hset : s.assembly.contexts.set i o = s.assembly.contexts := by
    rw [← ho]
    exact Vector.set_getElem_self _
  have hgone : closeGone st o = none := by
    rw [closeGone, hk]
    split
    · assumption
    · rfl
  simp only [closeEffect, closePosts, closeFreed, hgone, hk, hq, hset, Option.map_none, Option.getD_none,
    List.append_nil, Bool.false_eq_true, if_false]

/-- A context that the close discards. -/
theorem closeEffect_discards {st : StreamNo} {i : CtxNo} {c : Context} {s : State}
    (hk : closeKept st (some c) = none) (hq : queuedIn st (some c) = false) :
    closeEffect st i (some c) s = discardContext i c s := by
  have hgone : closeGone st (some c) = some c := if_pos hk
  simp only [closeEffect, closePosts, closeFreed, hgone, hk, hq, Option.map_some, Option.getD_some, discardContext_eq,
    Bool.false_eq_true, if_false]

theorem closeAbort_eq (st : StreamNo) (i : CtxNo) (s : State) :
    closeAbort st i s = closeEffect st i s.assembly.contexts[i] s := by
  cases ho : s.assembly.contexts[i] with
  | none =>
    rw [closeEffect_keeps ho rfl rfl]
    simp only [closeAbort, ho]
  | some c =>
    simp only [closeAbort, ho]
    by_cases hst : c.stream = st
    · have hkept : closeKept st (some c) = if c.state = .gathering ∧ c.transfers ≠ [] then
          some { c with state := .aborting } else if c.state = .aborting ∨ c.state = .writing then some c else none :=
        if_neg (not_not_intro hst)
      rw [if_neg (not_not_intro hst)]
      cases hc : c.state with
      | gathering =>
        have hq : queuedIn st (some c) = false := by simp [queuedIn, hc]
        by_cases ht : c.transfers = []
        · rw [closeEffect_discards (by simp [hkept, hc, ht]) hq]
          exact if_pos ht
        · have hk : closeKept st (some c) = some { c with state := .aborting } := by simp [hkept, hc, ht]
          have hgone : closeGone st (some c) = none := by simp [closeGone, hk]
          simp only [if_neg ht, closeEffect, closePosts, closeFreed, hgone, hk, hq, Option.map_none, Option.getD_none,
            List.append_nil, Bool.false_eq_true, if_false]
          rfl
      | aborting => rw [closeEffect_keeps ho (by simp [hkept, hc]) (by simp [queuedIn, hc])]
      | complete => rw [closeEffect_discards (by simp [hkept, hc]) (by simp [queuedIn, hc])]
      | queued =>
        have hk : closeKept st (some c) = none := by simp [hkept, hc]
        have hq : queuedIn st (some c) = true := by simp [queuedIn, hc, hst]
        have hgone : closeGone st (some c) = some c := if_pos hk
        simp only [closeEffect, closePosts, closeFreed, hgone, hk, hq, Option.map_some, Option.getD_some,
          discardContext_eq, if_true]
        rfl
      | writing => rw [closeEffect_keeps ho (by simp [hkept, hc]) (by simp [queuedIn, hc])]
    · rw [if_pos hst, closeEffect_keeps ho (if_pos hst) (by simp [queuedIn, hst])]

/-! ### All contexts at a CLOSE_STREAM with ABORT -/

/-- The contexts of a list after a close. -/
structure ShutAll (st : StreamNo) (l : List CtxNo) (s t : State) : Prop where
  contexts : ∀ j : CtxNo, t.assembly.contexts[j] =
    if j ∈ l then closeKept st s.assembly.contexts[j] else s.assembly.contexts[j]
  posting : t.host.posting = s.host.posting ++ l.flatMap fun j => closePosts st s.assembly.contexts[j]
  queue : t.writer.queue = s.writer.queue.filter fun k => !(decide (k ∈ l) && queuedIn st s.assembly.contexts[k])
  frame : t = { s with
    host := { s.host with posting := t.host.posting }
    writer := { s.writer with queue := t.writer.queue }
    assembly := { s.assembly with contexts := t.assembly.contexts, freeBlocks := t.assembly.freeBlocks } }

theorem ShutAll.nil (st : StreamNo) (s : State) : ShutAll st [] s s where
  contexts j := by simp
  posting := by simp
  queue := by simp
  frame := rfl

/-- A close goes through the contexts one by one: what it does to one is unmoved by the others. -/
theorem ShutAll.cons {st : StreamNo} {i : CtxNo} {l : List CtxNo} {s t : State} (hi : i ∉ l)
    (h : ShutAll st l (closeAbort st i s) t) : ShutAll st (i :: l) s t := by
  rw [closeAbort_eq] at h
  obtain ⟨hcontexts, hposting, hqueue, hframe⟩ := h
  have hother (j : CtxNo) (hj : j ≠ i) :
      (closeEffect st i s.assembly.contexts[i] s).assembly.contexts[j] = s.assembly.contexts[j] :=
    (tableSet_get _ i j _).trans (if_neg hj)
  have hown : (closeEffect st i s.assembly.contexts[i] s).assembly.contexts[i] = closeKept st s.assembly.contexts[i] :=
    (tableSet_get _ i i _).trans (if_pos rfl)
  have hne (j : CtxNo) (hj : j ∈ l) : j ≠ i := fun he => hi (he ▸ hj)
  refine ⟨fun j => ?_, ?_, ?_, ?_⟩
  · rw [hcontexts j]
    by_cases hj : j = i
    · subst hj
      rw [if_neg hi, hown, if_pos List.mem_cons_self]
    · rw [hother j hj]
      simp only [List.mem_cons, hj, false_or]
  · rw [hposting, List.flatMap_cons, ← List.append_assoc]
    congr 1
    exact List.flatMap_congr fun j hj => by rw [hother j (hne j hj)]
  · have hfirst : (closeEffect st i s.assembly.contexts[i] s).writer.queue =
        s.writer.queue.filter fun k => !(k == i && queuedIn st s.assembly.contexts[i]) := by
      simp only [closeEffect]
      cases queuedIn st s.assembly.contexts[i] with
      | true => simp only [Bool.and_true, if_true]; rfl
      | false => simp only [Bool.and_false, Bool.not_false, List.filter_true, Bool.false_eq_true, if_false]
    rw [hqueue, hfirst, List.filter_filter]
    refine List.filter_congr fun k _ => ?_
    by_cases hk : k = i
    · subst hk
      simp [hi]
    · rw [hother k hk]
      simp [hk]
  · rw [hframe]
    rfl

theorem closeAbort_all (st : StreamNo) (l : List CtxNo) (s : State) (hl : l.Nodup) :
    ShutAll st l s (l.foldl (fun s i => closeAbort st i s) s) := by
  induction l generalizing s with
  | nil => exact ShutAll.nil st s
  | cons i l ih =>
    obtain ⟨hi, hl⟩ := List.nodup_cons.mp hl
    exact ShutAll.cons hi (ih _ hl)

/-! ### CLOSE_STREAM -/

theorem exec_closeStream {s : State} {slot st abort rest} (ht : Takes s) (hh : s.assembly.held = none)
    (hd : HeadIs s.assembly.queue slot (.closeStream st abort) rest) :
    exec .closeStream s = .next (takeCloseStream slot st abort { s with assembly := { s.assembly with queue := rest } }) := by
  change Host.Outcome.next _ = _
  simp only [assemblyHead_of ht hh hd, popAssembly_of hd]

/-- The contexts after a close, as the table stood before it. -/
theorem shutAll_context {st : StreamNo} {s t : State} (h : ShutAll st allContexts s t) (i : CtxNo) :
    t.assembly.contexts[i] = closeKept st s.assembly.contexts[i] :=
  (h.contexts i).trans (if_pos (List.mem_finRange i))

/-- The stream as an ABORT leaves it, before it is seen whether a context is left. -/
def shutting (slot : SlotNo) (st : StreamNo) (s : State) : State :=
  modStream st (fun e => { e with state := .closing, pendingClose := some slot }) s

theorem takeCloseStream_aborts {slot : SlotNo} {st : StreamNo} {s : State} (ho : s.assembly.streams[st].state = .opened)
    (hb : Busy s.assembly st) : takeCloseStream slot st true s =
      closeIfDone st (shutting slot st (allContexts.foldl (fun s i => closeAbort st i s) s)) := by
  have hbusy : s.assembly.streamBusy st ≠ false := fun h => (count_zero s.assembly st).mp h hb
  simp only [takeCloseStream, ho, if_neg hbusy, if_true]
  rfl

/-- The end of an ABORT: the stream stays CLOSING while a context is left. -/
theorem closeIfDone_shutting (slot : SlotNo) (st : StreamNo) (u : State) :
    (Busy u.assembly st ∧ closeIfDone st (shutting slot st u) = shutting slot st u) ∨
      (¬Busy u.assembly st ∧ closeIfDone st (shutting slot st u) = closedStream st (shutting slot st u)) := by
  have hstate : (shutting slot st u).assembly.streams[st].state = .closing := by
    simp only [shutting, modStream_eq, tableSet_get, if_true]
  obtain ⟨hcloses, hstays⟩ := closeIfDone_closes st (shutting slot st u)
  by_cases hb : Busy u.assembly st
  · exact .inl ⟨hb, hstays (.inr hb)⟩
  · exact .inr ⟨hb, hcloses hstate hb⟩

/-- Settles O33: with ABORT the contexts go one by one (`closeAbort_all`), and the stream closes if none is left. -/
theorem closeStreamTaken : Obligations.CloseStreamTaken := by
  intro s slot st abort rest ht hh hd a e refused closed
  set s' : State := { s with assembly := { s.assembly with queue := rest } } with hs'
  have hrun : exec .closeStream s = .next (takeCloseStream slot st abort s') := exec_closeStream ht hh hd
  refine ⟨fun he => ?closed, fun he => ?closing, fun he hb hn => ?busy, fun he hb hp => ?closes, fun he hb hn => ?aborts⟩
  case closed =>
    have he' : s'.assembly.streams[st].state = .closed := he
    rw [hrun]
    simp only [takeCloseStream, he']
    rfl
  case closing =>
    have he' : s'.assembly.streams[st].state = .closing := he
    rw [hrun]
    simp only [takeCloseStream, he']
    rfl
  case busy =>
    have he' : s'.assembly.streams[st].state = .opened := he
    have hbusy : s'.assembly.streamBusy st ≠ false := fun h => (count_zero s'.assembly st).mp h hb
    rw [hrun, hn]
    simp only [takeCloseStream, he', if_neg hbusy, Bool.false_eq_true, if_false]
    rfl
  case closes =>
    have he' : s'.assembly.streams[st].state = .opened := he
    have hidle : s'.assembly.streamBusy st = false := (count_zero s'.assembly st).mpr hb
    have hp' : s'.assembly.streams[st].pendingClose = none := hp
    rw [hrun]
    simp only [takeCloseStream, he', hidle, if_true, closeStreamNow, hp']
    rfl
  case aborts =>
    subst hn
    rw [hrun, takeCloseStream_aborts (s := s') he hb]
    have hshut := closeAbort_all st allContexts s' (List.nodup_finRange 32)
    generalize allContexts.foldl (fun s i => closeAbort st i s) s' = u at hshut
    have hstreams : u.assembly.streams = a.streams := by rw [hshut.frame]
    have hpost (i : CtxNo) (c : Context) (d : SlotNo) (hi : a.contexts[i] = some c) (hst : c.stream = st)
        (hc : c.state = .complete ∨ c.state = .queued) (hdef : c.deferred = some d) :
        .outcome d .aborted {} ∈ u.host.posting := by
      have hk : closeKept st (some c) = none := by rcases hc with hc | hc <;> simp [closeKept, hst, hc]
      have hposts : closePosts st (some c) = [.outcome d .aborted {}] := by
        simp [closePosts, closeGone, hk, discarded, hdef]
      have hat : s'.assembly.contexts[i] = some c := hi
      rw [hshut.posting]
      refine List.mem_append_right _ (List.mem_flatMap.mpr ⟨i, List.mem_finRange i, ?_⟩)
      rw [hat, hposts]
      exact List.mem_singleton_self _
    have hqueue : u.writer.queue = s.writer.queue.filter fun i => match a.contexts[i] with
        | some c => !(c.stream == st && c.state == .queued)
        | none => true := by
      rw [hshut.queue]
      refine List.filter_congr fun k _ => ?_
      have hk : k ∈ allContexts := List.mem_finRange k
      have hat : s'.assembly.contexts[k] = a.contexts[k] := rfl
      rw [hat, decide_eq_true hk, Bool.true_and]
      cases a.contexts[k] with
      | none => rfl
      | some c => rfl
    have hframe (posting : List Posting) (streams : Vector Stream 16) :
        { u with host := { u.host with posting := posting }, assembly := { u.assembly with streams := streams } } =
        { s with
          host := { s.host with posting := posting }
          assembly := { a with
            queue := rest, contexts := u.assembly.contexts, streams := streams, freeBlocks := u.assembly.freeBlocks }
          writer := { s.writer with queue := s.writer.queue.filter fun i => match a.contexts[i] with
            | some c => !(c.stream == st && c.state == .queued)
            | none => true } } := by
      rw [← hqueue]
      conv_lhs => rw [hshut.frame]
    have hcontexts (i : CtxNo) : u.assembly.contexts[i] = closeKept st a.contexts[i] := shutAll_context hshut i
    have hother (k : StreamNo) (hk : k ≠ st) (x : Stream) : (u.assembly.streams.set st x)[k] = a.streams[k] := by
      rw [tableSet_get, if_neg hk, hstreams]
    have hown (x : Stream) : (u.assembly.streams.set st x)[st] = x := by rw [tableSet_get, if_pos rfl]
    rcases closeIfDone_shutting slot st u with ⟨hleft, heq⟩ | ⟨hleft, heq⟩
    · refine ⟨_, rfl, ?_⟩
      rw [heq]
      refine ⟨fun i c hi => (hcontexts i).trans (by rw [hi]; rfl), fun i hi => (hcontexts i).trans (by rw [hi]; rfl),
        hpost, fun _ => (hown _).trans (by rw [hstreams]), fun hb' => absurd hleft hb', fun k hk => hother k hk _,
        hframe _ _⟩
    · have hclosed : closedStream st (shutting slot st u) = { u with
          host := answered slot .ok {} u.host
          assembly := { u.assembly with streams := u.assembly.streams.set st closed } } := by
        simp only [closedStream, shutting, modStream_eq, tableSet_get, if_true, Vector.set_set]
        rw [hstreams]
      refine ⟨_, rfl, ?_⟩
      rw [heq, hclosed]
      refine ⟨fun i c hi => (hcontexts i).trans (by rw [hi]; rfl), fun i hi => (hcontexts i).trans (by rw [hi]; rfl),
        fun i c d hi hst hc hdef => List.mem_append_left _ (hpost i c d hi hst hc hdef), fun hb' => absurd hb' hleft,
        fun _ => ⟨hown _, List.mem_append_right _ (List.mem_singleton_self _)⟩, fun k hk => hother k hk _, hframe _ _⟩

end Sys2Proof.Machine
end

section
/-! ABORT_RECORD as it is taken (R46 to R48, R61, R74, R75). -/

namespace Sys2Proof.Machine

open Sys2Proof.Laws Sys2Proof.Safety

/-! ### Admission does not look at the Host Ring Unit -/

theorem admitOnce_onHost (st : StreamNo) (f : HostUnit → HostUnit) (s : State) :
    admitOnce st (s.onHost f) = (admitOnce st s).map fun t => t.onHost f := by
  by_cases ho : s.assembly.streams[st].state = .opened
  · cases hc : s.assembly.contextOf st s.assembly.streams[st].nextAdmission (· == .complete) with
    | some x =>
      simp only [admitOnce, State.onHost_assembly, ho, if_true, hc, Option.map_some]
      rfl
    | none =>
      by_cases hb : s.assembly.streams[st].isAbandoned 0 = true
      · simp only [admitOnce, State.onHost_assembly, ho, if_true, hc, hb, if_true, Option.map_some]
        rfl
      · simp only [admitOnce, State.onHost_assembly, ho, if_true, hc, hb, Bool.false_eq_true, if_false, Option.map_none]
  · simp only [admitOnce, State.onHost_assembly, ho, if_false, Option.map_none]

theorem admitSteps_onHost (st : StreamNo) (f : HostUnit → HostUnit) (n : Nat) (s : State) :
    admitSteps st n (s.onHost f) = (admitSteps st n s).onHost f := by
  induction n generalizing s with
  | zero => rfl
  | succ n ih =>
    rw [admitSteps, admitSteps, admitOnce_onHost]
    cases admitOnce st s with
    | none => rfl
    | some t => exact ih t

/-- An answer posted before admission runs stands as one posted after it. -/
theorem complete_admitStream (st : StreamNo) (slot : SlotNo) (status : Status) (s : State) :
    complete slot status (admitStream st s) = admitStream st (complete slot status s) :=
  (admitSteps_onHost st (fun h => { h with posting := h.posting ++ [.outcome slot status {}] }) 8 s).symm

/-! ### ABORT_RECORD -/

theorem exec_abortRecord {s : State} {slot st seq rest} (ht : Takes s) (hh : s.assembly.held = none)
    (hd : HeadIs s.assembly.queue slot (.abortRecord st seq) rest) :
    exec .abortRecord s = .next (takeAbortRecord slot st seq { s with assembly := { s.assembly with queue := rest } }) := by
  change Host.Outcome.next _ = _
  simp only [assemblyHead_of ht hh hd, popAssembly_of hd]

theorem takeAbortRecord_closed {slot st seq} {s : State} (h : s.assembly.streams[st].state ≠ .opened) :
    takeAbortRecord slot st seq s = complete slot .streamClosed s := if_pos h

/-- No context of the sequence is admitted: the window decides (R74, cases 4 and 5). -/
theorem takeAbortRecord_inWindow {s : State} {slot st seq} (ho : s.assembly.streams[st].state = .opened)
    (h : ∀ (j : CtxNo) (x : Context), s.assembly.contexts[j] = some x → x.stream = st → x.seq = seq →
      x.state.inWindow = true) : takeAbortRecord slot st seq s = abortInWindow slot st seq s := by
  refine takeAbortRecord_window ho (fun j x hf => ?_) fun j x hf => ?_
  · obtain ⟨hj, hst, hq, hs, -⟩ := hf
    have hin := h j x hj hst hq
    rw [hs] at hin
    cases hin
  · obtain ⟨hj, hst, hq, hs, -⟩ := hf
    have hin := h j x hj hst hq
    rw [hs] at hin
    cases hin

theorem abortInWindow_stale {slot st seq} {s : State} (h : 32768 ≤ s.assembly.streams[st].distance seq) :
    abortInWindow slot st seq s = complete slot .stale s := if_pos h

theorem abortInWindow_ahead {slot st seq} {s : State} (h8 : 8 ≤ s.assembly.streams[st].distance seq)
    (h : s.assembly.streams[st].distance seq < 32768) : abortInWindow slot st seq s = complete slot .ahead s := by
  simp only [abortInWindow, if_neg (Nat.not_le.mpr h), if_pos h8]

theorem abortInWindow_position {slot st seq} {s : State} (h : s.assembly.streams[st].distance seq < 8) :
    abortInWindow slot st seq s =
      complete slot .ok (abortPosition st seq (s.assembly.streams[st].distance seq) s) := by
  have hlow : ¬32768 ≤ s.assembly.streams[st].distance seq := by omega
  simp only [abortInWindow, if_neg hlow, if_neg (Nat.not_le.mpr h)]

/-- The only context of the sequence is in the window. -/
theorem sole_inWindow {a : Assembly} {st : StreamNo} {seq : Seq} {i : CtxNo} {c : Context} (h : Sole a st seq i c)
    (hw : c.state.inWindow = true) : ∀ (j : CtxNo) (x : Context), a.contexts[j] = some x → x.stream = st →
      x.seq = seq → x.state.inWindow = true := by
  obtain ⟨hi, -, -, hsole⟩ := h
  intro j x hj hs hq
  obtain rfl := hsole j x hj hs hq
  obtain rfl : c = x := Option.some.inj (hi.symm.trans hj)
  exact hw

theorem abortPosition_shuts {st seq k i c} {s : State} (h : Sole s.assembly st seq i c) (hc : c.state = .gathering)
    (ht : c.transfers ≠ []) : abortPosition st seq k s = setContext i (some { c with state := .aborting }) s := by
  have hof : s.assembly.contextOf st seq CtxState.inWindow = some (i, c) := contextOf_sole h (by rw [hc]; rfl)
  simp only [abortPosition, hof, hc, if_neg ht]

theorem abortPosition_aborting {st seq k i c} {s : State} (h : Sole s.assembly st seq i c) (hc : c.state = .aborting) :
    abortPosition st seq k s = s := by
  have hof : s.assembly.contextOf st seq CtxState.inWindow = some (i, c) := contextOf_sole h (by rw [hc]; rfl)
  simp only [abortPosition, hof, hc]

theorem abortPosition_discards {st seq k i c} {s : State} (h : Sole s.assembly st seq i c)
    (hc : (c.state = .gathering ∧ c.transfers = []) ∨ c.state = .complete) :
    abortPosition st seq k s = admitStream st (markAbandoned st k (discardContext i c s)) := by
  have hw : c.state.inWindow = true := by
    rcases hc with ⟨hc, -⟩ | hc
    · rw [hc]; rfl
    · rw [hc]; rfl
  have hof : s.assembly.contextOf st seq CtxState.inWindow = some (i, c) := contextOf_sole h hw
  rcases hc with ⟨hc, ht⟩ | hc
  · simp only [abortPosition, hof, hc, if_pos ht]
  · simp only [abortPosition, hof, hc]

theorem abortPosition_empty {st seq k} {s : State} (h : ∀ (j : CtxNo) (x : Context), s.assembly.contexts[j] = some x →
    x.stream = st → x.seq ≠ seq) : abortPosition st seq k s =
      if s.assembly.streams[st].isAbandoned k then s else admitStream st (markAbandoned st k s) := by
  have hof : s.assembly.contextOf st seq CtxState.inWindow = none :=
    contextOf_none fun j x hj hs hq => absurd hq (h j x hj hs)
  simp only [abortPosition, hof]

/-- Settles O34: the admitted records first, then the window position in each of its conditions. -/
theorem abortRecordTaken : Obligations.AbortRecordTaken := by
  intro s slot st seq rest ht hh hd a e d answer inWindow marked
  set s' : State := { s with assembly := { s.assembly with queue := rest } } with hs'
  have hrun : exec .abortRecord s = .next (takeAbortRecord slot st seq s') := exec_abortRecord ht hh hd
  have hwindow (he : e.state = .opened) (hw : inWindow) :
      takeAbortRecord slot st seq s' = abortInWindow slot st seq s' :=
    takeAbortRecord_inWindow (by exact he) (by exact hw)
  have hposition (h : d < 8) : abortInWindow slot st seq s' = complete slot .ok (abortPosition st seq d s') :=
    abortInWindow_position (by exact h)
  refine ⟨fun he => ?closed, fun he => ⟨fun i c hf => ?writing, fun i c hf hn => ?queued, fun hw h => ?stale,
    fun hw h8 h => ?ahead, fun h8 => ⟨fun i c hi hc htr => ?shuts, fun i c hi hc => ?aborting, fun i c hi hc => ?discards,
    fun hn => ⟨fun hb => ?passed, fun hb => ?marks⟩⟩⟩⟩
  case closed =>
    rw [hrun, takeAbortRecord_closed (by exact he)]
    rfl
  case writing =>
    rw [hrun, takeAbortRecord_writing (by exact he) (by exact hf)]
    rfl
  case queued =>
    rw [hrun, takeAbortRecord_queued (by exact he) (by exact hn) (by exact hf), abortQueued, discardContext_eq]
    rfl
  case stale =>
    rw [hrun, hwindow he hw, abortInWindow_stale (by exact h)]
    rfl
  case ahead =>
    rw [hrun, hwindow he hw, abortInWindow_ahead (by exact h8) (by exact h)]
    rfl
  case shuts =>
    rw [hrun, hwindow he (sole_inWindow hi (by rw [hc]; rfl)),
      hposition h8, abortPosition_shuts (by exact hi) hc htr]
    rfl
  case aborting =>
    rw [hrun, hwindow he (sole_inWindow hi (by rw [hc]; rfl)),
      hposition h8, abortPosition_aborting (by exact hi) hc]
    rfl
  case discards =>
    have hw : c.state.inWindow = true := by
      rcases hc with ⟨hc, -⟩ | hc
      · rw [hc]; rfl
      · rw [hc]; rfl
    rw [hrun, hwindow he (sole_inWindow hi hw), hposition h8,
      abortPosition_discards (by exact hi) hc, complete_admitStream, discardContext_eq]
    exact ⟨_, rfl, admitStream_run st _⟩
  case passed =>
    rw [hrun, hwindow he fun j x hj hs hq => absurd hq (hn j x hj hs),
      hposition h8, abortPosition_empty (by exact hn), if_pos (by exact hb)]
    rfl
  case marks =>
    have hb' : ¬s'.assembly.streams[st].isAbandoned d = true := Bool.eq_false_iff.mp hb
    rw [hrun, hwindow he fun j x hj hs hq => absurd hq (hn j x hj hs),
      hposition h8, abortPosition_empty (by exact hn), if_neg hb', complete_admitStream]
    exact ⟨_, rfl, admitStream_run st _⟩

end Sys2Proof.Machine
end

section
/-! READ and SCAN as they are taken (R133). -/

namespace Sys2Proof.Machine

open Sys2Proof.Laws Sys2Proof.Safety

theorem popReader_of {s : State} {slot : SlotNo} {cmd rest} (hd : HeadIs s.reader.queue slot cmd rest) :
    popReader s = { s with reader := { s.reader with queue := rest } } := by
  rw [popReader, State.onReader, hd, List.tail_cons]

theorem exec_read {s : State} {slot jsn address length header rest} (ht : Takes s)
    (hd : HeadIs s.reader.queue slot (.read jsn address length header) rest) :
    exec .read s = .next (takeRead ⟨slot, .read jsn address length header⟩
      { s with reader := { s.reader with queue := rest } }) := by
  change Host.Outcome.next _ = _
  simp only [State.readerHead, head_of ht hd, popReader_of hd]

theorem exec_scan {s : State} {slot jsn filter most address length rest} (ht : Takes s)
    (hd : HeadIs s.reader.queue slot (.scan jsn filter most address length) rest) :
    exec .scan s = .next (takeRead ⟨slot, .scan jsn filter most address length⟩
      { s with reader := { s.reader with queue := rest } }) := by
  change Host.Outcome.next _ = _
  simp only [State.readerHead, head_of ht hd, popReader_of hd]

theorem takeRead_wipe {r : Routed} {s : State} (h : s.reclaim.wipeActive = true) :
    takeRead r s = complete r.slot .wipeActive s := if_pos h

/-- A read joins the FIFO, whose head begins when no read is active (R133). -/
theorem takeRead_placed {r : Routed} {s : State} (h : s.reclaim.wipeActive = false) :
    takeRead r s = nextRead { s with reader := { s.reader with fifo := s.reader.fifo ++ [r] } } := by
  rw [takeRead, h, if_neg Bool.false_ne_true]
  rfl

/-- Settles O35: either command is refused during a wipe, and else placed; what follows is `nextRead`. -/
theorem readsTaken : Obligations.ReadsTaken := by
  intro s slot rest address length ht refused placed
  have hlive (c : Cmd) : (placed c).live = true := live_of (takes_live ht)
  refine ⟨fun jsn header hd => ⟨fun hw => ?_, fun hw => ?_⟩, fun jsn filter most hd => ⟨fun hw => ?_, fun hw => ?_⟩⟩
  · rw [exec_read ht hd, takeRead_wipe (by exact hw)]
    rfl
  · rw [exec_read ht hd, takeRead_placed (by exact hw)]
    exact nextRead_continues (hlive _)
  · rw [exec_scan ht hd, takeRead_wipe (by exact hw)]
    rfl
  · rw [exec_scan ht hd, takeRead_placed (by exact hw)]
    exact nextRead_continues (hlive _)

end Sys2Proof.Machine
end

section
/-! HOLD, RELEASE and WIPE as they are taken (R34, R109 to R111, R117 to R124). -/

namespace Sys2Proof.Machine

open Sys2Proof.Laws Sys2Proof.Safety

/-! ### HOLD -/

theorem exec_hold {s : State} {slot first last fixed owner rest} (ht : Takes s)
    (hd : HeadIs s.holds.queue slot (.hold first last fixed owner) rest) :
    exec .hold s = .next (takeHold slot first last fixed owner { s with holds := { s.holds with queue := rest } }) := by
  change Host.Outcome.next _ = _
  simp only [State.holdsHead, head_of ht hd, popHolds_of hd]

/-- Nothing lies in the range of a HOLD: its last JSN is past, and no member's range meets it (R117). -/
def nothingToHold (s : State) (first : Nat) (last : Option Nat) : Bool :=
  match last with
  | none => false
  | some l => decide (l < s.writer.nextJsn.getD 0) && !s.table.meetsJournal first (some l)

/-- The effective first JSN of a HOLD (R118). -/
def effectiveFirst (s : State) (first : Nat) : Nat :=
  match s.table.lowestSurviving first with
  | some (_, j) => j
  | none => s.writer.nextJsn.getD 0

section
variable {slot : SlotNo} {first : Nat} {last : Option Nat} {fixed : Bool} {owner : Word} {s : State}

theorem takeHold_wipe (h : s.reclaim.wipeActive = true) :
    takeHold slot first last fixed owner s = complete slot .wipeActive s := if_pos h

theorem takeHold_barred (h : s.reclaim.wipeActive = false) (hb : fixed = true ∧ s.anchor.failed = true) :
    takeHold slot first last fixed owner s = complete slot .anchorFailed s := by
  obtain ⟨hfixed, hfailed⟩ := hb
  simp only [takeHold, h, hfixed, hfailed, Bool.false_eq_true, if_false, Bool.and_self, if_true]

theorem takeHold_nothing (h : s.reclaim.wipeActive = false) (hb : ¬(fixed = true ∧ s.anchor.failed = true))
    (hn : nothingToHold s first last = true) :
    takeHold slot first last fixed owner s = complete slot .nothingToHold s := by
  have hbar : ¬(fixed && s.anchor.failed) = true := fun hx => hb (Bool.and_eq_true_iff.mp hx)
  simp only [takeHold, h, Bool.false_eq_true, if_false, if_neg hbar]
  exact if_pos hn

theorem takeHold_full (h : s.reclaim.wipeActive = false) (hb : ¬(fixed = true ∧ s.anchor.failed = true))
    (hn : nothingToHold s first last = false) (hf : ∀ id : Fin 16, s.holds.entries[id] ≠ none) :
    takeHold slot first last fixed owner s = complete slot .holdTableFull s := by
  have hbar : ¬(fixed && s.anchor.failed) = true := fun hx => hb (Bool.and_eq_true_iff.mp hx)
  have hfind : allHolds.find? (fun i => s.holds.entries[i].isNone) = none :=
    List.find?_eq_none.mpr fun i _ => by simpa using hf i
  simp only [takeHold, h, Bool.false_eq_true, if_false, if_neg hbar, hfind]
  exact if_neg (Bool.eq_false_iff.mp hn)

/-- The lowest FREE entry takes the hold (R118). -/
theorem takeHold_enters {id : Fin 16} (h : s.reclaim.wipeActive = false)
    (hb : ¬(fixed = true ∧ s.anchor.failed = true)) (hn : nothingToHold s first last = false)
    (hid : s.holds.entries[id] = none) (hlow : ∀ k : Fin 16, k < id → s.holds.entries[k] ≠ none) :
    takeHold slot first last fixed owner s = if fixed then takeChange (.hold id)
        (setHold id (some ⟨.fixing, first, last, owner, some slot, some (effectiveFirst s first)⟩) s)
      else postOutcome slot .ok (holdResults id (effectiveFirst s first))
        (setHold id (some ⟨.soft, first, last, owner, none, none⟩) s) := by
  have hbar : ¬(fixed && s.anchor.failed) = true := fun hx => hb (Bool.and_eq_true_iff.mp hx)
  have hfind : allHolds.find? (fun i => s.holds.entries[i].isNone) = some id :=
    find_first (Option.isNone_iff_eq_none.mpr hid) fun k hk =>
      Option.isNone_eq_false_iff.mpr (Option.isSome_iff_ne_none.mpr (hlow k hk))
  simp only [takeHold, h, Bool.false_eq_true, if_false, if_neg hbar, hfind]
  exact if_neg (Bool.eq_false_iff.mp hn)

end

theorem meetsJournal_iff (t : SectorTable) (first last : Nat) : t.meetsJournal first (some last) = false ↔
    ∀ i ∈ t.journal, ∀ a b, t.entries[i].range = some (a, b) → b < first ∨ last < a := by
  rw [SectorTable.meetsJournal, List.any_eq_false]
  refine forall₂_congr fun i _ => ?_
  cases t.entries[i].range with
  | none => simp [rangeMeets]
  | some r =>
    obtain ⟨a, b⟩ := r
    simp only [rangeMeets, Bool.and_eq_true, decide_eq_true_eq, Option.some.injEq, Prod.mk.injEq]
    constructor
    · rintro h _ _ ⟨rfl, rfl⟩
      omega
    · intro h
      have := h a b ⟨rfl, rfl⟩
      omega

theorem nothingToHold_iff {s : State} {first n : Nat} {last : Option Nat} (hj : s.writer.nextJsn = some n) :
    nothingToHold s first last = true ↔ ∃ l, last = some l ∧ l < n ∧ ∀ i ∈ s.table.journal, ∀ a b,
      s.table.entries[i].range = some (a, b) → b < first ∨ l < a := by
  cases last with
  | none => simp [nothingToHold]
  | some l =>
    rw [nothingToHold, hj, Option.getD_some, Bool.and_eq_true, decide_eq_true_iff, Bool.not_eq_true',
      meetsJournal_iff]
    constructor
    · exact fun h => ⟨l, rfl, h⟩
    · rintro ⟨x, hx, h⟩
      obtain rfl := Option.some.inj hx
      exact h

/-- Settles O36: the refusals in order; else the hold takes the lowest FREE entry, and a FIXED one is a change that the
Anchor Unit takes. -/
theorem holdTaken : Obligations.HoldTaken := by
  intro s slot first last fixed owner rest n ht hd hj t refused barred nothing surviving noneSurvives
  set s' : State := { s with holds := { s.holds with queue := rest } } with hs'
  have hrun : exec .hold s = .next (takeHold slot first last fixed owner s') := exec_hold ht hd
  have hnothing : nothingToHold s' first last = true ↔ nothing := nothingToHold_iff (s := s') hj
  refine ⟨fun hw => ?wipe, fun hw => ⟨fun hb => ?barred, fun hb hn => ?nothing, fun hb hn hf => ?full,
    fun hb hn id hid hlow j hsurvives => ?enters⟩⟩
  case wipe =>
    rw [hrun, takeHold_wipe (by exact hw)]
    rfl
  case barred =>
    rw [hrun, takeHold_barred (by exact hw) (by exact hb)]
    rfl
  case nothing =>
    rw [hrun, takeHold_nothing (by exact hw) (by exact hb) (hnothing.mpr hn)]
    rfl
  case full =>
    rw [hrun, takeHold_full (by exact hw) (by exact hb) (Bool.eq_false_iff.mpr (mt hnothing.mp hn)) (by exact hf)]
    rfl
  case enters =>
    have heffective : effectiveFirst s' first = j := by
      rcases hsurvives with ⟨before, i, after, a, b, hjournal, hr, hle, rfl, hbefore⟩ | ⟨hnone, rfl⟩
      · have hlow : s'.table.lowestSurviving first = some (i, max first a) := lowest_some hjournal hr hle hbefore
        simp only [effectiveFirst, hlow]
      · have hlow : s'.table.lowestSurviving first = none := lowest_none hnone
        have hj' : s'.writer.nextJsn = some j := hj
        simp only [effectiveFirst, hlow, hj', Option.getD_some]
    rw [hrun, takeHold_enters (by exact hw) (by exact hb) (Bool.eq_false_iff.mpr (mt hnothing.mp hn)) (by exact hid)
      (by exact hlow), heffective]
    refine ⟨fun hx => ?_, fun hx => ⟨_, rfl, ?_⟩⟩
    · rw [hx, if_neg Bool.false_ne_true]
      rfl
    · rw [hx, if_pos rfl]
      exact takeChange_taken _ _

/-! ### RELEASE -/

theorem exec_release {s : State} {slot id rest} (ht : Takes s) (hd : HeadIs s.holds.queue slot (.release id) rest) :
    exec .release s = .next (takeRelease slot id { s with holds := { s.holds with queue := rest } }) := by
  change Host.Outcome.next _ = _
  simp only [State.holdsHead, head_of ht hd, popHolds_of hd]

theorem freeHold_eq (id : Fin 16) (s : State) : freeHold id s = { s with
    holds := { s.holds with entries := s.holds.entries.set id none }, reclaim := signalled s.reclaim } := by
  rw [freeHold, signalReclaim_eq]
  rfl

/-- Settles O37: RELEASE goes by the state of the hold. -/
theorem releaseTaken : Obligations.ReleaseTaken := by
  intro s slot id rest ht hd t answer
  set s' : State := { s with holds := { s.holds with queue := rest } } with hs'
  have hrun : exec .release s = .next (takeRelease slot id s') := exec_release ht hd
  refine ⟨fun hn => ?_, fun h hh => ?_⟩
  · have hn' : s'.holds.entries[id] = none := hn
    rw [hrun]
    simp only [takeRelease, hn']
    rfl
  · have hh' : s'.holds.entries[id] = some h := hh
    have hanchor : s'.anchor = s.anchor := rfl
    refine ⟨fun hst => ?_, fun hst => ?_, fun hst hf => ?_, fun hst hf => ⟨_, hrun, ?_⟩⟩
    · rw [hrun]
      rcases hst with hst | hst
      · simp only [takeRelease, hh', hst]
        rfl
      · simp only [takeRelease, hh', hst]
        rfl
    · rw [hrun]
      simp only [takeRelease, hh', hst, freeHold_eq]
      rfl
    · rw [hrun]
      simp only [takeRelease, hh', hst, hanchor, hf, if_true]
      rfl
    · simp only [takeRelease, hh', hst, hanchor, hf, Bool.false_eq_true, if_false]
      exact takeChange_taken _ _

/-! ### WIPE -/

theorem popReclaim_of {s : State} {slot : SlotNo} {cmd rest} (hd : HeadIs s.reclaim.queue slot cmd rest) :
    popReclaim s = { s with reclaim := { s.reclaim with queue := rest } } := by
  rw [popReclaim, State.onReclaim, hd, List.tail_cons]

theorem exec_wipe {s : State} {slot rest} (ht : Takes s) (hd : HeadIs s.reclaim.queue slot .wipe rest) :
    exec .wipe s = .next (takeWipe slot { s with reclaim := { s.reclaim with queue := rest } }) := by
  change Host.Outcome.next _ = _
  simp only [State.reclaimHead, head_of ht hd, popReclaim_of hd]

/-- Every entry of a table passes a test. -/
theorem any_toList_eq_false {α : Type} {n : Nat} (v : Vector α n) (p : α → Bool) :
    v.toList.any p = false ↔ ∀ i : Fin n, p v[i] = false := by
  rw [toList_eq_map, List.any_map, List.any_eq_false]
  simp

theorem journalInUse_iff (s : State) : journalInUse s = false ↔
    (∀ st : StreamNo, s.assembly.streams[st].state = .closed) ∧ (∀ i : CtxNo, s.assembly.contexts[i] = none) ∧
    (∀ id : Fin 16, s.holds.entries[id] = none) ∧ s.reader.active = none ∧ s.reader.fifo = [] ∧
    s.writer.state = .idle := by
  simp only [journalInUse, Bool.or_eq_false_iff, any_toList_eq_false, bne_eq_false_iff_eq, Option.isSome_eq_false_iff,
    Option.isNone_iff_eq_none, Bool.not_eq_false', List.isEmpty_iff, and_assoc]

/-- The wipe start claim (R34): every member of the list is DIRTY, and the list empty. -/
theorem wipeStart_eq {s : State} (hn : Notices s) (hl : s.table.journal.Nodup) : ∃ entries : Vector SectorEntry 256,
    (∀ k : SectorNo, entries[k] = if k ∈ s.table.journal then wiped s.table.entries[k] else s.table.entries[k]) ∧
    wipeStart s = { s with
      host := { s.host with posting := s.host.posting ++ exps s.table s.table.journal }
      table := { s.table with entries := entries, journal := [] } } := by
  obtain ⟨entries, heq, hentries⟩ := wipeFold s.table.journal s hl hn
  exact ⟨entries, hentries, by rw [wipeStart, heq]; rfl⟩

theorem notices_of_online {s : State} (h : s.host.device = .online) : Notices s := by
  constructor
  · rw [h]; decide
  · rw [h]; decide

/-- Settles O38: the refusals; else the wipe start claim is made, and with no erase in progress the wipe goes on. -/
theorem wipeTaken : Obligations.WipeTaken := by
  intro s slot rest ht hd refused free expiries
  set s' : State := { s with reclaim := { s.reclaim with queue := rest } } with hs'
  have hrun : exec .wipe s = .next (takeWipe slot s') := exec_wipe ht hd
  have hfree : free ↔ s'.host.device = .online ∧ journalInUse s' = false := by rw [journalInUse_iff]
  refine ⟨fun hw => ?wipe, fun hw hn => ?refused, fun hw hf hl => ?accepted⟩
  case wipe =>
    rw [hrun, takeWipe, if_pos (by exact hw)]
    rfl
  case refused =>
    have hw' : s'.reclaim.wipeActive = false := hw
    rw [hrun, takeWipe, hw', if_neg Bool.false_ne_true]
    by_cases hd : s'.host.device = .online
    · have huse : journalInUse s' = true := Bool.eq_true_of_not_eq_false fun h => hn (hfree.mpr ⟨hd, h⟩)
      rw [if_neg (not_not_intro hd), if_pos huse]
      rfl
    · rw [if_pos hd]
      rfl
  case accepted =>
    obtain ⟨hdevice, huse⟩ := hfree.mp hf
    have hw' : s'.reclaim.wipeActive = false := hw
    have htake : takeWipe slot s' = acceptWipe slot s' := by
      rw [takeWipe, hw', if_neg Bool.false_ne_true, if_neg (not_not_intro hdevice), huse, if_neg Bool.false_ne_true]
    set s₁ : State := s'.onReclaim fun r => { r with wipeActive := true, wipeSlot := some slot, signal := false }
    obtain ⟨entries, hentries, hstart⟩ := wipeStart_eq (s := s₁) (notices_of_online hdevice) hl
    refine ⟨entries, _, hrun, hentries, ?_⟩
    intro begun
    have haccept : acceptWipe slot s' = if s.reclaim.erase.isNone then continueWipe begun else begun := by
      change (let s := wipeStart s₁
        let s := s.onReclaim fun r => { r with state := .wiping }
        if s.reclaim.erase.isNone then continueWipe s else s) = _
      rw [hstart]
      rfl
    rw [htake, haccept]
    refine ⟨fun he => ?_, fun he => ?_⟩
    · rw [if_neg (by simpa using he)]
    · rw [he, Option.isNone_none, if_pos rfl]
      exact continueWipe_goesOn begun

end Sys2Proof.Machine
end

section
/-! The ends of transfers and staging memory (R60, R62, R64, R68 to R71, R73). -/

namespace Sys2Proof.Machine

open Sys2Proof.Laws Sys2Proof.Safety

/-! ### Staging memory (R68) -/

theorem stagedBytes_length (map : Vector (Option BlockNo) 16) (m : List Host.Cell) (n : Nat) :
    (stagedBytes map m n).length = n := by simp [stagedBytes]

theorem stagedBytes_get {map : Vector (Option BlockNo) 16} {m : List Host.Cell} {n k : Nat} (hk : k < n) :
    (stagedBytes map m n)[k]? = some (((stagingAddress map k).map (stagingByte m)).getD 0#8) := by
  simp [stagedBytes, hk]

/-- No two record bytes lie at one address, where no block stands twice in the map. -/
theorem stagingAddress_inj {map : Vector (Option BlockNo) 16} (hn : (mappedBlocks map).Nodup) {i j a : Nat}
    (hi : stagingAddress map i = some a) (hj : stagingAddress map j = some a) : i = j := by
  obtain ⟨k, b, hk, hb, ha⟩ := addr_some hi
  obtain ⟨l, b', hl, hb', ha'⟩ := addr_some hj
  have hbb : b = b' := Fin.ext (by omega)
  subst hbb
  have hkl := congrArg Fin.val (mapped_inj hn hb hb')
  omega

/-- Two maps with no block in common place no bytes at one address. -/
theorem stagingAddress_apart {map other : Vector (Option BlockNo) 16}
    (h : ∀ b ∈ mappedBlocks other, b ∉ mappedBlocks map) {i j a : Nat} (hi : stagingAddress other i = some a) :
    stagingAddress map j ≠ some a := by
  intro hj
  obtain ⟨k, b, -, hb, ha⟩ := addr_some hi
  obtain ⟨l, b', -, hb', ha'⟩ := addr_some hj
  have hbb : b = b' := Fin.ext (by omega)
  subst hbb
  exact h b (mem_mapped.mpr ⟨k, hb⟩) (mem_mapped.mpr ⟨l, hb'⟩)

theorem stagingAddress_mapped {map : Vector (Option BlockNo) 16} {i : Nat} (k : Fin 16) (hk : k.val = i / 512)
    (h : map[k] ≠ none) : ∃ a, stagingAddress map i = some a := by
  obtain ⟨b, hb⟩ := Option.ne_none_iff_exists'.mp h
  have hlt : i / Config.blockBytes < 16 := hk ▸ k.isLt
  have hget : map[i / Config.blockBytes] = some b := by
    rw [← hb]
    exact congrArg (fun j : Fin 16 => map[j]) (Fin.ext hk.symm : (⟨i / Config.blockBytes, hlt⟩ : Fin 16) = k)
  exact ⟨_, by rw [stagingAddress, dif_pos hlt, hget, Option.map_some]⟩

/-- Settles O42: a byte is read where it was written (`write_at`), and nowhere else does memory change (`write_far`). -/
theorem stagedBytesKept : Obligations.StagedBytesKept := by
  intro map m first data n hm hnodup hfirst hn hmapped bytes
  have hinj := fun i j a hi hj => stagingAddress_inj (i := i) (j := j) (a := a) hnodup hi hj
  have hunwritten (k : Nat) (hk : k < first ∨ first + data.length ≤ k) :
      (stagingAddress map k).map (stagingByte (stagingWrite map m first data)) =
        (stagingAddress map k).map (stagingByte m) := by
    cases ha : stagingAddress map k with
    | none => rfl
    | some a =>
      refine congrArg some (write_far map data m first a hm fun j hj hja => ?_)
      have := hinj _ _ _ ha hja
      omega
  refine ⟨stagedBytes_length _ _ _, List.ext_getElem? fun k => ?_, fun k hk => ?_, fun other hother => ?_⟩
  · by_cases hk : k < data.length
    · obtain ⟨a, ha⟩ := stagingAddress_mapped (map := map) (i := first + k) ⟨(first + k) / 512, by omega⟩ rfl
        (hmapped _ (by simp only; omega) (by simp only; omega))
      rw [List.getElem?_take_of_lt hk, List.getElem?_drop, stagedBytes_get (by omega), ha, Option.map_some,
        Option.getD_some, write_at map hinj data m first k a hm hk ha, List.getElem?_eq_getElem hk]
    · rw [List.getElem?_take_eq_none (by omega), List.getElem?_eq_none (by omega)]
  · have hkn : k < n := by omega
    rw [stagedBytes_get hkn, stagedBytes_get hkn, hunwritten k (by omega)]
  · refine List.map_congr_left fun k _ => congrArg (fun o : Option Byte => o.getD 0#8) ?_
    cases ha : stagingAddress other k with
    | none => rfl
    | some a =>
      exact congrArg some (write_far map data m first a hm fun j _ => stagingAddress_apart hother ha)

/-! ### The end of a transfer, well or not -/

theorem isComplete_iff (c : Context) : c.isComplete = true ↔
    c.transfers = [] ∧ ∃ total, c.total = some total ∧ c.coverage = [(0, total)] := by
  unfold Context.isComplete
  cases c.total with
  | none => simp
  | some total => simp [and_comm]

theorem transferEnds_eq {s : State} {i : CtxNo} {c : Context} {tr : Transfer} (h : InFlight s.assembly i c tr)
    (data : List Byte) (hd : data.length = tr.length) :
    transferEnds tr.slot data s =
      (let s := { s with staging := stagingWrite c.blockMap s.staging tr.offset data }
      takeHeld (if c.state = .aborting then abortingTransferEnd i c tr.slot s else gatheringTransferEnd i c tr.slot s)) := by
  obtain ⟨hcontext, hfind⟩ := inFlight_find h
  simp only [transferEnds, hcontext, hfind, landData, toLength_self hd]
  rfl

theorem transferFails_eq {s : State} {i : CtxNo} {c : Context} {tr : Transfer} (h : InFlight s.assembly i c tr) :
    transferFails tr.slot s = takeHeld (if c.state = .aborting then abortingTransferEnd i c tr.slot s
      else gatheringTransferFail i c tr s) := by
  obtain ⟨hcontext, hfind⟩ := inFlight_find h
  simp only [transferFails, hcontext, hfind]

theorem exec_transferEnd {s : State} (hl : s.host.device ≠ .halted) (slot : SlotNo) (data : List Byte) :
    exec (.transferEnd slot data) s = .next (transferEnds slot data s) := by
  change Host.Outcome.next _ = _
  rw [if_pos ((live_iff s).mpr hl)]

theorem exec_transferFail {s : State} (hl : s.host.device ≠ .halted) (slot : SlotNo) :
    exec (.transferFail slot) s = .next (transferFails slot s) := by
  change Host.Outcome.next _ = _
  rw [if_pos ((live_iff s).mpr hl)]

/-- One of several transfers of an ABORTING context ends (R71). -/
theorem abortingTransferEnd_more {i : CtxNo} {c : Context} {slot : SlotNo} {s : State}
    (h : without slot c.transfers ≠ []) : abortingTransferEnd i c slot s = { s with
      host := answered slot .aborted {} s.host
      assembly := { s.assembly with
        contexts := s.assembly.contexts.set i (some { c with transfers := without slot c.transfers }) } } :=
  if_neg h

/-- The state with an ABORTING context gone, and its stream at `x` (R61, R71). -/
def abortedGone (i : CtxNo) (c : Context) (slot : SlotNo) (x : Stream) (s : State) : State := { s with
  host := { answered slot .aborted {} s.host with
    posting := (answered slot .aborted {} s.host).posting ++ discarded c }
  assembly := { s.assembly with
    contexts := s.assembly.contexts.set i none, freeBlocks := s.assembly.freeBlocks ++ mappedBlocks c.blockMap
    streams := s.assembly.streams.set c.stream x } }

theorem abortingTransferEnd_last {i : CtxNo} {c : Context} {slot : SlotNo} {s : State}
    (h : without slot c.transfers = []) : abortingTransferEnd i c slot s =
      (let e := s.assembly.streams[c.stream]
      if e.state = .opened then
        admitStream c.stream (abortedGone i c slot (e.abandon (e.distance c.seq)) s)
      else closeIfDone c.stream (abortedGone i c slot e s)) := by
  have hself : s.assembly.streams.set c.stream s.assembly.streams[c.stream] = s.assembly.streams :=
    Vector.set_getElem_self _
  have hset (o : Option Context) : (s.assembly.contexts.set i o).set i none = s.assembly.contexts.set i none :=
    Vector.set_set ..
  have hgone : discardContext i (c.dropTransfer slot) (complete slot .aborted
      (setContext i (some (c.dropTransfer slot)) s)) = abortedGone i c slot s.assembly.streams[c.stream] s := by
    simp only [discardContext_eq, abortedGone, hself, complete_eq, setContext, State.onAssembly, hset, answered]
    rfl
  have hstream : (abortedGone i c slot s.assembly.streams[c.stream] s).assembly.streams[c.stream] =
      s.assembly.streams[c.stream] := (tableSet_get _ c.stream c.stream _).trans (if_pos rfl)
  have hends : abortingTransferEnd i c slot s = (let s' := abortedGone i c slot s.assembly.streams[c.stream] s
      if s'.assembly.streams[c.stream].state = .opened then admitStream c.stream
        (markAbandoned c.stream (s.assembly.streams[c.stream].distance c.seq) s') else closeIfDone c.stream s') := by
    rw [← hgone]
    exact if_pos h
  rw [hends]
  simp only [hstream]
  split
  · congr 1
    have hagain (x : Stream) : (s.assembly.streams.set c.stream s.assembly.streams[c.stream]).set c.stream x =
        s.assembly.streams.set c.stream x := Vector.set_set ..
    rw [markAbandoned, modStream_eq, hstream]
    exact congrArg (fun v => { abortedGone i c slot s.assembly.streams[c.stream] s with
      assembly := { (abortedGone i c slot s.assembly.streams[c.stream] s).assembly with streams := v } }) (hagain _)
  · rfl

/-- An ABORTING context whose last transfer has ended is gone; its stream goes on by its state (R71). -/
theorem abortingTransferEnd_opened {i : CtxNo} {c : Context} {slot : SlotNo} {s : State}
    (h : without slot c.transfers = []) (ho : s.assembly.streams[c.stream].state = .opened) :
    Run c.stream 8 (abortedGone i c slot (s.assembly.streams[c.stream].abandon
      (s.assembly.streams[c.stream].distance c.seq)) s) (abortingTransferEnd i c slot s) := by
  rw [abortingTransferEnd_last h]
  simp only [if_pos ho]
  exact admitStream_run _ _

theorem abortingTransferEnd_closing {i : CtxNo} {c : Context} {slot : SlotNo} {s : State}
    (h : without slot c.transfers = []) (ho : s.assembly.streams[c.stream].state ≠ .opened) :
    Closes c.stream (abortedGone i c slot s.assembly.streams[c.stream] s) (abortingTransferEnd i c slot s) := by
  rw [abortingTransferEnd_last h]
  simp only [if_neg ho]
  exact closeIfDone_closes _ _

/-- Settles O41: the transfer's context goes on by its state, and a held APPEND is then taken. -/
theorem transfersEnd : Obligations.TransfersEnd := by
  intro s i c tr data hl hf hd a e left staged put complete whole ended gone leads
  set s' : State := { s with staging := staged } with hs'
  have hrun : exec (.transferEnd tr.slot data) s = .next (takeHeld (if c.state = .aborting then
      abortingTransferEnd i c tr.slot s' else gatheringTransferEnd i c tr.slot s')) := by
    rw [exec_transferEnd hl, transferEnds_eq hf data hd]
  have hleads (m : State) (hm : (if c.state = .aborting then abortingTransferEnd i c tr.slot s'
      else gatheringTransferEnd i c tr.slot s') = m) : leads m := by
    simp only [leads, hrun, hm]
    exact takeHeld_taken m
  have hcomplete : (c.dropTransfer tr.slot).isComplete = true ↔ complete := isComplete_iff _
  have hnot (hg : c.state = .gathering) : c.state ≠ .aborting := by rw [hg]; decide
  refine ⟨fun hg hn => ?accepted, fun hg hw => ?whole, fun hb hmore => ?more, fun hb hlast ho => ?opened,
    fun hb hlast ho => ?closing⟩
  case accepted =>
    refine hleads _ ?_
    rw [if_neg (hnot hg)]
    simp only [gatheringTransferEnd, if_neg (mt hcomplete.mp hn)]
    rfl
  case whole =>
    refine ⟨_, ?_, hleads _ (if_neg (hnot hg))⟩
    simp only [gatheringTransferEnd, if_pos (hcomplete.mpr hw)]
    exact admitStream_run _ _
  case more =>
    refine hleads _ ?_
    rw [if_pos hb, abortingTransferEnd_more hmore]
  case opened => exact ⟨_, abortingTransferEnd_opened (s := s') hlast ho, hleads _ (if_pos hb)⟩
  case closing => exact ⟨_, abortingTransferEnd_closing (s := s') hlast ho, hleads _ (if_pos hb)⟩

/-- Settles O43: a GATHERING context loses the fragment, an ABORTING one goes on as at an end; a held APPEND is then
taken. -/
theorem transfersFail : Obligations.TransfersFail := by
  intro s i c tr hl hf a e coverage emptied freed left failed ended gone leads
  have hrun : exec (.transferFail tr.slot) s = .next (takeHeld (if c.state = .aborting then
      abortingTransferEnd i c tr.slot s else gatheringTransferFail i c tr s)) := by
    rw [exec_transferFail hl, transferFails_eq hf]
  have hleads (m : State) (hm : (if c.state = .aborting then abortingTransferEnd i c tr.slot s
      else gatheringTransferFail i c tr s) = m) : leads m := by
    simp only [leads, hrun, hm]
    exact takeHeld_taken m
  have hleft : c.withoutFragment tr = left := rfl
  refine ⟨fun hg hne => ?covered, fun hg he => ?bare, fun hb hmore => ?more, fun hb hlast ho => ?opened,
    fun hb hlast ho => ?closing⟩
  case covered =>
    refine hleads _ ?_
    rw [if_neg hg]
    simp only [gatheringTransferFail, hleft]
    rw [if_neg (by exact hne)]
    rfl
  case bare =>
    refine hleads _ ?_
    rw [if_neg hg]
    simp only [gatheringTransferFail, hleft]
    rw [if_pos (by exact he), discardContext_eq]
    have hset (o : Option Context) : (a.contexts.set i o).set i none = a.contexts.set i none := Vector.set_set ..
    rw [← hset (some left)]
    rfl
  case more =>
    refine hleads _ ?_
    rw [if_pos hb, abortingTransferEnd_more hmore]
  case opened => exact ⟨_, abortingTransferEnd_opened hlast ho, hleads _ (if_pos hb)⟩
  case closing => exact ⟨_, abortingTransferEnd_closing hlast ho, hleads _ (if_pos hb)⟩

end Sys2Proof.Machine
end

section
/-! The happenings of the Journal Writer (R84 to R97). -/

namespace Sys2Proof.Machine

open Sys2Proof.Laws Sys2Proof.Safety

/-- The room check finds room in the OPEN sector (R87). -/
theorem roomCheck_placed {s : State} {i : CtxNo} {c : Context} {n epoch : Nat} (h : InHand s i c n epoch) {o : SectorNo}
    {p : Nat} (ho : IsOpen s.table o) (hp : s.table.entries[o].nextFree = some p)
    (hfits : p + (2 + (c.total.getD 0 + 31) / 32) ≤ 2048) : roomCheck s = placedRecord i c n o p s := by
  have hroom : p + footprint c.payloadLength ≤ 2048 := by
    simp only [footprint, payloadLines, Context.payloadLength]; omega
  simp only [roomCheck, rc_of h, openSector_isOpen ho, hp, if_pos hroom]
  exact placeRecord_eq h.context h.jsn

/-- Without room, or without an OPEN sector, a sector is asked for (R87). -/
theorem roomCheck_asked {s : State} {i : CtxNo} {c : Context} {n epoch : Nat} (h : InHand s i c n epoch)
    (hroom : NoneOpen s.table ∨ ∃ o p, IsOpen s.table o ∧ s.table.entries[o].nextFree = some p ∧
      2048 < p + (2 + (c.total.getD 0 + 31) / 32)) : SectorAsked i c n epoch s (roomCheck s) := by
  have hasks : roomCheck s = askSector s := by
    obtain hnone | ⟨o, p, ho, hp, hfull⟩ := hroom
    · simp only [roomCheck, rc_of h, openSector_none hnone]
    · have hlong : ¬p + footprint c.payloadLength ≤ 2048 := by
        simp only [footprint, payloadLines, Context.payloadLength]; omega
      simp only [roomCheck, rc_of h, openSector_isOpen ho, hp, if_neg hlong]
  rw [hasks]
  exact askSector_asked h

theorem exec_queueHeadTaken {s : State} (hl : s.host.device ≠ .halted) (hidle : s.writer.state = .idle) :
    exec .queueHeadTaken s = .next (takeQueueHead s) := by
  change Host.Outcome.next _ = _
  rw [if_pos ⟨(live_iff s).mpr hl, hidle⟩]

/-- Settles O44: the head becomes WRITING; then the JSN decides, and the room check. -/
theorem queueHeadTaken : Obligations.QueueHeadTaken := by
  intro s i rest c n epoch hl hidle hq hc hj he c' s' F
  have hjsn : s'.writer.jsn = n := by simp only [s', Writer.jsn, hj, Option.getD_some]
  have hrun : exec .queueHeadTaken s =
      .next (if n = 0xFFFFFFFF then failRecord .journalExhausted s' else roomCheck s') := by
    rw [exec_queueHeadTaken hl hidle, ← hjsn]
    simp only [takeQueueHead, hq, State.onWriter_assembly, hc]
    rfl
  have hin : InHand s' i c' n epoch := ⟨rfl, by simp only [s', c', Fin.getElem_fin, Vector.getElem_set_self], hj, he⟩
  refine ⟨fun hn => ⟨_, hrun.trans (by rw [if_pos hn]), failRecord_failed hin.record hin.context (by decide)⟩,
    fun hn => ⟨fun o p ho hp hfits => ?_, fun hroom => ⟨_, hrun.trans (by rw [if_neg hn]), roomCheck_asked hin hroom⟩⟩⟩
  rw [hrun, if_neg hn, roomCheck_placed hin ho hp hfits]

/-- Settles O45: a signalled writer asks; any other state is left as it is. -/
theorem spaceAskedAgain : Obligations.SpaceAskedAgain := by
  intro s i c n epoch hl
  have hlive := (live_iff s).mpr hl
  refine ⟨fun ⟨hw, hs⟩ hin => ⟨_, ?_, askSector_asked ⟨hin.record, hin.context, hin.jsn, hin.epoch⟩⟩, fun h => ?_⟩
  · change Host.Outcome.next _ = _
    rw [if_pos ⟨hlive, hw, hs⟩]
    rfl
  · change Host.Outcome.next _ = _
    rw [if_neg]
    rintro ⟨-, hw, hs⟩
    rcases h with h | h
    · exact h hw
    · rw [hs] at h; exact absurd h (by decide)

/-! ### Sector headers and PADs (R91, R92) -/

theorem exec_sectorHeaderProgrammed {s : State} {ok : Bool} (hr : s.programResult .writer = some ok)
    (hw : s.writer.state = .opening) (hh : s.writer.headerEpoch = none) : exec .sectorHeaderProgrammed s =
      .next (if ok then headerProgrammed (takeOutcome .writer s) else headerProgramFailed (takeOutcome .writer s)) := by
  change Host.Outcome.next _ = _
  simp only [hr, if_pos (And.intro hw hh)]

theorem exec_padProgrammed {s : State} {ok : Bool} {epoch : Nat} (hr : s.programResult .writer = some ok)
    (hw : s.writer.state = .opening) (hh : s.writer.headerEpoch = some epoch) :
    exec .padProgrammed s = .next (padProgrammed epoch ok (takeOutcome .writer s)) := by
  change Host.Outcome.next _ = _
  simp only [hr, hh, if_pos hw]

/-- The sector in hand opens after the OPEN one has been closed (R91, R92). -/
theorem openInHand_closed {s t : State} {k o : SectorNo} {i : CtxNo} {c : Context} {n epoch used : Nat} {fault : Bool}
    (ht : t = closedSector o fault s) (hk : s.writer.sectorInHand = some k) (ho : IsOpen s.table o)
    (hin : InHand s i c n epoch) (hc : c.total.getD 0 ≤ 8192) :
    openInHand used t = placedRecord i c n k 1 (openedSector k used n (closedSector o fault s)) := by
  rw [ht]
  exact openInHand_eq (ep' := epoch) hk (closed_none ho) ⟨hin.record, hin.context, hin.jsn, hin.epoch⟩ hc

theorem advanceEpoch_eq {s : State} {epoch : Nat} (h : s.writer.nextEpoch = some epoch) :
    advanceEpoch s = { s with writer := { s.writer with nextEpoch := some (epoch + 1) } } := by
  rw [← Option.map_some (f := (· + 1)), ← h]
  rfl

theorem SectorEntry.retireLater_eq (e : SectorEntry) (r : RetireReason) : e.retireLater r = marked r e := by
  cases h : e.retirePending with
  | true => rw [SectorEntry.retireLater, if_pos h, marked, if_pos h, ← h]
  | false => rw [SectorEntry.retireLater, if_neg (by rw [h]; decide), marked, if_neg (by rw [h]; decide)]

/-- A header program failure gives the sector back (R23). -/
theorem headerFailed_eq (k : SectorNo) (s : State) : headerFailed k s =
    (let back := { marked .programFail s.table.entries[k] with state := .dirty, inHand := false }
    { s with table := { s.table with entries := s.table.entries.set k back }, reclaim := signalled s.reclaim }) := by
  rw [headerFailed, signalReclaim_eq]
  simp only [modEntry, SectorEntry.retireLater_eq]
  rfl

/-- Settles O46: the OPEN sector is padded, or closed for the sector in hand; a failed header gives its sector back. -/
theorem headersProgrammed : Obligations.HeadersProgrammed := by
  intro s i c n epoch k hin hw hk hfree ht s'
  have hepoch : s.writer.epoch = epoch := by simp only [Writer.epoch, hin.epoch, Option.getD_some]
  have hjsn : s'.writer.jsn = n := by simp only [s', Writer.jsn, hin.jsn, Option.getD_some]
  have hs' : advanceEpoch (takeOutcome .writer s) = s' := advanceEpoch_eq (by exact hin.epoch)
  have hin' : InHand s' i c n (epoch + 1) := ⟨hin.record, hin.context, hin.jsn, rfl⟩
  refine ⟨fun hh ha => ?wrote, fun line blank hh ha => ?failed, fun o used hh ho => ?padded⟩
  case wrote =>
    have hrun : exec .sectorHeaderProgrammed s = .next (headerProgrammed (takeOutcome .writer s)) := by
      rw [exec_sectorHeaderProgrammed (result_ok ha) hw hh, if_pos rfl]
    have hhead : headerProgrammed (takeOutcome .writer s) = match s'.table.openSector with
      | none => openInHand epoch s'
      | some o => match s'.table.entries[o].nextFree with
        | none => openInHand epoch (closeClaim o .full s')
        | some n => if n ≤ 2047 then placeRequest .writer (.programLines o n [padLine s'.writer.jsn])
            (s'.onWriter fun w => { w with headerEpoch := some epoch })
          else openInHand epoch (closeClaim o .full s') := by
      rw [← hs', ← hepoch]; rfl
    refine ⟨fun o p ho hp hle => ?_, fun o ho hp => ?_, fun hnone => ?_⟩
    · rw [hrun, hhead, openSector_isOpen (by exact ho), hjsn]
      simp only [show s'.table.entries[o].nextFree = some p from hp, if_pos hle]
      rfl
    · rw [hrun, hhead, openSector_isOpen (by exact ho)]
      simp only [show s'.table.entries[o].nextFree = some 2048 from hp]
      rw [if_neg (by decide), openInHand_closed (closeClaim_eq o s' .full) hk ho hin' ht]
    · rw [hrun, hhead, openSector_none (by exact hnone)]
      simp only [openInHand_eq (s := s') hk hnone hin' ht]
  case failed =>
    intro back given
    refine ⟨_, ?_, askSector_asked (s := given) ⟨hin.record, hin.context, hin.jsn, rfl⟩⟩
    rw [exec_sectorHeaderProgrammed (result_bad ha) hw hh, if_neg (by decide)]
    simp only [headerProgramFailed, takeOutcome_taken, hk]
    rw [← takeOutcome_taken, hs', headerFailed_eq]
    rfl
  case padded =>
    intro opens
    have hends (ok : Bool) : padProgrammed used ok (takeOutcome .writer s) = opens (!ok) := by
      simp only [padProgrammed]
      rw [openSector_isOpen (by exact ho)]
      exact openInHand_closed ((closeClaim_eq ..).trans (by cases ok <;> rfl)) hk ho
        ⟨hin.record, hin.context, hin.jsn, hin.epoch⟩ ht
    refine ⟨fun ha => ?_, fun line blank ha => ?_⟩
    · rw [exec_padProgrammed (result_ok ha) hw hh, hends]
      rfl
    · rw [exec_padProgrammed (result_bad ha) hw hh, hends]
      rfl

/-! ### Bursts and commit lines (R94 to R96) -/

theorem exec_burstProgrammed {s : State} {ok : Bool} {i : CtxNo} {c : Context} {n epoch : Nat} {pl : Placement}
    (hr : s.programResult .writer = some ok) (hin : InHand s i c n epoch) (hw : s.writer.state = .writing)
    (hpl : s.writer.placement = some pl) : exec .burstProgrammed s =
      .next (if ok then burstDone c pl (takeOutcome .writer s) else relocate c pl (takeOutcome .writer s)) := by
  change Host.Outcome.next _ = _
  simp only [hr, rc_of hin, hpl, if_pos hw]

theorem exec_commitLineProgrammed {s : State} {ok : Bool} {i : CtxNo} {c : Context} {n epoch : Nat} {pl : Placement}
    (hr : s.programResult .writer = some ok) (hin : InHand s i c n epoch) (hw : s.writer.state = .committing)
    (hpl : s.writer.placement = some pl) : exec .commitLineProgrammed s =
      .next (if ok then commitRecord i c pl (takeOutcome .writer s) else relocate c pl (takeOutcome .writer s)) := by
  change Host.Outcome.next _ = _
  simp only [hr, rc_of hin, hpl, if_pos hw]

/-- Settles O47: the next burst is asked for, or the commit line; a failure relocates the record. -/
theorem burstsProgrammed : Obligations.BurstsProgrammed := by
  intro s i c n epoch pl hin hw hpl total commitAt next payload s'
  have hin' : InHand s' i c n epoch := ⟨hin.record, hin.context, hin.jsn, hin.epoch⟩
  have hjsn : s'.writer.jsn = n := by simp only [s', Writer.jsn, hin.jsn, Option.getD_some]
  refine ⟨fun ha hle => ?_, fun line blank ha ho => ⟨_, ?_, relocate_eq hin' ho⟩⟩
  · have hrun : exec .burstProgrammed s = .next (continueRecord c { pl with nextLine := next } s') := by
      rw [exec_burstProgrammed (result_ok ha) hin hw hpl, if_pos rfl]
      rfl
    refine ⟨fun hlt => ?_, fun heq => ?_⟩
    · rw [hrun, continueRecord]
      rw [if_neg (by simp only; omega)]
      rfl
    · rw [hrun, continueRecord, hjsn]
      rw [if_pos (by simp only; omega)]
      rfl
  · rw [exec_burstProgrammed (result_bad ha) hin hw hpl, if_neg (by decide)]
    rfl

/-- The blocks with a record committed with JSN `n`, before its stream may close (R73). -/
def recordDone (i : CtxNo) (c : Context) (n : Nat) (s : State) : State := { s with
  host := match c.deferred with
    | some d => answered d .committed { at4 := BitVec.ofNat 32 n } s.host
    | none => s.host
  assembly := { s.assembly with
    contexts := s.assembly.contexts.set i none, freeBlocks := s.assembly.freeBlocks ++ mappedBlocks c.blockMap
    streams := s.assembly.streams.set c.stream { s.assembly.streams[c.stream] with
      committed := min (s.assembly.streams[c.stream].committed + 1) 0xFFFFFFFF } } }

theorem recordCommitted_eq {s : State} {i : CtxNo} {c : Context} (hc : s.assembly.contexts[i] = some c) (n : Nat) :
    recordCommitted i n s = closeIfDone c.stream (recordDone i c n s) := by
  simp only [recordCommitted, hc, recordDone]
  cases c.deferred <;> rfl

theorem extendClaim_eq (k : SectorNo) (p footprint n : Nat) (s : State) : extendClaim k p footprint n s =
    (let range := s.table.entries[k].range
    let e := { s.table.entries[k] with
      nextFree := some (p + footprint), range := some (match range with | some r => r.1 | none => n, n) }
    { s with table := { s.table with entries := s.table.entries.set k e } }) := by
  simp only [extendClaim, modEntry, tableMod, State.onTable]
  cases s.table.entries[k].range <;> rfl

/-- Settles O48: the record's sector, counters and context are settled, and its stream may close. -/
theorem recordsCommitted : Obligations.RecordsCommitted := by
  intro s i c n epoch pl hin hw hpl a e sector s'
  have hin' : InHand s' i c n epoch := ⟨hin.record, hin.context, hin.jsn, hin.epoch⟩
  have hjsn : s'.writer.jsn = n := by simp only [s', Writer.jsn, hin.jsn, Option.getD_some]
  refine ⟨fun ha => ⟨_, ?_, closeIfDone_closes _ _⟩, fun line blank ha ho => ⟨_, ?_, relocate_eq hin' ho⟩⟩
  · rw [exec_commitLineProgrammed (result_ok ha) hin hw hpl, if_pos rfl]
    rw [commitRecord, extendClaim_eq, show (takeOutcome .writer s).writer.jsn = n from hjsn, recordCommitted_eq (by exact hin.context),
      ← closeIfDone_writer]
    rfl
  · rw [exec_commitLineProgrammed (result_bad ha) hin hw hpl, if_neg (by decide)]
    rfl

end Sys2Proof.Machine
end

section
/-! The happenings of the Reclaim Unit and the Anchor Unit (R30 to R33, R101 to R104, R124 to R127). -/

namespace Sys2Proof.Machine

open Sys2Proof.Laws Sys2Proof.Safety

/-! ### The reclaim test (R101, R102) -/

theorem exec_reclaimTest {s : State} (hl : s.host.device ≠ .halted) (hi : s.reclaim.state = .idle)
    (hs : s.reclaim.signal = true) :
    exec .reclaimTest s = .next (reclaimTest { s with reclaim := { s.reclaim with signal := false } }) := by
  change Host.Outcome.next _ = _
  rw [if_pos ⟨(live_iff s).mpr hl, hi, hs⟩]
  rfl

theorem inState_isEmpty_iff (t : SectorTable) (st : SectorState) :
    (t.inState st).isEmpty = false ↔ ∃ k : SectorNo, t.entries[k].state = st := by
  rw [List.isEmpty_eq_false_iff_exists_mem]
  exact exists_congr fun k => mem_inState t st k

theorem signalWriter_eq (s : State) : signalWriter s = { s with writer := { s.writer with
    spaceSignal := if s.writer.state = .waitingSpace then true else s.writer.spaceSignal } } := by
  by_cases h : s.writer.state = .waitingSpace
  · rw [signalWriter, if_pos h, if_pos h]; rfl
  · rw [signalWriter, if_neg h, if_neg h]

theorem reclaimTestPasses_iff {s : State} {c : Setup} (hc : s.host.setup = some c) : reclaimTestPasses s = true ↔
    s.host.device = .online ∧ s.reclaim.wipeActive = false ∧
      (s.table.freeSet.length < c.reserve ∨ ∃ k : SectorNo, s.table.entries[k].state = .dirty) := by
  rw [← inState_isEmpty_iff]
  simp only [reclaimTestPasses, reserve_of hc, Bool.and_eq_true, Bool.or_eq_true, Bool.not_eq_true', beq_iff_eq,
    decide_eq_true_eq, and_assoc]

/-- A journal sector may be a victim: CLOSED, not pinned, not held (R30). -/
def mayReclaim (t : SectorTable) (holds : HoldTable) (k : SectorNo) : Bool :=
  t.entries[k].state == .closed && t.entries[k].pins == 0 && !heldRange holds t.entries[k].range

theorem mayReclaim_iff (t : SectorTable) (holds : HoldTable) (k : SectorNo) : mayReclaim t holds k = true ↔
    t.entries[k].state = .closed ∧ t.entries[k].pins = 0 ∧
      ∀ a b, t.entries[k].range = some (a, b) → ¬Held holds a b := by
  simp only [mayReclaim, Bool.and_eq_true, Bool.not_eq_true', beq_iff_eq, heldRange_opt, and_assoc]

/-- With no DIRTY sector the victim is the oldest member that may be one (R30). -/
theorem chooseVictim_journal {t : SectorTable} (holds : HoldTable) (hd : ∀ k : SectorNo, t.entries[k].state ≠ .dirty) :
    chooseVictim t holds = t.journal.find? (mayReclaim t holds) := by
  have hnone : allSectors.find? (fun k => t.entries[k].state == .dirty) = none :=
    List.find?_eq_none.mpr fun k _ => by simpa using hd k
  simp only [chooseVictim, hnone]
  rfl

/-- Settles O49: the test, then the victim that R30 chooses. -/
theorem reclaimTested : Obligations.ReclaimTested := by
  intro s c hl hidle hsig hc tested dirty passes may takes
  have hrun := exec_reclaimTest hl hidle hsig
  have hpasses : reclaimTestPasses tested = true ↔ passes := reclaimTestPasses_iff (by exact hc)
  have hmay (k : SectorNo) : mayReclaim s.table s.holds k = true ↔ may k := mayReclaim_iff ..
  refine ⟨fun hp => ?_, fun hp => ?_⟩
  · rw [hrun, reclaimTest, if_neg (mt hpasses.mp hp)]
  · have hasks : exec .reclaimTest s = .next (match chooseVictim s.table s.holds with
        | some i => victimTaken i .reclaiming tested
        | none => signalWriter tested) := by
      rw [hrun, reclaimTest, if_pos (hpasses.mpr hp)]
      simp only [eraseVictim_taken]
      rfl
    have htakes (i : SectorNo) (hv : chooseVictim s.table s.holds = some i) :
        exec .reclaimTest s = .next (takes i) := by
      have hon : s.host.device = .online := hp.1
      rw [hasks, hv]
      simp only [victimTaken, expired, notified, tested, takes, hon]
      rfl
    refine ⟨fun i hi hlow => htakes i (chooseVictim_dirty hi hlow), fun hnone => ⟨fun before i after hj hi hb => ?_,
      fun hnot => ?_⟩⟩
    · refine htakes i ?_
      rw [chooseVictim_journal _ hnone, hj, List.find?_append, List.find?_eq_none.mpr fun k hk => mt (hmay k).mp (hb k hk),
        Option.none_or, List.find?_cons_of_pos ((hmay i).mpr hi)]
    · have hv : chooseVictim s.table s.holds = none := by
        rw [chooseVictim_journal _ hnone]
        exact List.find?_eq_none.mpr fun k hk => mt (hmay k).mp (hnot k hk)
      rw [hasks, hv]
      simp only [signalWriter_eq]
      rfl

/-! ### The end of an erase (R33, R103, R104) -/

theorem eraseResult_of {s : State} {who : Requester} {ok : Bool}
    (h : Answers s who (if ok then .erased else .eraseFailed)) : s.eraseResult who = some ok := by
  obtain ⟨hl, ho⟩ := h
  simp only [State.eraseResult, State.outcomeFor, (live_iff s).mpr hl, if_true, ho]
  cases ok <;> rfl

/-- What the end of an erase makes of a sector: its state, its wear and its retire reason (R33, R103). -/
def eraseLeaves (e : SectorEntry) (ok : Bool) : SectorState × Nat × RetireReason :=
  if ok = false then (.retired, e.wear, .eraseFail)
  else if e.retirePending = true then (.retired, e.wear + 1, e.reason)
  else if 100000 ≤ e.wear + 1 then (.retired, e.wear + 1, .worn) else (.free, e.wear + 1, .noReason)

/-- The entry of a sector after its erase. -/
def erasedEntry (e : SectorEntry) (out : SectorState × Nat × RetireReason) : SectorEntry :=
  { e with corrected := 0, weak := false, retirePending := false, state := out.1, wear := out.2.1, reason := out.2.2 }

theorem settled_leaves (e : SectorEntry) (ok : Bool) :
    e.settled (settlementOf e ok) = erasedEntry e (eraseLeaves e ok) ∧
      ((settlementOf e ok).retires = none ∧ (eraseLeaves e ok).1 = .free ∨
        (settlementOf e ok).retires = some (eraseLeaves e ok).2.2 ∧ (eraseLeaves e ok).1 = .retired) := by
  unfold settlementOf eraseLeaves
  cases ok with
  | false => exact ⟨rfl, .inr ⟨rfl, rfl⟩⟩
  | true =>
    by_cases hp : e.retirePending = true
    · simp only [hp, if_true, Bool.not_true, Bool.false_eq_true, if_false, Bool.true_eq_false]
      exact ⟨rfl, .inr ⟨rfl, trivial⟩⟩
    · by_cases hw : 100000 ≤ e.wear + 1
      · simp only [hp, hw, Config.wearLimit, if_true, Bool.not_true, Bool.false_eq_true, if_false, Bool.true_eq_false]
        exact ⟨rfl, .inr ⟨rfl, trivial⟩⟩
      · simp only [hp, hw, Config.wearLimit, Bool.not_true, Bool.false_eq_true, if_false, Bool.true_eq_false]
        exact ⟨rfl, .inl ⟨rfl, trivial⟩⟩

/-- What an erase of sector `i` has left in the blocks, as against `s` before it. -/
structure EraseLeft (i : SectorNo) (ok : Bool) (s t : State) : Prop where
  entry : t.table.entries[i] = erasedEntry s.table.entries[i] (eraseLeaves s.table.entries[i] ok)
  erased : t.reclaim.sectorsErased =
    if ok then min (s.reclaim.sectorsErased + 1) 0xFFFFFFFF else s.reclaim.sectorsErased
  retired : (eraseLeaves s.table.entries[i] ok).1 = .retired →
    t.reclaim.sectorsRetired = min (s.reclaim.sectorsRetired + 1) 0xFFFFFFFF ∧
      t.anchor.retired.getLsbD i.val = true ∧
      .notice (.sectorRetired i (eraseLeaves s.table.entries[i] ok).2.2) ∈ t.host.posting
  freed : (eraseLeaves s.table.entries[i] ok).1 = .free →
    t.reclaim.sectorsRetired = s.reclaim.sectorsRetired ∧ t.writer.full = false ∧
      (s.writer.full = true → .notice .journalSpace ∈ t.host.posting)
  wear : ∀ k : SectorNo, k ≠ i → t.table.entries[k].wear = s.table.entries[k].wear
  rest : t.reader = s.reader ∧ t.mount = s.mount ∧ t.array = s.array ∧ t.staging = s.staging ∧ t.pending = s.pending

/-- What follows the settlement keeps what it left. -/
theorem EraseLeft.keeps {i : SectorNo} {ok : Bool} {s u t : State} (h : EraseLeft i ok s u) (k : Keeps i u t) :
    EraseLeft i ok s t := by
  obtain ⟨l, hl⟩ := k.posting
  have hposted {p : Posting} (hp : p ∈ u.host.posting) : p ∈ t.host.posting := hl ▸ List.mem_append_left _ hp
  refine ⟨k.entry.trans h.entry, k.erased.trans h.erased, fun hr => ?_, fun hf => ?_,
    fun j hj => (k.wear j).trans (h.wear j hj), ?_⟩
  · obtain ⟨hc, hb, hp⟩ := h.retired hr
    exact ⟨k.retired.trans hc, k.bits _ hb, hposted hp⟩
  · obtain ⟨hc, hw, hp⟩ := h.freed hf
    exact ⟨k.retired.trans hc, k.full.trans hw, fun hfull => hposted (hp hfull)⟩
  · obtain ⟨hreader, hmount, harray, hstaging, hpending⟩ := h.rest
    exact ⟨k.reader.trans hreader, k.mount.trans hmount, k.array.trans harray, k.staging.trans hstaging,
      k.pending.trans hpending⟩

/-- The state with the settlement in the table, and the writer signalled (R33). -/
def entrySettled (i : SectorNo) (ok : Bool) (s : State) : State := { s with
  table := { s.table with
    entries := s.table.entries.set i (erasedEntry s.table.entries[i] (eraseLeaves s.table.entries[i] ok)) }
  writer := { s.writer with
    spaceSignal := if s.writer.state = .waitingSpace then true else s.writer.spaceSignal } }

theorem settleErase_eq (i : SectorNo) (ok : Bool) (s : State) :
    settleErase i (settlementOf s.table.entries[i] ok) s = entrySettled i ok s := by
  rw [settleErase, signalWriter_eq, entrySettled, ← (settled_leaves _ _).1]
  rfl

section
variable {i : SectorNo} {ok : Bool} {s : State}

theorem entrySettled_entry :
    (entrySettled i ok s).table.entries[i] = erasedEntry s.table.entries[i] (eraseLeaves s.table.entries[i] ok) :=
  (tableSet_get ..).trans (if_pos rfl)

theorem entrySettled_wear {k : SectorNo} (hk : k ≠ i) :
    (entrySettled i ok s).table.entries[k].wear = s.table.entries[k].wear :=
  congrArg SectorEntry.wear ((tableSet_get ..).trans (if_neg hk))

/-- The settlement of an erase that leaves the sector FREE. -/
theorem settleSector_freed (hn : Notices s) (h : (settlementOf s.table.entries[i] ok).retires = none)
    (hf : (eraseLeaves s.table.entries[i] ok).1 = .free) : EraseLeft i ok s (settleSector i ok s) := by
  have hset : settleSector i ok s = (spaceRegained (entrySettled i ok s)).onReclaim fun r => { r with
      sectorsErased := if ok then saturate (r.sectorsErased + 1) else r.sectorsErased
      sectorsRetired := r.sectorsRetired, erase := none } := by
    simp only [settleSector, settleErase_eq, h]
    rfl
  have hspace : spaceRegained (entrySettled i ok s) = { entrySettled i ok s with
      writer := { (entrySettled i ok s).writer with full := false }
      host := if s.writer.full then noticed .journalSpace s.host else s.host } := by
    cases hfull : s.writer.full with
    | true => rw [spaceRegained, if_pos (by exact hfull), postNotice_noticed (by exact hn)]; rfl
    | false =>
      have hsame : (entrySettled i ok s).writer = { (entrySettled i ok s).writer with full := false } :=
        congrArg (fun f => { (entrySettled i ok s).writer with full := f }) hfull
      rw [spaceRegained, if_neg (by rw [show (entrySettled i ok s).writer.full = false from hfull]; decide), ← hsame]
      rfl
  rw [hset, hspace]
  refine ⟨entrySettled_entry, rfl, fun hr => ?_, fun _ => ⟨rfl, rfl, fun hfull => ?_⟩, fun k hk => entrySettled_wear hk,
    rfl, rfl, rfl, rfl, rfl⟩
  · rw [hf] at hr; cases hr
  · simp only [State.onReclaim_host, hfull, if_true]
    exact List.mem_append_right _ (List.mem_singleton_self _)

/-- The settlement of an erase that retires the sector (R104). -/
theorem settleSector_retired (hn : Notices s)
    (h : (settlementOf s.table.entries[i] ok).retires = some (eraseLeaves s.table.entries[i] ok).2.2)
    (hr : (eraseLeaves s.table.entries[i] ok).1 = .retired) : EraseLeft i ok s (settleSector i ok s) := by
  obtain ⟨hkeeps, hbit⟩ := takeChange_keeps i (.retire i) (entrySettled i ok s)
  have hset : settleSector i ok s = (retireSector i (eraseLeaves s.table.entries[i] ok).2.2
      (entrySettled i ok s)).onReclaim fun r => { r with
        sectorsErased := if ok then saturate (r.sectorsErased + 1) else r.sectorsErased
        sectorsRetired := saturate (r.sectorsRetired + 1), erase := none } := by
    simp only [settleSector, settleErase_eq, h]
    rfl
  obtain ⟨hdevice, htable⟩ := retire_frame i (entrySettled i ok s)
  have hnotices : Notices (takeChange (.retire i) (entrySettled i ok s)) := by
    rw [Notices, hdevice]; exact hn
  rw [hset, retireSector, postNotice_noticed hnotices]
  refine ⟨?_, ?_, fun _ => ⟨?_, hbit i rfl, List.mem_append_right _ (List.mem_singleton_self _)⟩, fun hf => ?_,
    fun k hk => (hkeeps.wear k).trans (entrySettled_wear hk), hkeeps.reader, hkeeps.mount, hkeeps.array,
    hkeeps.staging, hkeeps.pending⟩
  · exact hkeeps.entry.trans entrySettled_entry
  · simp only [State.onReclaim_reclaim, hkeeps.erased]; rfl
  · simp only [State.onReclaim_reclaim, hkeeps.retired]; rfl
  · rw [hf] at hr; cases hr

theorem settleSector_left (hn : Notices s) : EraseLeft i ok s (settleSector i ok s) := by
  obtain ⟨-, ⟨hn', hf⟩ | ⟨hr', hr⟩⟩ := settled_leaves s.table.entries[i] ok
  · exact settleSector_freed hn hn' hf
  · exact settleSector_retired hn hr' hr

end

theorem settleSector_journal (i : SectorNo) (ok : Bool) (s : State) :
    (settleSector i ok s).table.journal = s.table.journal := by
  simp only [settleSector, settleErase_eq, State.onReclaim_table]
  cases (settlementOf s.table.entries[i] ok).retires with
  | none =>
    simp only [spaceRegained, postNotice_notified]
    split <;> rfl
  | some r =>
    simp only [retireSector, postNotice_notified, (retire_frame i _).2]
    rfl

theorem reclaimTest_keeps {i : SectorNo} {s : State} (hd : s.table.entries[i].state ≠ .dirty) (hj : i ∉ s.table.journal) :
    Keeps i s (reclaimTest s) := by
  unfold reclaimTest
  split
  · split
    · next j hv => exact eraseVictim_keeps s (victim_ne hd hj hv)
    · exact signalWriter_keeps i s
  · exact Keeps.refl i s

theorem continueWipe_keeps {i : SectorNo} {s : State} (hd : s.table.entries[i].state ≠ .dirty)
    (hj : i ∉ s.table.journal) : Keeps i s (continueWipe s) := by
  unfold continueWipe
  split
  · next j hv => exact eraseVictim_keeps s (victim_ne hd hj hv)
  · exact finishWipe_keeps i s

theorem exec_eraseEnd {s : State} {i : SectorNo} {ok : Bool} (he : s.reclaim.erase = some i)
    (ha : Answers s .reclaim (if ok then .erased else .eraseFailed)) :
    exec .eraseEnd s = .next (eraseEnded i ok (takeOutcome .reclaim s)) := by
  change Host.Outcome.next _ = _
  simp only [eraseResult_of ha, he]

/-- Settles O50: the settlement, then what the unit's state says, which keeps what the settlement left. -/
theorem erasesSettled : Obligations.ErasesSettled := by
  intro s i ok he hst hj hn ha e left outcome
  set s' : State := { s with ctrl := taken .reclaim s.ctrl } with hs'
  have hleft : EraseLeft i ok s' (settleSector i ok s') := settleSector_left (by exact hn)
  obtain ⟨hstate, hsignal, hdevice⟩ := settle_frame i ok s'
  have hsettles := settleSector_settles i ok s'
  have hrun : exec .eraseEnd s = .next (eraseEnded i ok s') := exec_eraseEnd he ha
  have hjournal : (settleSector i ok s').table.journal = s.table.journal := settleSector_journal ..
  set u := settleSector i ok s' with hu
  have hdirty : u.table.entries[i].state ≠ .dirty := by
    rw [hleft.entry]
    obtain ⟨-, ⟨-, hf⟩ | ⟨-, hr⟩⟩ := settled_leaves s'.table.entries[i] ok
    · exact fun h => absurd (hf.symm.trans h) (by decide)
    · exact fun h => absurd (hr.symm.trans h) (by decide)
  have hout : i ∉ u.table.journal := by rw [hjournal]; exact hj
  have hends : eraseEnded i ok s' = match u.reclaim.state with
      | .wiping => continueWipe u
      | .reclaiming => reclaimTest (u.onReclaim fun r => { r with state := .idle })
      | .idle => u
      | .wipeFinishing => u := rfl
  have hkeeps : Keeps i u (eraseEnded i ok s') := by
    rw [hends]
    split
    · exact continueWipe_keeps hdirty hout
    · have hrests : Keeps i u (u.onReclaim fun r => { r with state := .idle }) :=
        .mk' rfl rfl rfl (fun _ h => h) ⟨[], (List.append_nil _).symm⟩ rfl rfl rfl rfl rfl rfl
      exact hrests.trans (reclaimTest_keeps hdirty hout)
    · exact Keeps.refl i u
    · exact Keeps.refl i u
  have hall := hleft.keeps hkeeps
  refine ⟨u, eraseEnded i ok s', hrun, hsettles, ?_, ?_, ?_,
    hall.entry, hall.erased, hall.retired, hall.freed, hall.wear, hall.rest⟩
  · intro hw
    rw [hends, hstate, show s'.reclaim.state = .wiping from hw]
    exact continueWipe_goesOn u
  · intro hr hsig
    have hquiet : u.reclaim.signal = false := hsignal.trans hsig
    rw [exec_reclaimTest (by rw [hdevice]; exact ha.1) rfl rfl, hends, hstate, show s'.reclaim.state = .reclaiming from hr]
    rw [← hquiet]
    rfl
  · rw [hends, hstate]
    rintro (h | h)
    · rw [show s'.reclaim.state = .idle from h]
    · rw [show s'.reclaim.state = .wipeFinishing from h]

end Sys2Proof.Machine
end

section
/-! The programs of a snapshot and the rollover (R21, R112, R124 to R128). -/

namespace Sys2Proof.Machine

open Sys2Proof.Laws Sys2Proof.Safety

theorem exec_snapshotProgramEnd {s : State} {snap : Snapshot} {ok : Bool} (hr : s.programResult .anchor = some ok)
    (hs : s.anchor.snapshot = some snap) (hw : s.anchor.state = .writing) :
    exec .snapshotProgramEnd s = .next (snapshotPartEnded snap ok (takeOutcome .anchor s)) := by
  change Host.Outcome.next _ = _
  simp only [hr, hs, if_pos hw]

theorem exec_rolloverEraseEnd {s : State} {snap : Snapshot} {ok : Bool} (hr : s.eraseResult .anchor = some ok)
    (hs : s.anchor.snapshot = some snap) (hw : s.anchor.state = .rollingOver) :
    exec .rolloverEraseEnd s = .next (rolloverEnded snap ok (takeOutcome .anchor s)) := by
  change Host.Outcome.next _ = _
  simp only [hr, hs, if_pos hw]

/-- The next part of the snapshot is asked for in its slot (R124). -/
theorem snapshotPartEnded_next {s : State} {snap : Snapshot} (hw : s.anchor.state = .writing) {next : Fin 4}
    (h : snap.request ≠ 3) (hnext : next = snap.request + 1) :
    snapshotPartEnded snap true s = { s with
      anchor := { s.anchor with snapshot := some { snap with request := next } }
      ctrl := asked .anchor (.programLines (anchorSector s.anchor.active) (32 * snap.slot + (snapshotPart next).1)
        (((snapshotLines snap.generation snap.holds snap.retired).drop (snapshotPart next).1).take (snapshotPart next).2))
        s.ctrl } := by
  subst hnext
  have hwriting : ({ s.anchor with
      state := .writing, snapshot := some { snap with request := snap.request + 1 } } : Anchor) =
      { s.anchor with snapshot := some { snap with request := snap.request + 1 } } := by rw [← hw]
  rw [snapshotPartEnded, if_pos rfl, if_neg h, ← hwriting]
  rfl

/-- The changes a snapshot covers are settled in order (R125). -/
theorem foldValidated_eq (l : List Change) (s : State) :
    l.foldl (fun s c => changeValidated c s) s = l.foldl (fun x c => validated c x) s := by
  simp only [changeValidated_validated]

/-- The state with the changes of a validated snapshot settled (R125). -/
def coveredSettled (snap : Snapshot) (s : State) : State :=
  s.anchor.covered.foldl (fun x c => validated c x) { s with anchor := { s.anchor with
    generation := snap.generation, snapshot := none, covered := [], state := .idle } }

/-- The last part validates the snapshot; the changes that waited start the next one (R125). -/
theorem snapshotPartEnded_last {s : State} {snap : Snapshot} (h : snap.request = 3) :
    snapshotPartEnded snap true s =
      if s.anchor.pendingFlag = true then startSnapshot { coveredSettled snap s with
        anchor := { (coveredSettled snap s).anchor with covered := s.anchor.waiting, waiting := [], pendingFlag := false } }
      else coveredSettled snap s := by
  rw [snapshotPartEnded, if_pos rfl, if_pos h, snapshotValidated]
  have hanchor := foldValidated_anchor s.anchor.covered (s.onAnchor fun a => { a with
    generation := snap.generation, snapshot := none, covered := [], state := .idle })
  simp only [foldValidated_eq] at hanchor ⊢
  set u := s.anchor.covered.foldl (fun x c => validated c x) (s.onAnchor fun a => { a with
    generation := snap.generation, snapshot := none, covered := [], state := .idle }) with hu
  have hpending : u.anchor.pendingFlag = s.anchor.pendingFlag := by rw [hanchor]; rfl
  have hnext : (u.onAnchor fun a => { a with covered := a.waiting, waiting := [], pendingFlag := false }) =
      { u with anchor := { u.anchor with covered := s.anchor.waiting, waiting := [], pendingFlag := false } } := by
    have hwaiting : u.anchor.waiting = s.anchor.waiting := by rw [hanchor]; rfl
    rw [← hwaiting]
    rfl
  rw [hpending, hnext]
  rfl

/-- A failed program takes the next slot, then the other sector, then fails the anchor (R124, R126, R127). -/
theorem snapshotPartEnded_failed (s : State) (snap : Snapshot) : snapshotPartEnded snap false s =
    (if snap.attempts + 1 < 3 ∧ s.anchor.nextSlot ≤ 63 then beginAttempt { snap with attempts := snap.attempts + 1 } s
    else if snap.rolled then anchorFails s else beginRollover { snap with attempts := snap.attempts + 1 } s) := rfl

/-- Settles O51: the four parts in turn, a failed part, and the rollover erase. -/
theorem snapshotsWritten : Obligations.SnapshotsWritten := by
  intro s snap hsnap lines s' asks part begins
  refine ⟨fun hw ha => ?wrote, fun line blank hw ha => ?failed, fun hroll => ?rolled⟩
  case wrote =>
    have hrun := exec_snapshotProgramEnd (result_ok ha) hsnap hw
    have hpart (next : Fin 4) (h : snap.request ≠ 3) (hnext : next = snap.request + 1) := hrun.trans
      (congrArg Host.Outcome.next (snapshotPartEnded_next (s := takeOutcome .anchor s) hw h hnext))
    refine ⟨fun h => hpart 1 (by rw [h]; decide) (by rw [h]; rfl), fun h => hpart 2 (by rw [h]; decide) (by rw [h]; rfl),
      fun h => hpart 3 (by rw [h]; decide) (by rw [h]; rfl), fun h => ?_⟩
    refine ⟨fun hp => ?_, fun hp => ⟨_, ?_, startSnapshot_starts _⟩⟩
    · rw [hrun, snapshotPartEnded_last h, if_neg (by exact (Bool.eq_false_iff.mp hp))]
      rfl
    · rw [hrun, snapshotPartEnded_last h, if_pos (by exact hp)]
      rfl
  case failed =>
    have hrun : exec .snapshotProgramEnd s = .next (snapshotPartEnded snap false s') :=
      exec_snapshotProgramEnd (result_bad ha) hsnap hw
    refine ⟨fun hlt hle => ?_, fun hno => ?_⟩
    · rw [hrun, snapshotPartEnded_failed, if_pos ⟨hlt, hle⟩]
      rfl
    · have hends : ¬(snap.attempts + 1 < 3 ∧ s'.anchor.nextSlot ≤ 63) := by
        simp only [s']; omega
      refine ⟨fun hr => ?_, fun hr => ?_⟩
      · rw [hrun, snapshotPartEnded_failed, if_neg hends, hr]
        rfl
      · rw [hrun, snapshotPartEnded_failed, if_neg hends, if_pos hr, anchorFails_lost]
  case rolled =>
    intro other e
    refine ⟨fun ha => ?_, fun ha => ?_⟩
    · rw [exec_rolloverEraseEnd (ok := true) (eraseResult_of ha) hsnap hroll]
      rfl
    · rw [exec_rolloverEraseEnd (ok := false) (eraseResult_of ha) hsnap hroll, rolloverEnded, if_neg (by decide),
        anchorFails_lost]
      rfl

end Sys2Proof.Machine
end

section
/-! The Read Unit's happenings (R133 to R144). -/

namespace Sys2Proof.Machine

open Sys2Proof.Laws Sys2Proof.Safety

/-! ### Beginning a read (R135, R140) -/

/-- A head that begins and leaves the rest of the FIFO in place begins the next read too, if it ends at once. -/
theorem nextRead_head {s : State} {r : Routed} {rest : List Routed} (ha : s.reader.active = none)
    (hf : s.reader.fifo = r :: rest) (hb : (beginHead r rest s).reader.fifo = rest) :
    nextRead s = nextRead (beginHead r rest s) := by
  have hs : nextRead s = beginHeads (r :: rest) s := by rw [nextRead, if_pos (by rw [ha]; rfl), hf]
  rw [hs, beginHeads, nextRead, hb]

theorem exec_readBegin {s : State} {slot jsn address length header rest} (hl : s.host.device ≠ .halted)
    (hf : s.reader.fifo = ⟨slot, .read jsn address length header⟩ :: rest) : exec .readBegin s = .next (nextRead s) := by
  change Host.Outcome.next _ = _
  rw [hf]
  exact congrArg Host.Outcome.next (if_pos ((live_iff s).mpr hl))

theorem exec_scanBegin {s : State} {slot first filter most address length rest} (hl : s.host.device ≠ .halted)
    (hf : s.reader.fifo = ⟨slot, .scan first filter most address length⟩ :: rest) :
    exec .scanBegin s = .next (nextRead s) := by
  change Host.Outcome.next _ = _
  rw [hf]
  exact congrArg Host.Outcome.next (if_pos ((live_iff s).mpr hl))

/-- The state in which a sector is pinned for the active read, and its first header line asked for (R135, R140). -/
def pinnedFor (i : SectorNo) (s : State) : State := headerAsked i 1 { pinned i s with
  reader := { s.reader with pinned := some i, expected := s.table.entries[i].baseJsn.getD 0, tally := 0 } }

theorem holdPinned_eq (i : SectorNo) (s : State) : holdPinned i (pinSector i s) = { pinned i s with
    reader := { s.reader with pinned := some i, expected := s.table.entries[i].baseJsn.getD 0, tally := 0 } } := by
  have hbase : (pinned i s).table.entries[i].baseJsn = s.table.entries[i].baseJsn :=
    (congrArg SectorEntry.baseJsn (tableSet_get ..)).trans (by rw [if_pos rfl])
  rw [pin_pinned, holdPinned, hbase]
  rfl

/-- A read with a pin goes on; one that has ended lets the next begin. -/
theorem nextRead_pinned {i : SectorNo} {s : State} {r : Routed} (h : s.reader.active = some r) :
    nextRead (pinnedFor i s) = pinnedFor i s :=
  nextRead_active (by rw [show (pinnedFor i s).reader.active = some r from h]; rfl)

section
variable {s : State} {r : Routed} {rest : List Routed} {n jsn : Nat}

theorem beginRead_notYet (hn : s.writer.jsn ≤ jsn) : beginRead r jsn rest s =
    finishRead .notYet {} { s with reader := { s.reader with fifo := rest, active := some r, scan := none } } :=
  if_pos hn

theorem beginRead_expired (hn : ¬s.writer.jsn ≤ jsn) (h : s.table.locate jsn = none) : beginRead r jsn rest s =
    finishRead .expired {} { s with reader := { s.reader with fifo := rest, active := some r, scan := none } } := by
  simp only [beginRead, State.onReader_writer, State.onReader_table, hn, if_false, h]
  rfl

theorem beginRead_pinned {i : SectorNo} (hn : ¬s.writer.jsn ≤ jsn) (h : s.table.locate jsn = some i) :
    beginRead r jsn rest s =
      pinnedFor i { s with reader := { s.reader with fifo := rest, active := some r, scan := none } } := by
  simp only [beginRead, State.onReader_writer, State.onReader_table, hn, if_false, h, holdPinned_eq]
  rfl

variable {first : Nat}

theorem beginScan_skipped (h : s.table.lowestSurviving first = none) (hn : first < s.writer.jsn) :
    beginScan r first rest s = finishRead .ok { at4 := BitVec.ofNat 32 s.writer.jsn, at14 := true } { s with
      reader := { s.reader with fifo := rest, active := some r, scan := some ⟨0, 0, true, first⟩ } } := by
  simp only [beginScan, State.onReader_writer, State.onReader_table, hn, if_true, h]
  rfl

theorem beginScan_past (h : s.table.lowestSurviving first = none) (hn : ¬first < s.writer.jsn) :
    beginScan r first rest s = finishRead .ok { at4 := BitVec.ofNat 32 first } { s with
      reader := { s.reader with fifo := rest, active := some r, scan := some ⟨0, 0, false, first⟩ } } := by
  simp only [beginScan, State.onReader_writer, State.onReader_table, hn, if_false, h]
  rfl

theorem beginScan_pinned {i : SectorNo} {g : Nat} (h : s.table.lowestSurviving first = some (i, g))
    (hn : s.table.entries[i].baseJsn.getD 0 < s.writer.jsn) : beginScan r first rest s = pinnedFor i { s with
      reader := { s.reader with fifo := rest, active := some r, scan := some ⟨0, 0, decide (first < g), g⟩ } } := by
  have hgo : ¬s.writer.jsn ≤ s.table.entries[i].baseJsn.getD 0 := by omega
  simp only [beginScan, State.onReader_table, h, holdPinned_eq, scanHeader]
  rw [if_neg (by exact hgo)]
  rfl

end

/-- Settles O52: the head ends at once, or pins the member that R26 and R27 find. -/
theorem readsBegin : Obligations.ReadsBegin := by
  intro s slot rest address length n hl ha hp hn begun pins ends
  have hjsn : s.writer.jsn = n := by rw [Writer.jsn, hn]; rfl
  have hlive := (live_iff s).mpr hl
  refine ⟨fun jsn header hf => ?read, fun f filter most hf => ?scan⟩
  case read =>
    intro c has
    have hrun := exec_readBegin hl hf
    have hends (status : Status) (hb : beginHead ⟨slot, c⟩ rest s = finishRead status {} (begun c none)) :
        ends status {} c (exec .readBegin s) := by
      have hended : beginHead ⟨slot, c⟩ rest s = endedRead slot status {} (begun c none) :=
        hb.trans (finish_plain (cmd := c) rfl hp)
      rw [hrun, nextRead_head ha hf (by rw [hended]; rfl), hended]
      exact nextRead_continues (by exact hlive)
    refine ⟨fun hle => hends _ (beginRead_notYet (by rw [hjsn]; exact hle)), fun hlt hnot =>
      hends _ (beginRead_expired (by rw [hjsn]; omega) (locate_none hnot)), fun hlt before i after hj hi hb => ?_⟩
    have hpin : beginHead ⟨slot, c⟩ rest s = pinnedFor i (begun c none) :=
      beginRead_pinned (by rw [hjsn]; omega) (locate_some hj hi hb)
    rw [hrun, nextRead_head ha hf (by rw [hpin]; rfl), hpin, nextRead_pinned rfl]
    rfl
  case scan =>
    intro c below
    have hrun := exec_scanBegin hl hf
    have hends (r : Results) (g : ScanProgress)
        (hb : beginHead ⟨slot, c⟩ rest s = finishRead .ok r (begun c (some g))) : ends .ok r c (exec .scanBegin s) := by
      have hended : beginHead ⟨slot, c⟩ rest s = endedRead slot .ok r (begun c none) :=
        hb.trans (finish_plain (s := begun c (some g)) (cmd := c) rfl hp)
      rw [hrun, nextRead_head ha hf (by rw [hended]; rfl), hended]
      exact nextRead_continues (by exact hlive)
    refine ⟨fun hb hlt => ?_, fun hb hle => hends _ _ (beginScan_past (lowest_none hb) (by rw [hjsn]; omega)),
      fun before i after a b hj hr hle hb hbase => ?_⟩
    · rw [← hjsn]
      exact hends _ _ (beginScan_skipped (lowest_none hb) (by rw [hjsn]; exact hlt))
    · have hpin : beginHead ⟨slot, c⟩ rest s = pinnedFor i (begun c (some ⟨0, 0, decide (f < max f a), max f a⟩)) :=
        beginScan_pinned (lowest_some hj hr hle hb) (by rw [hjsn]; exact hbase)
      have hskips : decide (f < a) = decide (f < max f a) := decide_eq_decide.mpr (by omega)
      rw [hrun, nextRead_head ha hf (by rw [hpin]; rfl), hpin, nextRead_pinned rfl, hskips]
      rfl

end Sys2Proof.Machine
end

section
/-! What the Read Unit does with the lines it reads, and with the end of an image's write (R134 to R144). -/

namespace Sys2Proof.Machine

open Sys2Proof.Laws Sys2Proof.Safety

theorem linesResult_of {s : State} {who : Requester} {l : List LineOutcome} (h : Answers s who (.lines l)) :
    s.linesResult who = some l := by
  obtain ⟨hl, ho⟩ := h
  simp only [State.linesResult, State.outcomeFor, (live_iff s).mpr hl, if_true, ho]

/-- The state of the Read Unit with its lines taken and their corrected ones counted (R134). -/
def linesTaken (l : List LineOutcome) (s : State) : State := { s with
  ctrl := taken .reader s.ctrl, reader := { s.reader with tally := s.reader.tally + correctedLines l } }

theorem exec_readUnitLinesRead {s : State} {l : List LineOutcome} {i : SectorNo} {stage : ReadStage}
    (ha : Answers s .reader (.lines l)) (hp : s.reader.pinned = some i) (hs : s.reader.stage = some stage) :
    exec .readUnitLinesRead s = .next (nextRead (match stage with
      | .header p => headerRead i p (firstLine l) (linesTaken l s)
      | .commit p h => commitRead i p h (firstLine l) (linesTaken l s)
      | .payload p h crc got => payloadRead i p h crc got l (linesTaken l s)
      | .image _ _ _ => linesTaken l s)) := by
  change Host.Outcome.next _ = _
  simp only [linesResult_of ha, hp, hs]
  cases stage <;> rfl

/-! ### A read in progress -/

section
variable {u : State} {slot : SlotNo} {cmd : Cmd} {i : SectorNo}

/-- A check that fails ends the read, a SCAN with its results (R137, R139, R142). -/
theorem checkFailed_ends {h : RecordHeader} {status : Status} (hl : u.live = true)
    (ha : u.reader.active = some ⟨slot, cmd⟩) (hp : u.reader.pinned = some i) :
    EndsAt slot i status h.jsn u (.next (nextRead (checkFailed h status u))) := by
  unfold checkFailed
  split
  · next hs => exact finishScan_ends hl ha hp hs
  · next hs => exact finishRead_ends hl ha hp (Option.not_isSome_iff_eq_none.mp hs)

/-- A READ of a record that is not the one met, or a SCAN that does not want it, moves on. -/
theorem recordMet_read {p : Nat} {h : RecordHeader} {crc : Word} {jsn address length header}
    (ha : u.reader.active = some ⟨slot, .read jsn address length header⟩) :
    recordMet i p h crc u = if h.jsn = jsn then beginCheck i p h crc u else moveOn i p h u := by
  simp only [recordMet, ha]

theorem recordMet_scan {p : Nat} {h : RecordHeader} {crc : Word} {f filter most address length} {g : ScanProgress}
    (ha : u.reader.active = some ⟨slot, .scan f filter most address length⟩) (hg : u.reader.scan = some g) :
    (¬Wanted filter g h → recordMet i p h crc u = moveOn i p h u) ∧
      (Wanted filter g h → recordMet i p h crc u = offerRecord i p h crc length g u) := by
  simp only [recordMet, ha, hg, Wanted]
  by_cases hj : h.jsn < g.startJsn
  · exact ⟨fun _ => if_pos hj, fun hw => absurd hw.1 (by omega)⟩
  · cases filter with
    | none => exact ⟨fun hw => absurd ⟨by omega, nofun⟩ hw, fun _ => if_neg hj⟩
    | some st =>
      by_cases hst : h.stream = st
      · exact ⟨fun hw => absurd ⟨by omega, by rintro _ ⟨⟩; exact hst⟩ hw, fun _ => by rw [if_neg hj]; exact if_pos hst⟩
      · exact ⟨fun _ => by rw [if_neg hj]; exact if_neg hst, fun hw => absurd (hw.2 st rfl) hst⟩

/-- A wanted record that fits, or that would be the first, has its check begun (R142). -/
theorem offerRecord_checks {p : Nat} {h : RecordHeader} {crc : Word} {length : Nat} {g : ScanProgress}
    (hf : g.placed + (32 + 8 * ((h.length + 7) / 8)) ≤ length ∨ g.count = 0) :
    offerRecord i p h crc length g u = beginCheck i p h crc u := by
  unfold offerRecord imageLength
  split
  · rfl
  · next hlong => exact if_neg (by omega)

/-- A payload run is asked for (R137). -/
def payloadAsked (i : SectorNo) (p : Nat) (h : RecordHeader) (crc : Word) (got : Nat) (image : List Byte) (u : State) :
    State := { u with
  reader := { u.reader with image := image, stage := some (.payload p h crc got) }
  ctrl := asked .reader (.readLines i (p + 1 + got) (min 64 ((h.length + 31) / 32 - got))) u.ctrl }

theorem beginCheck_eq (i : SectorNo) (p : Nat) (h : RecordHeader) (crc : Word) (u : State) :
    beginCheck i p h crc u = payloadAsked i p h crc 0 (descriptor h) u := rfl

theorem nextRead_payloadAsked {p h crc got image} (ha : u.reader.active = some ⟨slot, cmd⟩) :
    nextRead (payloadAsked i p h crc got image u) = payloadAsked i p h crc got image u :=
  nextRead_active (by rw [show (payloadAsked i p h crc got image u).reader.active = some ⟨slot, cmd⟩ from ha]; rfl)

/-- The image of a record is written to the host, after its check (R138, R139, R142). -/
theorem deliver_read {p : Nat} {h : RecordHeader} {jsn address length header}
    (ha : u.reader.active = some ⟨slot, .read jsn address length header⟩) : deliver p h u =
      if header then issueImage p h false address (descriptor h) u
      else if imageLength h.length ≤ length then issueImage p h false address (u.reader.wholeImage h) u
      else issueImage p h true address (descriptor h) u := by
  simp only [deliver, ha]

theorem deliver_scan {p : Nat} {h : RecordHeader} {f filter most address length} {g : ScanProgress}
    (ha : u.reader.active = some ⟨slot, .scan f filter most address length⟩) (hg : u.reader.scan = some g) :
    deliver p h u = if g.placed + imageLength h.length ≤ length then
        issueImage p h false (address + BitVec.ofNat 64 g.placed) (u.reader.wholeImage h) u
      else issueImage p h true address (descriptor h) u := by
  simp only [deliver, ha, hg]

theorem nextRead_issueImage {p h short address bytes} (ha : u.reader.active = some ⟨slot, cmd⟩) :
    nextRead (issueImage p h short address bytes u) = issueImage p h short address bytes u :=
  nextRead_active (by rw [show (issueImage p h short address bytes u).reader.active = some ⟨slot, cmd⟩ from ha]; rfl)

end

/-- Settles O53: each stage, by what its lines show. -/
theorem walkedLines : Obligations.WalkedLines := by
  intro s l i slot cmd n ha hp hact hn _ o s' asks check
  have hl : s'.live = true := (live_iff s).mpr ha.1
  have hn' : s'.writer.nextJsn = some n := hn
  have hp' : s'.reader.pinned = some i := hp
  have hact' : s'.reader.active = some ⟨slot, cmd⟩ := hact
  have hcheck (p : Nat) (h : RecordHeader) (crc : Word) (got : Nat) (image : List Byte) :
      nextRead (payloadAsked i p h crc got image s') = check p h crc got image := nextRead_payloadAsked hact'
  refine ⟨fun p x hs hx => ?header, fun p h x hs hx => ?commit, fun p h crc got hs => ?payload⟩
  case header =>
    subst hx
    have hrun : o = .next (nextRead (headerRead i p x s')) := exec_readUnitLinesRead ha hp hs
    have hview : viewHeader s'.reader.expected p x = viewHeader s.reader.expected p x := rfl
    have hwalk (e : WalkEnd) (he : headerRead i p x s' = walkEnded e i s') : WalkEnds slot i (decayStatus e) n s' o := by
      rw [hrun, he]
      exact walkEnded_ends hl hact' hp' hn'
    refine ⟨fun h hh => ?_, ?_, fun hh => hwalk (.torn true) (by simp only [headerRead, hview, hh])⟩
    · rw [hrun]
      simp only [headerRead, hview, hh]
      exact congrArg Host.Outcome.next (nextRead_active (by exact Option.isSome_iff_exists.mpr ⟨_, hact'⟩))
    · rintro (hh | hh | hh)
      · exact hwalk .erased (by simp only [headerRead, hview, hh])
      · exact hwalk .pad (by simp only [headerRead, hview, hh])
      · exact hwalk (.torn false) (by simp only [headerRead, hview, hh])
  case commit =>
    subst hx
    have hrun : o = .next (nextRead (commitRead i p h x s')) := exec_readUnitLinesRead ha hp hs
    refine ⟨fun crc hc => ?_, fun hc => ?_⟩
    · have hmet : o = .next (nextRead (recordMet i p h crc s')) := by
        rw [hrun]; simp only [commitRead, hc]
      refine ⟨fun jsn address length header hcmd => ?_, fun f filter most address length g hcmd hg => ?_⟩
      · subst hcmd
        refine ⟨fun hj => ?_, fun hj => ?_⟩
        · rw [hmet, recordMet_read hact', if_pos hj, beginCheck_eq, hcheck]
        · rw [hmet, recordMet_read hact', if_neg hj]
          exact moveOn_moves hl hact' hp' hn'
      · subst hcmd
        obtain ⟨hno, hyes⟩ := recordMet_scan (i := i) (p := p) (h := h) (crc := crc) hact' (by exact hg)
        refine ⟨fun hw => ?_, fun hw hf => ?_, fun hw hf hcount => ?_⟩
        · rw [hmet, hno hw]
          exact moveOn_moves hl hact' hp' hn'
        · rw [hmet, hyes hw, ← hcheck, ← beginCheck_eq, offerRecord_checks hf]
        · rw [hmet, hyes hw, offerRecord, if_neg (by exact hf), if_pos (Nat.pos_of_ne_zero hcount)]
          exact finishScan_ends hl hact' hp' (by rw [show s'.reader.scan = some g from hg]; rfl)
    · have hstatus : (if x = .uncorrectable then Status.mediaError else .corrupt) =
          decayStatus (.torn (x == .uncorrectable)) := by
        by_cases hx : x = .uncorrectable
        · rw [if_pos hx, hx]; rfl
        · rw [if_neg hx, beq_eq_false_iff_ne.mpr hx]; rfl
      rw [hrun, hstatus]
      simp only [commitRead, hc]
      exact walkEnded_ends hl hact' hp' hn'
  case payload =>
    have hrun : o = .next (nextRead (payloadRead i p h crc got l s')) := exec_readUnitLinesRead ha hp hs
    refine ⟨fun hbad => ?_, fun lines hlines => ?_⟩
    · rw [hrun, payloadRead, hbad]
      exact checkFailed_ends hl hact' hp'
    · intro image payload all whole writes
      set u : State := { s' with reader := { s'.reader with image := image } } with hu
      have hread : payloadRead i p h crc got l s' =
          if got + l.length < (h.length + 31) / 32 then requestPayload i p h crc (got + l.length) u
          else if crc32 payload = crc then deliver p h u else checkFailed h .corrupt u := by
        rw [payloadRead, hlines]
        rfl
      refine ⟨fun hlt => ?_, fun hle => ⟨fun hcrc => ?_, fun hcrc => ?_⟩⟩
      · rw [hrun, hread, if_pos hlt, ← hcheck]
        rfl
      · rw [hrun, hread, if_neg (by omega), if_neg hcrc]
        exact checkFailed_ends (u := u) hl hact' hp'
      · have hdeliver : o = .next (nextRead (deliver p h u)) := by
          rw [hrun, hread, if_neg (by omega), if_pos hcrc]
        have hissue (short : Bool) (address : Addr) (bytes : List Byte) :
            nextRead (issueImage p h short address bytes u) = writes short address bytes := nextRead_issueImage hact'
        refine ⟨fun jsn address length header hcmd => ?_, fun f filter most address length g hcmd hg => ?_⟩
        · subst hcmd
          refine ⟨fun hh => ?_, fun hh hfits => ?_, fun hh hlong => ?_⟩
          · rw [hdeliver, deliver_read (u := u) hact', if_pos hh, hissue]
          · rw [hdeliver, deliver_read (u := u) hact', if_neg (by rw [hh]; decide), if_pos (by exact hfits), hissue]
            rfl
          · rw [hdeliver, deliver_read (u := u) hact', if_neg (by rw [hh]; decide), if_neg (by exact Nat.not_le_of_gt hlong), hissue]
        · subst hcmd
          refine ⟨fun hfits => ?_, fun hlong => ?_⟩
          · rw [hdeliver, deliver_scan (u := u) (g := g) hact' (by exact hg), if_pos (by exact hfits), hissue]
            rfl
          · rw [hdeliver, deliver_scan (u := u) (g := g) hact' (by exact hg), if_neg (by exact Nat.not_le_of_gt hlong), hissue]

/-! ### The end of an image's write (R138, R139, R142) -/

theorem exec_imageWriteEnd {s : State} {i : SectorNo} {p : Nat} {h : RecordHeader} {short : Bool} {w : BusWrite}
    (hl : s.host.device ≠ .halted) (hs : s.reader.stage = some (.image p h short)) (hp : s.reader.pinned = some i)
    (hw : s.reader.write = some w) (ok : Bool) :
    exec (.imageWriteEnd ok) s = .next (nextRead (imageWritten i p h short ok w.bytes.length s)) := by
  change Host.Outcome.next _ = _
  simp only [hs, hp, hw, (live_iff s).mpr hl, if_true]

/-- The state of a SCAN that has placed a record's image (R142). -/
def recordPlaced (g : ScanProgress) (written : Nat) (s : State) : State := { s with reader := { s.reader with
  write := none, stage := none, scan := some { g with count := g.count + 1, placed := g.placed + written } } }

/-- Leaving a sector touches nothing of the Read Unit but the tally. -/
theorem sectorLeft_onReader (i : SectorNo) (s : State) (r : ReadUnit) (hr : r.tally = s.reader.tally) :
    sectorLeft i { s with reader := r } = { sectorLeft i s with reader := { r with tally := 0 } } := by
  have hreported : reported i r.tally { s with reader := r } = { reported i s.reader.tally s with reader := r } := by
    rw [hr]
    simp only [reported]
    split_ifs <;> rfl
  simp only [sectorLeft, hreported]
  rfl

section
variable {s : State} {slot : SlotNo} {i : SectorNo} {p : Nat} {h : RecordHeader} {written : Nat}

theorem imageWritten_failed {cmd : Cmd} {short : Bool} (ha : s.reader.active = some ⟨slot, cmd⟩) :
    imageWritten i p h short false written s = finishRead .hostWriteError {} s := by
  simp only [imageWritten, ha, Bool.not_false, if_true]

theorem imageWritten_read {short : Bool} {jsn address length header}
    (ha : s.reader.active = some ⟨slot, .read jsn address length header⟩) : imageWritten i p h short true written s =
      if short then finishRead .shortBuffer { at8 := BitVec.ofNat 32 (imageLength h.length) } s
      else finishRead .ok { at8 := BitVec.ofNat 32 written } s := by
  simp only [imageWritten, ha, Bool.not_true, Bool.false_eq_true, if_false]

theorem imageWritten_scan {f filter most address length} {g : ScanProgress}
    (ha : s.reader.active = some ⟨slot, .scan f filter most address length⟩) (hg : s.reader.scan = some g) :
    imageWritten i p h true true written s = finishScanShort h s ∧
      imageWritten i p h false true written s =
        if g.count + 1 = most then finishScan .ok (h.jsn + 1) (recordPlaced g written s)
        else moveOn i p h (recordPlaced g written s) := by
  simp only [imageWritten, ha, Bool.not_true, Bool.false_eq_true, if_false, if_true, State.onReader, hg,
    Option.map_some, Option.some.injEq, true_and, recordPlaced]

end

theorem finishScan_placed {s : State} {slot : SlotNo} {cmd : Cmd} {i : SectorNo} {g : ScanProgress} {status : Status}
    {next : Nat} (ha : s.reader.active = some ⟨slot, cmd⟩) (hp : s.reader.pinned = some i) (hg : s.reader.scan = some g) :
    finishScan status next s = endedRead slot status
      ⟨BitVec.ofNat 32 next, BitVec.ofNat 32 g.placed, BitVec.ofNat 16 g.count, g.expiredSkipped⟩ (sectorLeft i s) := by
  rw [finishScan, hg]
  exact finish_pinned ha hp

/-- Settles O54: the read ends by what was written, or a SCAN moves on. -/
theorem imagesWritten : Obligations.ImagesWritten := by
  intro s i p h short w slot n hl hs hp hw hn all ends
  have hlive := (live_iff s).mpr hl
  have hrun := exec_imageWriteEnd hl hs hp hw
  have hends {cmd : Cmd} {status : Status} {r : Results} {ok : Bool} (hact : s.reader.active = some ⟨slot, cmd⟩)
      (hfinish : imageWritten i p h short ok w.bytes.length s = finishRead status r s) : ends status r ok := by
    simp only [ends, hrun, hfinish, finish_pinned hact hp]
    exact nextRead_continues (by exact sectorLeft_live hlive)
  refine ⟨fun jsn address length header hact _ => ⟨hends hact (imageWritten_failed hact), fun hshort => ?_,
    fun hshort => ?_⟩, fun from_ filter most address length g hact hg => ⟨hends hact (imageWritten_failed hact),
    fun hshort => ?_, fun hshort hlast => ?_, fun hshort hmore => ?_⟩⟩
  · exact hends hact (by rw [imageWritten_read hact, if_pos hshort]; rfl)
  · exact hends hact (by rw [imageWritten_read hact, if_neg (by rw [hshort]; decide)])
  · subst hshort
    exact hends hact (by rw [(imageWritten_scan hact hg).1, finishScanShort, hg]; rfl)
  · subst hshort
    have hleft : sectorLeft i (recordPlaced g w.bytes.length s) = { sectorLeft i s with
        reader := { (recordPlaced g w.bytes.length s).reader with tally := 0 } } := sectorLeft_onReader i s _ rfl
    simp only [ends, hrun]
    rw [(imageWritten_scan hact hg).2, if_pos hlast,
      finishScan_placed (by exact hact) (by exact hp) rfl, hleft, ← hlast]
    have hended : endedRead slot .ok ⟨BitVec.ofNat 32 (h.jsn + 1), BitVec.ofNat 32 (g.placed + w.bytes.length),
        BitVec.ofNat 16 (g.count + 1), g.expiredSkipped⟩ { sectorLeft i s with
          reader := { (recordPlaced g w.bytes.length s).reader with tally := 0 } } =
        endedRead slot .ok ⟨BitVec.ofNat 32 (h.jsn + 1), BitVec.ofNat 32 (g.placed + w.bytes.length),
          BitVec.ofNat 16 (g.count + 1), g.expiredSkipped⟩ (sectorLeft i s) := by
      simp only [endedRead, sectorLeft_reader, recordPlaced]
    rw [hended]
    exact nextRead_continues (by exact sectorLeft_live hlive)
  · subst hshort
    rw [hrun, (imageWritten_scan hact hg).2, if_neg hmore]
    exact moveOn_moves (u := recordPlaced g w.bytes.length s) hlive hact hp hn

end Sys2Proof.Machine
end

section
/-! Array requests, and the suspension of erases (R148, R152 to R157). -/

namespace Sys2Proof.Machine

open Sys2Proof.Laws Sys2Proof.Safety

theorem exec_arrayRequest {s : State} {who : Requester} {op : ArrayOp} (hl : s.host.device ≠ .halted)
    (hp : s.ctrl.placed.get who = some op) :
    exec (.arrayRequest who) s = .next { s with ctrl := s.ctrl.takeRequest who op } := by
  change Host.Outcome.next _ = _
  simp only [hp, (live_iff s).mpr hl, if_true]
  rfl

/-- A suspension begins when the erase has had fewer than eight (R153). -/
theorem suspend_eq {c : ArrayCtrl} {e : HeldErase} (h : c.erase = some e) : c.suspend =
    if e.suspends < 8 then { c with
      state := .suspending, erase := some { e with suspends := e.suspends + 1, served := 0 }
      suspensions := min (c.suspensions + 1) 0xFFFFFFFF } else c := by
  simp only [ArrayCtrl.suspend, h]
  rfl

/-- Settles O55: the request is pending, and the state of the array says what follows. -/
theorem requestsTaken : Obligations.RequestsTaken := by
  intro s who op hl hp c does
  have hrun : does (match s.ctrl.state with
      | .idle => c.choose
      | .erasing => if op.isService && who != .mount then c.suspend else c
      | .eraseSuspended => c.chooseSuspended
      | .reading => c
      | .programming => c
      | .suspending => c
      | .resuming => c
      | .blankChecking => c) := exec_arrayRequest hl hp
  refine ⟨?_, fun hs => ⟨c.choose, by simpa only [hs] using hrun, choose_picked c⟩, fun e he => ⟨fun hs => ?_, fun hs => ?_⟩⟩
  · rintro (hs | hs | hs | hs | hs) <;> simpa only [hs] using hrun
  · exact ⟨c.chooseSuspended, by simpa only [hs] using hrun, suspended_picked c e he⟩
  · have hdoes : does (if op.isService && who != .mount then c.suspend else c) := by simpa only [hs] using hrun
    rw [suspend_eq (by exact he)] at hdoes
    refine ⟨fun hop hwho hfew => ?_, fun hnot => ?_⟩
    · have hserves : (op.isService && who != .mount) = true := by
        rw [(isService_iff op).mpr hop, Bool.true_and, bne_iff_ne]; exact hwho
      rwa [if_pos hserves, if_pos hfew] at hdoes
    · by_cases hserves : (op.isService && who != .mount) = true
      · rw [Bool.and_eq_true, isService_iff, bne_iff_ne] at hserves
        have hmany : ¬e.suspends < 8 := by
          rcases hnot with h | h | h
          · exact absurd hserves.1 h
          · exact absurd h hserves.2
          · omega
        rwa [if_neg hmany, ite_self] at hdoes
      · rwa [if_neg hserves] at hdoes

/-! ### Stopped and resumed erases (R153, R154) -/

theorem exec_eraseStopped {s : State} {elapsed : Nat} {e : HeldErase} (hl : s.host.device ≠ .halted)
    (he : s.ctrl.erase = some e) (hs : s.ctrl.state = .suspending) (ht : s.ctrl.eraseTime + elapsed < 2000000) :
    exec (.eraseStopped elapsed) s = .next { s with
      array := stopErase s.array e.sector, barred := barSector s.array e.sector s.barred
      ctrl := { s.ctrl with
        state := .eraseSuspended, operation := none, eraseTime := s.ctrl.eraseTime + elapsed }.chooseSuspended } := by
  have hruns : exec (.eraseStopped elapsed) s = .next ((stopLines e.sector s).onCtrl fun c =>
      let c := { c with state := .eraseSuspended, operation := none, eraseTime := c.eraseTime + elapsed }
      if s.live then c.chooseSuspended else c) := by
    change Host.Outcome.next _ = _
    rw [eraseStopped, if_pos ⟨hs, ht⟩, he]
  rw [hruns]
  simp only [(live_iff s).mpr hl, if_true]
  rfl

theorem exec_eraseResumed {s : State} {elapsed : Nat} (hl : s.host.device ≠ .halted) (hs : s.ctrl.state = .resuming)
    (ht : s.ctrl.eraseTime + elapsed < 2000000) : exec (.eraseResumed elapsed) s = .next { s with
      ctrl := if s.ctrl.nextService.isSome
        then { s.ctrl with state := .erasing, eraseTime := s.ctrl.eraseTime + elapsed }.suspend
        else { s.ctrl with state := .erasing, eraseTime := s.ctrl.eraseTime + elapsed } } := by
  have hruns : exec (.eraseResumed elapsed) s = .next (s.onCtrl fun c =>
      let c := { c with state := .erasing, eraseTime := c.eraseTime + elapsed }
      if s.live && c.nextService.isSome then c.suspend else c) := by
    change Host.Outcome.next _ = _
    rw [eraseResumed, if_pos ⟨hs, ht⟩]
  rw [hruns]
  simp only [(live_iff s).mpr hl, Bool.true_and]
  rfl

/-! ### Limits (R156) -/

/-- The limit of an operation. -/
def limitOf : ArrayOp → Nat
  | .readLines _ _ _ => 1000
  | .programLines _ _ _ => 10000
  | .eraseSector _ => 2000000
  | .blankCheck _ => 1000

theorem limit_eq (op : ArrayOp) : op.limit = limitOf op := by cases op <;> rfl

/-- The operation in the array has its time running, also while it is suspended or resumed. -/
theorem timed_eq {c : ArrayCtrl} {who : Requester} {op : ArrayOp} (hop : c.operation = some (who, op))
    (hs : c.state = running op ∨ ((c.state = .suspending ∨ c.state = .resuming) ∧ ∃ i, op = .eraseSector i)) :
    c.timed = some (who, op) := by
  rcases hs with hs | ⟨hs | hs, -⟩
  · cases op <;> simpa only [ArrayCtrl.timed, ArrayCtrl.endable, hs, running] using hop
  · simpa only [ArrayCtrl.timed, ArrayCtrl.endable, hs] using hop
  · simpa only [ArrayCtrl.timed, hs] using hop

/-- The controller when an operation has reached its limit. -/
def abandoned (op : ArrayOp) (elapsed : Nat) (c : ArrayCtrl) : ArrayCtrl := { c.leave op with
  eraseTime := match op with
    | .eraseSector _ => min (c.eraseTime + elapsed) Config.eraseLimit
    | _ => c.eraseTime }

theorem leave_eq (c : ArrayCtrl) (op : ArrayOp) :
    (IsService op → c.erase ≠ none → c.leave op = { c with state := .eraseSuspended, operation := none }) ∧
      (¬IsService op ∨ c.erase = none → c.leave op = { c with state := .idle, operation := none, erase := none }) := by
  have hin : c.inSuspension op = true ↔ IsService op ∧ c.erase ≠ none := by
    rw [ArrayCtrl.inSuspension, Bool.and_eq_true, isService_iff, Option.isSome_iff_ne_none]
  refine ⟨fun hop he => if_pos (hin.mpr ⟨hop, he⟩), fun h => if_neg fun hs => ?_⟩
  obtain ⟨hop, he⟩ := hin.mp hs
  exact h.elim (absurd hop) he

theorem leave_eraseTime (c : ArrayCtrl) (op : ArrayOp) : (c.leave op).eraseTime = c.eraseTime := by
  unfold ArrayCtrl.leave
  split <;> rfl

theorem abandoned_of_not_erase {op : ArrayOp} {elapsed : Nat} {c : ArrayCtrl} (h : ∀ i, op ≠ .eraseSector i) :
    abandoned op elapsed c = c.leave op := by
  have hsame : ({ c.leave op with eraseTime := c.eraseTime } : ArrayCtrl) = c.leave op := by rw [← leave_eraseTime c op]
  cases op with
  | eraseSector i => exact absurd rfl (h i)
  | readLines i first count => exact hsame
  | programLines i first lines => exact hsame
  | blankCheck i => exact hsame

theorem exec_arrayTimeout {s : State} {elapsed : Nat} {left : Residue} {who : Requester} {op : ArrayOp}
    (hop : s.ctrl.timed = some (who, op)) : exec (.arrayTimeout elapsed left) s = .next
      (if limitOf op ≤ s.ctrl.runTime op elapsed then halt .arrayTimeout { s with
        ctrl := abandoned op elapsed s.ctrl, array := cutShort s.array s.barred op left
        barred := cutBarred s.array op s.barred }
      else s) := by
  change Host.Outcome.next (operationTimedOut elapsed left s) = _
  simp only [operationTimedOut, hop, limit_eq]
  rfl

/-- Settles O57: a stopped erase gives way or resumes; a resumed one is suspended again; a limit halts the part. -/
theorem erasesSuspended : Obligations.ErasesSuspended := by
  intro s elapsed e hl c
  refine ⟨fun he ht => ⟨fun hs => ?stopped, fun hs => ?resumed⟩, fun who op left hop hs => ?timed⟩
  case stopped =>
    exact ⟨_, _, _, exec_eraseStopped hl he hs ht, suspended_picked { s.ctrl with
        state := .eraseSuspended, operation := none, eraseTime := s.ctrl.eraseTime + elapsed } e he,
      fun hcanon => ⟨barSector_bars s e.sector hcanon.1, fun n => memGet_stopErase ..⟩⟩
  case resumed =>
    intro wanted
    have hrun := exec_eraseResumed hl hs ht
    have hnext : s.ctrl.nextService.isSome = true ↔ wanted := next_wanted
    rw [suspend_eq (by exact he)] at hrun
    refine ⟨fun hw hfew => ?_, fun hno => ?_⟩
    · rw [hrun, if_pos (hnext.mpr hw), if_pos hfew]
    · by_cases hw : wanted
      · rw [hrun, if_neg (show ¬e.suspends < 8 from hno.elim (absurd hw) Nat.not_lt_of_ge), ite_self]
      · rw [hrun, if_neg (mt hnext.mp hw)]
  case timed =>
    intro limit time
    have htime : s.ctrl.runTime op elapsed = time := by cases op <;> rfl
    have hlimit : limitOf op = limit := by cases op <;> rfl
    have hrun := exec_arrayTimeout (elapsed := elapsed) (left := left) (timed_eq hop hs)
    rw [htime, hlimit] at hrun
    refine ⟨fun hlt => by rw [hrun, if_neg (by omega)], fun hle => ?_⟩
    refine ⟨abandoned op elapsed s.ctrl, cutShort s.array s.barred op left, cutBarred s.array op s.barred, ?_,
      fun hop he => ?service, fun hop => ?free, fun hne => ?kept, ?erase, ?program, ?read⟩
    · rw [hrun, if_pos hle, halt_live (by exact hl)]
    case service => rw [abandoned_of_not_erase (by rintro i rfl; exact hop), (leave_eq s.ctrl op).1 hop he]
    case free => simp only [abandoned, (leave_eq s.ctrl op).2 hop]
    case kept => rw [abandoned_of_not_erase hne, leave_eraseTime]
    case erase =>
      rintro i rfl
      exact ⟨min_eq_right hle, fun hcanon => ⟨cutErase_residue s i left hcanon.1, barSector_bars s i hcanon.1⟩⟩
    case program =>
      rintro i first lines rfl
      exact ⟨rfl, fun hcanon => cutProgram_residue s i first lines.length left hcanon.1⟩
    case read => rintro (⟨i, first, count, rfl⟩ | ⟨i, rfl⟩) <;> exact ⟨rfl, rfl⟩

end Sys2Proof.Machine
end

section
/-! What each operation of the array leaves and reports (R149 to R152, R154, R158). -/

namespace Sys2Proof.Machine

open Sys2Proof.Laws Sys2Proof.Safety

/-! ### The end of an operation -/

/-- The controller with an outcome handed over and its lines counted, before its next choice (R148, R158). -/
def outcomeHanded (who : Requester) (o : ArrayOutcome) (c : ArrayCtrl) : ArrayCtrl :=
  { c.countLines o with outcomes := c.outcomes.set who (some o) }

theorem countLines_eq (c : ArrayCtrl) (o : ArrayOutcome) : ∃ corrected broken, c.countLines o =
    { c with linesCorrected := corrected, linesUncorrectable := broken } := by
  cases o <;> exact ⟨_, _, rfl⟩

/-- The controller's choice at the end of an operation (R152, R154). -/
theorem ended_picked (c : ArrayCtrl) (who : Requester) (op : ArrayOp) (o : ArrayOutcome) :
    (IsService op → ∀ e, c.erase = some e → PickedSuspended (outcomeHanded who o c) (c.ended true who op o) e) ∧
      (¬IsService op ∨ c.erase = none → Picked (outcomeHanded who o c) (c.ended true who op o)) := by
  obtain ⟨corrected, broken, hcount⟩ := countLines_eq c o
  have hends : c.ended true who op o = if (c.countLines o).inSuspension op
      then { (c.countLines o).leave op with outcomes := (c.countLines o).outcomes.set who (some o) }.chooseSuspended
      else { (c.countLines o).leave op with outcomes := (c.countLines o).outcomes.set who (some o) }.choose := rfl
  have hin : (c.countLines o).inSuspension op = true ↔ IsService op ∧ c.erase ≠ none := by
    rw [hcount, ArrayCtrl.inSuspension, Bool.and_eq_true, isService_iff, Option.isSome_iff_ne_none]
  rw [hends, outcomeHanded]
  refine ⟨fun hop e he => ?_, fun h => ?_⟩
  · have hs := hin.mpr ⟨hop, by rw [he]; exact Option.some_ne_none e⟩
    rw [if_pos hs, ArrayCtrl.leave, if_pos hs, hcount]
    exact suspended_picked { c with
      linesCorrected := corrected, linesUncorrectable := broken, state := .eraseSuspended, operation := none
      outcomes := c.outcomes.set who (some o) } e he
  · have hs : ¬(c.countLines o).inSuspension op = true := fun hs => by
      obtain ⟨hop, he⟩ := hin.mp hs
      exact h.elim (absurd hop) he
    rw [if_neg hs, ArrayCtrl.leave, if_neg hs, hcount]
    exact choose_picked { c with
      linesCorrected := corrected, linesUncorrectable := broken, state := .idle, operation := none, erase := none
      outcomes := c.outcomes.set who (some o) }

theorem endable_eq {c : ArrayCtrl} {who : Requester} {op : ArrayOp} (hop : c.operation = some (who, op))
    (hs : c.state = running op ∨ (c.state = .suspending ∧ ∃ i, op = .eraseSector i)) :
    c.endable = some (who, op) := by
  rcases hs with hs | ⟨hs, -⟩
  · cases op <;> simpa only [ArrayCtrl.endable, hs, running] using hop
  · simpa only [ArrayCtrl.endable, hs] using hop

theorem exec_arrayOperationEnd {s : State} {elapsed : Nat} {report : ArrayReport} {who : Requester} {op : ArrayOp}
    {m : List (Nat × Cell)} {b : List (Nat × List Byte)} {o : ArrayOutcome} (hl : s.host.device ≠ .halted)
    (hop : s.ctrl.endable = some (who, op)) (ht : s.ctrl.runTime op elapsed < limitOf op)
    (hr : runOp s.array s.barred op report = some (m, b, o)) : exec (.arrayOperationEnd elapsed report) s =
      .next { s with ctrl := s.ctrl.ended true who op o, array := m, barred := b } := by
  change Host.Outcome.next (operationEnded elapsed report s) = _
  simp only [operationEnded, hop, limit_eq, if_pos ht, hr, (live_iff s).mpr hl]
  rfl

/-! ### Blank lines and bit errors (R150, R151) -/

theorem rawErrors_iff (d : List (Nat × LineOutcome)) (n : Nat) : rawErrors d n = true ↔
    ∃ o, memGet d n = some o ∧ o ≠ .clean (List.replicate 32 0xFF#8) := by
  unfold rawErrors
  cases memGet d n with
  | none => simp
  | some o => simp [erasedBytes]

theorem testsBlank_iff (m : List (Nat × Cell)) (d : List (Nat × LineOutcome)) (n : Nat) :
    testsBlank m d n = true ↔ memGet m n = none ∧ rawErrors d n = false := by
  rw [testsBlank, isBlank, Bool.and_eq_true, Bool.not_eq_true', Option.isNone_iff_eq_none]

/-! ### Programs (R150) -/

/-- What a program has written when it has got `k` lines far. -/
def Written (s : State) (i : SectorNo) (first k : Nat) (lines : List (List Byte)) (m : List (Nat × Cell)) : Prop :=
  (∀ j, j < k → memGet m (lineNo i (first + j)) = some (.clean (lines.getD j []))) ∧
    ∀ n, ¬(lineNo i first ≤ n ∧ n < lineNo i first + k) → (k < lines.length → n ≠ lineNo i (first + k)) →
      memGet m n = memGet s.array n

theorem lineNo_add (i : SectorNo) (first k : Nat) : lineNo i (first + k) = lineNo i first + k := by
  simp only [lineNo, Nat.add_assoc]

section
variable {s : State} {i : SectorNo} {first : Nat} {lines : List (List Byte)} {raw : List (Nat × LineOutcome)}

/-- A program that verifies every line. -/
theorem programCells_all (hm : arrayWf s.array = true)
    (hb : ∀ j, j < lines.length → memGet s.array (lineNo i (first + j)) = none)
    (hr : ∀ j, j < lines.length → rawErrors raw (lineNo i (first + j)) = false) :
    ∃ m, programCells i raw none s.array first lines = (m, .programmed) ∧
      Written s i first lines.length lines m := by
  obtain ⟨m, -, hrun, hin, hout⟩ := cells_spec i raw none lines s.array first lines.length hm le_rfl hb hr nofun
  exact ⟨m, by rw [hrun, List.drop_length]; rfl, hin, fun n hn _ => hout n hn⟩

/-- A program stopped at a line that is not blank. -/
theorem programCells_blank {k : Nat} (hm : arrayWf s.array = true) (hk : k < lines.length)
    (hb : ∀ j, j < k → memGet s.array (lineNo i (first + j)) = none)
    (hr : ∀ j, j < k → rawErrors raw (lineNo i (first + j)) = false)
    (hbad : memGet s.array (lineNo i (first + k)) ≠ none ∨ rawErrors raw (lineNo i (first + k)) = true) :
    ∃ m, programCells i raw none s.array first lines = (m, .programFailed (first + k) true) ∧
      Written s i first k lines m ∧
      memGet m (lineNo i (first + k)) = memGet s.array (lineNo i (first + k)) := by
  obtain ⟨m, -, hrun, hin, hout⟩ := cells_spec i raw none lines s.array first k hm hk.le hb hr nofun
  have hsame := hout (lineNo i (first + k)) (by rw [lineNo_add]; omega)
  refine ⟨m, ?_, ⟨hin, fun n hn _ => hout n hn⟩, hsame⟩
  have hstops : testsBlank m raw (lineNo i (first + k)) = false := by
    rw [← Bool.not_eq_true, testsBlank_iff, hsame]
    rintro ⟨hblank, hquiet⟩
    rw [hquiet] at hbad
    exact hbad.elim (absurd hblank) nofun
  rw [hrun, List.drop_eq_getElem_cons hk]
  simp only [programCells, hstops, Bool.not_false, if_true]

/-- A program stopped at a line that does not verify. -/
theorem programCells_fails {k : Nat} {left : Option Cell} (hm : arrayWf s.array = true) (hk : k < lines.length)
    (hb : ∀ j, j < k → memGet s.array (lineNo i (first + j)) = none)
    (hblank : memGet s.array (lineNo i (first + k)) = none) :
    ∃ m, programCells i [] (some (lineNo i (first + k), left)) s.array first lines =
        (m, .programFailed (first + k) false) ∧
      Written s i first k lines m ∧
      memGet m (lineNo i (first + k)) = failedProgramCell (lineNo i (first + k)) (lines.getD k []) left := by
  obtain ⟨m, hwf, hrun, hin, hout⟩ := cells_spec i [] (some (lineNo i (first + k), left)) lines s.array first k hm hk.le hb
    (fun _ _ => rfl) (by rintro x ⟨⟩ j hj; simp only [lineNo_add]; omega)
  have hline : lines.getD k [] = lines[k] := List.getD_eq_getElem _ _ hk
  have hset (n : Nat) : memGet (memSet m (lineNo i (first + k))
      (failedProgramCell (lineNo i (first + k)) (lines.getD k []) left)) n =
      if n = lineNo i (first + k) then failedProgramCell (lineNo i (first + k)) (lines.getD k []) left
      else memGet m n := memGet_memSet _ _ _ _ hwf
  have hstarts : testsBlank m [] (lineNo i (first + k)) = true := by
    rw [testsBlank_iff, hout _ (by rw [lineNo_add]; omega)]
    exact ⟨hblank, rfl⟩
  refine ⟨_, ?_, ⟨fun j hj => ?_, fun n hn hne => ?_⟩, (hset _).trans (if_pos rfl)⟩
  · rw [hrun, List.drop_eq_getElem_cons hk, hline]
    simp only [programCells, hstarts, Bool.not_true, Bool.false_eq_true, if_false, if_true]
  · rw [hset, if_neg (by simp only [lineNo_add]; omega), hin j hj]
  · rw [hset, if_neg (hne hk), hout n hn]

end

/-- A line whose program failed does not read as what it was to receive (R3). -/
theorem failedProgramCell_unread (n : Nat) (intended : List Byte) (left : Option Cell) :
    readable (cellOutcome (failedProgramCell n intended left)) ≠ some intended := by
  unfold failedProgramCell
  cases wholeCell left with
  | none =>
    simp only
    split
    · nofun
    · next hne => exact fun h => hne (Option.some.inj h).symm
  | some c =>
    cases hc : cellBytes c with
    | none => exact fun h => by simp [hc, readable_cell] at h
    | some x =>
      intro h
      simp only [hc] at h
      split at h
      · cases h
      · next hcond =>
        rw [readable_cell, hc] at h
        rw [Option.some.inj h] at hcond
        exact hcond (by simp only [beq_self_eq_true, Bool.true_or])

/-! ### Reads (R149) -/

/-- The lines of a read as they stand. -/
def ownLines (m : List (Nat × Cell)) (i : SectorNo) (first count : Nat) : List LineOutcome :=
  (List.range count).map fun k => cellOutcome (memGet m (lineNo i (first + k)))

/-- The lines of a read as bit errors show them. -/
def shownLines (s : State) (d : List (Nat × LineOutcome)) (i : SectorNo) (first count : Nat) : List LineOutcome :=
  (List.range count).map fun k => readLine s.array s.barred d (lineNo i (first + k))

section
variable {s : State} {d : List (Nat × LineOutcome)} {i : SectorNo} {first count : Nat}

theorem ownLines_get {m : List (Nat × Cell)} {k : Nat} (hk : k < count) :
    (ownLines m i first count)[k]? = some (cellOutcome (memGet m (lineNo i (first + k)))) := by
  simp [ownLines, hk]

theorem shownLines_shown {k : Nat} {x : LineOutcome} (h : (shownLines s d i first count)[k]? = some x) :
    k < count ∧ Shown s d (lineNo i (first + k)) x := by
  obtain ⟨hk, hx⟩ := List.getElem?_eq_some_iff.mp h
  simp only [shownLines, List.length_map, List.length_range] at hk
  refine ⟨hk, ?_⟩
  rw [← hx]
  simp only [shownLines, List.getElem_map, List.getElem_range]
  exact readLine_shown s d _

/-- Bit errors would have an anchor slot read as a valid snapshot that its lines do not state (R15). -/
def Caught (i : SectorNo) (own shown : List LineOutcome) : Prop :=
  i.val < 2 ∧ validSnapshot shown ≠ none ∧ validSnapshot shown ≠ validSnapshot own

theorem readLines_plain (h : ¬Caught i (ownLines s.array i first count) (shownLines s d i first count)) :
    readLines s.array s.barred d i first count = shownLines s d i first count := if_neg h

theorem readLines_caught (h : Caught i (ownLines s.array i first count) (shownLines s d i first count)) :
    readLines s.array s.barred d i first count =
      List.zipWith (fun o x => if readable o = readable x then x else .uncorrectable)
        (ownLines s.array i first count) (shownLines s d i first count) := if_pos h

end

/-! ### Blank checks (R151) -/

theorem memGet_ne_none_iff {α : Type} (m : List (Nat × α)) (n : Nat) : memGet m n ≠ none ↔ ∃ e ∈ m, e.1 = n := by
  induction m with
  | nil => simp [memGet]
  | cons e m ih =>
    by_cases he : e.1 = n
    · simp [memGet, he]
    · simp [memGet, he, ih]

theorem sectorBlank_iff (m : List (Nat × Cell)) (d : List (Nat × LineOutcome)) (i : SectorNo) :
    sectorBlank m d i = true ↔ ∀ n, inSector i n = true → memGet m n = none ∧ rawErrors d n = false := by
  have hlisted : sectorListed m i = true ↔ ∃ n, inSector i n = true ∧ memGet m n ≠ none := by
    simp only [memGet_ne_none_iff, sectorListed, List.any_eq_true]
    exact ⟨fun ⟨e, he, hi⟩ => ⟨e.1, hi, e, he, rfl⟩, fun ⟨_, hi, e, he, hn⟩ => ⟨e, he, hn ▸ hi⟩⟩
  have herrors : (d.any fun e => inSector i e.1 && rawErrors d e.1) = true ↔
      ∃ n, inSector i n = true ∧ rawErrors d n = true := by
    simp only [List.any_eq_true, Bool.and_eq_true]
    refine ⟨fun ⟨e, _, hi, hr⟩ => ⟨e.1, hi, hr⟩, fun ⟨n, hi, hr⟩ => ?_⟩
    obtain ⟨o, ho, -⟩ := (rawErrors_iff d n).mp hr
    obtain ⟨e, he, rfl⟩ := (memGet_ne_none_iff d n).mp (by rw [ho]; exact Option.some_ne_none o)
    exact ⟨e, he, hi, hr⟩
  rw [sectorBlank, Bool.and_eq_true, Bool.not_eq_true', Bool.not_eq_true', ← Bool.not_eq_true, ← Bool.not_eq_true,
    hlisted, herrors]
  push Not
  exact ⟨fun ⟨hm, hd⟩ n hi => ⟨hm n hi, Bool.not_eq_true _ ▸ hd n hi⟩, fun h =>
    ⟨fun n hi => (h n hi).1, fun n hi => by rw [(h n hi).2]; decide⟩⟩

/-- An operation ends with an outcome, of which lines are counted, and leaves what `holds` says. -/
def EndsWith (s : State) (elapsed : Nat) (who : Requester) (op : ArrayOp) (report : ArrayReport) (o : ArrayOutcome)
    (holds : List (Nat × Cell) → List (Nat × List Byte) → Prop) : Prop :=
  ∃ x m b, exec (.arrayOperationEnd elapsed report) s = .next { s with ctrl := x, array := m, barred := b } ∧ holds m b ∧
    (IsService op → ∀ e, s.ctrl.erase = some e → PickedSuspended (outcomeHanded who o s.ctrl) x e) ∧
    (¬IsService op ∨ s.ctrl.erase = none → Picked (outcomeHanded who o s.ctrl) x)

theorem endsWith_of {s : State} {elapsed : Nat} {who : Requester} {op : ArrayOp} {report : ArrayReport}
    {o : ArrayOutcome} {holds : List (Nat × Cell) → List (Nat × List Byte) → Prop} {m : List (Nat × Cell)}
    {b : List (Nat × List Byte)} (hl : s.host.device ≠ .halted) (hop : s.ctrl.endable = some (who, op))
    (ht : s.ctrl.runTime op elapsed < limitOf op) (hr : runOp s.array s.barred op report = some (m, b, o))
    (hh : holds m b) : EndsWith s elapsed who op report o holds :=
  ⟨_, m, b, exec_arrayOperationEnd hl hop ht hr, hh, ended_picked s.ctrl who op o⟩

/-- Settles O56: what each operation leaves and reports, and the choice that follows. -/
theorem operationsEnd : Obligations.OperationsEnd := by
  intro s elapsed who op hcanon hl hop hs c at_ ends same disturbs
  have hendable := endable_eq hop hs
  have hwf : arrayWf s.array = true := hcanon.1
  have hplain {report : ArrayReport} {o : ArrayOutcome} {holds : List (Nat × Cell) → List (Nat × List Byte) → Prop}
      (hnot : ∀ l, o ≠ .lines l) (h : EndsWith s elapsed who op report o holds) : ends report o 0 0 holds := by
    cases o with
    | lines l => exact absurd rfl (hnot l)
    | programmed => exact h
    | programFailed line blank => exact h
    | erased => exact h
    | eraseFailed => exact h
    | blank => exact h
    | notBlank => exact h
  have hlines {report : ArrayReport} {l : List LineOutcome} {holds : List (Nat × Cell) → List (Nat × List Byte) → Prop}
      (h : EndsWith s elapsed who op report (.lines l) holds) :
      ends report (.lines l) (correctedLines l) (uncorrectableLines l) holds := h
  clear_value ends
  have hends {report : ArrayReport} {o : ArrayOutcome} {holds : List (Nat × Cell) → List (Nat × List Byte) → Prop}
      {m : List (Nat × Cell)} {b : List (Nat × List Byte)} (ht : s.ctrl.runTime op elapsed < limitOf op)
      (hr : runOp s.array s.barred op report = some (m, b, o)) (hh : holds m b) :
      EndsWith s elapsed who op report o holds := endsWith_of hl hendable ht hr hh
  have hraw (d : List (Nat × LineOutcome)) (n : Nat) : rawErrors d n = true ↔ disturbs d n := rawErrors_iff d n
  have hquiet (d : List (Nat × LineOutcome)) (n : Nat) : rawErrors d n = false ↔ ¬disturbs d n := by
    rw [← hraw, Bool.not_eq_true]
  refine ⟨fun i first lines h ht => ?program, fun i h ht => ?erase, fun i first count h ht => ?read,
    fun i h ht d => ?check⟩
  case program =>
    subst h
    intro inside written
    refine ⟨fun d hall => ?_, fun k hk => ⟨fun d hall hbad => ?_, fun hall hblank left => ?_⟩⟩
    · obtain ⟨m, hrun, hwritten⟩ := programCells_all (raw := d) hwf (fun j hj => (hall j hj).1)
        fun j hj => (hquiet d _).mpr (hall j hj).2
      refine hplain (by nofun) (hends (m := m) (b := s.barred) ht (by rw [runOp, hrun]) ⟨hwritten, rfl⟩)
    · obtain ⟨m, hrun, hwritten, hsame⟩ := programCells_blank (raw := d) hwf hk (fun j hj => (hall j hj).1)
        (fun j hj => (hquiet d _).mpr (hall j hj).2) (hbad.imp_right (hraw d _).mpr)
      refine hplain (by nofun) (hends (m := m) (b := s.barred) ht (by rw [runOp, hrun]) ⟨hwritten, hsame, rfl⟩)
    · obtain ⟨m, hrun, hwritten, hleft⟩ := programCells_fails (left := left) hwf hk hall hblank
      have hbar : barFailed i first lines (.programFailed (first + k) false) s.barred =
          (lineNo i (first + k), lines.getD k []) :: s.barred := by
        rw [barFailed, Nat.add_sub_cancel_left]
      refine hplain (by nofun) (hends (m := m) (b := (lineNo i (first + k), lines.getD k []) :: s.barred) ht
        (by rw [runOp, hrun, hbar]) ⟨hwritten, ?_, fun hlow hmark x hx => ?_, rfl⟩)
      · rw [hleft]; exact failedProgramCell_unread _ _ _
      · exact failedProgramCell_commit hlow hmark (hleft ▸ hx)
  case erase =>
    subst h
    refine ⟨fun d => hplain (by nofun) (hends ht rfl ⟨fun n => memGet_eraseLines .., fun n x => ?_⟩), fun left =>
      hplain (by nofun) (hends ht rfl
        ⟨failErase_residue s i left hwf, barSector_bars s i hwf, failErase_listed _ _ i left hwf⟩)⟩
    rw [unbarSector, List.mem_filter, Bool.not_eq_true']
  case read =>
    subst h
    intro own
    refine ⟨?_, fun d => ⟨shownLines s d i first count, readLines s.array s.barred d i first count, ?_,
      readLines_length .., hlines (hends ht rfl ⟨rfl, rfl⟩), fun k x hx => (shownLines_shown hx).2, ?_⟩⟩
    · have hundisturbed : readLines s.array s.barred [] i first count = ownLines s.array i first count :=
        readLines_plain fun h => h.2.2 rfl
      exact hlines (hends (m := s.array) (b := s.barred) ht (by rw [runOp, hundisturbed]; rfl) ⟨rfl, rfl⟩)
    · simp only [shownLines, List.length_map, List.length_range]
    · intro stated caught
      refine ⟨fun h => readLines_plain h, fun h => ?_⟩
      rw [readLines_caught h]
      refine ⟨caught_none (by simp only [shownLines, ownLines, List.length_map]) h.2.2, fun k x hx => ?_⟩
      rw [List.getElem?_zipWith, ownLines_get (shownLines_shown hx).1, hx]
  case check =>
    subst h
    have hsector := sectorBlank_iff s.array d i
    refine ⟨fun hall => ?_, fun n hi hbad => ?_⟩
    · have hblank := hsector.mpr fun n hi => ⟨(hall n hi).1, (hquiet d n).mpr (hall n hi).2⟩
      exact hplain (by nofun) (hends (m := s.array) (b := s.barred) ht (by rw [runOp, if_pos hblank]) ⟨rfl, rfl⟩)
    · have hblank : ¬sectorBlank s.array d i = true := fun hblank => by
        obtain ⟨hnone, hq⟩ := hsector.mp hblank n hi
        exact hbad.elim (absurd hnone) ((hquiet d n).mp hq)
      exact hplain (by nofun) (hends (m := s.array) (b := s.barred) ht (by rw [runOp, if_neg hblank]) ⟨rfl, rfl⟩)

end Sys2Proof.Machine
end

section
/-! The reads of a mount, and its handover (R160 to R169). -/

namespace Sys2Proof.Machine

open Sys2Proof.Laws Sys2Proof.Safety

theorem readsErased_iff (o : LineOutcome) : readsErased o = true ↔ readable o = some (List.replicate 32 0xFF#8) :=
  beq_iff_eq

/-! ### The anchor scan (R160, R161) -/

theorem exec_anchorSlotRead {s : State} {l : List LineOutcome} {a : Fin 2} {k : Nat} (hd : s.host.device = .mounting)
    (ha : Answers s .mount (.lines l)) (hp : s.mount.position = .slot a k) :
    exec .anchorSlotRead s = .next (slotRead a k l (takeOutcome .mount s)) := by
  change Host.Outcome.next _ = _
  simp only [linesResult_of ha, hp, hd, if_true]

/-- An erased first line leaves the findings as they are. -/
theorem withSlot_erased {m : Mount} {a : Fin 2} {k : Nat} {o : LineOutcome} {l : List LineOutcome}
    (h : readsErased o = true) : m.withSlot a k (o :: l) = m := if_pos h

theorem withSlot_found (m : Mount) (a : Fin 2) (k : Nat) (o : LineOutcome) (l : List LineOutcome) :
    m.withSlot a k (o :: l) = { m with
      usedSlots := (m.withSlot a k (o :: l)).usedSlots, generations := (m.withSlot a k (o :: l)).generations
      snapshot := (m.withSlot a k (o :: l)).snapshot } := by
  cases h : readsErased o with
  | true => rw [withSlot_erased h]
  | false => rw [withSlot_eq _ _ _ _ _ h]

section
variable {m : Mount} {a : Fin 2} {k : Nat} {o : LineOutcome} {l : List LineOutcome}

theorem withSlot_generations (h : readsErased o = false) (g : Nat) :
    g ∈ (m.withSlot a k (o :: l)).generations ↔ g ∈ m.generations ∨ slotGeneration o = some g := by
  rw [withSlot_eq _ _ _ _ _ h]
  cases slotGeneration o with
  | none => simp
  | some x =>
    simp only [Option.some.injEq]
    split
    · next hx => exact ⟨.inl, fun h => h.elim id fun he => he ▸ hx⟩
    · rw [List.mem_append, List.mem_singleton, eq_comm (a := g)]

theorem withSlot_snapshot (h : readsErased o = false) {g : Nat} {holds : Vector (Option HoldLine) 16}
    {retired : BitVec 256} (hv : validSnapshot (o :: l) = some (g, holds, retired)) :
    ((∀ f, m.snapshot = some f → f.generation ≤ g) →
      (m.withSlot a k (o :: l)).snapshot = some ⟨a, k, g, holds, retired⟩) ∧
    (∀ f, m.snapshot = some f → g < f.generation → (m.withSlot a k (o :: l)).snapshot = some f) := by
  rw [withSlot_eq _ _ _ _ _ h]
  simp only [hv]
  cases hs : m.snapshot with
  | none => exact ⟨fun _ => rfl, nofun⟩
  | some x =>
    refine ⟨fun hle => if_pos (decide_eq_true (hle x rfl)), ?_⟩
    rintro f ⟨⟩ hlt
    exact if_neg (by simpa using hlt)

theorem withSlot_invalid (h : readsErased o = false) (hv : validSnapshot (o :: l) = none) :
    (m.withSlot a k (o :: l)).snapshot = m.snapshot := by
  rw [withSlot_eq _ _ _ _ _ h]
  simp only [hv]

theorem withSlot_used (h : readsErased o = false) :
    (m.withSlot a k (o :: l)).usedSlots = m.usedSlots.set a (some k) := by
  rw [withSlot_eq _ _ _ _ _ h]

end

/-! ### The sector scan (R162, R163) -/

section
variable {s : State} {o : LineOutcome} {l : List LineOutcome} {i : SectorNo}

theorem exec_sectorRead (hd : s.host.device = .mounting) (ha : Answers s .mount (.lines (o :: l)))
    (hp : s.mount.position = .sectorHeader i) :
    exec .mountLineRead s = .next (mountSectorRead i o (takeOutcome .mount s)) := by
  change Host.Outcome.next _ = _
  rw [if_pos hd, linesResult_of ha, hp]
  rfl

theorem exec_headerRead {p : Nat} {w : Walk} (hd : s.host.device = .mounting) (ha : Answers s .mount (.lines (o :: l)))
    (hp : s.mount.position = .walkHeader i p w) :
    exec .mountLineRead s = .next (mountHeaderRead i p w o (takeOutcome .mount s)) := by
  change Host.Outcome.next _ = _
  rw [if_pos hd, linesResult_of ha, hp]
  rfl

theorem exec_commitRead {p : Nat} {h : RecordHeader} {w : Walk} (hd : s.host.device = .mounting)
    (ha : Answers s .mount (.lines (o :: l))) (hp : s.mount.position = .walkCommit i p h w) :
    exec .mountLineRead s = .next (mountCommitRead i p h w o (takeOutcome .mount s)) := by
  change Host.Outcome.next _ = _
  rw [if_pos hd, linesResult_of ha, hp]
  rfl

theorem exec_blankCheckEnd {blank : Bool} (hd : s.host.device = .mounting)
    (ha : Answers s .mount (if blank then .blank else .notBlank)) (hp : s.mount.position = .blankCheck i) :
    exec .blankCheckEnd s =
      .next (scanAfter i (setFinding i (if blank then .blank else .dirty) (takeOutcome .mount s))) := by
  obtain ⟨hl, ho⟩ := ha
  have hout : s.outcomeFor .mount = some (if blank then .blank else .notBlank) := by
    rw [State.outcomeFor, if_pos ((live_iff s).mpr hl), ho]
  change Host.Outcome.next _ = _
  rw [if_pos hd, hout, hp]
  cases blank <;> rfl

end

/-- The state with a sector's finding in place (R162). -/
def sectorFound (i : SectorNo) (f : Finding) (streams : Vector (Option (Nat × Seq)) 16) (s : State) : State := { s with
  mount := { s.mount with findings := s.mount.findings.set i f, streamFindings := streams }
  ctrl := taken .mount s.ctrl }

theorem mountWalkEnded_eq (i : SectorNo) (w : Walk) (e : WalkEnd) (p : Nat) (s : State) :
    mountWalkEnded i w e p (takeOutcome .mount s) = scanAfter i
      (sectorFound i (.valid w e p) (newerFindings s.mount.streamFindings w.newest) s) := rfl

/-- However the scan of a sector ends, the next sectors follow (R162, R163). -/
theorem exec_scanEnds {s : State} {c : Instr} {i : SectorNo} {f : Finding} {streams : Vector (Option (Nat × Seq)) 16}
    (hd : s.host.device = .mounting) (h : ScanEnds s c i f streams) :
    exec c s = .next (scanAfter i (sectorFound i f streams s)) := by
  rcases h with ⟨rfl, hp, rfl, ⟨ha, rfl⟩ | ⟨ha, rfl⟩⟩ | ⟨rfl, o, l, ha, hline⟩
  · exact exec_blankCheckEnd (blank := true) hd ha hp
  · exact exec_blankCheckEnd (blank := false) hd ha hp
  · rcases hline with ⟨hp, hh, he, rfl, rfl⟩ | ⟨p, w, hp, rfl, e, rfl, hview⟩ |
      ⟨p, h, w, hp, ⟨hc, rfl, rfl⟩ | ⟨hc, hend, rfl, rfl⟩⟩
    · rw [exec_sectorRead hd ha hp]
      simp only [mountSectorRead, hh]
      rw [if_neg (mt (readsErased_iff o).mp he)]
      rfl
    · rw [exec_headerRead hd ha hp, ← mountWalkEnded_eq]
      rcases hview with ⟨hv, rfl⟩ | ⟨hv, rfl⟩ | ⟨hv, rfl⟩ | ⟨hv, rfl⟩ <;> simp only [mountHeaderRead, hv]
    · rw [exec_commitRead hd ha hp, ← mountWalkEnded_eq]
      simp only [mountCommitRead, hc]
    · obtain ⟨crc, hcrc⟩ := Option.ne_none_iff_exists'.mp hc
      rw [exec_commitRead hd ha hp]
      simp only [mountCommitRead, hcrc]
      rw [if_pos (by exact hend)]
      rfl

/-- Settles O58: what each read finds, and the read that follows. -/
theorem mountScans : Obligations.MountScans := by
  intro s hd asks
  refine ⟨fun a k o l hp ha => ?slot, fun o l ha => ⟨fun i hp => ⟨fun h hh => ?_, fun he => ?_⟩, fun i p w hp h hh => ?_,
    fun i p h w hp => ?commit⟩, fun c i f streams h => ?ends⟩
  case slot =>
    have hrun : exec .anchorSlotRead s = .next (slotRead a k (o :: l) (takeOutcome .mount s)) :=
      exec_anchorSlotRead hd ha hp
    have herased : readsErased o = false ↔ readable o ≠ some (List.replicate 32 0xFF#8) := by
      rw [← Bool.not_eq_true, readsErased_iff]
    refine ⟨s.mount.withSlot a k (o :: l), fun hk => ?_, fun hk h0 => ?_, fun hk h1 => ?_, withSlot_found ..,
      fun h => withSlot_erased ((readsErased_iff o).mpr h), fun h => ?_⟩
    · rw [hrun, slotRead, if_pos hk]
      rfl
    · rw [hrun, slotRead, if_neg (by omega), if_pos h0]
      rfl
    · rw [hrun, slotRead, if_neg (by omega), if_neg (by rw [h1]; decide)]
      exact scanSectors_passes 2 _ hd
    · have hwrote := herased.mpr h
      exact ⟨withSlot_used hwrote, withSlot_generations hwrote, fun g holds retired hv => withSlot_snapshot hwrote hv,
        fun hv => withSlot_invalid hwrote hv⟩
  · rw [exec_sectorRead hd ha hp]
    simp only [mountSectorRead, hh]
    rfl
  · have hno : validSectorHeader o = none := by
      have hblank := header_blank
      unfold validSectorHeader at hblank ⊢
      rw [he]
      exact hblank
    rw [exec_sectorRead hd ha hp]
    simp only [mountSectorRead, hno]
    rw [if_pos ((readsErased_iff o).mpr he)]
    rfl
  · rw [exec_headerRead hd ha hp]
    simp only [mountHeaderRead, hh]
    rfl
  case commit =>
    intro next w' hc hne
    obtain ⟨crc, hcrc⟩ := Option.ne_none_iff_exists'.mp hc
    rw [exec_commitRead hd ha hp]
    simp only [mountCommitRead, hcrc]
    rw [if_neg (by exact hne)]
    rfl
  case ends =>
    rw [exec_scanEnds hd h]
    exact scanSectors_passes (i.val + 1) _ hd

/-- Settles O59: the sectors that follow are retired, and the mount is handed over. -/
theorem mountHandsOver : Obligations.MountHandsOver := by
  intro s c i f streams hd h hretired scanned hcounted
  obtain ⟨findings, t, hfound, hrun, hover⟩ := (scanSectors_passes (i.val + 1) (sectorFound i f streams s) hd).2
    (fun k hk => hretired k hk) hcounted
  have hhost := hover.host
  have hmount := hover.mount
  refine ⟨findings, t, (exec_scanEnds hd h).trans hrun, fun k => ?_, hover, fun he => ?_, fun he => ?_, ?_, ?_⟩
  · rw [hfound k]
    have hlt : (i.val + 1 ≤ k.val ∧ k.val < 256) ↔ i < k := ⟨fun h => h.1, fun h => ⟨h, k.isLt⟩⟩
    simp only [hlt]
    rfl
  · rw [hhost]; exact if_pos he
  · rw [hhost]; exact if_neg (by rw [show (sectorFound i f streams s).host.enable = false from he]; decide)
  · rw [hmount]
  · rw [hmount]

end Sys2Proof.Machine
end

section
/-! The lines of the medium read back as what they were written from (R5, R8 to R15). -/

namespace Sys2Proof.Machine

open Sys2Proof.Laws Sys2Proof.Safety

/-! ### Sealed lines (R2) -/

section
variable {body : List Byte} (h : body.length = 28)
include h

theorem sealedLine_length : (sealedLine body).length = 32 := by
  rw [sealedLine, List.length_append, h, leBytes_length]

theorem sealedLine_checks : checkMatches (sealedLine body) = true := by
  have htake : (sealedLine body).take 28 = body := by rw [← h]; exact List.take_left ..
  have hcheck : fieldAt (sealedLine body) 28 4 = (crc32 body).toNat % 256 ^ 4 := by
    rw [sealedLine, fieldAt_past _ 4 h.le, h]
    exact fieldAt_leBytes 4 _
  have hwidth : (crc32 body).toNat % 256 ^ 4 = (crc32 body).toNat := Nat.mod_eq_of_lt (crc32 body).isLt
  rw [checkMatches, htake, hcheck, hwidth, beq_self_eq_true]

theorem fieldAt_sealedLine {i n : Nat} (hi : i + n ≤ 28) : fieldAt (sealedLine body) i n = fieldAt body i n :=
  fieldAt_within i n _ _ (h ▸ hi)

end

/-- A line whose first byte is not FFH does not read erased. -/
theorem not_readsErased {l : List Byte} (h : fieldAt l 0 1 ≠ 0xFF) : readsErased (.clean l) = false := by
  refine beq_eq_false_iff_ne.mpr fun he => h ?_
  rw [Option.some.inj he]
  rfl

theorem flag_reads (b : Bool) : b.toNat ≤ 1 ∧ (b.toNat == 1) = b := by cases b <;> decide

/-! ### Sector headers (R5, R6) -/

/-- The 28 bytes that the check of a sector header covers. -/
def sectorHeaderBody (h : SectorHeader) : List Byte :=
  leBytes 4 Config.sectorMarker ++ leBytes 4 h.epoch ++ leBytes 4 h.baseJsn ++ leBytes 4 h.wear
    ++ leBytes 1 h.wearEstimated.toNat ++ zeros 11

theorem sectorHeaderLine_eq (h : SectorHeader) : sectorHeaderLine h = sealedLine (sectorHeaderBody h) := rfl

theorem sectorHeaderBody_length (h : SectorHeader) : (sectorHeaderBody h).length = 28 := by simp [sectorHeaderBody]

theorem sectorHeaderBody_fields (h : SectorHeader) :
    fieldAt (sectorHeaderBody h) 0 4 = Config.sectorMarker ∧ fieldAt (sectorHeaderBody h) 4 4 = h.epoch % 2 ^ 32 ∧
      fieldAt (sectorHeaderBody h) 8 4 = h.baseJsn % 2 ^ 32 ∧ fieldAt (sectorHeaderBody h) 12 4 = h.wear % 2 ^ 32 ∧
      fieldAt (sectorHeaderBody h) 16 1 = h.wearEstimated.toNat % 256 := by
  simp [sectorHeaderBody, fieldAt_head, fieldAt_past_leBytes, Config.sectorMarker]

theorem sectorHeader_readsBack {h : SectorHeader} (he : 1 ≤ h.epoch ∧ h.epoch ≤ 0xFFFFFFFE)
    (hb : 1 ≤ h.baseJsn ∧ h.baseJsn ≤ 0xFFFFFFFE) (hw : h.wear < 2 ^ 32) :
    validSectorHeader (.clean (sectorHeaderLine h)) = some h := by
  have hl := sectorHeaderBody_length h
  obtain ⟨hmarker, hepoch, hbase, hwear, hflag⟩ := sectorHeaderBody_fields h
  rw [Nat.mod_eq_of_lt (by omega)] at hepoch hbase hwear
  obtain ⟨hle, hb1⟩ := flag_reads h.wearEstimated
  rw [Nat.mod_eq_of_lt (by omega)] at hflag
  simp only [validSectorHeader, readable, sectorHeaderLine_eq, fieldAt_sealedLine hl, hmarker, hepoch, hbase, hwear, hflag,
    sealedLine_checks hl, hb1, Nat.reduceAdd, Nat.reduceLeDiff]
  rw [if_pos ⟨trivial, (inJsnRange_iff _).mpr he, (inJsnRange_iff _).mpr hb, hle, trivial⟩]

/-! ### Record headers and PADs (R8, R11, R12) -/

/-- The 28 bytes that the check of a record header covers. -/
def recordHeaderBody (h : RecordHeader) : List Byte :=
  leBytes 1 Config.kindData ++ leBytes 1 h.gap.toNat ++ leBytes 1 h.stream.val ++ zeros 1
    ++ leBytes 2 h.seq.toNat ++ leBytes 2 h.length ++ leBytes 4 h.jsn ++ leBytes 4 h.tag.toNat
    ++ leBytes 4 h.tick.toNat ++ zeros 8

theorem recordHeaderBody_length (h : RecordHeader) : (recordHeaderBody h).length = 28 := by simp [recordHeaderBody]

theorem recordHeaderBody_fields (h : RecordHeader) :
    let f := fieldAt (recordHeaderBody h)
    f 0 1 = Config.kindData ∧ f 1 1 = h.gap.toNat % 256 ∧ f 2 1 = h.stream.val % 256 ∧ f 4 2 = h.seq.toNat % 65536 ∧
      f 6 2 = h.length % 65536 ∧ f 8 4 = h.jsn % 2 ^ 32 ∧ f 12 4 = h.tag.toNat % 2 ^ 32 ∧
      f 16 4 = h.tick.toNat % 2 ^ 32 := by
  simp [recordHeaderBody, fieldAt_head, fieldAt_past_leBytes, fieldAt_past_zeros, Config.kindData]

/-- The 28 bytes that the check of a PAD covers. -/
def padBody (jsn : Nat) : List Byte := leBytes 1 Config.kindPad ++ zeros 7 ++ leBytes 4 jsn ++ zeros 16

theorem padLine_eq (jsn : Nat) : padLine jsn = sealedLine (padBody jsn) := rfl

theorem padBody_length (jsn : Nat) : (padBody jsn).length = 28 := by simp [padBody]

theorem padBody_fields (jsn : Nat) :
    let f := fieldAt (padBody jsn)
    f 0 1 = Config.kindPad ∧ f 1 1 = 0 ∧ f 2 1 = 0 ∧ f 4 2 = 0 ∧ f 6 2 = 0 ∧ f 8 4 = jsn % 2 ^ 32 ∧ f 12 4 = 0 ∧
      f 16 4 = 0 := by
  have hreserved {i n : Nat} (h1 : 1 ≤ i) (h8 : i + n ≤ 8) : fieldAt (padBody jsn) i n = 0 := by
    rw [padBody, List.append_assoc, List.append_assoc, fieldAt_past_leBytes 1 _ _ _ _ h1,
      fieldAt_within _ _ _ _ (by rw [zeros_length]; omega), fieldAt_zeros]
  refine ⟨?_, hreserved (by decide) (by decide), hreserved (by decide) (by decide), hreserved (by decide) (by decide),
    hreserved (by decide) (by decide), ?_, ?_, ?_⟩
  all_goals simp [padBody, fieldAt_head, fieldAt_past_leBytes, fieldAt_past_zeros, Config.kindPad]

theorem pad_readsBack {n p : Nat} (hn : n < 2 ^ 32) : viewHeader n p (.clean (padLine n)) = .pad := by
  have hl := padBody_length n
  obtain ⟨hkind, h1, h2, h4, h6, hjsn, h12, h16⟩ := padBody_fields n
  rw [Nat.mod_eq_of_lt hn] at hjsn
  have hpad : validPad n (padLine n) = true := by
    simp only [validPad, padLine_eq, fieldAt_sealedLine hl, hkind, h1, h2, h4, h6, hjsn, h12, h16, sealedLine_checks hl,
      Nat.reduceAdd, Nat.reduceLeDiff, beq_self_eq_true, Bool.and_self]
  have herased : readsErased (.clean (padLine n)) = false :=
    not_readsErased (by rw [padLine_eq, fieldAt_sealedLine hl (by decide), hkind]; decide)
  simp only [viewHeader, herased, readable, hpad, if_true, Bool.false_eq_true, if_false]

theorem recordHeader_readsBack {h : RecordHeader} {p : Nat} (hj : 1 ≤ h.jsn) (hj' : h.jsn ≤ 0xFFFFFFFE)
    (hlen : 1 ≤ h.length) (hlen' : h.length ≤ 8192) (hfits : p + (2 + (h.length + 31) / 32) ≤ 2048) :
    viewHeader h.jsn p (.clean (recordHeaderLine h)) = .data h := by
  have hl := recordHeaderBody_length h
  obtain ⟨hkind, hgap, hstream, hseq, hlength, hjsn, htag, htick⟩ := recordHeaderBody_fields h
  obtain ⟨hle, hgap1⟩ := flag_reads h.gap
  rw [Nat.mod_eq_of_lt (by omega)] at hgap hstream hlength hjsn
  rw [Nat.mod_eq_of_lt h.seq.isLt] at hseq
  rw [Nat.mod_eq_of_lt h.tag.isLt] at htag
  rw [Nat.mod_eq_of_lt h.tick.isLt] at htick
  have hfield {i n : Nat} (hi : i + n ≤ 28) : fieldAt (recordHeaderLine h) i n = fieldAt (recordHeaderBody h) i n :=
    fieldAt_sealedLine hl hi
  have hdata : validData h.jsn (recordHeaderLine h) = some h := by
    have hst : fieldAt (recordHeaderLine h) 2 1 = h.stream.val := (hfield (by decide)).trans hstream
    rw [validData, dif_pos (by rw [hst]; exact h.stream.isLt)]
    simp only [hst, hfield, hkind, hgap, hseq, hlength, hjsn, htag, htick, hgap1,
      show checkMatches (recordHeaderLine h) = true from sealedLine_checks hl, Nat.reduceAdd, Nat.reduceLeDiff, BitVec.ofNat_toNat, BitVec.setWidth_eq]
    rw [if_pos ⟨trivial, hle, hlen, hlen', trivial, (inJsnRange_iff _).mpr ⟨hj, hj'⟩, trivial⟩]
  have hpad : validPad h.jsn (recordHeaderLine h) = false := by
    have hnot : (fieldAt (recordHeaderLine h) 0 1 == Config.kindPad) = false := by
      rw [hfield (by decide), hkind]; rfl
    simp only [validPad, hnot, Bool.false_and]
  have herased : readsErased (.clean (recordHeaderLine h)) = false :=
    not_readsErased (by rw [hfield (by decide), hkind]; decide)
  simp only [viewHeader, herased, readable, hpad, hdata, Bool.false_eq_true, if_false]
  exact if_pos hfits

/-! ### Commit lines (R10) -/

/-- The 28 bytes that the check of a commit line covers. -/
def commitBody (jsn length : Nat) (payloadCrc : Word) : List Byte :=
  leBytes 4 Config.commitMarker ++ leBytes 4 jsn ++ leBytes 4 payloadCrc.toNat ++ leBytes 2 length ++ zeros 14

theorem commitLine_eq (jsn length : Nat) (crc : Word) : commitLine jsn length crc = sealedLine (commitBody jsn length crc) :=
  rfl

theorem commitBody_length (jsn length : Nat) (crc : Word) : (commitBody jsn length crc).length = 28 := by
  simp [commitBody]

theorem commitBody_fields (jsn length : Nat) (crc : Word) :
    let f := fieldAt (commitBody jsn length crc)
    f 0 4 = Config.commitMarker ∧ f 4 4 = jsn % 2 ^ 32 ∧ f 8 4 = crc.toNat % 2 ^ 32 ∧ f 12 2 = length % 65536 := by
  simp [commitBody, fieldAt_head, fieldAt_past_leBytes, Config.commitMarker]

theorem commit_readsBack {h : RecordHeader} (hj : h.jsn ≤ 0xFFFFFFFE) (hlen : h.length ≤ 8192) (crc : Word) :
    validCommit h (.clean (commitLine h.jsn h.length crc)) = some crc := by
  have hl := commitBody_length h.jsn h.length crc
  obtain ⟨hmarker, hjsn, hcrc, hlength⟩ := commitBody_fields h.jsn h.length crc
  rw [Nat.mod_eq_of_lt (by omega)] at hjsn hlength
  rw [Nat.mod_eq_of_lt crc.isLt] at hcrc
  simp only [validCommit, readable, commitLine_eq, fieldAt_sealedLine hl, hmarker, hjsn, hcrc, hlength,
    sealedLine_checks hl, Nat.reduceAdd, Nat.reduceLeDiff, and_self, if_true, BitVec.ofNat_toNat, BitVec.setWidth_eq]

/-! ### Snapshots (R14, R15) -/

theorem allReadable_clean (l : List (List Byte)) : allReadable (l.map .clean) = some l := by
  induction l with
  | nil => rfl
  | cons b t ih => simp only [List.map_cons, allReadable, readable, ih]

/-- The line of a present hold, field by field. -/
theorem holdLine_fields (h : HoldLine) :
    let f := fieldAt (holdLine (some h))
    f 0 1 = 1 ∧ f 1 1 = h.last.isNone.toNat % 256 ∧ f 4 4 = h.first % 2 ^ 32 ∧ f 8 4 = h.last.getD 0 % 2 ^ 32 ∧
      f 12 4 = h.owner.toNat % 2 ^ 32 := by
  simp [holdLine, fieldAt_head, fieldAt_past_leBytes, fieldAt_past_zeros]

/-- The fields of a present hold are in their ranges (R15). -/
def HoldLine.Ranged (h : HoldLine) : Prop :=
  1 ≤ h.first ∧ h.first ≤ 0xFFFFFFFE ∧ ∀ l, h.last = some l → h.first ≤ l ∧ l ≤ 0xFFFFFFFE

theorem readHoldLine_holdLine {o : Option HoldLine} (h : ∀ x, o = some x → x.Ranged) : readHoldLine (holdLine o) = o := by
  cases o with
  | none => rfl
  | some x =>
    obtain ⟨hlow, hhigh, hlast⟩ := h x rfl
    obtain ⟨hkind, hopen, hfirst, hl, howner⟩ := holdLine_fields x
    rw [Nat.mod_eq_of_lt x.owner.isLt] at howner
    rw [Nat.mod_eq_of_lt (by omega)] at hfirst
    rw [readHoldLine, if_pos hkind, hfirst, howner, BitVec.ofNat_toNat, BitVec.setWidth_eq, hopen, hl]
    obtain ⟨first, last, owner⟩ := x
    cases last with
    | none => rfl
    | some last =>
      have hlt : last % 2 ^ 32 = last := Nat.mod_eq_of_lt (by have := (hlast last rfl).2; omega)
      exact congrArg (fun l => some (⟨first, some l, owner⟩ : HoldLine)) hlt

theorem holdLineOk_of {o : Option HoldLine} (h : ∀ x, o = some x → x.Ranged) : holdLineOk o = true := by
  cases o with
  | none => rfl
  | some x =>
    obtain ⟨hlow, hhigh, hlast⟩ := h x rfl
    rw [holdLineOk, Bool.and_eq_true, inJsnRange_iff]
    refine ⟨⟨hlow, hhigh⟩, ?_⟩
    cases hx : x.last with
    | none => rfl
    | some l => exact decide_eq_true (hlast l hx).1

section
variable (g : Nat) (holds : Vector (Option HoldLine) 16) (retired : BitVec 256)

theorem snapshotBody_length : (snapshotBody g holds retired).length = 18 := by simp [snapshotBody]

theorem snapshotLines_length : (snapshotLines g holds retired).length = 19 := by
  simp [snapshotLines, snapshotBody_length]

theorem holdLine_length (o : Option HoldLine) : (holdLine o).length = 32 := by
  cases o <;> simp [holdLine]

theorem snapshotLines_wide : ∀ l ∈ snapshotLines g holds retired, l.length = 32 := by
  intro l hl
  simp only [snapshotLines, snapshotBody, List.mem_append, List.mem_cons, List.mem_map, List.not_mem_nil, or_false] at hl
  rcases hl with (rfl | ⟨o, -, rfl⟩ | rfl) | rfl
  · simp [slotHeaderLine]
  · exact holdLine_length o
  · simp [retiredLine]
  · simp [snapshotCommitLine]

theorem snapshotLines_take : (snapshotLines g holds retired).take 18 = snapshotBody g holds retired := by
  rw [snapshotLines, List.take_left' (snapshotBody_length ..)]

theorem snapshotLines_commit : (snapshotLines g holds retired).getD 18 [] =
    snapshotCommitLine g (snapshotBody g holds retired) := by
  simp [snapshotLines, snapshotBody_length, List.getD_eq_getElem?_getD]

theorem snapshotLines_body {k : Nat} (hk : k < 18) :
    (snapshotLines g holds retired).getD k [] = (snapshotBody g holds retired).getD k [] := by
  rw [snapshotLines, List.getD_append _ _ _ _ (by rw [snapshotBody_length]; exact hk)]

theorem snapshotLines_retired : (snapshotLines g holds retired).getD 17 [] = retiredLine retired := by
  rw [snapshotLines_body _ _ _ (by decide)]
  simp [snapshotBody, List.getD_eq_getElem?_getD]

theorem snapshotLines_hold (i : Fin 16) : (snapshotLines g holds retired).getD (i.val + 1) [] = holdLine holds[i] := by
  rw [snapshotLines_body _ _ _ (by omega)]
  simp [snapshotBody, List.getD_eq_getElem?_getD, List.getElem?_append_left]

variable {g holds retired}

theorem readHolds_snapshotLines (h : ∀ (id : Fin 16) (x : HoldLine), holds[id] = some x → x.Ranged) :
    readHolds (snapshotLines g holds retired) = holds := by
  refine Vector.ext fun k hk => ?_
  have hget := tabulate_get (fun i : Fin 16 => readHoldLine ((snapshotLines g holds retired).getD (i.val + 1) [])) ⟨k, hk⟩
  rw [snapshotLines_hold, readHoldLine_holdLine (h ⟨k, hk⟩)] at hget
  exact hget

theorem snapshot_readsBack (hg : g < 2 ^ 32) (h : ∀ (id : Fin 16) (x : HoldLine), holds[id] = some x → x.Ranged)
    (h0 : retired.getLsbD 0 = false) (h1 : retired.getLsbD 1 = false) :
    validSnapshot ((snapshotLines g holds retired).map .clean) = some (g, holds, retired) := by
  have hretired : BitVec.ofNat 256 (leNat (retiredLine retired)) = retired := by
    rw [retiredLine, leNat_leBytes, Nat.mod_eq_of_lt (by exact retired.isLt), BitVec.ofNat_toNat, BitVec.setWidth_eq]
  have hhead : (snapshotLines g holds retired).getD 0 [] = slotHeaderLine g := rfl
  have hslot : fieldAt (slotHeaderLine g) 0 4 = Config.slotMarker ∧ fieldAt (slotHeaderLine g) 4 4 = g := by
    have hwidth : g % 4294967296 = g := Nat.mod_eq_of_lt hg
    simp [slotHeaderLine, fieldAt_head, fieldAt_past_leBytes, Config.slotMarker, hwidth]
  have hcommit : let f := fieldAt (snapshotCommitLine g (snapshotBody g holds retired))
      f 0 4 = Config.snapshotMarker ∧ f 4 4 = g ∧
        f 8 4 = (crc32 (snapshotBody g holds retired).flatten).toNat := by
    have hwidth : g % 4294967296 = g := Nat.mod_eq_of_lt hg
    have hcrc : (crc32 (snapshotBody g holds retired).flatten).toNat % 4294967296 =
        (crc32 (snapshotBody g holds retired).flatten).toNat := Nat.mod_eq_of_lt (BitVec.isLt _)
    simp [snapshotCommitLine, fieldAt_head, fieldAt_past_leBytes, Config.snapshotMarker, hwidth, hcrc]
  have hok : holds.toList.all holdLineOk = true := by
    refine List.all_eq_true.mpr fun o ho => holdLineOk_of fun x hx => ?_
    obtain ⟨k, hk, hget⟩ := Vector.getElem_of_mem (Vector.mem_toList_iff.mp ho)
    exact h ⟨k, hk⟩ x (hget.trans hx)
  obtain ⟨hmarker, hgen⟩ := hslot
  obtain ⟨hcm, hcg, hcc⟩ := hcommit
  simp only [validSnapshot, allReadable_clean, hhead, snapshotLines_commit, snapshotLines_retired, snapshotLines_take,
    readHolds_snapshotLines h, hretired]
  rw [if_pos ⟨hmarker, hcm, hcg.trans hgen.symm, hcc, hok, h0, h1⟩, hgen]

end

/-- Settles O60: each kind of line, from the fields of its bytes. -/
theorem linesReadBack : Obligations.LinesReadBack := by
  refine ⟨fun h he hb hw => ⟨sealedLine_length (sectorHeaderBody_length h), sectorHeader_readsBack he hb hw⟩,
    fun h p hj hj' hlen hlen' hfits => ⟨sealedLine_length (recordHeaderBody_length h),
      recordHeader_readsBack hj hj' hlen hlen' hfits, fun crc => ⟨sealedLine_length (commitBody_length _ _ _),
        commit_readsBack hj' hlen' crc⟩⟩,
    fun n p hn => ⟨sealedLine_length (padBody_length n), pad_readsBack hn⟩,
    fun g holds retired hg hh h0 h1 => ⟨snapshotLines_length .., snapshotLines_wide _ _ _, snapshot_readsBack hg hh h0 h1⟩⟩

end Sys2Proof.Machine
end

section
/-! What a reset leaves of the array (R3, R32, R105, R157). -/

namespace Sys2Proof.Machine

open Sys2Proof.Laws Sys2Proof.Safety

/-- A line outside the program in hand is left as it stood. -/
theorem programmedArray_outside {s : State} {left : Residue} (hm : arrayWf s.array = true) {n : Nat}
    (h : ∀ who i first lines, s.ctrl.operation = some (who, .programLines i first lines) →
      n < lineNo i first ∨ lineNo i first + lines.length ≤ n) :
    memGet (programmedArray s.ctrl s.array left) n = memGet s.array n := by
  unfold programmedArray
  split
  · next who i first lines hop =>
    rcases cutProgram_residue s i first lines.length left hm n with hsame | ⟨j, hj, rfl, -⟩
    · exact hsame
    · have := h who i first lines hop
      omega
  · rfl

section
variable {s : State} {left : Residue} {i : SectorNo} {n : Nat}

/-- No line of a sector whose erase is cut short shows a content that its lines do not read as (R3). -/
theorem abandoned_unread (hm : arrayWf s.array = true) (hi : CutByReset s.ctrl i) (hn : inSector i n = true) {b : List Byte}
    (hl : memGet (abandonedArray s.ctrl s.array s.barred left) n ≠ none)
    (hb : (n, b) ∈ abandonedBarred s.ctrl s.array s.barred) :
    readable (cellOutcome (memGet (abandonedArray s.ctrl s.array s.barred left) n)) ≠ some b :=
  abandonedArray_in (P := fun x => x ≠ none → readable (cellOutcome x) ≠ some b) s.ctrl s.barred left hm i n hi hn
    (fun h => absurd rfl h)
    (fun _ hbars _ hne hreads => (failedEraseCell_reads i n _ _ b hreads).1 hne (hbars _ hb)) hl

theorem abandoned_header (hm : arrayWf s.array = true) (hi : CutByReset s.ctrl i) (hj : IsJournal i) :
    validSectorHeader (cellOutcome (memGet (abandonedArray s.ctrl s.array s.barred left) (lineNo i 0))) = none :=
  abandonedArray_in (P := fun x => validSectorHeader (cellOutcome x) = none) s.ctrl s.barred left hm i _ hi
    (inSector_zero i) header_blank fun _ _ _ => failedEraseCell_header i hj _ _

theorem abandoned_commit (hm : arrayWf s.array = true) (hi : CutByReset s.ctrl i) (hlow : i.val < 2)
    (hn : inSector i n = true) {b : List Byte}
    (hb : readable (cellOutcome (memGet (abandonedArray s.ctrl s.array s.barred left) n)) = some b) :
    fieldAt b 0 4 ≠ Config.snapshotMarker :=
  abandonedArray_in (P := fun x => readable (cellOutcome x) = some b → fieldAt b 0 4 ≠ Config.snapshotMarker)
    s.ctrl s.barred left hm i n hi hn (fun h => by rw [← Option.some.inj h]; decide)
    (fun _ _ _ hreads => (failedEraseCell_reads i n _ _ b hreads).2 hlow) hb

end

/-- Settles O5: both resets leave the array and the barred contents of `abandonedArray` and `abandonedBarred`. -/
theorem resetKeepsArray : Obligations.ResetKeepsArray := by
  intro left s c hc hcanon
  have hm : arrayWf s.array = true := hcanon.1
  have hends : ∃ t, exec c s = .next t ∧ t.array = abandonedArray s.ctrl s.array s.barred left ∧
      t.barred = abandonedBarred s.ctrl s.array s.barred := by
    rcases hc with rfl | rfl
    · exact ⟨coldReset left s, rfl, rfl, rfl⟩
    · exact ⟨softReset left s, rfl, rfl, rfl⟩
  obtain ⟨t, ht, harray, hbarred⟩ := hends
  refine ⟨t, ht, fun n hout hprogram => ?_, fun who i first lines hop => ?_, fun i hi => ⟨fun n b hn hl hb => ?_,
    fun hj => ?_, fun hlow n b hn hb => ?_⟩, fun n x => ?_⟩
  · rw [harray, abandonedArray_out _ _ _ hm n hout, programmedArray_outside hm hprogram]
  · refine ⟨programmedArray s.ctrl s.array left, ?_, fun n hout => ?_⟩
    · have hprogrammed : programmedArray s.ctrl s.array left = cutProgram s.array (lineNo i first) lines.length left := by
        unfold programmedArray
        rw [hop]
      rw [hprogrammed]
      exact cutProgram_residue s i first lines.length left hm
    · rw [harray, abandonedArray_out _ _ _ hm n hout]
  · rw [harray] at hl ⊢
    exact abandoned_unread hm hi hn hl (hbarred ▸ hb)
  · rw [harray]
    exact abandoned_header hm hi hj
  · exact abandoned_commit hm hi hlow hn (harray ▸ hb)
  · rw [hbarred]
    exact mem_abandonedBarred s.ctrl s.barred hm n x

end Sys2Proof.Machine
end

section
/-! What ticks and the start of DRAINING share: contexts discarded one by one, and streams changed one by one (R51,
R53, R78, R80). -/

namespace Sys2Proof.Machine

open Sys2Proof.Laws Sys2Proof.Safety

/-! ### The abandoned set (R46) -/

/-- Marking a position abandoned adds that position to the set, and no other. -/
theorem abandon_getLsbD (x : BitVec 8) (d k : Nat) (hk : k < 8) :
    (x ||| (1#8 <<< d)).getLsbD k = true ↔ x.getLsbD k = true ∨ d = k := by
  have hone : (1#8 <<< d).getLsbD k = true ↔ d = k := by
    simp only [BitVec.getLsbD_shiftLeft, hk, decide_true, Bool.true_and, Bool.and_eq_true, Bool.not_eq_true',
      decide_eq_false_iff_not, BitVec.getLsbD_one, decide_eq_true_eq]
    omega
  rw [BitVec.getLsbD_or, Bool.or_eq_true, hone]

/-! ### Contexts discarded one by one -/

section
variable {gone : CtxNo → Context → Prop} {posts : CtxNo → Option Context → List Posting} {kept : Context → Context}
  {l : List CtxNo} {s t : State} {i : CtxNo}

/-- What has become of the contexts of a list: `Discards`, so far as the list goes. -/
structure DiscardsOn (gone : CtxNo → Context → Prop) (posts : CtxNo → Option Context → List Posting)
    (kept : Context → Context) (l : List CtxNo) (s t : State) : Prop where
  ahead : ∀ i : CtxNo, i ∉ l → t.assembly.contexts[i] = s.assembly.contexts[i]
  free : ∀ i ∈ l, s.assembly.contexts[i] = none → t.assembly.contexts[i] = none
  behind : ∀ i ∈ l, ∀ c, s.assembly.contexts[i] = some c →
    (gone i c → t.assembly.contexts[i] = none) ∧ (¬gone i c → t.assembly.contexts[i] = some (kept c))
  posting : t.host.posting = s.host.posting ++ l.flatMap fun i => posts i s.assembly.contexts[i]
  streams : ∀ st : StreamNo, t.assembly.streams[st] =
    { s.assembly.streams[st] with abandoned := t.assembly.streams[st].abandoned }
  abandoned : ∀ (st : StreamNo) (k : Nat), k < 8 → (t.assembly.streams[st].abandoned.getLsbD k = true ↔
    s.assembly.streams[st].abandoned.getLsbD k = true ∨ (s.assembly.streams[st].state = .opened ∧
      ∃ i ∈ l, ∃ c : Context, s.assembly.contexts[i] = some c ∧ gone i c ∧ c.stream = st ∧
        (c.seq - s.assembly.streams[st].nextAdmission).toNat = k))
  frame : t = { s with
    host := { s.host with posting := t.host.posting }
    assembly := { s.assembly with
      contexts := t.assembly.contexts, streams := t.assembly.streams, freeBlocks := t.assembly.freeBlocks } }

theorem DiscardsOn.nil (s : State) : DiscardsOn gone posts kept [] s s where
  ahead _ _ := rfl
  free _ h := absurd h List.not_mem_nil
  behind _ h := absurd h List.not_mem_nil
  posting := (List.append_nil _).symm
  streams _ := rfl
  abandoned st k _ := by simp
  frame := rfl

/-- The contexts of the whole table. -/
theorem DiscardsOn.discards (h : DiscardsOn gone posts kept allContexts s t) : Discards gone posts kept s t where
  contexts i := ⟨h.behind i (List.mem_finRange i), h.free i (List.mem_finRange i)⟩
  posting := h.posting
  streams := h.streams
  abandoned st k hk := by
    rw [h.abandoned st k hk]
    simp only [allContexts, List.mem_finRange, true_and]
  frame := h.frame

theorem DiscardsOn.device (h : DiscardsOn gone posts kept l s t) : t.host.device = s.host.device := by rw [h.frame]

/-- A context that is not discarded: its postings are handed over, and it stands as it is kept. -/
theorem DiscardsOn.keep (h : DiscardsOn gone posts kept l s t) (hi : i ∉ l)
    (hg : ∀ c, s.assembly.contexts[i] = some c → ¬gone i c) {u : State} (hu : u = { t with
      host := { t.host with posting := t.host.posting ++ posts i s.assembly.contexts[i] }
      assembly := { t.assembly with
        contexts := t.assembly.contexts.set i (s.assembly.contexts[i].map kept) } }) :
    DiscardsOn gone posts kept (l ++ [i]) s u := by
  subst hu
  have hown (o : Option Context) : (t.assembly.contexts.set i o)[i] = o := (tableSet_get _ i i o).trans (if_pos rfl)
  have hother (o : Option Context) (j : CtxNo) (hj : j ≠ i) :
      (t.assembly.contexts.set i o)[j] = t.assembly.contexts[j] := (tableSet_get _ i j o).trans (if_neg hj)
  have hne : ∀ j ∈ l, j ≠ i := fun j hj he => hi (he ▸ hj)
  refine ⟨fun j hj => ?_, fun j hj hn => ?_, fun j hj c hc => ?_, ?_, h.streams, fun st k hk => ?_, ?_⟩
  · rw [List.mem_append, List.mem_singleton, not_or] at hj
    exact (hother _ j hj.2).trans (h.ahead j hj.1)
  · rcases List.mem_append.mp hj with hj | hj
    · exact (hother _ j (hne j hj)).trans (h.free j hj hn)
    · obtain rfl := List.mem_singleton.mp hj
      exact (hown _).trans (by rw [hn]; rfl)
  · rcases List.mem_append.mp hj with hj | hj
    · exact (hother (s.assembly.contexts[i].map kept) j (hne j hj)).symm ▸ h.behind j hj c hc
    · obtain rfl := List.mem_singleton.mp hj
      exact ⟨fun hgone => absurd hgone (hg c hc), fun _ => (hown _).trans (by rw [hc]; rfl)⟩
  · rw [h.posting, List.flatMap_append, List.flatMap_singleton, List.append_assoc]
  · rw [h.abandoned st k hk]
    refine or_congr_right (and_congr_right fun _ => ⟨fun ⟨j, hj, hrest⟩ => ⟨j, List.mem_append_left _ hj, hrest⟩, ?_⟩)
    rintro ⟨j, hj, c, hc, hgone, hrest⟩
    rcases List.mem_append.mp hj with hj | hj
    · exact ⟨j, hj, c, hc, hgone, hrest⟩
    · obtain rfl := List.mem_singleton.mp hj
      exact absurd hgone (hg c hc)
  · rw [h.frame]

/-- A context that is discarded: its postings are handed over, its blocks freed, and in an OPEN stream its position is
abandoned. -/
theorem DiscardsOn.drop (h : DiscardsOn gone posts kept l s t) (hi : i ∉ l) {c : Context}
    (hc : s.assembly.contexts[i] = some c) (hg : gone i c) {u : State} {d : Nat} {freed : List BlockNo}
    (hd : d = (c.seq - s.assembly.streams[c.stream].nextAdmission).toNat) (hu : u = { t with
      host := { t.host with posting := t.host.posting ++ posts i s.assembly.contexts[i] }
      assembly := { t.assembly with
        contexts := t.assembly.contexts.set i none
        streams := if s.assembly.streams[c.stream].state = .opened
          then tableMod t.assembly.streams c.stream (fun e => e.abandon d) else t.assembly.streams
        freeBlocks := freed } }) :
    DiscardsOn gone posts kept (l ++ [i]) s u := by
  subst hu
  have hown : (t.assembly.contexts.set i none)[i] = none := (tableSet_get _ i i _).trans (if_pos rfl)
  have hother (j : CtxNo) (hj : j ≠ i) : (t.assembly.contexts.set i none)[j] = t.assembly.contexts[j] :=
    (tableSet_get _ i j _).trans (if_neg hj)
  have hne : ∀ j ∈ l, j ≠ i := fun j hj he => hi (he ▸ hj)
  refine ⟨fun j hj => ?_, fun j hj hn => ?_, fun j hj x hx => ?_, ?_, fun st => ?_, fun st k hk => ?_, ?_⟩
  · rw [List.mem_append, List.mem_singleton, not_or] at hj
    exact (hother j hj.2).trans (h.ahead j hj.1)
  · rcases List.mem_append.mp hj with hj | hj
    · exact (hother j (hne j hj)).trans (h.free j hj hn)
    · obtain rfl := List.mem_singleton.mp hj
      exact hown
  · rcases List.mem_append.mp hj with hj | hj
    · exact (hother j (hne j hj)).symm ▸ h.behind j hj x hx
    · obtain rfl := List.mem_singleton.mp hj
      obtain rfl : c = x := Option.some.inj (hc.symm.trans hx)
      exact ⟨fun _ => hown, fun hgone => absurd hg hgone⟩
  · rw [h.posting, List.flatMap_append, List.flatMap_singleton, List.append_assoc]
  · dsimp only
    split
    · rw [tableMod_get]
      split
      · rw [Stream.abandon, h.streams st]
      · exact h.streams st
    · exact h.streams st
  · have hnew : (s.assembly.streams[st].state = .opened ∧ ∃ j ∈ l ++ [i], ∃ x : Context,
          s.assembly.contexts[j] = some x ∧ gone j x ∧ x.stream = st ∧
            (x.seq - s.assembly.streams[st].nextAdmission).toNat = k) ↔
        (s.assembly.streams[st].state = .opened ∧ ∃ j ∈ l, ∃ x : Context, s.assembly.contexts[j] = some x ∧
          gone j x ∧ x.stream = st ∧ (x.seq - s.assembly.streams[st].nextAdmission).toNat = k) ∨
        (s.assembly.streams[st].state = .opened ∧ c.stream = st ∧ d = k) := by
      rw [← and_or_left]
      refine and_congr_right fun _ => ⟨?_, ?_⟩
      · rintro ⟨j, hj, x, hx, hrest⟩
        rcases List.mem_append.mp hj with hj | hj
        · exact .inl ⟨j, hj, x, hx, hrest⟩
        · obtain rfl := List.mem_singleton.mp hj
          obtain rfl : c = x := Option.some.inj (hc.symm.trans hx)
          obtain ⟨-, rfl, hk⟩ := hrest
          exact .inr ⟨rfl, hd.trans hk⟩
      · rintro (⟨j, hj, hrest⟩ | ⟨rfl, hk⟩)
        · exact ⟨j, List.mem_append_left _ hj, hrest⟩
        · exact ⟨i, List.mem_append_right _ (List.mem_singleton_self i), c, hc, hg, rfl, hd.symm.trans hk⟩
    rw [hnew, ← or_assoc, ← h.abandoned st k hk]
    dsimp only
    split
    next ho =>
      rw [tableMod_get]
      split
      next he =>
        subst he
        rw [Stream.abandon, abandon_getLsbD _ _ _ hk]
        simp only [ho, true_and]
      next he =>
        refine ⟨.inl, fun hor => hor.resolve_right ?_⟩
        rintro ⟨-, hst, -⟩
        exact he hst.symm
    next ho =>
      refine ⟨.inl, fun hor => hor.resolve_right ?_⟩
      rintro ⟨hop, rfl, -⟩
      exact ho hop
  · rw [h.frame]

/-- A step that does its part for each context does it for all of them. -/
theorem DiscardsOn.foldl {f : State → CtxNo → State}
    (hf : ∀ {l t i}, DiscardsOn gone posts kept l s t → i ∉ l → DiscardsOn gone posts kept (l ++ [i]) s (f t i))
    (is : List CtxNo) (h : DiscardsOn gone posts kept l s t) (hn : (l ++ is).Nodup) :
    DiscardsOn gone posts kept (l ++ is) s (is.foldl f t) := by
  induction is generalizing l t with
  | nil => rwa [List.append_nil]
  | cons i is ih =>
    rw [List.append_cons] at hn ⊢
    have hi : i ∉ l := fun hi => (List.nodup_append.mp (List.nodup_append.mp hn).1).2.2 i hi i
      (List.mem_singleton_self i) rfl
    exact ih (hf h hi) hn

end

/-! ### Streams changed one by one -/

section
variable {becomes : StreamNo → Stream → Prop} {posts : StreamNo → List Posting} {l : List StreamNo} {s t : State}
  {st : StreamNo}

/-- What has become of the streams of a list, with the postings for each; nothing else has changed. -/
structure StreamsOn (becomes : StreamNo → Stream → Prop) (posts : StreamNo → List Posting) (l : List StreamNo)
    (s t : State) : Prop where
  ahead : ∀ st : StreamNo, st ∉ l → t.assembly.streams[st] = s.assembly.streams[st]
  behind : ∀ st ∈ l, becomes st t.assembly.streams[st]
  posting : t.host.posting = s.host.posting ++ l.flatMap posts
  frame : t = { s with
    host := { s.host with posting := t.host.posting }, assembly := { s.assembly with streams := t.assembly.streams } }

theorem StreamsOn.nil (s : State) : StreamsOn becomes posts [] s s where
  ahead _ _ := rfl
  behind _ h := absurd h List.not_mem_nil
  posting := (List.append_nil _).symm
  frame := rfl

theorem StreamsOn.device (h : StreamsOn becomes posts l s t) : t.host.device = s.host.device := by rw [h.frame]

theorem StreamsOn.contexts (h : StreamsOn becomes posts l s t) : t.assembly.contexts = s.assembly.contexts := by
  rw [h.frame]

/-- A stream takes its turn. -/
theorem StreamsOn.snoc (h : StreamsOn becomes posts l s t) (hst : st ∉ l) {e : Stream} (he : becomes st e) {u : State}
    (hu : u = { t with
      host := { t.host with posting := t.host.posting ++ posts st }
      assembly := { t.assembly with streams := t.assembly.streams.set st e } }) :
    StreamsOn becomes posts (l ++ [st]) s u := by
  subst hu
  have hown : (t.assembly.streams.set st e)[st] = e := (tableSet_get _ st st e).trans (if_pos rfl)
  have hother (k : StreamNo) (hk : k ≠ st) : (t.assembly.streams.set st e)[k] = t.assembly.streams[k] :=
    (tableSet_get _ st k e).trans (if_neg hk)
  refine ⟨fun k hk => ?_, fun k hk => ?_, ?_, ?_⟩
  · rw [List.mem_append, List.mem_singleton, not_or] at hk
    exact (hother k hk.2).trans (h.ahead k hk.1)
  · rcases List.mem_append.mp hk with hk | hk
    · exact (hother k fun he => hst (he ▸ hk)).symm ▸ h.behind k hk
    · obtain rfl := List.mem_singleton.mp hk
      exact hown.symm ▸ he
  · rw [h.posting, List.flatMap_append, List.flatMap_singleton, List.append_assoc]
  · rw [h.frame]

/-- A step that does its part for each stream does it for all of them. -/
theorem StreamsOn.foldl {f : State → StreamNo → State}
    (hf : ∀ {l t st}, StreamsOn becomes posts l s t → st ∉ l → StreamsOn becomes posts (l ++ [st]) s (f t st))
    (sts : List StreamNo) (h : StreamsOn becomes posts l s t) (hn : (l ++ sts).Nodup) :
    StreamsOn becomes posts (l ++ sts) s (sts.foldl f t) := by
  induction sts generalizing l t with
  | nil => rwa [List.append_nil]
  | cons st sts ih =>
    rw [List.append_cons] at hn ⊢
    have hst : st ∉ l := fun hi => (List.nodup_append.mp (List.nodup_append.mp hn).1).2.2 st hi st
      (List.mem_singleton_self st) rfl
    exact ih (hf h hst) hn

end

/-! ### What admission leaves of the contexts (R47, R48) -/

/-- Admission leaves every context as it is, or QUEUED from COMPLETE and in the commit queue. -/
structure Admits (s t : State) : Prop where
  contexts : ∀ i : CtxNo, t.assembly.contexts[i] = s.assembly.contexts[i] ∨
    ∃ c, s.assembly.contexts[i] = some c ∧ c.state = .complete ∧
      t.assembly.contexts[i] = some { c with state := .queued } ∧ i ∈ t.writer.queue
  queue : ∀ i ∈ s.writer.queue, i ∈ t.writer.queue
  frame : t = { s with
    writer := { s.writer with queue := t.writer.queue }
    assembly := { s.assembly with contexts := t.assembly.contexts, streams := t.assembly.streams } }

theorem Admits.refl (s : State) : Admits s s := ⟨fun _ => .inl rfl, fun _ => id, rfl⟩

theorem Admits.trans {s t u : State} (h : Admits s t) (k : Admits t u) : Admits s u where
  contexts i := by
    rcases k.contexts i with hk | ⟨c, hc, hs, hk, hq⟩
    · rcases h.contexts i with hi | ⟨c, hc, hs, hi, hq⟩
      · exact .inl (hk.trans hi)
      · exact .inr ⟨c, hc, hs, hk.trans hi, k.queue i hq⟩
    · rcases h.contexts i with hi | ⟨x, -, -, hi, -⟩
      · exact .inr ⟨c, hi ▸ hc, hs, hk, hq⟩
      · obtain rfl := Option.some.inj (hi.symm.trans hc)
        cases hs
  queue i hi := k.queue i (h.queue i hi)
  frame := by rw [k.frame, h.frame]

theorem Advances.admits {st : StreamNo} {s t : State} (h : Advances st s t) : Admits s t := by
  obtain ⟨-, ⟨i, c, ⟨hi, -, -, hc⟩, -, rfl⟩ | ⟨-, -, rfl⟩⟩ := h
  · refine ⟨fun j => ?_, fun j hj => List.mem_append_left _ hj, rfl⟩
    by_cases hj : j = i
    · subst hj
      exact .inr ⟨c, hi, hc, (tableSet_get _ j j _).trans (if_pos rfl),
        List.mem_append_right _ (List.mem_singleton_self j)⟩
    · exact .inl ((tableSet_get _ i j _).trans (if_neg hj))
  · exact ⟨fun _ => .inl rfl, fun _ => id, rfl⟩

theorem Run.admits {st : StreamNo} {n : Nat} {s t : State} (h : Run st n s t) : Admits s t := by
  induction n generalizing s with
  | zero =>
    obtain rfl : t = s := h
    exact .refl t
  | succ n ih =>
    obtain ⟨-, rfl⟩ | ⟨m, hm, hr⟩ := h
    · exact .refl t
    · exact (Advances.admits hm).trans (ih hr)

theorem RunAll.admits {sts : List StreamNo} {s t : State} (h : RunAll sts s t) : Admits s t := by
  induction sts generalizing s with
  | nil =>
    obtain rfl : t = s := h
    exact .refl t
  | cons st sts ih =>
    obtain ⟨m, hm, hr⟩ := h
    exact (Run.admits hm).trans (ih hr)

end Sys2Proof.Machine
end

section
/-! Ticks: ageing, expiries, stalls and skips (R51, R77, R78). -/

namespace Sys2Proof.Machine

open Sys2Proof.Laws Sys2Proof.Safety

/-! ### Context ageing (R78) -/

theorem agesOnTick_iff (a : Assembly) (c : Context) : agesOnTick a c = true ↔ Ages a c := by
  simp only [agesOnTick, Ages, Bool.and_eq_true, beq_iff_eq, List.isEmpty_iff, decide_eq_true_eq, and_assoc]

/-- The tick brings the context to its stream's age limit. -/
abbrev Expires (a : Assembly) (c : Context) : Prop := Ages a c ∧ c.age + 1 = a.streams[c.stream].ageLimit

open Classical in
/-- What a tick hands over for one context. -/
noncomputable def agedPosts (a : Assembly) (o : Option Context) : List Posting :=
  match o with
  | some c => if Expires a c then discarded c ++ [.notice (.assemblyExpired c.stream c.seq)] else []
  | none => []

open Classical in
/-- A context after a tick at which it does not expire. -/
noncomputable def agedKept (a : Assembly) (c : Context) : Context := if Ages a c then { c with age := c.age + 1 } else c

theorem agedPosts_kept {a : Assembly} {c : Context} (h : ¬Expires a c) : agedPosts a (some c) = [] := if_neg h

theorem agedPosts_expired {a : Assembly} {c : Context} (h : Expires a c) :
    agedPosts a (some c) = discarded c ++ [.notice (.assemblyExpired c.stream c.seq)] := if_pos h

/-- The contexts of a list have been aged by a tick. -/
abbrev AgedOn (l : List CtxNo) (s t : State) : Prop :=
  DiscardsOn (fun _ c => Expires s.assembly c) (fun _ => agedPosts s.assembly) (agedKept s.assembly) l s t

theorem expireContext_eq {i : CtxNo} {c : Context} {s : State} (h : Notices s) : expireContext i c s = { s with
    host := { s.host with
      posting := s.host.posting ++ (discarded c ++ [.notice (.assemblyExpired c.stream c.seq)]) }
    assembly := { s.assembly with
      contexts := s.assembly.contexts.set i none
      streams := tableMod s.assembly.streams c.stream
        (fun e => e.abandon (c.seq - s.assembly.streams[c.stream].nextAdmission).toNat)
      freeBlocks := s.assembly.freeBlocks ++ mappedBlocks c.blockMap } } := by
  rw [expireContext, discardContext_eq, postNotice_noticed (by exact h), ← List.append_assoc]
  rfl

/-- A list of contexts aged leaves what the tick asks of a stream: its state, its age limit, its next admission. -/
theorem AgedOn.ages_iff {l : List CtxNo} {s t : State} (h : AgedOn l s t) (c : Context) :
    Ages t.assembly c ↔ Ages s.assembly c := by
  rw [Ages, h.streams c.stream]
  rfl

theorem ageContext_on {l : List CtxNo} {s t : State} {i : CtxNo} (hn : Notices s) (h : AgedOn l s t) (hi : i ∉ l) :
    AgedOn (l ++ [i]) s (ageContext i t) := by
  have hat := h.ahead i hi
  have hself (o : Option Context) (ho : t.assembly.contexts[i] = o) : t.assembly.contexts.set i o = t.assembly.contexts := by
    rw [← ho]
    exact Vector.set_getElem_self _
  cases ho : s.assembly.contexts[i] with
  | none =>
    rw [ho] at hat
    refine h.keep hi (fun c hc => by rw [ho] at hc; cases hc) ?_
    simp only [ageContext, hat, ho, agedPosts, List.append_nil, Option.map_none, hself none hat]
  | some c =>
    rw [ho] at hat
    by_cases ha : Ages s.assembly c
    · have hages : agesOnTick t.assembly c = true := (agesOnTick_iff _ _).mpr ((h.ages_iff c).mpr ha)
      have hlimit : t.assembly.streams[c.stream].ageLimit = s.assembly.streams[c.stream].ageLimit := by
        rw [h.streams c.stream]
      by_cases he : c.age + 1 = s.assembly.streams[c.stream].ageLimit
      · refine h.drop (freed := t.assembly.freeBlocks ++ mappedBlocks c.blockMap) hi ho ⟨ha, he⟩ rfl ?_
        have hnext : t.assembly.streams[c.stream].nextAdmission = s.assembly.streams[c.stream].nextAdmission := by
          rw [h.streams c.stream]
        have hnotices : Notices t := by rw [Notices, h.device]; exact hn
        simp only [ageContext, hat, hages, if_true, hlimit, he, expireContext_eq hnotices, ho,
          agedPosts_expired ⟨ha, he⟩, hnext, ha.2.2.1]
        rfl
      · refine h.keep hi (fun x hx hg => ?_) ?_
        · obtain rfl : c = x := Option.some.inj (ho.symm.trans hx)
          exact he hg.2
        · have hkept : agedKept s.assembly c = { c with age := c.age + 1 } := if_pos ha
          simp only [ageContext, hat, hages, if_true, hlimit, he, if_false, ho, Option.map_some, hkept,
            agedPosts_kept fun hg : Expires s.assembly c => he hg.2, List.append_nil]
          rfl
    · have hages : ¬agesOnTick t.assembly c = true := fun hx => ha ((h.ages_iff c).mp ((agesOnTick_iff _ _).mp hx))
      have hkept : agedKept s.assembly c = c := if_neg ha
      refine h.keep hi (fun x hx hg => ?_) ?_
      · obtain rfl : c = x := Option.some.inj (ho.symm.trans hx)
        exact ha hg.1
      · simp only [ageContext, hat, hages, Bool.false_eq_true, if_false, ho, Option.map_some, hkept,
          agedPosts_kept fun hg : Expires s.assembly c => ha hg.1, List.append_nil, hself _ hat]

/-- Context ageing goes through the whole table. -/
theorem ageContexts_aged {s : State} (hn : Notices s) :
    Aged s (allContexts.foldl (fun s i => ageContext i s) s) :=
  (DiscardsOn.foldl (fun h hi => ageContext_on hn h hi) allContexts (.nil s) (List.nodup_finRange 32)).discards

/-! ### Stall ageing (R51) -/

theorem holdsContext_holdsAt (a : Assembly) (st : StreamNo) (k : Nat) : holdsContext a st k = true ↔ HoldsAt a st k :=
  holdsContext_iff a st k

theorem isStalled_iff (a : Assembly) (st : StreamNo) : isStalled a st = true ↔ Stalled a st := by
  have hany : ([1, 2, 3, 4, 5, 6, 7].any fun k => holdsContext a st k) = true ↔
      ∃ k, 1 ≤ k ∧ k ≤ 7 ∧ HoldsAt a st k := by
    rw [List.any_eq_true]
    refine exists_congr fun k => ?_
    rw [holdsContext_holdsAt, ← and_assoc]
    refine and_congr_left fun _ => ?_
    simp only [List.mem_cons, List.not_mem_nil, or_false]
    omega
  rw [isStalled, Bool.and_eq_true, Bool.and_eq_true, hany, Bool.not_eq_true', Bool.not_eq_true',
    ← Bool.not_eq_true, holdsContext_holdsAt, and_assoc]
  rfl

/-- What stands at a window position depends on the contexts and on the stream's next admission alone. -/
theorem HoldsAt.congr {a b : Assembly} {st : StreamNo} {k : Nat} (hc : b.contexts = a.contexts)
    (hn : b.streams[st].nextAdmission = a.streams[st].nextAdmission) : HoldsAt b st k ↔ HoldsAt a st k := by
  simp only [HoldsAt, hc, hn]

theorem Stalled.congr {a b : Assembly} {st : StreamNo} (hc : b.contexts = a.contexts)
    (hs : b.streams[st] = a.streams[st]) : Stalled b st ↔ Stalled a st := by
  simp only [Stalled, HoldsAt.congr hc (congrArg Stream.nextAdmission hs), hs]

/-- The tick ages the stall of the stream, if it is stalled. -/
abbrev AgesStall (a : Assembly) (st : StreamNo) : Prop := a.streams[st].state = .opened ∧ 0 < a.streams[st].ageLimit

/-- The tick brings the stall to its stream's age limit. -/
abbrev Skips (a : Assembly) (st : StreamNo) : Prop :=
  AgesStall a st ∧ Stalled a st ∧ a.streams[st].stallAge + 1 = a.streams[st].ageLimit

open Classical in
/-- A stream after stall ageing. -/
noncomputable def stallAged (a : Assembly) (st : StreamNo) : Stream :=
  let e := a.streams[st]
  if AgesStall a st then
    if Stalled a st then
      if e.stallAge + 1 = e.ageLimit then { e with stallAge := e.stallAge + 1, abandoned := e.abandoned ||| 1#8 }
      else { e with stallAge := e.stallAge + 1 }
    else { e with stallAge := 0 }
  else e

open Classical in
/-- What stall ageing hands over for one stream. -/
noncomputable def stallPosts (a : Assembly) (st : StreamNo) : List Posting :=
  if Skips a st then [.notice (.sequenceSkipped st a.streams[st].nextAdmission)] else []

theorem skipPosition_eq {st : StreamNo} {s : State} (h : Notices s) : skipPosition st s = { s with
    host := noticed (.sequenceSkipped st s.assembly.streams[st].nextAdmission) s.host
    assembly := { s.assembly with streams := tableMod s.assembly.streams st fun e => e.abandon 0 } } :=
  postNotice_noticed (by exact h)

theorem ageStall_on {l : List StreamNo} {s t : State} {st : StreamNo} (hn : Notices s)
    (h : StreamsOn (fun st e => e = stallAged s.assembly st) (stallPosts s.assembly) l s t) (hst : st ∉ l) :
    StreamsOn (fun st e => e = stallAged s.assembly st) (stallPosts s.assembly) (l ++ [st]) s (ageStall st t) := by
  have hat := h.ahead st hst
  have hnotices : Notices t := by rw [Notices, h.device]; exact hn
  have hself : t.assembly.streams.set st s.assembly.streams[st] = t.assembly.streams := by
    rw [← hat]
    exact Vector.set_getElem_self _
  refine h.snoc hst rfl ?_
  by_cases ha : AgesStall s.assembly st
  · have ha' : s.assembly.streams[st].state = .opened ∧ 0 < s.assembly.streams[st].ageLimit := ha
    by_cases hs : Stalled s.assembly st
    · have hstalled : isStalled t.assembly st = true :=
        (isStalled_iff _ _).mpr ((Stalled.congr h.contexts hat).mpr hs)
      by_cases he : s.assembly.streams[st].stallAge + 1 = s.assembly.streams[st].ageLimit
      · have hposts : stallPosts s.assembly st = [.notice (.sequenceSkipped st s.assembly.streams[st].nextAdmission)] :=
          if_pos ⟨ha, hs, he⟩
        simp only [ageStall, hat, if_pos ha', hstalled, if_true, if_pos he, modStream_eq, stallAged, if_pos hs,
          hposts]
        rw [skipPosition_eq (by exact hnotices)]
        simp only [tableSet_get, if_true, noticed, tableMod, Vector.set_set]
        rfl
      · simp only [ageStall, hat, if_pos ha', hstalled, if_true, he, if_false, modStream_eq, stallAged,
          if_pos hs, stallPosts, if_neg fun hg : Skips s.assembly st => he hg.2.2, List.append_nil]
    · have hstalled : ¬isStalled t.assembly st = true := fun hx =>
        hs ((Stalled.congr h.contexts hat).mp ((isStalled_iff _ _).mp hx))
      simp only [ageStall, hat, if_pos ha', hstalled, Bool.false_eq_true, if_false, modStream_eq, stallAged,
        if_neg hs, stallPosts, if_neg fun hg : Skips s.assembly st => hs hg.2.1, List.append_nil]
  · have ha' : ¬(s.assembly.streams[st].state = .opened ∧ 0 < s.assembly.streams[st].ageLimit) := ha
    simp only [ageStall, hat, if_neg ha', stallAged, stallPosts,
      if_neg fun hg : Skips s.assembly st => ha hg.1, List.append_nil, hself]

/-- Stall ageing goes through all streams. -/
theorem ageStalls_aged {s : State} (hn : Notices s) : StallsAged s (allStreams.foldl (fun s st => ageStall st s) s) := by
  have h := StreamsOn.foldl (fun h hi => ageStall_on hn h hi) allStreams (.nil s) (List.nodup_finRange 16)
  refine ⟨fun st => ?_, h.posting, h.frame⟩
  have hst : _ = stallAged s.assembly st := h.behind st (List.mem_finRange st)
  refine ⟨fun ha => ?_, fun ha hs => ?_, fun ha hs he => ?_, fun ⟨ha, hs, he⟩ => ?_⟩
  · exact hst.trans (if_neg ha)
  · exact hst.trans ((if_pos ha).trans (if_neg hs))
  · exact hst.trans ((if_pos ha).trans ((if_pos hs).trans (if_neg fun hx => he ⟨ha, hs, hx⟩)))
  · exact hst.trans ((if_pos ha).trans ((if_pos hs).trans (if_pos he)))

/-! ### A tick (R77) -/

theorem exec_tick {s : State} (h : s.host.device.ticks = true) : exec .tick s = .next (takeTick s) := by
  change Host.Outcome.next _ = _
  rw [if_pos h]

theorem not_ticks {d : DeviceState} (h : ¬(d = .online ∨ d = .draining ∨ d = .stopped)) : d.ticks = false := by
  cases d with
  | online => exact absurd (.inl rfl) h
  | draining => exact absurd (.inr (.inl rfl)) h
  | stopped => exact absurd (.inr (.inr rfl)) h
  | offline => rfl
  | setup => rfl
  | mounting => rfl
  | halted => rfl

/-- The state in which a tick's contexts age: the tick counter has risen. -/
def counted (s : State) : State :=
  { s with assembly := { s.assembly with tickCounter := s.assembly.tickCounter + 1#32 } }

/-- Settles O39: the contexts age one by one, then the stalls, and admission runs for every stream. -/
theorem tickTaken : Obligations.TickTaken := by
  intro s ticks ages
  refine ⟨fun ht => ?_, fun ht => ?_⟩
  · change Host.Outcome.next _ = _
    rw [if_neg (by rw [not_ticks ht]; decide)]
  · obtain ⟨hticks, hn⟩ := ticks_of ht
    have haged : Aged (counted s) (allContexts.foldl (fun s i => ageContext i s) (counted s)) :=
      ageContexts_aged (by exact hn)
    generalize hm₁ : allContexts.foldl (fun s i => ageContext i s) (counted s) = m₁ at haged
    have hn₁ : Notices m₁ := by rw [haged.frame]; exact hn
    have hstalls : StallsAged m₁ (allStreams.foldl (fun s st => ageStall st s) m₁) := ageStalls_aged hn₁
    generalize hm₂ : allStreams.foldl (fun s st => ageStall st s) m₁ = m₂ at hstalls
    obtain ⟨-, hposting, hframe⟩ := id hstalls
    have hrun : RunAll (List.finRange 16) m₂ (admitAll m₂) := admitAll_run m₂
    have hexec : exec .tick s = .next (admitAll m₂) := by
      rw [exec_tick hticks, ← hm₂, ← hm₁]
      rfl
    generalize admitAll m₂ = t at hrun hexec
    have hadmits := RunAll.admits hrun
    have hcontexts (i : CtxNo) : m₂.assembly.contexts[i] = m₁.assembly.contexts[i] := by rw [hframe]
    have hstay (i : CtxNo) (o : Option Context) (ho : m₁.assembly.contexts[i] = o)
        (hs : ∀ c, o = some c → c.state ≠ .complete) : t.assembly.contexts[i] = o := by
      rcases hadmits.contexts i with h | ⟨c, hc, hcs, -⟩
      · exact h.trans ((hcontexts i).trans ho)
      · exact absurd hcs (hs c (ho.symm.trans ((hcontexts i).symm.trans hc)))
    have hwhole : t = { s with
        host := { s.host with posting := t.host.posting }
        writer := { s.writer with queue := t.writer.queue }
        assembly := { s.assembly with
          tickCounter := t.assembly.tickCounter, contexts := t.assembly.contexts, streams := t.assembly.streams
          freeBlocks := t.assembly.freeBlocks } } := by
      rw [hadmits.frame, hframe, haged.frame]
      rfl
    refine ⟨m₁, m₂, t, hexec, ?_, haged, hstalls, hrun, fun i hi => ?_, fun i c hi => ?_, hwhole⟩
    · rw [hadmits.frame, hframe, haged.frame]
      rfl
    · exact hstay i none ((haged.contexts i).2 hi) nofun
    · obtain ⟨hgone, hkept⟩ := (haged.contexts i).1 c hi
      refine ⟨fun ha he => ⟨hstay i none (hgone ⟨ha, he⟩) nofun, ?_⟩, fun ha he => ?_,
        fun ha hs => ?_, fun hs => ?_⟩
      · have hhost : t.host.posting = m₂.host.posting := by rw [hadmits.frame]
        rw [hhost, hposting, haged.posting]
        refine List.mem_append_left _ (List.mem_append_right _ (List.mem_flatMap.mpr ⟨i, List.mem_finRange i, ?_⟩))
        have hi' : (counted s).assembly.contexts[i] = some c := hi
        have hex : Expires (counted s).assembly c := ⟨ha, he⟩
        have hposted : .notice (.assemblyExpired c.stream c.seq) ∈
            agedPosts (counted s).assembly (counted s).assembly.contexts[i] := by
          rw [hi', agedPosts_expired hex]
          exact List.mem_append_right _ (List.mem_singleton_self _)
        exact hposted
      · refine hstay i _ ((hkept fun hg => he hg.2).trans (congrArg some (if_pos ha))) fun x hx hxs => ?_
        obtain rfl := Option.some.inj hx
        cases ha.1.symm.trans hxs
      · refine hstay i _ ((hkept fun hg => ha hg.1).trans (congrArg some (if_neg ha))) fun x hx => ?_
        exact Option.some.inj hx ▸ hs
      · have ha : ¬ages c := fun ha => by cases ha.1.symm.trans hs
        have hm : m₂.assembly.contexts[i] = some c :=
          (hcontexts i).trans ((hkept fun hg => ha hg.1).trans (congrArg some (if_neg ha)))
        rcases hadmits.contexts i with h | ⟨x, hx, -, h, hq⟩
        · exact .inl (h.trans hm)
        · obtain rfl := Option.some.inj (hm.symm.trans hx)
          exact .inr ⟨h, hq⟩

/-! ### One expiry, one skip (log entry 10) -/

theorem exec_assemblyExpired {s : State} {i : CtxNo} {c : Context} (ht : s.host.device.ticks = true)
    (hi : s.assembly.contexts[i] = some c) (ha : Ages s.assembly c)
    (he : c.age + 1 = s.assembly.streams[c.stream].ageLimit) :
    exec (.assemblyExpired i) s = .next (admitStream c.stream (expireContext i c s)) := by
  have hex : expiresNext s.assembly c = true := by
    rw [expiresNext, (agesOnTick_iff _ c).mpr ha, Bool.true_and]
    exact beq_iff_eq.mpr he
  change Host.Outcome.next _ = _
  simp only [hi, if_pos (And.intro ht hex)]

theorem exec_sequenceSkipped {s : State} {st : StreamNo} (ht : s.host.device.ticks = true) (h : Skips s.assembly st) :
    exec (.sequenceSkipped st) s = .next (admitStream st (skipPosition st s)) := by
  obtain ⟨⟨ho, hl⟩, hs, he⟩ := h
  have hsk : skipsNext s.assembly st = true := by
    simp only [skipsNext, (isStalled_iff s.assembly st).mpr hs, Bool.and_true, Bool.and_eq_true, beq_iff_eq,
      decide_eq_true_eq]
    exact ⟨⟨ho, hl⟩, he⟩
  change Host.Outcome.next _ = _
  rw [if_pos ⟨ht, hsk⟩]

/-- A context that expires above position 0, where nothing can be admitted. -/
theorem admitStream_expired {s : State} {i : CtxNo} {c : Context} (hn : Notices s)
    (hd : 0 < (c.seq - s.assembly.streams[c.stream].nextAdmission).toNat)
    (hb : s.assembly.streams[c.stream].abandoned.getLsbD 0 = false)
    (hnc : NotComplete s.assembly c.stream s.assembly.streams[c.stream].nextAdmission) :
    admitStream c.stream (expireContext i c s) = expireContext i c s := by
  rw [expireContext_eq hn]
  refine admit_none ?_ ?_
  · rw [tableMod_get_self]
    exact NotComplete_congr (NotComplete_set hnc i none nofun) rfl
  · rw [tableMod_get_self]
    refine Bool.eq_false_iff.mpr fun hx => ?_
    rcases (abandon_getLsbD _ _ 0 (by decide)).mp hx with h | h
    · cases hb.symm.trans h
    · omega

/-- A skip that lets the stream advance by the skipped position alone. -/
theorem admitStream_skipped {s : State} {st : StreamNo} (hn : Notices s) (ho : s.assembly.streams[st].state = .opened)
    (h0 : NotComplete s.assembly st s.assembly.streams[st].nextAdmission)
    (h1 : NotComplete s.assembly st (s.assembly.streams[st].nextAdmission + 1#16))
    (hb : s.assembly.streams[st].abandoned.getLsbD 1 = false) : admitStream st (skipPosition st s) =
      modStream st (fun e => { e.advance with gapPending := true }) (skipPosition st s) := by
  rw [skipPosition_eq hn]
  refine admit_pass ?_ ?_ ?_ ?_ ?_ <;> rw [tableMod_get_self]
  · exact ho
  · exact NotComplete_congr h0 rfl
  · exact (abandon_getLsbD _ 0 0 (by decide)).mpr (.inr rfl)
  · exact NotComplete_congr h1 rfl
  · refine Bool.eq_false_iff.mpr fun hx => ?_
    rcases (abandon_getLsbD _ 0 1 (by decide)).mp hx with h | h
    · cases hb.symm.trans h
    · cases h

/-- Settles O40: the one context expires, or the one stream skips, and admission runs for its stream. -/
theorem expiriesAndSkips : Obligations.ExpiriesAndSkips := by
  intro s ht a
  obtain ⟨hticks, hn⟩ := ticks_of ht
  refine ⟨fun i c hi hc htr hdef => ?expires, fun st => ?skips⟩
  case expires =>
    intro e d ho hl he hd hb hnc
    have hposted : discarded c = [] := by simp only [discarded, hdef]
    rw [exec_assemblyExpired hticks hi ⟨hc, htr, ho, hl⟩ he, admitStream_expired hn hd hb hnc, expireContext_eq hn,
      hposted]
    rfl
  case skips =>
    intro e at_ holds ho hl he h0 hb hk hb1 hnc
    have hempty : NotComplete a st e.nextAdmission := fun j x hj hs hq hc =>
      h0 ⟨j, x, hj, hs, hq.trans (BitVec.add_zero _).symm, by rw [hc]; rfl⟩
    rw [exec_sequenceSkipped hticks ⟨⟨ho, hl⟩, ⟨h0, hb, hk⟩, he⟩, admitStream_skipped hn ho hempty hnc hb1,
      skipPosition_eq hn, modStream_eq]
    simp only [tableMod, Vector.set_set, tableSet_get, if_true]
    rfl

end Sys2Proof.Machine
end

section
/-! The start of DRAINING, when CTRL.ENABLE is cleared (R53, R64, R80, R89, R172). -/

namespace Sys2Proof.Machine

open Sys2Proof.Laws Sys2Proof.Safety

/-! ### The contexts (R80) -/

/-- A context that the drain discards: it gathers, with no transfer in flight. -/
abbrev DrainGone (c : Context) : Prop := c.state = .gathering ∧ c.transfers = []

/-- What the drain hands over for one context. -/
def drainPosts (o : Option Context) : List Posting :=
  match o with
  | some c =>
    if c.state = .gathering then
      .notice (.assemblyDrained c.stream c.seq) :: (if c.transfers = [] then discarded c else [])
    else if c.state = .aborting then [.notice (.assemblyDrained c.stream c.seq)] else []
  | none => []

/-- A context that the drain does not discard: it gathers no more. -/
def drainKept (c : Context) : Context := if c.state = .gathering then { c with state := .aborting } else c

/-- The contexts of a list have been drained. -/
abbrev DrainedOn (l : List CtxNo) (s t : State) : Prop :=
  DiscardsOn (fun _ => DrainGone) (fun _ => drainPosts) drainKept l s t

theorem drainContext_on {l : List CtxNo} {s t : State} {i : CtxNo} (hn : Notices s) (h : DrainedOn l s t) (hi : i ∉ l) :
    DrainedOn (l ++ [i]) s (drainContext i t) := by
  have hat := h.ahead i hi
  have hnotices : Notices t := by rw [Notices, h.device]; exact hn
  have hself (o : Option Context) (ho : t.assembly.contexts[i] = o) : t.assembly.contexts.set i o = t.assembly.contexts := by
    rw [← ho]
    exact Vector.set_getElem_self _
  cases ho : s.assembly.contexts[i] with
  | none =>
    rw [ho] at hat
    refine h.keep hi (fun c hc => by rw [ho] at hc; cases hc) ?_
    simp only [drainContext, hat, ho, drainPosts, List.append_nil, Option.map_none, hself none hat]
  | some c =>
    rw [ho] at hat
    have hkeeps (hs : c.state ≠ .gathering) (hp : drainContext i t =
        { t with host := { t.host with posting := t.host.posting ++ drainPosts (some c) } }) :
        DrainedOn (l ++ [i]) s (drainContext i t) := by
      refine h.keep hi (fun x hx hg => ?_) ?_
      · obtain rfl : c = x := Option.some.inj (ho.symm.trans hx)
        exact hs hg.1
      · have hkept : drainKept c = c := if_neg hs
        rw [hp, ho, Option.map_some, hkept, hself _ hat]
    cases hc : c.state with
    | gathering =>
      have hnext : t.assembly.streams[c.stream].nextAdmission = s.assembly.streams[c.stream].nextAdmission := by
        rw [h.streams c.stream]
      have hopened : t.assembly.streams[c.stream].state = s.assembly.streams[c.stream].state := by
        rw [h.streams c.stream]
      by_cases ht : c.transfers = []
      · refine h.drop (freed := t.assembly.freeBlocks ++ mappedBlocks c.blockMap) hi ho ⟨hc, ht⟩ rfl ?_
        simp only [drainContext, hat, hc, postNotice_noticed hnotices, ht, if_true, discardContext_eq, hopened, ho,
          drainPosts, noticed]
        by_cases hop : s.assembly.streams[c.stream].state = .opened
        · simp only [if_pos hop, markAbandoned, positionOf, Stream.distance, hnext, List.append_assoc,
            List.singleton_append]
          rfl
        · simp only [if_neg hop, List.append_assoc, List.singleton_append]
      · refine h.keep hi (fun x hx hg => ?_) ?_
        · obtain rfl : c = x := Option.some.inj (ho.symm.trans hx)
          exact ht hg.2
        · simp only [drainContext, hat, hc, postNotice_noticed hnotices, ht, if_false, ho, drainPosts, if_true,
            Option.map_some, drainKept, noticed]
          rfl
    | aborting =>
      refine hkeeps (by rw [hc]; decide) ?_
      simp only [drainContext, hat, hc, postNotice_noticed hnotices, drainPosts, if_true, noticed, reduceCtorEq, if_false]
    | complete =>
      refine hkeeps (by rw [hc]; decide) ?_
      simp only [drainContext, hat, hc, drainPosts, reduceCtorEq, if_false, List.append_nil]
    | queued =>
      refine hkeeps (by rw [hc]; decide) ?_
      simp only [drainContext, hat, hc, drainPosts, reduceCtorEq, if_false, List.append_nil]
    | writing =>
      refine hkeeps (by rw [hc]; decide) ?_
      simp only [drainContext, hat, hc, drainPosts, reduceCtorEq, if_false, List.append_nil]

theorem drainContexts_drained {s : State} (hn : Notices s) :
    ContextsDrained s (allContexts.foldl (fun s i => drainContext i s) s) :=
  (DiscardsOn.foldl (fun h hi => drainContext_on hn h hi) allContexts (.nil s) (List.nodup_finRange 32)).discards

/-! ### The skips (R53) -/

theorem contextOf_complete (a : Assembly) (st : StreamNo) (k : Nat) :
    (a.contextOf st (a.streams[st].atPosition k) (· == .complete)).isSome = true ↔ ∃ i c, CompleteAt a st k i c := by
  constructor
  · intro h
    obtain ⟨⟨i, c⟩, hf⟩ := Option.isSome_iff_exists.mp h
    obtain ⟨hi, hp, -⟩ := findContext_first hf
    simp only [Bool.and_eq_true, beq_iff_eq] at hp
    exact ⟨i, c, hi, hp.1.1, hp.1.2, hp.2⟩
  · rintro ⟨i, c, hi, hst, hq, hc⟩
    by_contra hn
    have hnone := Option.not_isSome_iff_eq_none.mp hn
    have hat := (List.findSome?_eq_none_iff.mp hnone) i (List.mem_finRange i)
    simp only [hi, hst, hq, hc, Stream.atPosition, beq_self_eq_true, Bool.and_self, if_true] at hat
    cases hat

/-- The highest COMPLETE position: none stands above it. -/
theorem highestComplete_some {a : Assembly} {st : StreamNo} {h : Nat} (hh : highestComplete a st = some h) :
    h ≤ 7 ∧ (∃ i c, CompleteAt a st h i c) ∧ ∀ k, k ≤ 7 → (∃ i c, CompleteAt a st k i c) → k ≤ h := by
  obtain ⟨hp, above, below, hsplit, habove⟩ := List.find?_eq_some_iff_append.mp hh
  have hmem (k : Nat) : k ∈ above ++ h :: below ↔ k ≤ 7 := by
    rw [← hsplit]
    simp only [List.mem_cons, List.not_mem_nil, or_false]
    omega
  have hsorted : (above ++ h :: below).Pairwise (· > ·) := by
    rw [← hsplit]
    decide
  refine ⟨(hmem h).mp (List.mem_append_right _ List.mem_cons_self), (contextOf_complete a st h).mp hp, fun k hk hc => ?_⟩
  rcases List.mem_append.mp ((hmem k).mpr hk) with hin | hin
  · have hno := habove k hin
    rw [(contextOf_complete a st k).mpr hc] at hno
    cases hno
  · rcases List.mem_cons.mp hin with rfl | hin
    · exact Nat.le_refl k
    · exact Nat.le_of_lt (List.rel_of_pairwise_cons (List.pairwise_append.mp hsorted).2.1 hin)

theorem highestComplete_none {a : Assembly} {st : StreamNo} (hh : highestComplete a st = none) (k : Nat) (hk : k ≤ 7) :
    ¬∃ i c, CompleteAt a st k i c := by
  rw [← contextOf_complete]
  refine List.find?_eq_none.mp hh k ?_
  simp only [List.mem_cons, List.not_mem_nil, or_false]
  omega

/-- A position that the drain skips. -/
abbrev DrainSkip (a : Assembly) (st : StreamNo) (k : Nat) : Prop := a.streams[st].state = .opened ∧ ¬HoldsAt a st k ∧
  a.streams[st].abandoned.getLsbD k = false ∧ ∃ h i c, k < h ∧ h ≤ 7 ∧ CompleteAt a st h i c

open Classical in
/-- What the drain hands over for one window position. -/
noncomputable def skipPosts (a : Assembly) (st : StreamNo) (k : Nat) : List Posting :=
  if DrainSkip a st k then [.notice (.sequenceSkipped st (a.streams[st].nextAdmission + BitVec.ofNat 16 k))] else []

theorem DrainSkip.congr {a b : Assembly} {st : StreamNo} (hc : b.contexts = a.contexts)
    (hs : b.streams[st] = a.streams[st]) : DrainSkip b st = DrainSkip a st := by
  funext k
  simp only [DrainSkip, CompleteAt, HoldsAt, hc, hs]

theorem skipPosts_congr {a b : Assembly} {st : StreamNo} (hc : b.contexts = a.contexts)
    (hs : b.streams[st] = a.streams[st]) : skipPosts b st = skipPosts a st := by
  funext k
  classical exact if_congr (iff_of_eq (congrFun (DrainSkip.congr hc hs) k)) (by rw [hs]) rfl

/-- The positions of a list of one stream have been looked at. -/
structure PositionsOn (st : StreamNo) (ks : List Nat) (s t : State) : Prop where
  abandoned : ∀ k, k < 8 → (t.assembly.streams[st].abandoned.getLsbD k = true ↔
    s.assembly.streams[st].abandoned.getLsbD k = true ∨ (k ∈ ks ∧ DrainSkip s.assembly st k))
  frame : t = { s with
    host := { s.host with posting := s.host.posting ++ ks.flatMap (skipPosts s.assembly st) }
    assembly := { s.assembly with
      streams := s.assembly.streams.set st
        { s.assembly.streams[st] with abandoned := t.assembly.streams[st].abandoned } } }

theorem PositionsOn.nil (st : StreamNo) (s : State) : PositionsOn st [] s s where
  abandoned k _ := by simp
  frame := by
    have hself : s.assembly.streams.set st s.assembly.streams[st] = s.assembly.streams := Vector.set_getElem_self _
    simp only [List.flatMap_nil, List.append_nil, hself]

theorem PositionsOn.snoc {st : StreamNo} {ks : List Nat} {s t : State} {k : Nat} (hn : Notices s)
    (h : PositionsOn st ks s t) (hk : k ∉ ks) (hk8 : k < 8) (ho : s.assembly.streams[st].state = .opened)
    (hc : ∃ h i c, k < h ∧ h ≤ 7 ∧ CompleteAt s.assembly st h i c) :
    PositionsOn st (ks ++ [k]) s (drainSkipPosition st k t) := by
  obtain ⟨x, hx⟩ : ∃ x, t.assembly.streams[st].abandoned = x := ⟨_, rfl⟩
  obtain ⟨hbits, hframe⟩ := h
  rw [hx] at hframe
  simp only [hx] at hbits
  have hstream : t.assembly.streams[st] = { s.assembly.streams[st] with abandoned := x } := by
    rw [hframe]
    exact (tableSet_get _ st st _).trans (if_pos rfl)
  have hnext : t.assembly.streams[st].nextAdmission = s.assembly.streams[st].nextAdmission := by rw [hstream]
  have hholds : holdsContext t.assembly st k = true ↔ HoldsAt s.assembly st k :=
    (holdsContext_holdsAt _ _ _).trans (HoldsAt.congr (by rw [hframe]) hnext)
  have hbit : t.assembly.streams[st].isAbandoned k = true ↔ s.assembly.streams[st].abandoned.getLsbD k = true := by
    rw [Stream.isAbandoned, hx, hbits k hk8]
    exact or_iff_left fun hor => hk hor.1
  by_cases hskip : DrainSkip s.assembly st k
  · have hnot : ¬(holdsContext t.assembly st k || t.assembly.streams[st].isAbandoned k) = true := by
      rw [Bool.or_eq_true, hholds, hbit]
      rintro (hx | hx)
      · exact hskip.2.1 hx
      · cases hskip.2.2.1.symm.trans hx
    have hposts : skipPosts s.assembly st k =
        [.notice (.sequenceSkipped st (s.assembly.streams[st].nextAdmission + BitVec.ofNat 16 k))] := if_pos hskip
    have hnotices : Notices t := by rw [hframe]; exact hn
    have hstep : drainSkipPosition st k t = { t with
        host := noticed (.sequenceSkipped st (s.assembly.streams[st].nextAdmission + BitVec.ofNat 16 k)) t.host
        assembly := { t.assembly with
          streams := t.assembly.streams.set st { s.assembly.streams[st] with abandoned := x ||| (1#8 <<< k) } } } := by
      rw [drainSkipPosition, if_neg hnot, postNotice_noticed (by exact hnotices), Stream.atPosition, hnext,
        markAbandoned, modStream_eq, hstream]
      rfl
    have hnew : (drainSkipPosition st k t).assembly.streams[st].abandoned = x ||| (1#8 <<< k) := by
      rw [hstep]
      exact congrArg Stream.abandoned ((tableSet_get _ st st _).trans (if_pos rfl))
    refine ⟨fun j hj => ?_, ?_⟩
    · rw [hnew, abandon_getLsbD _ _ _ hj, hbits j hj, List.mem_append, List.mem_singleton, or_assoc, or_and_right]
      refine or_congr_right (or_congr_right ⟨fun he => ⟨he.symm, he ▸ hskip⟩, fun he => he.1.symm⟩)
    · rw [hnew, hstep, hframe]
      simp only [noticed, List.flatMap_append, List.flatMap_singleton, hposts, List.append_assoc, Vector.set_set]
  · have hno : (holdsContext t.assembly st k || t.assembly.streams[st].isAbandoned k) = true := by
      rw [Bool.or_eq_true, hholds, hbit]
      by_contra hor
      rw [not_or, Bool.not_eq_true] at hor
      exact hskip ⟨ho, hor.1, hor.2, hc⟩
    have hposts : skipPosts s.assembly st k = [] := if_neg hskip
    rw [drainSkipPosition, if_pos hno]
    refine ⟨fun j hj => ?_, ?_⟩
    · rw [hx, hbits j hj, List.mem_append, List.mem_singleton, or_and_right]
      refine or_congr_right (or_iff_left ?_).symm
      rintro ⟨rfl, hj⟩
      exact hskip hj
    · rw [hx]
      simpa only [List.flatMap_append, List.flatMap_singleton, hposts, List.append_nil] using hframe

theorem PositionsOn.foldl {st : StreamNo} {s : State} (hn : Notices s) (ho : s.assembly.streams[st].state = .opened)
    {h : Nat} (hh : h ≤ 7) (hc : ∃ i c, CompleteAt s.assembly st h i c) :
    PositionsOn st (List.range h) s ((List.range h).foldl (fun s k => drainSkipPosition st k s) s) := by
  obtain ⟨i, c, hat⟩ := hc
  suffices hall : ∀ n ≤ h, PositionsOn st (List.range n) s
      ((List.range n).foldl (fun s k => drainSkipPosition st k s) s) from hall h (Nat.le_refl h)
  intro n hle
  induction n with
  | zero => exact .nil st s
  | succ n ih =>
    rw [List.range_succ, List.foldl_append]
    exact (ih (by omega)).snoc hn List.not_mem_range_self (by omega) ho ⟨h, i, c, hle, hh, hat⟩

/-- A stream after the skips. -/
def DrainedTo (a : Assembly) (st : StreamNo) (e : Stream) : Prop :=
  e = { a.streams[st] with abandoned := e.abandoned } ∧
  ∀ k, k < 8 → (e.abandoned.getLsbD k = true ↔ a.streams[st].abandoned.getLsbD k = true ∨ DrainSkip a st k)

/-- Nothing is skipped from a position on that no COMPLETE one stands above. -/
theorem flatMap_skipPosts {a : Assembly} {st : StreamNo} {h : Nat} (hh : h ≤ 8) (hno : ∀ k, h ≤ k → ¬DrainSkip a st k) :
    (List.range 8).flatMap (skipPosts a st) = (List.range h).flatMap (skipPosts a st) := by
  have hsplit : List.range 8 = List.range h ++ (List.range (8 - h)).map (h + ·) := by
    rw [← List.range_add, Nat.add_sub_cancel' hh]
  rw [hsplit, List.flatMap_append]
  refine List.append_right_eq_self.mpr (List.flatMap_eq_nil_iff.mpr fun k hk => ?_)
  obtain ⟨j, -, rfl⟩ := List.mem_map.mp hk
  exact if_neg (hno _ (Nat.le_add_right h j))

theorem drainSkips_on {l : List StreamNo} {s t : State} {st : StreamNo} (hn : Notices s)
    (h : StreamsOn (DrainedTo s.assembly) (fun st => (List.range 8).flatMap (skipPosts s.assembly st)) l s t)
    (hst : st ∉ l) : StreamsOn (DrainedTo s.assembly) (fun st => (List.range 8).flatMap (skipPosts s.assembly st))
      (l ++ [st]) s (drainSkips st t) := by
  have hat := h.ahead st hst
  have hskip : DrainSkip t.assembly st = DrainSkip s.assembly st := DrainSkip.congr h.contexts hat
  have hnotices : Notices t := by rw [Notices, h.device]; exact hn
  have hnone (hno : ∀ k, ¬DrainSkip s.assembly st k) (he : drainSkips st t = t) :
      StreamsOn (DrainedTo s.assembly) (fun st => (List.range 8).flatMap (skipPosts s.assembly st)) (l ++ [st]) s
        (drainSkips st t) := by
    refine h.snoc hst (e := s.assembly.streams[st]) ⟨rfl, fun k _ => (or_iff_left (hno k)).symm⟩ ?_
    have hself : t.assembly.streams.set st s.assembly.streams[st] = t.assembly.streams := by
      rw [← hat]
      exact Vector.set_getElem_self _
    rw [he, flatMap_skipPosts (Nat.zero_le 8) fun k _ => hno k, hself, List.range_zero, List.flatMap_nil, List.append_nil]
  by_cases ho : t.assembly.streams[st].state = .opened
  · have hop : s.assembly.streams[st].state = .opened := hat ▸ ho
    cases hh : highestComplete t.assembly st with
    | none =>
      refine hnone (fun k hs => ?_) (by simp only [drainSkips, if_pos ho, hh])
      obtain ⟨-, -, -, n, i, c, -, hn7, hc⟩ := hskip ▸ hs
      exact highestComplete_none hh n hn7 ⟨i, c, hc⟩
    | some n =>
      obtain ⟨hn7, hcn, hmax⟩ := highestComplete_some hh
      obtain ⟨hbits, hframe⟩ := PositionsOn.foldl hnotices ho hn7 hcn
      have hrun : drainSkips st t = (List.range n).foldl (fun s k => drainSkipPosition st k s) t := by
        simp only [drainSkips, if_pos ho, hh]
      rw [← hrun] at hbits hframe
      have hbelow (k : Nat) (hs : DrainSkip s.assembly st k) : k < n := by
        obtain ⟨-, -, -, m, i, c, hkm, hm7, hc⟩ := hskip ▸ hs
        exact Nat.lt_of_lt_of_le hkm (hmax m hm7 ⟨i, c, hc⟩)
      refine h.snoc hst (e := { s.assembly.streams[st] with
        abandoned := (drainSkips st t).assembly.streams[st].abandoned }) ⟨rfl, fun k hk => ?_⟩ ?_
      · rw [hbits k hk, hskip, hat, List.mem_range]
        exact or_congr_right (and_iff_right_of_imp (hbelow k))
      · rw [flatMap_skipPosts (a := s.assembly) (h := n) (by omega) fun k hk hs => by have := hbelow k hs; omega,
          ← skipPosts_congr h.contexts hat, ← hat]
        exact hframe
  · exact hnone (fun k hs => ho (hat ▸ hs.1)) (if_neg ho)

theorem drainSkips_skipped {s : State} (hn : Notices s) :
    DrainSkipped s (allStreams.foldl (fun s st => drainSkips st s) s) := by
  have h := StreamsOn.foldl (fun h hi => drainSkips_on hn h hi) allStreams (.nil s) (List.nodup_finRange 16)
  have hto (st : StreamNo) : DrainedTo s.assembly st _ := h.behind st (List.mem_finRange st)
  exact ⟨fun st => (hto st).1, fun st => (hto st).2, h.posting, h.frame⟩

/-! ### What the held APPEND and the writer's question leave (R64, R89) -/

/-- Outcomes and notices are handed over, and contexts gather no more than before. -/
structure Spares (s t : State) : Prop where
  host : ∃ posting, t.host = { s.host with posting := posting }
  drainMark : t.assembly.drainMark = s.assembly.drainMark
  gathers : ∀ (i : CtxNo) (x : Context), t.assembly.contexts[i] = some x → x.state = .gathering →
    s.assembly.contexts[i] = some x

namespace Spares

variable {s t u : State}

theorem refl (s : State) : Spares s s := ⟨⟨_, rfl⟩, rfl, fun _ _ h _ => h⟩

theorem trans (h : Spares s t) (k : Spares t u) : Spares s u where
  host := by
    obtain ⟨p, hp⟩ := h.host
    obtain ⟨q, hq⟩ := k.host
    exact ⟨q, by rw [hq, hp]⟩
  drainMark := k.drainMark.trans h.drainMark
  gathers i x hx hg := h.gathers i x (k.gathers i x hx hg) hg

theorem notices (h : Spares s t) (hn : Notices s) : Notices t := by
  obtain ⟨p, hp⟩ := h.host
  rw [Notices, hp]
  exact hn

/-- What neither the Host Ring Unit nor the Assembly Unit sees. -/
theorem same (h : Spares s t) (hh : u.host = t.host) (ha : u.assembly = t.assembly) : Spares s u :=
  h.trans ⟨⟨t.host.posting, hh⟩, by rw [ha], fun _ _ hx _ => by rwa [ha] at hx⟩

theorem complete {slot : SlotNo} {status : Status} (h : Spares s t) : Spares s (complete slot status t) :=
  h.trans ⟨⟨_, rfl⟩, rfl, fun _ _ hx _ => hx⟩

theorem postNotice {n : Notice} (h : Spares s t) (hn : Notices s) : Spares s (postNotice n t) := by
  rw [postNotice_noticed (h.notices hn)]
  exact h.trans ⟨⟨_, rfl⟩, rfl, fun _ _ hx _ => hx⟩

theorem modStream {st : StreamNo} {f : Stream → Stream} (h : Spares s t) : Spares s (modStream st f t) :=
  h.trans ⟨⟨_, rfl⟩, rfl, fun _ _ hx _ => hx⟩

theorem releaseContext {i : CtxNo} {c : Context} (h : Spares s t) : Spares s (releaseContext i c t) := by
  refine h.trans ⟨⟨_, rfl⟩, rfl, fun j x hx _ => ?_⟩
  have hset : (t.assembly.contexts.set i none)[j] = some x := hx
  rw [tableSet_get] at hset
  split at hset
  · cases hset
  · exact hset

theorem closeIfDone {st : StreamNo} (h : Spares s t) : Spares s (closeIfDone st t) := by
  refine h.trans ?_
  obtain ⟨hcloses, hstays⟩ := closeIfDone_closes st t
  by_cases hb : t.assembly.streams[st].state = .closing ∧ ¬Busy t.assembly st
  · rw [hcloses hb.1 hb.2, closedStream]
    cases t.assembly.streams[st].pendingClose with
    | none => exact ⟨⟨_, rfl⟩, rfl, fun _ _ hx _ => hx⟩
    | some slot => exact ⟨⟨_, rfl⟩, rfl, fun _ _ hx _ => hx⟩
  · rw [hstays (by tauto)]
    exact refl t

theorem recordFailed {i : CtxNo} {status : Status} (h : Spares s t) : Spares s (recordFailed i status t) := by
  unfold Machine.recordFailed
  split
  · exact h
  next c _ =>
    dsimp only
    refine closeIfDone (releaseContext (modStream ?_))
    split
    · exact h.complete
    · exact h

theorem failRecord {status : Status} (h : Spares s t) (hn : Notices s) : Spares s (failRecord status t) := by
  unfold Machine.failRecord
  split
  · exact h
  next i _ =>
    have hf : Spares s (Machine.recordFailed i status t) := h.recordFailed
    dsimp only
    split
    · have hm : Spares s (markFull (Machine.recordFailed i status t)) := by
        unfold markFull
        dsimp only
        split
        · exact hf.same rfl rfl
        · refine Spares.postNotice ?_ hn
          exact hf.same rfl rfl
      exact hm.same rfl rfl
    · exact hf.same rfl rfl

theorem askSector (h : Spares s t) (hn : Notices s) : Spares s (askSector t) := by
  unfold Machine.askSector
  split
  · exact h.failRecord hn
  · split
    · exact h.same rfl rfl
    · split
      · exact h.same rfl rfl
      · exact h.failRecord hn

end Spares

theorem append_fragment {slot : SlotNo} {cmd : Cmd} (h : row cmd = .append) :
    ∃ f, Routed.fragment ⟨slot, cmd⟩ = some f ∧ f.slot = slot := by
  cases cmd with
  | append => exact ⟨_, rfl, rfl⟩
  | query sub => cases sub <;> cases h
  | _ => cases h

/-- With the drain mark set a held APPEND is refused ABORTED (R64). -/
theorem takeHeld_refused {s : State} {r : Routed} {f : Fragment} (hm : s.assembly.drainMark = true)
    (hr : s.assembly.held = some r) (hf : r.fragment = some f) : takeHeld s = { s with
      host := answered f.slot .aborted {} s.host
      assembly := { s.assembly with
        held := none, fragmentsRefused := min (s.assembly.fragmentsRefused + 1) 0xFFFFFFFF } } := by
  have hfree : mustHold s.assembly f = false := by rw [mustHold, hm]; rfl
  have hverdict : appendVerdict { s.assembly with held := none } f = .error .aborted := if_pos hm
  simp only [takeHeld, hr, hf, hfree, Bool.false_eq_true, if_false, takeAppend, State.onAssembly, hverdict]
  rfl

theorem takeHeld_writer (s : State) : (takeHeld s).writer = s.writer :=
  (takeHeld_frame (l := [.host, .assembly]) .refl).writer

theorem takeHeld_spares {s : State} (hm : s.assembly.drainMark = true) : Spares s (takeHeld s) := by
  cases hr : s.assembly.held with
  | none =>
    rw [takeHeld_none hr]
    exact .refl s
  | some r =>
    cases hf : r.fragment with
    | none =>
      simp only [takeHeld, hr, hf]
      exact .refl s
    | some f =>
      rw [takeHeld_refused hm hr hf]
      exact ⟨⟨_, rfl⟩, rfl, fun _ _ hx _ => hx⟩

/-! ### Clearing CTRL.ENABLE -/

/-- The part as DRAINING begins: the drain mark is set. -/
def draining (s : State) : State := { s with
  host := { s.host with
    enable := false, device := .draining, reason := .noReason, badIndex := 0, statusMark := true, stateSince := true }
  assembly := { s.assembly with drainMark := true } }

theorem exec_ctrlEnableClear {s : State} (h : s.host.device = .online) : exec .ctrlEnableClear s =
    .next (drainWriter (takeHeld (admitAll (allStreams.foldl (fun s st => drainSkips st s)
      (allContexts.foldl (fun s i => drainContext i s) (draining s)))))) := by
  change Host.Outcome.next _ = _
  rw [if_pos (by exact h)]
  rfl

/-- A drained context gathers no more. -/
theorem contextsDrained_gathers {s t : State} (h : ContextsDrained s t) (i : CtxNo) (x : Context)
    (hx : t.assembly.contexts[i] = some x) : x.state ≠ .gathering := by
  obtain ⟨hsome, hnone⟩ := h.contexts i
  cases hc : s.assembly.contexts[i] with
  | none => cases (hnone hc).symm.trans hx
  | some c =>
    obtain ⟨hgone, hkept⟩ := hsome c hc
    by_cases hg : c.state = .gathering ∧ c.transfers = []
    · cases (hgone hg).symm.trans hx
    · obtain rfl := Option.some.inj ((hkept hg).symm.trans hx)
      split
      · exact nofun
      · assumption

/-- Admission lets no context gather. -/
theorem Admits.gathers {s t : State} (h : Admits s t) (i : CtxNo) (x : Context)
    (hx : t.assembly.contexts[i] = some x) (hg : x.state = .gathering) : s.assembly.contexts[i] = some x := by
  rcases h.contexts i with hi | ⟨c, -, -, hi, -⟩
  · exact hi.symm.trans hx
  · obtain rfl := Option.some.inj (hi.symm.trans hx)
    cases hg

/-- Settles O17: the contexts, the skips, admission, the held APPEND, and then the writer's question, in that order. -/
theorem enableClear : Obligations.EnableClear := by
  intro s
  refine ⟨fun ho => ?stored, fun ho => ?drains⟩
  case stored =>
    change Host.Outcome.next _ = _
    rw [if_neg (by exact ho)]
    rfl
  case drains =>
    have hn : Notices (draining s) := ⟨nofun, nofun⟩
    have hcontexts := drainContexts_drained hn
    have hrun := exec_ctrlEnableClear ho
    generalize allContexts.foldl (fun s i => drainContext i s) (draining s) = m₁ at hcontexts hrun
    have hn₁ : Notices m₁ := by rw [hcontexts.frame]; exact hn
    have hskips := drainSkips_skipped hn₁
    generalize allStreams.foldl (fun s st => drainSkips st s) m₁ = m₂ at hskips hrun
    have hadmission := admitAll_run m₂
    generalize admitAll m₂ = m₃ at hadmission hrun
    have hadmits := RunAll.admits hadmission
    obtain ⟨-, -, -, hframe₂⟩ := id hskips
    have hassembly : m₃.assembly = { (draining s).assembly with
        contexts := m₃.assembly.contexts, streams := m₃.assembly.streams, freeBlocks := m₃.assembly.freeBlocks } := by
      rw [hadmits.frame, hframe₂, hcontexts.frame]
    have hhost : m₃.host = { (draining s).host with posting := m₃.host.posting } := by
      rw [hadmits.frame, hframe₂, hcontexts.frame]
    have hwriter : m₃.writer.state = s.writer.state := by
      rw [hadmits.frame, hframe₂, hcontexts.frame]
      rfl
    have hmark : m₃.assembly.drainMark = true := by rw [hassembly]; rfl
    have hheld : m₃.assembly.held = s.assembly.held := by rw [hassembly]; rfl
    have hrefused : m₃.assembly.fragmentsRefused = s.assembly.fragmentsRefused := by rw [hassembly]; rfl
    have hgathers (i : CtxNo) (x : Context) (hx : m₃.assembly.contexts[i] = some x) : x.state ≠ .gathering := fun hg => by
      have hx₂ := hadmits.gathers i x hx hg
      rw [hframe₂] at hx₂
      exact contextsDrained_gathers hcontexts i x hx₂ hg
    have hn₃ : Notices m₃ := by rw [Notices, hhost]; exact hn
    have hspares : Spares m₃ (drainWriter (takeHeld m₃)) := by
      unfold drainWriter
      split
      · exact (takeHeld_spares hmark).askSector hn₃
      · exact takeHeld_spares hmark
    obtain ⟨⟨posting, hposted⟩, hmarked, hspared⟩ := hspares
    rw [hhost] at hposted
    have hasks : (takeHeld m₃).writer.state = .waitingSpace ↔ s.writer.state = .waitingSpace := by rw [takeHeld_writer, hwriter]
    have hframe : Frame [.host, .assembly, .writer, .table, .ctrl, .device, .program] s
        (drainWriter (takeHeld m₃)) := by
      have h := after_ctrlEnableClear_frame (s := s)
      rwa [Host.Outcome.next.inj ((exec_after .ctrlEnableClear s).symm.trans hrun)] at h
    refine ⟨m₁, m₂, m₃, takeHeld m₃, _, hrun, hcontexts, hskips, hadmission,
      fun h => takeHeld_none (hheld.trans h), fun slot cmd h hrow => ?_,
      fun h => if_neg fun hw => h (hasks.mp hw), fun h i c n epoch hin => ?_,
      by rw [hposted]; rfl, by rw [hposted]; rfl, by rw [hposted]; rfl, by rw [hposted]; rfl, hmarked.trans hmark,
      fun i x hx hg => hgathers i x (hspared i x hx hg) hg, hframe.reclaim, hframe.holds, hframe.anchor, hframe.reader,
      hframe.mount, hframe.array, hframe.staging, hframe.pending⟩
    · obtain ⟨f, hf, hslot⟩ := append_fragment (slot := slot) hrow
      rw [takeHeld_refused hmark (hheld.trans h) hf, hslot, hrefused]
    · rw [drainWriter, if_pos (hasks.mpr h)]
      exact askSector_asked hin

end Sys2Proof.Machine
end

section
/-! A command whose occasion is not present leaves the state as it is (log entry 6). -/

namespace Sys2Proof.Machine

open Sys2Proof.Laws Sys2Proof.Safety

variable {s : State}

/-! ### The heads of the owners' queues -/

theorem takes_of (h : s.takesCommands = true) : Takes s := by
  rw [State.takesCommands, Bool.or_eq_true, beq_iff_eq, beq_iff_eq] at h
  exact h

theorem heads_of {queue : List Routed} {r : Routed} {c : Instr}
    (h : (if s.takesCommands then queue.head? else none) = some r) (hc : row r.cmd = c) : Heads s queue c := by
  split at h
  next ht =>
    obtain ⟨rest, rfl⟩ := List.head?_eq_some_iff.mp h
    exact ⟨takes_of ht, r, rest, rfl, hc⟩
  next => cases h

theorem assemblyHead_heads {r : Routed} {c : Instr} (h : s.assemblyHead = some r) (hc : row r.cmd = c) :
    s.assembly.held = none ∧ Heads s s.assembly.queue c := by
  unfold State.assemblyHead at h
  split at h
  next ht => exact ⟨ht.2, heads_of ((if_pos ht.1).trans h) hc⟩
  next => cases h

theorem fragment_row {r : Routed} {f : Fragment} (h : r.fragment = some f) : row r.cmd = .append := by
  unfold Routed.fragment at h
  split at h
  next heq => rw [heq]; rfl
  next => cases h

/-! ### The commands of the submission rings -/

theorem append_unoccasioned (h : ¬Occasion .append s) : exec .append s = .next s := by
  change Host.Outcome.next _ = _
  split
  next r hr =>
    split
    next f hf => exact absurd (assemblyHead_heads hr (fragment_row hf)) h
    next => rfl
  next => rfl

theorem openStream_unoccasioned (h : ¬Occasion .openStream s) : exec .openStream s = .next s := by
  change Host.Outcome.next _ = _
  split
  next hr => exact absurd (assemblyHead_heads hr rfl) h
  next => rfl

theorem closeStream_unoccasioned (h : ¬Occasion .closeStream s) : exec .closeStream s = .next s := by
  change Host.Outcome.next _ = _
  split
  next hr => exact absurd (assemblyHead_heads hr rfl) h
  next => rfl

theorem abortRecord_unoccasioned (h : ¬Occasion .abortRecord s) : exec .abortRecord s = .next s := by
  change Host.Outcome.next _ = _
  split
  next hr => exact absurd (assemblyHead_heads hr rfl) h
  next => rfl

theorem queryStreams_unoccasioned (h : ¬Occasion .queryStreams s) : exec .queryStreams s = .next s := by
  change Host.Outcome.next _ = _
  split
  next hr => exact absurd (assemblyHead_heads hr rfl) h
  next => rfl

theorem read_unoccasioned (h : ¬Occasion .read s) : exec .read s = .next s := by
  change Host.Outcome.next _ = _
  split
  next hr => exact absurd (heads_of hr rfl) h
  next => rfl

theorem scan_unoccasioned (h : ¬Occasion .scan s) : exec .scan s = .next s := by
  change Host.Outcome.next _ = _
  split
  next hr => exact absurd (heads_of hr rfl) h
  next => rfl

theorem hold_unoccasioned (h : ¬Occasion .hold s) : exec .hold s = .next s := by
  change Host.Outcome.next _ = _
  split
  next hr => exact absurd (heads_of hr rfl) h
  next => rfl

theorem release_unoccasioned (h : ¬Occasion .release s) : exec .release s = .next s := by
  change Host.Outcome.next _ = _
  split
  next hr => exact absurd (heads_of hr rfl) h
  next => rfl

theorem querySectors_unoccasioned (h : ¬Occasion .querySectors s) : exec .querySectors s = .next s := by
  change Host.Outcome.next _ = _
  split
  next hr => exact absurd (heads_of hr rfl) h
  next => rfl

theorem queryHolds_unoccasioned (h : ¬Occasion .queryHolds s) : exec .queryHolds s = .next s := by
  change Host.Outcome.next _ = _
  split
  next hr => exact absurd (heads_of hr rfl) h
  next => rfl

theorem queryStats_unoccasioned (h : ¬Occasion .queryStats s) : exec .queryStats s = .next s := by
  change Host.Outcome.next _ = _
  split
  next hr => exact absurd (heads_of hr rfl) h
  next => rfl

theorem wipe_unoccasioned (h : ¬Occasion .wipe s) : exec .wipe s = .next s := by
  change Host.Outcome.next _ = _
  split
  next hr => exact absurd (heads_of hr rfl) h
  next => rfl

/-! ### The Host Ring Unit -/

theorem ticks_iff : s.host.device.ticks = true ↔ Ticks s := by
  unfold Ticks
  cases s.host.device <;> simp [DeviceState.ticks]

theorem indexWrite_unoccasioned {f : HostUnit → Setup → HostUnit} (h : ¬Writes s) : indexWrite f s = s := by
  unfold indexWrite
  split
  · exact if_neg (mt (takesIndex_iff s.host.device).mp h)
  · rfl

theorem setupReadEnd_unoccasioned {answer : Option (List Byte)} (h : ¬Occasion (.setupReadEnd answer) s) :
    exec (.setupReadEnd answer) s = .next s := by
  change Host.Outcome.next _ = _
  rw [if_neg]
  unfold HostUnit.readingSetup
  cases hs : s.host.setupStage with
  | reading address => exact fun hd => h ⟨beq_iff_eq.mp hd, address, hs⟩
  | waiting address => nofun
  | idle => nofun

theorem fetchBegin_unoccasioned (h : ¬Occasion .fetchBegin s) : exec .fetchBegin s = .next s := by
  have hnone : s.host.nextFetch = none := by
    unfold HostUnit.nextFetch
    split
    next c i _ hi =>
      refine if_neg fun hx => h ⟨hx.1, hx.2.1, i, ?_⟩
      exact beq_iff_eq.mp (List.find?_some (p := fun i : SlotNo => s.host.slots[i] == .free) hi)
    next => rfl
  change Host.Outcome.next _ = _
  rw [hnone]

theorem submissionFetchEnd_unoccasioned {answer : Option (List Byte)} (h : ¬Occasion (.submissionFetchEnd answer) s) :
    exec (.submissionFetchEnd answer) s = .next s := by
  change Host.Outcome.next _ = _
  split
  next hf _ =>
    refine congrArg _ (if_neg fun ht => h ⟨takes_of ht, ?_⟩)
    rw [hf]
    exact Option.some_ne_none _
  next => rfl

theorem postingBegin_unoccasioned (h : ¬Occasion .postingBegin s) : exec .postingBegin s = .next s := by
  have hsame : s.host.beginPosting = s.host := by
    refine beginPosting_rests ?_
    by_contra hx
    rw [not_or, not_or, not_not, not_not] at hx
    exact h ⟨(writes_iff _).mp hx.1, hx.2.1, hx.2.2⟩
  change Host.Outcome.next { s with host := s.host.beginPosting } = _
  rw [hsame]

theorem completionWriteEnd_unoccasioned {ok : Bool} (h : ¬Occasion (.completionWriteEnd ok) s) :
    exec (.completionWriteEnd ok) s = .next s := by
  change Host.Outcome.next _ = _
  split
  next w hw => exact congrArg _ (if_neg fun hl => h ⟨(live_iff s).mp hl, w, hw⟩)
  next => rfl

theorem noticeWriteEnd_unoccasioned {ok : Bool} (h : ¬Occasion (.noticeWriteEnd ok) s) :
    exec (.noticeWriteEnd ok) s = .next s := by
  change Host.Outcome.next _ = _
  split
  next w hw => exact congrArg _ (if_neg fun hl => h ⟨(live_iff s).mp hl, w, hw⟩)
  next => rfl

theorem statusWriteBegin_unoccasioned (h : ¬Occasion .statusWriteBegin s) : exec .statusWriteBegin s = .next s := by
  change Host.Outcome.next _ = _
  split
  · exact congrArg _ (if_neg fun hw => h ⟨(writes_iff _).mp hw.2.2, hw.2.1, hw.1⟩)
  · rfl

theorem statusWriteEnd_unoccasioned {ok : Bool} (h : ¬Occasion (.statusWriteEnd ok) s) :
    exec (.statusWriteEnd ok) s = .next s := by
  change Host.Outcome.next _ = _
  split
  next w a b d hw => exact congrArg _ (if_neg fun hl => h ⟨(live_iff s).mp hl, w, a, b, d, hw⟩)
  next => rfl

theorem queryWriteEnd_unoccasioned {slot : SlotNo} {ok : Bool} (h : ¬Occasion (.queryWriteEnd slot ok) s) :
    exec (.queryWriteEnd slot ok) s = .next s := by
  change Host.Outcome.next _ = _
  split
  next q hq =>
    have hslot : q.slot = slot := beq_iff_eq.mp (List.find?_some (p := fun q : QueryWrite => q.slot == slot) hq)
    exact congrArg _ (if_neg fun hl => h ⟨(live_iff s).mp hl, q, List.mem_of_find?_eq_some hq, hslot⟩)
  next => rfl

/-! ### The Assembly Unit -/

theorem assemblyExpired_unoccasioned {i : CtxNo} (h : ¬Occasion (.assemblyExpired i) s) :
    exec (.assemblyExpired i) s = .next s := by
  change Host.Outcome.next _ = _
  split
  next c hc =>
    refine congrArg _ (if_neg fun hx => h ⟨ticks_iff.mp hx.1, c, hc, ?_⟩)
    have he := hx.2
    rw [expiresNext, Bool.and_eq_true, agesOnTick_iff, beq_iff_eq] at he
    exact he
  next => rfl

theorem sequenceSkipped_unoccasioned {st : StreamNo} (h : ¬Occasion (.sequenceSkipped st) s) :
    exec (.sequenceSkipped st) s = .next s := by
  change Host.Outcome.next _ = _
  refine congrArg _ (if_neg fun hx => h ⟨ticks_iff.mp hx.1, ?_⟩)
  have he := hx.2
  simp only [skipsNext, Bool.and_eq_true, beq_iff_eq, isStalled_iff] at he
  exact ⟨he.1.1.1, he.1.2, he.2⟩

theorem transferContext_flying {slot : SlotNo} {i : CtxNo} {c : Context} (hl : s.live = true)
    (h : s.assembly.transferContext slot = some (i, c)) : Flying s slot := by
  obtain ⟨hi, hp, -⟩ := findContext_first h
  obtain ⟨x, hx, hslot⟩ := List.any_eq_true.mp hp
  exact ⟨(live_iff s).mp hl, i, c, hi, x, hx, beq_iff_eq.mp hslot⟩

theorem transferEnd_unoccasioned {slot : SlotNo} {data : List Byte} (h : ¬Occasion (.transferEnd slot data) s) :
    exec (.transferEnd slot data) s = .next s := by
  change Host.Outcome.next _ = _
  split
  next hl =>
    have hnone : s.assembly.transferContext slot = none := by
      by_contra hf
      obtain ⟨⟨i, c⟩, hf⟩ := Option.ne_none_iff_exists'.mp hf
      exact h (transferContext_flying hl hf)
    rw [transferEnds, hnone]
  next => rfl

theorem transferFail_unoccasioned {slot : SlotNo} (h : ¬Occasion (.transferFail slot) s) :
    exec (.transferFail slot) s = .next s := by
  change Host.Outcome.next _ = _
  split
  next hl =>
    have hnone : s.assembly.transferContext slot = none := by
      by_contra hf
      obtain ⟨⟨i, c⟩, hf⟩ := Option.ne_none_iff_exists'.mp hf
      exact h (transferContext_flying hl hf)
    rw [transferFails, hnone]
  next => rfl

/-! ### Outcomes of the array -/

section
variable {who : Requester}

theorem outcomeFor_answers {o : ArrayOutcome} (h : s.outcomeFor who = some o) : Answers s who o := by
  unfold State.outcomeFor at h
  split at h
  next hl => exact ⟨(live_iff s).mp hl, h⟩
  next => cases h

theorem programResult_programmed {ok : Bool} (h : s.programResult who = some ok) : Programmed s who := by
  unfold State.programResult at h
  split at h
  next ho => exact .inl (outcomeFor_answers ho)
  next line blank ho => exact .inr ⟨line, blank, outcomeFor_answers ho⟩
  next => cases h

theorem eraseResult_erased {ok : Bool} (h : s.eraseResult who = some ok) : Erased s who := by
  unfold State.eraseResult at h
  split at h
  next ho => exact .inl (outcomeFor_answers ho)
  next ho => exact .inr (outcomeFor_answers ho)
  next => cases h

theorem linesResult_answers {l : List LineOutcome} (h : s.linesResult who = some l) : Answers s who (.lines l) := by
  unfold State.linesResult at h
  split at h
  next ho =>
    cases h
    exact outcomeFor_answers ho
  next => cases h

end

/-! ### The Journal Writer, the Reclaim Unit and the Anchor Unit -/

theorem queueHeadTaken_unoccasioned (h : ¬Occasion .queueHeadTaken s) : exec .queueHeadTaken s = .next s := by
  change Host.Outcome.next _ = _
  split
  next hx =>
    have hempty : s.writer.queue = [] := by
      by_contra hq
      exact h ⟨(live_iff s).mp hx.1, hx.2, hq⟩
    rw [takeQueueHead, hempty]
  next => rfl

theorem spaceQuestionRetry_unoccasioned (h : ¬Occasion .spaceQuestionRetry s) :
    exec .spaceQuestionRetry s = .next s := by
  change Host.Outcome.next _ = _
  exact congrArg _ (if_neg fun hx => h ⟨(live_iff s).mp hx.1, hx.2.1, hx.2.2⟩)

theorem sectorHeaderProgrammed_unoccasioned (h : ¬Occasion .sectorHeaderProgrammed s) :
    exec .sectorHeaderProgrammed s = .next s := by
  change Host.Outcome.next _ = _
  split
  next hr => exact congrArg _ (if_neg fun hx => h ⟨programResult_programmed hr, hx.1, hx.2⟩)
  next => rfl

theorem padProgrammed_unoccasioned (h : ¬Occasion .padProgrammed s) : exec .padProgrammed s = .next s := by
  change Host.Outcome.next _ = _
  split
  next hr he =>
    exact congrArg _ (if_neg fun hx => h ⟨programResult_programmed hr, hx, by rw [he]; exact Option.some_ne_none _⟩)
  next => rfl

theorem burstProgrammed_unoccasioned (h : ¬Occasion .burstProgrammed s) : exec .burstProgrammed s = .next s := by
  change Host.Outcome.next _ = _
  split
  next hr _ _ => exact congrArg _ (if_neg fun hx => h ⟨programResult_programmed hr, hx⟩)
  next => rfl

theorem commitLineProgrammed_unoccasioned (h : ¬Occasion .commitLineProgrammed s) :
    exec .commitLineProgrammed s = .next s := by
  change Host.Outcome.next _ = _
  split
  next hr _ _ => exact congrArg _ (if_neg fun hx => h ⟨programResult_programmed hr, hx⟩)
  next => rfl

theorem reclaimTest_unoccasioned (h : ¬Occasion .reclaimTest s) : exec .reclaimTest s = .next s := by
  change Host.Outcome.next _ = _
  exact congrArg _ (if_neg fun hx => h ⟨(live_iff s).mp hx.1, hx.2.1, hx.2.2⟩)

theorem eraseEnd_unoccasioned (h : ¬Occasion .eraseEnd s) : exec .eraseEnd s = .next s := by
  change Host.Outcome.next _ = _
  split
  next hr he => exact absurd ⟨eraseResult_erased hr, by rw [he]; exact Option.some_ne_none _⟩ h
  next => rfl

theorem snapshotProgramEnd_unoccasioned (h : ¬Occasion .snapshotProgramEnd s) :
    exec .snapshotProgramEnd s = .next s := by
  change Host.Outcome.next _ = _
  split
  next hr _ => exact congrArg _ (if_neg fun hx => h ⟨programResult_programmed hr, hx⟩)
  next => rfl

theorem rolloverEraseEnd_unoccasioned (h : ¬Occasion .rolloverEraseEnd s) : exec .rolloverEraseEnd s = .next s := by
  change Host.Outcome.next _ = _
  split
  next hr _ => exact congrArg _ (if_neg fun hx => h ⟨eraseResult_erased hr, hx⟩)
  next => rfl

/-! ### The Read Unit -/

theorem nextRead_active (h : s.reader.active ≠ none) : nextRead s = s :=
  if_neg fun hn => h (Option.isNone_iff_eq_none.mp hn)

theorem readBegin_unoccasioned (h : ¬Occasion .readBegin s) : exec .readBegin s = .next s := by
  change Host.Outcome.next _ = _
  split
  next rest hf =>
    split
    next hl => exact congrArg _ (nextRead_active fun ha => h ⟨(live_iff s).mp hl, ha, _, rest, hf, rfl⟩)
    next => rfl
  next => rfl

theorem scanBegin_unoccasioned (h : ¬Occasion .scanBegin s) : exec .scanBegin s = .next s := by
  change Host.Outcome.next _ = _
  split
  next rest hf =>
    split
    next hl => exact congrArg _ (nextRead_active fun ha => h ⟨(live_iff s).mp hl, ha, _, rest, hf, rfl⟩)
    next => rfl
  next => rfl

theorem readUnitLinesRead_unoccasioned (h : ¬Occasion .readUnitLinesRead s) : exec .readUnitLinesRead s = .next s := by
  change Host.Outcome.next _ = _
  split
  next l i stage hl hp hs =>
    exact absurd ⟨⟨l, linesResult_answers hl⟩, by rw [hp]; exact Option.some_ne_none _,
      by rw [hs]; exact Option.some_ne_none _⟩ h
  next => rfl

theorem imageWriteEnd_unoccasioned {ok : Bool} (h : ¬Occasion (.imageWriteEnd ok) s) :
    exec (.imageWriteEnd ok) s = .next s := by
  change Host.Outcome.next _ = _
  split
  next p hd short i w hs _ hw =>
    exact congrArg _ (if_neg fun hl => h ⟨(live_iff s).mp hl, by rw [hw]; exact Option.some_ne_none _, p, hd, short, hs⟩)
  next => rfl

/-! ### The Array Controller and the Mount Unit -/

theorem arrayRequest_unoccasioned {who : Requester} (h : ¬Occasion (.arrayRequest who) s) :
    exec (.arrayRequest who) s = .next s := by
  change Host.Outcome.next _ = _
  split
  next hp => exact congrArg _ (if_neg fun hl => h ⟨(live_iff s).mp hl, by rw [hp]; exact Option.some_ne_none _⟩)
  next => rfl

theorem endable_running {c : ArrayCtrl} {x : Requester × ArrayOp} (h : c.endable = some x) :
    Running c ∧ c.operation = some x := by
  unfold ArrayCtrl.endable at h
  unfold Running
  cases hs : c.state <;> simp_all

theorem timed_operation {c : ArrayCtrl} {x : Requester × ArrayOp} (h : c.timed = some x) : c.operation = some x := by
  unfold ArrayCtrl.timed at h
  split at h
  · exact h
  · exact (endable_running h).2

theorem arrayOperationEnd_unoccasioned {elapsed : Nat} {report : ArrayReport}
    (h : ¬Occasion (.arrayOperationEnd elapsed report) s) : exec (.arrayOperationEnd elapsed report) s = .next s := by
  have hnone : s.ctrl.endable = none := by
    by_contra he
    obtain ⟨x, he⟩ := Option.ne_none_iff_exists'.mp he
    exact h (endable_running he).1
  change Host.Outcome.next (operationEnded elapsed report s) = _
  rw [operationEnded, hnone]

theorem eraseStopped_unoccasioned {elapsed : Nat} (h : ¬Occasion (.eraseStopped elapsed) s) :
    exec (.eraseStopped elapsed) s = .next s :=
  congrArg Host.Outcome.next (if_neg h)

theorem eraseResumed_unoccasioned {elapsed : Nat} (h : ¬Occasion (.eraseResumed elapsed) s) :
    exec (.eraseResumed elapsed) s = .next s :=
  congrArg Host.Outcome.next (if_neg h)

theorem arrayTimeout_unoccasioned {elapsed : Nat} {left : Residue} (h : ¬Occasion (.arrayTimeout elapsed left) s) :
    exec (.arrayTimeout elapsed left) s = .next s := by
  have hnone : s.ctrl.timed = none := by
    by_contra ht
    obtain ⟨x, ht⟩ := Option.ne_none_iff_exists'.mp ht
    exact h (by rw [Occasion, timed_operation ht]; exact Option.some_ne_none _)
  change Host.Outcome.next (operationTimedOut elapsed left s) = _
  rw [operationTimedOut, hnone]

theorem anchorSlotRead_unoccasioned (h : ¬Occasion .anchorSlotRead s) : exec .anchorSlotRead s = .next s := by
  change Host.Outcome.next _ = _
  split
  next l a slot _ hp => exact congrArg _ (if_neg fun hd => h ⟨hd, a, slot, hp⟩)
  next => rfl

theorem mountLineRead_unoccasioned (h : ¬Occasion .mountLineRead s) : exec .mountLineRead s = .next s := by
  change Host.Outcome.next _ = _
  split
  next hd =>
    split
    next l _ hl _ => exact absurd ⟨hd, l, linesResult_answers hl⟩ h
    next l _ _ _ hl _ => exact absurd ⟨hd, l, linesResult_answers hl⟩ h
    next l _ _ _ _ hl _ => exact absurd ⟨hd, l, linesResult_answers hl⟩ h
    next => rfl
  next => rfl

theorem blankCheckEnd_unoccasioned (h : ¬Occasion .blankCheckEnd s) : exec .blankCheckEnd s = .next s := by
  change Host.Outcome.next _ = _
  split
  next hd =>
    split
    next i _ hp => exact absurd ⟨hd, i, hp⟩ h
    next i _ hp => exact absurd ⟨hd, i, hp⟩ h
    next => rfl
  next => rfl

end Sys2Proof.Machine
end

section
/-! Every command in every state: without its occasion it changes nothing, and in HALTED the array's work in hand ends
(R157, R181; log entry 6). -/

namespace Sys2Proof.Machine

open Sys2Proof.Laws Sys2Proof.Safety

/-- A command without its occasion leaves the state as it is. -/
theorem exec_unoccasioned (c : Instr) (s : State) (h : ¬Occasion c s) : exec c s = .next s := by
  cases c with
  | append => exact append_unoccasioned h
  | openStream => exact openStream_unoccasioned h
  | closeStream => exact closeStream_unoccasioned h
  | abortRecord => exact abortRecord_unoccasioned h
  | read => exact read_unoccasioned h
  | scan => exact scan_unoccasioned h
  | hold => exact hold_unoccasioned h
  | release => exact release_unoccasioned h
  | querySectors => exact querySectors_unoccasioned h
  | queryStreams => exact queryStreams_unoccasioned h
  | queryHolds => exact queryHolds_unoccasioned h
  | queryStats => exact queryStats_unoccasioned h
  | wipe => exact wipe_unoccasioned h
  | ctrlEnableSet => exact absurd trivial h
  | ctrlEnableClear => exact absurd trivial h
  | softReset left => exact absurd trivial h
  | coldReset left => exact absurd trivial h
  | ringIndexSubmission ring position => exact congrArg Host.Outcome.next (indexWrite_unoccasioned h)
  | ringIndexCompletion position => exact congrArg Host.Outcome.next (indexWrite_unoccasioned h)
  | ringIndexNotice position => exact congrArg Host.Outcome.next (indexWrite_unoccasioned h)
  | ringIndexBadSelector seven position =>
    exact congrArg Host.Outcome.next (if_neg (mt (takesIndex_iff s.host.device).mp h))
  | intCauseWrite value => exact absurd trivial h
  | intMaskWrite value => exact absurd trivial h
  | registerWrite register value =>
    cases register with
    | id => rfl
    | state => rfl
    | setupLo => exact absurd (.inl rfl) h
    | setupHi => exact absurd (.inr rfl) h
  | setupReadEnd answer => exact setupReadEnd_unoccasioned h
  | fetchBegin => exact fetchBegin_unoccasioned h
  | submissionFetchEnd answer => exact submissionFetchEnd_unoccasioned h
  | postingBegin => exact postingBegin_unoccasioned h
  | completionWriteEnd ok => exact completionWriteEnd_unoccasioned h
  | noticeWriteEnd ok => exact noticeWriteEnd_unoccasioned h
  | statusWriteBegin => exact statusWriteBegin_unoccasioned h
  | statusWriteEnd ok => exact statusWriteEnd_unoccasioned h
  | drainEnd => exact congrArg Host.Outcome.next (if_neg fun hx => h hx.1)
  | tick => exact congrArg Host.Outcome.next (if_neg (mt ticks_iff.mp h))
  | assemblyExpired context => exact assemblyExpired_unoccasioned h
  | sequenceSkipped stream => exact sequenceSkipped_unoccasioned h
  | transferEnd slot data => exact transferEnd_unoccasioned h
  | transferFail slot => exact transferFail_unoccasioned h
  | queueHeadTaken => exact queueHeadTaken_unoccasioned h
  | spaceQuestionRetry => exact spaceQuestionRetry_unoccasioned h
  | sectorHeaderProgrammed => exact sectorHeaderProgrammed_unoccasioned h
  | padProgrammed => exact padProgrammed_unoccasioned h
  | burstProgrammed => exact burstProgrammed_unoccasioned h
  | commitLineProgrammed => exact commitLineProgrammed_unoccasioned h
  | reclaimTest => exact reclaimTest_unoccasioned h
  | eraseEnd => exact eraseEnd_unoccasioned h
  | snapshotProgramEnd => exact snapshotProgramEnd_unoccasioned h
  | rolloverEraseEnd => exact rolloverEraseEnd_unoccasioned h
  | readBegin => exact readBegin_unoccasioned h
  | scanBegin => exact scanBegin_unoccasioned h
  | readUnitLinesRead => exact readUnitLinesRead_unoccasioned h
  | imageWriteEnd ok => exact imageWriteEnd_unoccasioned h
  | queryWriteEnd slot ok => exact queryWriteEnd_unoccasioned h
  | arrayRequest who => exact arrayRequest_unoccasioned h
  | arrayOperationEnd elapsed report => exact arrayOperationEnd_unoccasioned h
  | eraseStopped elapsed => exact eraseStopped_unoccasioned h
  | eraseResumed elapsed => exact eraseResumed_unoccasioned h
  | arrayTimeout elapsed left => exact arrayTimeout_unoccasioned h
  | anchorSlotRead => exact anchorSlotRead_unoccasioned h
  | mountLineRead => exact mountLineRead_unoccasioned h
  | blankCheckEnd => exact blankCheckEnd_unoccasioned h

/-! ### What an operation reaches -/

/-- A line outside the operation. -/
def Outside (op : ArrayOp) (n : Nat) : Prop :=
  (∀ i, op = .eraseSector i → inSector i n = false) ∧
  (∀ i first lines, op = .programLines i first lines → n < lineNo i first ∨ lineNo i first + lines.length ≤ n)

theorem programCells_outside (i : SectorNo) (raw : List (Nat × LineOutcome)) (fails : Option (Nat × Option Cell)) (n : Nat)
    (lines : List (List Byte)) (m : List (Nat × Cell)) (first : Nat) (hm : arrayWf m = true)
    (h : n < lineNo i first ∨ lineNo i first + lines.length ≤ n) :
    memGet (programCells i raw fails m first lines).1 n = memGet m n := by
  induction lines generalizing m first with
  | nil => rfl
  | cons b rest ih =>
    rw [List.length_cons] at h
    have hne : n ≠ lineNo i first := by omega
    have hgo : memGet (programCells i raw fails (memPut m (lineNo i first) (.clean b)) (first + 1) rest).1 n =
        memGet m n := by
      rw [ih _ _ (rising_memPut _ hm) (by rw [lineNo_add]; omega), memGet_memPut _ _ _ _ hm, if_neg hne]
    unfold programCells
    dsimp only
    split
    · rfl
    · split
      · split
        · rw [memGet_memSet _ _ _ _ hm, if_neg hne]
        · exact hgo
      · exact hgo

theorem runOp_outside {m m' : List (Nat × Cell)} {b b' : List (Nat × List Byte)} {op : ArrayOp} {report : ArrayReport}
    {o : ArrayOutcome} {n : Nat} (hr : runOp m b op report = some (m', b', o)) (hm : arrayWf m = true)
    (h : Outside op n) : memGet m' n = memGet m n := by
  unfold runOp at hr
  split at hr
  · cases hr; rfl
  · cases hr; exact programCells_outside _ _ _ _ _ _ _ hm (h.2 _ _ _ rfl)
  · cases hr; exact programCells_outside _ _ _ _ _ _ _ hm (h.2 _ _ _ rfl)
  · cases hr; rw [memGet_eraseLines, if_neg (by rw [h.1 _ rfl]; decide)]
  · cases hr; exact failErase_out _ _ _ _ hm _ (h.1 _ rfl)
  · cases hr; rfl
  · cases hr

theorem cutShort_outside {s : State} {op : ArrayOp} {left : Residue} {n : Nat} (hm : arrayWf s.array = true)
    (h : Outside op n) : memGet (cutShort s.array s.barred op left) n = memGet s.array n := by
  cases op with
  | readLines i first count => rfl
  | blankCheck i => rfl
  | eraseSector i => exact cutErase_out _ _ _ _ hm _ (h.1 i rfl)
  | programLines i first lines =>
    rcases cutProgram_residue s i first lines.length left hm n with hsame | ⟨j, hj, rfl, -⟩
    · exact hsame
    · have := h.2 i first lines rfl
      omega

/-! ### The end of array work in HALTED -/

/-- The array's work in hand ends: an operation or an erase leaves the controller at most, no outcome is handed over and
nothing started; the array is left as in `u`, and only within the work in hand. -/
structure WorkEnds (s t u : State) : Prop where
  frame : t = { s with ctrl := t.ctrl, array := t.array, barred := t.barred }
  ctrl : t.ctrl = { s.ctrl with
    state := t.ctrl.state, operation := t.ctrl.operation, erase := t.ctrl.erase, eraseTime := t.ctrl.eraseTime
    linesCorrected := t.ctrl.linesCorrected, linesUncorrectable := t.ctrl.linesUncorrectable }
  operation : t.ctrl.operation = s.ctrl.operation ∨ t.ctrl.operation = none
  erase : t.ctrl.erase = s.ctrl.erase ∨ t.ctrl.erase = none
  array : t.array = u.array
  barred : t.barred = u.barred
  lines : arrayWf s.array = true → ∀ n : Nat, (∀ e, s.ctrl.erase = some e → inSector e.sector n = false) →
    (∀ who op, s.ctrl.operation = some (who, op) → Outside op n) → memGet t.array n = memGet s.array n

theorem WorkEnds.same {s u : State} (ha : s.array = u.array) (hb : s.barred = u.barred) : WorkEnds s s u :=
  ⟨rfl, rfl, .inl rfl, .inl rfl, ha, hb, fun _ _ _ _ => rfl⟩

/-- The same state with the device ONLINE. -/
def online (s : State) : State := { s with host := { s.host with device := .online } }

variable {s : State}

theorem not_live (h : s.host.device = .halted) : s.live = false := by rw [State.live, h]; rfl

theorem leave_work (c : ArrayCtrl) (op : ArrayOp) :
    (c.leave op = { c with state := (c.leave op).state, operation := none, erase := (c.leave op).erase }) ∧
      ((c.leave op).erase = c.erase ∨ (c.leave op).erase = none) := by
  unfold ArrayCtrl.leave
  split
  · exact ⟨rfl, .inl rfl⟩
  · exact ⟨rfl, .inr rfl⟩

section
variable {elapsed : Nat} {report : ArrayReport} {left : Residue} {who : Requester} {op : ArrayOp}

theorem operationEnded_rests (h : ∀ who op, s.ctrl.endable = some (who, op) → s.ctrl.runTime op elapsed < op.limit →
    runOp s.array s.barred op report = none) : operationEnded elapsed report s = s := by
  unfold operationEnded
  split
  · rfl
  next who op he =>
    split
    next ht => rw [h who op he ht]
    next => rfl

theorem operationEnded_ends {m : List (Nat × Cell)} {b : List (Nat × List Byte)} {o : ArrayOutcome}
    (he : s.ctrl.endable = some (who, op)) (ht : s.ctrl.runTime op elapsed < op.limit)
    (hr : runOp s.array s.barred op report = some (m, b, o)) : operationEnded elapsed report s =
      { s with ctrl := s.ctrl.ended s.live who op o, array := m, barred := b } := by
  simp only [operationEnded, he, if_pos ht, hr]
  rfl

theorem operationTimedOut_rests (h : ∀ who op, s.ctrl.timed = some (who, op) → s.ctrl.runTime op elapsed < op.limit) :
    operationTimedOut elapsed left s = s := by
  unfold operationTimedOut
  split
  · rfl
  next who op ht => exact if_neg (Nat.not_le.mpr (h who op ht))

theorem operationTimedOut_abandons (ht : s.ctrl.timed = some (who, op)) (hl : op.limit ≤ s.ctrl.runTime op elapsed) :
    operationTimedOut elapsed left s = halt .arrayTimeout { s with
      ctrl := abandoned op elapsed s.ctrl, array := cutShort s.array s.barred op left
      barred := cutBarred s.array op s.barred } := by
  simp only [operationTimedOut, ht, if_pos hl]
  rfl

theorem eraseStopped_stops {e : HeldErase}
    (hs : s.ctrl.state = .suspending ∧ s.ctrl.eraseTime + elapsed < Config.eraseLimit) (he : s.ctrl.erase = some e) :
    eraseStopped elapsed s = (stopLines e.sector s).onCtrl fun c =>
      let c := { c with state := .eraseSuspended, operation := none, eraseTime := c.eraseTime + elapsed }
      if s.live then c.chooseSuspended else c := by
  rw [eraseStopped, if_pos hs, he]

theorem eraseStopped_empty (hs : s.ctrl.state = .suspending ∧ s.ctrl.eraseTime + elapsed < Config.eraseLimit)
    (he : s.ctrl.erase = none) : eraseStopped elapsed s = s.onCtrl fun c =>
      let c := { c with state := .eraseSuspended, operation := none, eraseTime := c.eraseTime + elapsed }
      if s.live then c.chooseSuspended else c := by
  rw [eraseStopped, if_pos hs, he]

theorem eraseResumed_resumes (hs : s.ctrl.state = .resuming ∧ s.ctrl.eraseTime + elapsed < Config.eraseLimit) :
    eraseResumed elapsed s = s.onCtrl fun c =>
      let c := { c with state := .erasing, eraseTime := c.eraseTime + elapsed }
      if s.live && c.nextService.isSome then c.suspend else c := if_pos hs

end

theorem operationEnded_halted (hd : s.host.device = .halted) (elapsed : Nat) (report : ArrayReport) :
    WorkEnds s (operationEnded elapsed report s) (operationEnded elapsed report (online s)) := by
  by_cases h : ∀ who op, s.ctrl.endable = some (who, op) → s.ctrl.runTime op elapsed < op.limit →
      runOp s.array s.barred op report = none
  · rw [operationEnded_rests h, operationEnded_rests (s := online s) (by exact h)]
    exact .same rfl rfl
  · push Not at h
    obtain ⟨who, op, he, ht, hr⟩ := h
    obtain ⟨⟨m, b, o⟩, hr⟩ := Option.ne_none_iff_exists'.mp hr
    have hended : s.ctrl.ended s.live who op o = (s.ctrl.countLines o).leave op := by rw [not_live hd]; rfl
    rw [operationEnded_ends he ht hr, hended, operationEnded_ends (s := online s) he ht hr]
    obtain ⟨hleave, herase⟩ := leave_work (s.ctrl.countLines o) op
    obtain ⟨corrected, broken, hcount⟩ := countLines_eq s.ctrl o
    rw [hcount] at hleave herase ⊢
    refine ⟨rfl, ?_, .inr ?_, herase, rfl, rfl, fun hm n _ hout => runOp_outside hr hm (hout who op (endable_running he).2)⟩
    · dsimp only
      rw [hleave]
    · dsimp only
      rw [hleave]

theorem eraseStopped_halted (hd : s.host.device = .halted) (elapsed : Nat) :
    WorkEnds s (eraseStopped elapsed s) (eraseStopped elapsed (online s)) := by
  by_cases hs : s.ctrl.state = .suspending ∧ s.ctrl.eraseTime + elapsed < Config.eraseLimit
  · cases he : s.ctrl.erase with
    | none =>
      rw [eraseStopped_empty hs he, eraseStopped_empty (s := online s) hs he, not_live hd]
      exact ⟨rfl, rfl, .inr rfl, .inl rfl, rfl, rfl, fun _ _ _ _ => rfl⟩
    | some e =>
      rw [eraseStopped_stops hs he, eraseStopped_stops (s := online s) hs he, not_live hd]
      refine ⟨rfl, rfl, .inr rfl, .inl rfl, rfl, rfl, fun _ n hout _ => ?_⟩
      exact (memGet_stopErase s.array e.sector n).trans (if_neg (by rw [hout e he]; decide))
  · rw [show eraseStopped elapsed s = s from if_neg hs, show eraseStopped elapsed (online s) = online s from if_neg hs]
    exact .same rfl rfl

theorem eraseResumed_halted (hd : s.host.device = .halted) (elapsed : Nat) :
    WorkEnds s (eraseResumed elapsed s) (eraseResumed elapsed (online s)) := by
  by_cases hs : s.ctrl.state = .resuming ∧ s.ctrl.eraseTime + elapsed < Config.eraseLimit
  · rw [eraseResumed_resumes hs, eraseResumed_resumes (s := online s) hs, not_live hd]
    exact ⟨rfl, rfl, .inl rfl, .inl rfl, rfl, rfl, fun _ _ _ _ => rfl⟩
  · rw [show eraseResumed elapsed s = s from if_neg hs, show eraseResumed elapsed (online s) = online s from if_neg hs]
    exact .same rfl rfl

theorem operationTimedOut_halted (hd : s.host.device = .halted) (elapsed : Nat) (left : Residue) :
    WorkEnds s (operationTimedOut elapsed left s) (operationTimedOut elapsed left (online s)) := by
  by_cases h : ∀ who op, s.ctrl.timed = some (who, op) → s.ctrl.runTime op elapsed < op.limit
  · rw [operationTimedOut_rests h, operationTimedOut_rests (s := online s) (by exact h)]
    exact .same rfl rfl
  · push Not at h
    obtain ⟨who, op, ht, hl⟩ := h
    obtain ⟨hleave, herase⟩ := leave_work s.ctrl op
    rw [operationTimedOut_abandons ht hl, operationTimedOut_abandons (s := online s) ht hl,
      show halt _ _ = _ from if_pos (by exact hd), halt_live (by exact nofun)]
    refine ⟨rfl, ?_, .inr ?_, herase, rfl, rfl, fun hm n _ hout => cutShort_outside hm (hout who op (timed_operation ht))⟩
    · simp only [abandoned]
      rw [hleave]
    · simp only [abandoned]
      rw [hleave]

/-! ### Registers in HALTED -/

/-- The registers alone have changed. -/
def RegistersOnly (s t : State) : Prop := t = { s with host := { s.host with
  enable := t.host.enable, setupLo := t.host.setupLo, setupHi := t.host.setupHi
  intCause := t.host.intCause, intMask := t.host.intMask, intMessages := t.host.intMessages } }

theorem RegistersOnly.refl (s : State) : RegistersOnly s s := rfl

/-- A command that ends, stops, resumes or times out work of the array. -/
def EndsWork (c : Instr) : Prop :=
  (∃ e r, c = .arrayOperationEnd e r) ∨ (∃ e, c = .eraseStopped e) ∨ (∃ e, c = .eraseResumed e) ∨
    ∃ e l, c = .arrayTimeout e l

/-- A command of the host that stores into the register window. -/
def StoresRegister : Instr → Bool
  | .ctrlEnableSet => true
  | .ctrlEnableClear => true
  | .intCauseWrite _ => true
  | .intMaskWrite _ => true
  | .registerWrite _ _ => true
  | _ => false

theorem judged_registers (s : State) (cause mask : BitVec 4) :
    RegistersOnly s { s with host := s.host.judged cause mask } := by
  unfold HostUnit.judged
  dsimp only
  split <;> rfl

theorem stored_registers {c : Instr} (hd : s.host.device = .halted) (hc : StoresRegister c = true) :
    ∃ t, exec c s = .next t ∧ RegistersOnly s t := by
  cases c with
  | ctrlEnableSet =>
    refine ⟨{ s with host := { s.host with enable := true } }, ?_, rfl⟩
    change Host.Outcome.next _ = _
    refine congrArg _ (if_neg ?_)
    change ¬(s.host.device = .offline ∨ s.host.device = .stopped)
    rw [hd]
    decide
  | ctrlEnableClear =>
    refine ⟨{ s with host := { s.host with enable := false } }, ?_, rfl⟩
    change Host.Outcome.next _ = _
    refine congrArg _ (if_neg ?_)
    change ¬s.host.device = .online
    rw [hd]
    decide
  | intCauseWrite value => exact ⟨_, rfl, judged_registers s _ _⟩
  | intMaskWrite value => exact ⟨_, rfl, judged_registers s _ _⟩
  | registerWrite register value =>
    refine ⟨_, rfl, ?_⟩
    cases register with
    | id => exact .refl s
    | state => exact .refl s
    | setupLo => rfl
    | setupHi => rfl
  | _ => cases hc

/-! ### Occasions in HALTED -/

theorem Takes.not_halted (h : Takes s) : s.host.device ≠ .halted := by
  rcases h with h | h <;> rw [h] <;> decide

theorem Writes.not_halted (h : Writes s) : s.host.device ≠ .halted := by
  rcases h with h | h | h | h <;> rw [h] <;> decide

theorem Ticks.not_halted (h : Ticks s) : s.host.device ≠ .halted := by
  rcases h with h | h | h <;> rw [h] <;> decide

theorem Programmed.not_halted {who : Requester} (h : Programmed s who) : s.host.device ≠ .halted := by
  rcases h with h | ⟨_, _, h⟩ <;> exact h.1

theorem Erased.not_halted {who : Requester} (h : Erased s who) : s.host.device ≠ .halted := by
  rcases h with h | h <;> exact h.1

/-- In HALTED there is no occasion but for resets, register writes and the ends of array work. -/
theorem occasion_halted {c : Instr} (hd : s.host.device = .halted) (h : Occasion c s) :
    isReset c = true ∨ StoresRegister c = true ∨ EndsWork c := by
  by_contra hno
  rw [not_or, not_or] at hno
  obtain ⟨hreset, hstores, hends⟩ := hno
  refine absurd hd ?_
  cases c with
  | append => exact Takes.not_halted h.2.1
  | openStream => exact Takes.not_halted h.2.1
  | closeStream => exact Takes.not_halted h.2.1
  | abortRecord => exact Takes.not_halted h.2.1
  | queryStreams => exact Takes.not_halted h.2.1
  | read => exact Takes.not_halted h.1
  | scan => exact Takes.not_halted h.1
  | hold => exact Takes.not_halted h.1
  | release => exact Takes.not_halted h.1
  | queryHolds => exact Takes.not_halted h.1
  | querySectors => exact Takes.not_halted h.1
  | queryStats => exact Takes.not_halted h.1
  | wipe => exact Takes.not_halted h.1
  | ctrlEnableSet => exact absurd rfl hstores
  | ctrlEnableClear => exact absurd rfl hstores
  | softReset left => exact absurd rfl hreset
  | coldReset left => exact absurd rfl hreset
  | ringIndexSubmission ring position => exact Writes.not_halted h
  | ringIndexCompletion position => exact Writes.not_halted h
  | ringIndexNotice position => exact Writes.not_halted h
  | ringIndexBadSelector seven position => exact Writes.not_halted h
  | intCauseWrite value => exact absurd rfl hstores
  | intMaskWrite value => exact absurd rfl hstores
  | registerWrite register value => exact absurd rfl hstores
  | setupReadEnd answer => rw [h.1]; decide
  | fetchBegin => rw [h.1]; decide
  | submissionFetchEnd answer => exact Takes.not_halted h.1
  | postingBegin => exact Writes.not_halted h.1
  | completionWriteEnd ok => exact h.1
  | noticeWriteEnd ok => exact h.1
  | statusWriteBegin => exact Writes.not_halted h.1
  | statusWriteEnd ok => exact h.1
  | drainEnd => rw [show s.host.device = .draining from h]; decide
  | tick => exact Ticks.not_halted h
  | assemblyExpired i => exact Ticks.not_halted h.1
  | sequenceSkipped st => exact Ticks.not_halted h.1
  | transferEnd slot data => exact h.1
  | transferFail slot => exact h.1
  | queueHeadTaken => exact h.1
  | spaceQuestionRetry => exact h.1
  | sectorHeaderProgrammed => exact Programmed.not_halted h.1
  | padProgrammed => exact Programmed.not_halted h.1
  | burstProgrammed => exact Programmed.not_halted h.1
  | commitLineProgrammed => exact Programmed.not_halted h.1
  | reclaimTest => exact h.1
  | eraseEnd => exact Erased.not_halted h.1
  | snapshotProgramEnd => exact Programmed.not_halted h.1
  | rolloverEraseEnd => exact Erased.not_halted h.1
  | readBegin => exact h.1
  | scanBegin => exact h.1
  | readUnitLinesRead =>
    obtain ⟨⟨l, hl, -⟩, -⟩ := h
    exact hl
  | imageWriteEnd ok => exact h.1
  | queryWriteEnd slot ok => exact h.1
  | arrayRequest who => exact h.1
  | arrayOperationEnd elapsed report => exact absurd (.inl ⟨_, _, rfl⟩) hends
  | eraseStopped elapsed => exact absurd (.inr (.inl ⟨_, rfl⟩)) hends
  | eraseResumed elapsed => exact absurd (.inr (.inr (.inl ⟨_, rfl⟩))) hends
  | arrayTimeout elapsed left => exact absurd (.inr (.inr (.inr ⟨_, _, rfl⟩))) hends
  | anchorSlotRead => rw [h.1]; decide
  | mountLineRead => rw [h.1]; decide
  | blankCheckEnd => rw [h.1]; decide

/-- The ends of array work, as `exec` runs them in HALTED and in ONLINE. -/
theorem endsWork_halted {c : Instr} (hd : s.host.device = .halted) (hc : EndsWork c) :
    ∃ t u, exec c s = .next t ∧ exec c (online s) = .next u ∧ WorkEnds s t u := by
  rcases hc with ⟨e, r, rfl⟩ | ⟨e, rfl⟩ | ⟨e, rfl⟩ | ⟨e, l, rfl⟩
  · exact ⟨_, _, rfl, rfl, operationEnded_halted hd e r⟩
  · exact ⟨_, _, rfl, rfl, eraseStopped_halted hd e⟩
  · exact ⟨_, _, rfl, rfl, eraseResumed_halted hd e⟩
  · exact ⟨_, _, rfl, rfl, operationTimedOut_halted hd e l⟩

/-- Settles O7: `exec_after`, `exec_unoccasioned`, and in HALTED the few commands that have an occasion. -/
theorem everyCommandCompletes : Obligations.EveryCommandCompletes := by
  refine ⟨fun c s => ⟨_, exec_after c s⟩, exec_unoccasioned, fun c s hd hreset => ?_⟩
  intro ofArray
  by_cases hends : EndsWork c
  · obtain ⟨t, u, ht, hu, hwork⟩ := endsWork_halted hd hends
    have hhost : t.host = s.host := by rw [hwork.frame]
    refine ⟨t, ht, ?_, fun hno => absurd hends hno, fun _ => ⟨hhost, hwork.ctrl, hwork.operation, hwork.erase,
      ⟨u, hu, hwork.array, hwork.barred⟩, fun hcanon n herase hsector hprogram => hwork.lines hcanon.1 n herase ?_⟩⟩
    · rw [hhost]
      exact hwork.frame
    · rintro who op hop
      exact ⟨fun i hi => hsector who i (hi ▸ hop), fun i first lines hl => hprogram who i first lines (hl ▸ hop)⟩
  · have hregisters : ∃ t, exec c s = .next t ∧ RegistersOnly s t := by
      by_cases hstores : StoresRegister c = true
      · exact stored_registers hd hstores
      · refine ⟨s, exec_unoccasioned c s fun ho => ?_, .refl s⟩
        rcases occasion_halted hd ho with h | h | h
        · rw [hreset] at h; cases h
        · exact hstores h
        · exact hends h
    obtain ⟨t, ht, hframe⟩ := hregisters
    have hrest : t.ctrl = s.ctrl ∧ t.array = s.array ∧ t.barred = s.barred := by
      rw [hframe]
      exact ⟨rfl, rfl, rfl⟩
    obtain ⟨hctrl, harray, hbarred⟩ := hrest
    refine ⟨t, ht, ?_, fun _ => ⟨hctrl, harray, hbarred⟩, fun h => absurd h hends⟩
    rw [hctrl, harray, hbarred]
    exact hframe

end Sys2Proof.Machine
end

section
/-! The journal list and the anchors (R4, R18): what the blocks hold keeps them, block by block. -/

namespace Sys2Proof.Machine

open Sys2Proof.Laws Sys2Proof.Safety

set_option Elab.async false

/-- Sectors 0 and 1 stand apart, and, where `q` asks for it, the journal list is held. -/
structure Held (q : Prop) (s : State) : Prop where
  anchors : AnchorsApart s
  journal : q → JournalHeld s

variable {q : Prop} {l : List Block} {s t u : State}

/-! ### Changes that the journal list does not see -/

/-- A move that begins with every stream CLOSED, in a wipe and with every context FREE, leaves it so. -/
theorem Move.closed {a b : Assembly} (hm : Move s a b) (hw : s.reclaim.wipeActive = true)
    (hc : ∀ j : CtxNo, a.contexts[j] = none) (hs : ∀ st : StreamNo, a.streams[st].state = .closed) :
    (∀ j : CtxNo, b.contexts[j] = none) ∧ ∀ st : StreamNo, b.streams[st].state = .closed := by
  have absurd_some : ∀ {i : CtxNo} {c : Context}, a.contexts[i] ≠ some c := fun {i c} h => by
    rw [hc i] at h
    cases h
  cases hm with
  | quiet h _ _ k => exact ⟨by rw [h]; exact hc, fun st => k st (hs st)⟩
  | opens _ _ _ k => rw [hw] at k; cases k
  | shuts _ _ _ k =>
    obtain ⟨st, hst⟩ := k
    exact absurd (hs st) hst
  | enqueue => exact ⟨hc, hs⟩
  | renew h _ => exact absurd h absurd_some
  | release h _ => exact ⟨set_none _ hc, hs⟩
  | @accept f i c h _ _ =>
    have hclosed : streamRefusal a.streams[f.stream] f.seq = some .streamClosed := by
      unfold streamRefusal
      exact if_pos (by rw [hs f.stream]; decide)
    rw [appendVerdict, hclosed] at h
    split at h
    · cases h
    · cases h
  | uncover h _ => exact absurd h absurd_some

theorem Moves.closed (hm : Moves s t) (hw : s.reclaim.wipeActive = true)
    (hc : ∀ j : CtxNo, s.assembly.contexts[j] = none) (hs : ∀ st : StreamNo, s.assembly.streams[st].state = .closed) :
    (∀ j : CtxNo, t.assembly.contexts[j] = none) ∧ ∀ st : StreamNo, t.assembly.streams[st].state = .closed := by
  unfold Moves at hm
  generalize t.assembly = b at hm
  induction hm with
  | refl => exact ⟨hc, hs⟩
  | tail _ hm ih => exact hm.closed hw ih.1 ih.2

theorem Moves.contexts_none (hm : Moves s t) (hn : ¬Gathers s) (j : CtxNo) : t.assembly.contexts[j] = none := by
  by_contra hj
  obtain ⟨c, hc⟩ := Option.ne_none_iff_exists'.mp hj
  exact hn (hm.gathers hc)

theorem not_gathers (hd : s.host.device ≠ .online ∧ s.host.device ≠ .draining)
    (hc : ∀ j : CtxNo, s.assembly.contexts[j] = none) : ¬Gathers s := by
  rintro (h | ⟨i, c, h⟩)
  · simp [State.takesCommands, hd.1, hd.2] at h
  · rw [hc i] at h
    cases h

/-- The device state may become `d`: ONLINE and DRAINING only mounted, MOUNTING only unmounted. -/
structure Enters (m : Mount) (d : DeviceState) : Prop where
  mounted : d = .online ∨ d = .draining → m.mounted = true
  unmounted : d = .mounting → m.mounted = false

theorem enters_of (h : JournalHeld s) : Enters s.mount s.host.device where
  mounted := fun hd => by
    by_contra hm
    obtain ⟨h1, h2, _⟩ := h.unmounted (by simpa using hm)
    exact hd.elim h1 h2
  unmounted := h.mounting

/-- What moves of contexts and blocks, and a change of the device state, leave of the journal list. -/
theorem Held.device (h : Held q t) (hm : Moves t u) (hf : Frame l t u) (hd : q → Enters t.mount u.host.device)
    (hp : Block.program ∉ l := by simp) (he : Block.erasing ∉ l := by simp) (hs : Block.sectors ∉ l := by simp)
    (hc : Block.scan ∉ l := by simp) : Held q u := by
  have program := hf.program hp
  have erasing := hf.erasing he
  have journal := (hf.sectors hs).journal
  have entry := (hf.sectors hs).entries
  have scan := hf.scan hc
  refine ⟨?_, fun hq => ?_⟩
  · have a := h.anchors
    exact {
      anchors := fun i => by rw [(entry i).state]; exact a.anchors i
      journal := fun i hi => a.journal i (journal ▸ hi)
      inHand := fun i hi => a.inHand i (program.sectorInHand ▸ hi)
      placement := fun pl hpl => a.placement pl (program.placement ▸ hpl)
      erase := fun i hi => a.erase i (erasing.erase ▸ hi)
      findings := fun i hi => a.findings i (by rw [← scan.findings]; exact hi)
      scan := fun i hi => a.scan i (scan.position ▸ hi) }
  · have j := h.journal hq
    have rest : NoRecords t → ¬Gathers t → NoRecords u := fun hn hg =>
      ⟨program.state.trans hn.1, hm.contexts_none hg⟩
    exact {
      nodup := journal ▸ j.nodup
      members := fun i => by rw [journal, (entry i).state]; exact j.members i
      openLast := fun i hi => by rw [journal]; exact j.openLast i ((entry i).state ▸ hi)
      epochs := fun i hi => by
        obtain ⟨e, he, hlt⟩ := j.epochs i (journal ▸ hi)
        exact ⟨e, (entry i).epoch.trans he, by rw [program.nextEpoch]; exact hlt⟩
      rising := by
        rw [journal]
        refine j.rising.imp fun {i k} hik a b ha hb => ?_
        exact hik a b ((entry i).epoch ▸ ha) ((entry k).epoch ▸ hb)
      ranges := fun i hi a b hab => by
        rw [program.nextJsn]
        exact j.ranges i (journal ▸ hi) a b ((entry i).range ▸ hab)
      apart := by
        rw [journal]
        refine j.apart.imp fun {i k} hik a b c d hab hcd => ?_
        exact hik a b c d ((entry i).range ▸ hab) ((entry k).range ▸ hcd)
      opening := fun ho => by rw [program.nextEpoch]; exact j.opening (program.state ▸ ho)
      hand := fun i hi => by
        obtain ⟨hst, hfree⟩ := j.hand i (program.sectorInHand ▸ hi)
        exact ⟨program.state.trans hst, (entry i).state.trans hfree⟩
      header := fun e he => by
        obtain ⟨hst, hlt, hall⟩ := j.header e (program.headerEpoch ▸ he)
        refine ⟨program.state.trans hst, by rw [program.nextEpoch]; exact hlt, fun i hi a ha => ?_⟩
        exact hall i (journal ▸ hi) a ((entry i).epoch ▸ ha)
      placed := fun pl hpl => by
        obtain ⟨hst, ho⟩ := j.placed pl (program.placement ▸ hpl)
        exact ⟨by rw [program.state]; exact hst, (entry _).state.trans ho⟩
      erasing := fun i hi => (entry i).state.trans (j.erasing i (erasing.erase ▸ hi))
      wiping := fun hw => by rw [erasing.wipeActive]; exact j.wiping (erasing.state ▸ hw)
      wipe := fun hw => by
        have hw := erasing.wipeActive ▸ hw
        obtain ⟨hj, hn, hst⟩ := j.wipe hw
        obtain ⟨hnone, hclosed⟩ := hm.closed hw hn.2 hst
        exact ⟨journal.trans hj, ⟨program.state.trans hn.1, hnone⟩, hclosed⟩
      unmounted := fun hmount => by
        have hmount := scan.mounted ▸ hmount
        obtain ⟨h1, h2, hn, he, hw⟩ := j.unmounted hmount
        have hdev : ¬(u.host.device = .online ∨ u.host.device = .draining) := fun hd' => by
          have := (hd hq).mounted hd'
          rw [hmount] at this
          cases this
        exact ⟨fun h => hdev (.inl h), fun h => hdev (.inr h), rest hn (not_gathers ⟨h1, h2⟩ hn.2),
          erasing.erase.trans he, erasing.wipeActive.trans hw⟩
      mounting := fun hd' => by rw [scan.mounted]; exact (hd hq).unmounted hd'
      findings := fun i w e p hi => j.findings i w e p (by rw [← scan.findings]; exact hi)
      scan := fun w hw => j.scan w (scan.position ▸ hw) }

/-- What moves of contexts and blocks leave of the journal list. -/
theorem Held.moves (h : Held q t) (hm : Moves t u) (hf : Frame l t u) (hd : Block.device ∉ l := by simp)
    (hp : Block.program ∉ l := by simp) (he : Block.erasing ∉ l := by simp) (hs : Block.sectors ∉ l := by simp)
    (hc : Block.scan ∉ l := by simp) : Held q u :=
  h.device hm hf (fun hq => by rw [hf.device hd]; exact enters_of (h.journal hq)) hp he hs hc

/-- What the journal list does not see. -/
theorem Held.frame (h : Held q t) (hf : Frame l t u) (ha : Block.assembly ∉ l := by simp)
    (hd : Block.device ∉ l := by simp) (hp : Block.program ∉ l := by simp) (he : Block.erasing ∉ l := by simp)
    (hs : Block.sectors ∉ l := by simp) (hc : Block.scan ∉ l := by simp) : Held q u :=
  h.moves (Moves.refl.frame hf ha) hf hd hp he hs hc

theorem Held.ite {p : Prop} [Decidable p] (h : Held q t) (k : Held q u) : Held q (if p then t else u) := by
  split
  · exact h
  · exact k

/-! ### The Journal Writer's place -/

/-- Nothing may be written or assembled: the part is not mounted, or a wipe is active. -/
def Barred (s : State) : Prop := s.mount.mounted = false ∨ s.reclaim.wipeActive = true

theorem noRecords_of (j : JournalHeld t) (hb : Barred t) : NoRecords t := by
  rcases hb with hm | hw
  · exact (j.unmounted hm).2.2.1
  · exact (j.wipe hw).2.1

/-- Where the writer is at work nothing is barred. -/
theorem not_barred (j : JournalHeld t) (hs : t.writer.state ≠ .idle) : ¬Barred t := fun hb => hs (noRecords_of j hb).1

/-- What a change of the Journal Writer must keep for the journal list: its numbers do not fall. -/
structure WriterHeld (t : State) (w : Writer) : Prop where
  epoch : t.writer.nextEpoch.getD 0 ≤ w.nextEpoch.getD 0
  jsn : t.writer.nextJsn.getD 0 ≤ w.nextJsn.getD 0
  opening : w.state = .opening → w.nextEpoch ≠ none
  hand : ∀ i, w.sectorInHand = some i → w.state = .opening ∧ t.table.entries[i].state = .free
  header : ∀ e, w.headerEpoch = some e → w.state = .opening ∧ e < w.nextEpoch.getD 0 ∧
    ∀ i ∈ t.table.journal, ∀ a, t.table.entries[i].epoch = some a → a < e
  placed : ∀ pl, w.placement = some pl → (w.state = .writing ∨ w.state = .committing) ∧
    t.table.entries[pl.sector].state = .opened
  idle : Barred t → w.state = .idle

theorem Held.onWriter {f : Writer → Writer} (h : Held q t)
    (hi : ∀ i, (f t.writer).sectorInHand = some i → IsJournal i)
    (hp : ∀ pl, (f t.writer).placement = some pl → IsJournal pl.sector)
    (hw : q → WriterHeld t (f t.writer)) : Held q (t.onWriter f) where
  anchors := { h.anchors with inHand := hi, placement := hp }
  journal := fun hq => by
    have j := h.journal hq
    have w := hw hq
    have rest : Barred t → NoRecords (t.onWriter f) := fun hb => ⟨w.idle hb, (noRecords_of j hb).2⟩
    exact { j with
      epochs := fun i hi => by
        obtain ⟨e, he, hlt⟩ := j.epochs i hi
        exact ⟨e, he, hlt.trans_le w.epoch⟩
      ranges := fun i hi a b hab => (j.ranges i hi a b hab).imp_right fun hlt => hlt.trans_le w.jsn
      opening := w.opening
      hand := w.hand
      header := w.header
      placed := w.placed
      wipe := fun hwipe => by
        obtain ⟨hj, -, hst⟩ := j.wipe hwipe
        exact ⟨hj, rest (.inr hwipe), hst⟩
      unmounted := fun hm => by
        obtain ⟨h1, h2, -, he, hwipe⟩ := j.unmounted hm
        exact ⟨h1, h2, rest (.inl hm), he, hwipe⟩ }

/-- The Journal Writer as it stands. -/
theorem writerHeld_of (j : JournalHeld t) : WriterHeld t t.writer :=
  ⟨le_rfl, le_rfl, j.opening, j.hand, j.header, j.placed, fun hb => (noRecords_of j hb).1⟩

/-- The writer lets go of its sectors and goes to a state in which none is in hand. -/
theorem Held.letsGo {f : Writer → Writer} (h : Held q t) (hs : (f t.writer).sectorInHand = none)
    (hp : (f t.writer).placement = none) (hh : (f t.writer).headerEpoch = none)
    (he : (f t.writer).nextEpoch = t.writer.nextEpoch) (hj : (f t.writer).nextJsn = t.writer.nextJsn)
    (ho : (f t.writer).state = .opening → t.writer.state = .opening)
    (hi : q → Barred t → (f t.writer).state = .idle) : Held q (t.onWriter f) :=
  h.onWriter (fun i hi => by rw [hs] at hi; cases hi) (fun pl hpl => by rw [hp] at hpl; cases hpl) fun hq =>
    { epoch := by rw [he]
      jsn := by rw [hj]
      opening := fun hst => by rw [he]; exact (h.journal hq).opening (ho hst)
      hand := fun i hi => by rw [hs] at hi; cases hi
      header := fun e he => by rw [hh] at he; cases he
      placed := fun pl hpl => by rw [hp] at hpl; cases hpl
      idle := hi hq }

/-! ### The Reclaim Unit's erase and wipe -/

/-- What a change of the Reclaim Unit must keep for the journal list. -/
structure ReclaimHeld (t : State) (r : Reclaim) : Prop where
  erasing : ∀ i, r.erase = some i → t.table.entries[i].state = .erasing
  wiping : r.state = .wiping → r.wipeActive = true
  wipe : r.wipeActive = true → t.table.journal = [] ∧ NoRecords t ∧
    ∀ st : StreamNo, t.assembly.streams[st].state = .closed
  unmounted : t.mount.mounted = false → r.erase = none ∧ r.wipeActive = false

theorem Held.onReclaim {f : Reclaim → Reclaim} (h : Held q t) (he : ∀ i, (f t.reclaim).erase = some i → IsJournal i)
    (hr : q → ReclaimHeld t (f t.reclaim)) : Held q (t.onReclaim f) where
  anchors := { h.anchors with erase := he }
  journal := fun hq => by
    have j := h.journal hq
    have r := hr hq
    exact { j with
      erasing := r.erasing
      wiping := r.wiping
      wipe := r.wipe
      unmounted := fun hm => by
        obtain ⟨h1, h2, hn, _, _⟩ := j.unmounted hm
        exact ⟨h1, h2, hn, r.unmounted hm⟩ }

theorem reclaimHeld_of (j : JournalHeld t) : ReclaimHeld t t.reclaim where
  erasing := j.erasing
  wiping := j.wiping
  wipe := j.wipe
  unmounted := fun hm => (j.unmounted hm).2.2.2

/-! ### The mount -/

theorem Held.onMount {f : Mount → Mount} (h : Held q t) (hm : (f t.mount).mounted = t.mount.mounted)
    (hf : ∀ i : SectorNo, isValid (f t.mount).findings[i] = true → IsJournal i)
    (hp : ∀ i, scanned (f t.mount).position = some i → IsJournal i)
    (hw : q → ∀ (i : SectorNo) w e p, (f t.mount).findings[i] = .valid w e p → Walk.counted w)
    (hs : q → ∀ w, walking (f t.mount).position = some w → Walk.counted w) : Held q (t.onMount f) where
  anchors := { h.anchors with findings := hf, scan := hp }
  journal := fun hq => { h.journal hq with
    unmounted := fun hmount => (h.journal hq).unmounted (hm.symm.trans hmount)
    mounting := fun hd => hm.trans ((h.journal hq).mounting hd)
    findings := hw hq
    scan := hs hq }

/-! ### The Sector Table -/

/-- What a change of the Sector Table must keep for the journal list. -/
structure TableHeld (s : State) (t : SectorTable) : Prop where
  nodup : t.journal.Nodup
  members : ∀ i : SectorNo, i ∈ t.journal ↔ (t.entries[i].state = .opened ∨ t.entries[i].state = .closed)
  openLast : ∀ i : SectorNo, t.entries[i].state = .opened → t.journal.getLast? = some i
  epochs : ∀ i ∈ t.journal, ∃ e, t.entries[i].epoch = some e ∧ e < s.writer.nextEpoch.getD 0
  rising : t.journal.Pairwise fun i j => ∀ a b, t.entries[i].epoch = some a → t.entries[j].epoch = some b → a < b
  ranges : ∀ i ∈ t.journal, ∀ a b, t.entries[i].range = some (a, b) → a ≤ b ∧ b < s.writer.nextJsn.getD 0
  apart : t.journal.Pairwise fun i j => ∀ a b c d, t.entries[i].range = some (a, b) →
    t.entries[j].range = some (c, d) → b < c
  hand : ∀ i, s.writer.sectorInHand = some i → t.entries[i].state = .free
  header : ∀ e, s.writer.headerEpoch = some e → ∀ i ∈ t.journal, ∀ a, t.entries[i].epoch = some a → a < e
  placed : ∀ pl, s.writer.placement = some pl → t.entries[pl.sector].state = .opened
  erasing : ∀ i, s.reclaim.erase = some i → t.entries[i].state = .erasing
  wipe : s.reclaim.wipeActive = true → t.journal = []

theorem Held.onTable {f : SectorTable → SectorTable} (h : Held q s)
    (ha : ∀ i : SectorNo, (f s.table).entries[i].state = .anchor ↔ i.val < 2)
    (hj : ∀ i ∈ (f s.table).journal, IsJournal i) (ht : q → TableHeld s (f s.table)) : Held q (s.onTable f) where
  anchors := { h.anchors with anchors := ha, journal := hj }
  journal := fun hq => by
    have j := h.journal hq
    have t := ht hq
    exact { j with
      nodup := t.nodup
      members := t.members
      openLast := t.openLast
      epochs := t.epochs
      rising := t.rising
      ranges := t.ranges
      apart := t.apart
      hand := fun i hi => ⟨(j.hand i hi).1, t.hand i hi⟩
      header := fun e he => ⟨(j.header e he).1, (j.header e he).2.1, t.header e he⟩
      placed := fun pl hpl => ⟨(j.placed pl hpl).1, t.placed pl hpl⟩
      erasing := t.erasing
      wipe := fun hw => ⟨t.wipe hw, (j.wipe hw).2⟩ }

end Sys2Proof.Machine
end

section
/-! The claims of the Sector Table keep the journal list (R18, R22, R23, R25, R31 to R34). -/

namespace Sys2Proof.Machine

open Sys2Proof.Laws Sys2Proof.Safety

variable {q : Prop} {s t : State} {i : SectorNo} {f : SectorEntry → SectorEntry}

/-- A journal sector is not ANCHOR, so neither may it become one. -/
theorem anchors_tableMod (h : AnchorsApart s) (hi : IsJournal i) (hf : (f s.table.entries[i]).state ≠ .anchor)
    (k : SectorNo) : (tableMod s.table.entries i f)[k].state = .anchor ↔ k.val < 2 := by
  by_cases hk : k = i
  · subst hk
    rw [tableMod_get_self]
    exact ⟨fun ha => absurd ha hf, fun hlt => absurd hlt (Nat.not_lt.mpr hi)⟩
  · rw [tableMod_get_ne _ _ _ _ hk]
    exact h.anchors k

theorem journal_of_not_anchor (h : AnchorsApart s) (hs : s.table.entries[i].state ≠ .anchor) : IsJournal i :=
  Nat.not_lt.mp (mt (h.anchors i).mpr hs)

/-! ### Sectors that leave the list, and sectors that are not on it -/

theorem getLast?_filter_ne {l : List SectorNo} {k : SectorNo} (h : l.getLast? = some k) (hk : k ≠ i) :
    (l.filter fun x => x != i).getLast? = some k := by
  obtain ⟨init, rfl⟩ := List.getLast?_eq_some_iff.mp h
  rw [List.filter_append, List.filter_cons_of_pos (by simpa using hk), List.filter_nil]
  exact List.getLast?_concat

/-- A sector that is not OPEN leaves the list, for a state that is none of a member's. -/
theorem Held.leaves (h : Held q s) (hi : IsJournal i) (ha : (f s.table.entries[i]).state ≠ .anchor)
    (ho : (f s.table.entries[i]).state ≠ .opened) (hc : (f s.table.entries[i]).state ≠ .closed)
    (hold : q → s.table.entries[i].state ≠ .opened) (hhand : q → s.writer.sectorInHand ≠ some i)
    (herase : q → s.reclaim.erase = some i → (f s.table.entries[i]).state = .erasing) :
    Held q (s.onTable fun t => { t with
      entries := tableMod t.entries i f, journal := t.journal.filter fun k => k != i }) := by
  have hmem {k : SectorNo} : k ∈ s.table.journal.filter (fun x => x != i) ↔ k ∈ s.table.journal ∧ k ≠ i := by
    rw [List.mem_filter, bne_iff_ne]
  have hother {k : SectorNo} (hk : k ≠ i) : (tableMod s.table.entries i f)[k] = s.table.entries[k] :=
    tableMod_get_ne _ _ _ _ hk
  refine h.onTable (anchors_tableMod h.anchors hi ha) (fun k hk => h.anchors.journal k (hmem.mp hk).1) fun hq => ?_
  have j := h.journal hq
  exact {
    nodup := j.nodup.filter _
    members := fun k => by
      rw [hmem]
      by_cases hk : k = i
      · subst hk
        rw [tableMod_get_self]
        exact ⟨fun hx => absurd rfl hx.2, fun hx => hx.elim (absurd · ho) (absurd · hc)⟩
      · rw [hother hk, ← j.members k]
        exact and_iff_left hk
    openLast := fun k hs => by
      by_cases hk : k = i
      · subst hk
        rw [tableMod_get_self] at hs
        exact absurd hs ho
      · rw [hother hk] at hs
        exact getLast?_filter_ne (j.openLast k hs) hk
    epochs := fun k hk => by
      rw [hother (hmem.mp hk).2]
      exact j.epochs k (hmem.mp hk).1
    rising := (j.rising.filter _).imp_of_mem fun ha hb hab => by
      rw [hother (hmem.mp ha).2, hother (hmem.mp hb).2]
      exact hab
    ranges := fun k hk => by
      rw [hother (hmem.mp hk).2]
      exact j.ranges k (hmem.mp hk).1
    apart := (j.apart.filter _).imp_of_mem fun ha hb hab => by
      rw [hother (hmem.mp ha).2, hother (hmem.mp hb).2]
      exact hab
    hand := fun k hk => by
      rw [hother fun he => hhand hq (he ▸ hk)]
      exact (j.hand k hk).2
    header := fun e he k hk => by
      rw [hother (hmem.mp hk).2]
      exact (j.header e he).2.2 k (hmem.mp hk).1
    placed := fun pl hpl => by
      have hopen := (j.placed pl hpl).2
      rw [hother fun he => hold hq (he ▸ hopen)]
      exact hopen
    erasing := fun k hk => by
      by_cases hki : k = i
      · subst hki
        rw [tableMod_get_self]
        exact herase hq hk
      · rw [hother hki]
        exact j.erasing k hk
    wipe := fun hw => by
      change s.table.journal.filter _ = []
      rw [(j.wipe hw).1]
      rfl }

/-- A sector that is no member takes a state that is none of a member's. -/
theorem Held.outside (h : Held q s) (hi : IsJournal i) (ha : (f s.table.entries[i]).state ≠ .anchor)
    (ho : (f s.table.entries[i]).state ≠ .opened) (hc : (f s.table.entries[i]).state ≠ .closed)
    (hold : q → s.table.entries[i].state ≠ .opened ∧ s.table.entries[i].state ≠ .closed)
    (hhand : q → s.writer.sectorInHand ≠ some i)
    (herase : q → s.reclaim.erase = some i → (f s.table.entries[i]).state = .erasing) : Held q (modEntry i f s) := by
  by_cases hjournal : i ∈ s.table.journal
  · refine h.onTable (anchors_tableMod h.anchors hi ha) h.anchors.journal fun hq => ?_
    obtain ⟨hno, hnc⟩ := hold hq
    exact absurd (((h.journal hq).members i).mp hjournal) (not_or.mpr ⟨hno, hnc⟩)
  · have hfilter : (s.table.journal.filter fun k => k != i) = s.table.journal :=
      List.filter_eq_self.mpr fun k hk => bne_iff_ne.mpr fun he => hjournal (he ▸ hk)
    have hsame : (s.onTable fun t => { t with
        entries := tableMod t.entries i f, journal := t.journal.filter fun k => k != i }) = modEntry i f s := by
      simp only [State.onTable, hfilter]
      rfl
    exact hsame ▸ h.leaves hi ha ho hc (fun hq => (hold hq).1) hhand herase

/-! ### Closing and extending (R25) -/

/-- A change of one entry that keeps its place in the list: an OPEN sector may be closed. -/
theorem Held.closes (h : Held q s) (hi : IsJournal i) (hc : (f s.table.entries[i]).state = .closed)
    (he : (f s.table.entries[i]).epoch = s.table.entries[i].epoch)
    (hr : (f s.table.entries[i]).range = s.table.entries[i].range)
    (hold : q → s.table.entries[i].state = .opened) (hplace : q → s.writer.placement = none) :
    Held q (modEntry i f s) := by
  have hother {k : SectorNo} (hk : k ≠ i) : (tableMod s.table.entries i f)[k] = s.table.entries[k] :=
    tableMod_get_ne _ _ _ _ hk
  have hepoch (k : SectorNo) : (tableMod s.table.entries i f)[k].epoch = s.table.entries[k].epoch := by
    by_cases hk : k = i
    · subst hk
      rw [tableMod_get_self]
      exact he
    · rw [hother hk]
  have hrange (k : SectorNo) : (tableMod s.table.entries i f)[k].range = s.table.entries[k].range := by
    by_cases hk : k = i
    · subst hk
      rw [tableMod_get_self]
      exact hr
    · rw [hother hk]
  refine h.onTable (anchors_tableMod h.anchors hi (by rw [hc]; decide)) h.anchors.journal fun hq => ?_
  have j := h.journal hq
  have hopen := hold hq
  exact {
    nodup := j.nodup
    members := fun k => by
      rw [j.members k]
      by_cases hk : k = i
      · subst hk
        rw [tableMod_get_self, hc, hopen]
        decide
      · rw [hother hk]
    openLast := fun k hs => by
      by_cases hk : k = i
      · subst hk
        rw [tableMod_get_self, hc] at hs
        cases hs
      · rw [hother hk] at hs
        exact j.openLast k hs
    epochs := fun k hk => by
      rw [hepoch]
      exact j.epochs k hk
    rising := j.rising.imp fun hab => by
      rw [hepoch, hepoch]
      exact hab
    ranges := fun k hk => by
      rw [hrange]
      exact j.ranges k hk
    apart := j.apart.imp fun hab => by
      rw [hrange, hrange]
      exact hab
    hand := fun k hk => by
      have hfree := (j.hand k hk).2
      have hki : k ≠ i := fun heq => by rw [heq, hopen] at hfree; cases hfree
      rw [hother hki]
      exact hfree
    header := fun e he k hk => by
      rw [hepoch]
      exact (j.header e he).2.2 k hk
    placed := fun pl hpl => by rw [hplace hq] at hpl; cases hpl
    erasing := fun k hk => by
      have herasing := j.erasing k hk
      have hki : k ≠ i := fun heq => by rw [heq, hopen] at herasing; cases herasing
      rw [hother hki]
      exact herasing
    wipe := fun hw => (j.wipe hw).1 }

/-- The OPEN sector's range grows to a JSN above every other. -/
theorem Held.extends {jsn : Nat} (h : Held q s) (hs : (f s.table.entries[i]).state = s.table.entries[i].state)
    (he : (f s.table.entries[i]).epoch = s.table.entries[i].epoch)
    (hr : (f s.table.entries[i]).range = match s.table.entries[i].range with
      | none => some (jsn, jsn)
      | some (first, _) => some (first, jsn))
    (hold : q → s.table.entries[i].state = .opened) (hjsn : q → jsn < s.writer.nextJsn.getD 0)
    (habove : q → ∀ k ∈ s.table.journal, ∀ a b, s.table.entries[k].range = some (a, b) → b < jsn) :
    Held q (modEntry i f s) := by
  have hother {k : SectorNo} (hk : k ≠ i) : (tableMod s.table.entries i f)[k] = s.table.entries[k] :=
    tableMod_get_ne _ _ _ _ hk
  have hstate (k : SectorNo) : (tableMod s.table.entries i f)[k].state = s.table.entries[k].state := by
    by_cases hk : k = i
    · subst hk
      rw [tableMod_get_self]
      exact hs
    · rw [hother hk]
  have hepoch (k : SectorNo) : (tableMod s.table.entries i f)[k].epoch = s.table.entries[k].epoch := by
    by_cases hk : k = i
    · subst hk
      rw [tableMod_get_self]
      exact he
    · rw [hother hk]
  refine h.onTable (fun k => by rw [hstate]; exact h.anchors.anchors k) h.anchors.journal fun hq => ?_
  have j := h.journal hq
  obtain ⟨init, hsplit⟩ := List.getLast?_eq_some_iff.mp (j.openLast i (hold hq))
  have hnew {a b : Nat} (hab : (tableMod s.table.entries i f)[i].range = some (a, b)) : b = jsn ∧
      (a = jsn ∨ ∃ last, s.table.entries[i].range = some (a, last)) := by
    rw [tableMod_get_self, hr] at hab
    split at hab
    next => cases hab; exact ⟨rfl, .inl rfl⟩
    next first last hrange => cases hab; exact ⟨rfl, .inr ⟨last, hrange⟩⟩
  have hmember : i ∈ s.table.journal := (j.members i).mpr (.inl (hold hq))
  have hinit {k : SectorNo} (hk : k ∈ init) : k ≠ i ∧ k ∈ s.table.journal := by
    have hnodup := j.nodup
    rw [hsplit] at hnodup
    refine ⟨fun heq => ?_, by rw [hsplit]; exact List.mem_append_left _ hk⟩
    exact (List.nodup_append.mp hnodup).2.2 k hk i (List.mem_singleton_self i) heq
  exact {
    nodup := j.nodup
    members := fun k => by
      rw [hstate]
      exact j.members k
    openLast := fun k hk => j.openLast k ((hstate k).symm.trans hk)
    epochs := fun k hk => by
      rw [hepoch]
      exact j.epochs k hk
    rising := j.rising.imp fun hab => by
      rw [hepoch, hepoch]
      exact hab
    ranges := fun k hk a b hab => by
      by_cases hki : k = i
      · subst hki
        obtain ⟨rfl, ha⟩ := hnew hab
        refine ⟨?_, hjsn hq⟩
        rcases ha with rfl | ⟨last, hlast⟩
        · exact Nat.le_refl _
        · have hle := (j.ranges k hk a last hlast).1
          have hlt := habove hq k hk a last hlast
          omega
      · rw [hother hki] at hab
        exact j.ranges k hk a b hab
    apart := by
      have hpairs := j.apart
      change s.table.journal.Pairwise _
      rw [hsplit] at hpairs ⊢
      obtain ⟨hfirst, -, hlast⟩ := List.pairwise_append.mp hpairs
      refine List.pairwise_append.mpr ⟨hfirst.imp_of_mem fun ha hb hab => ?_, List.pairwise_singleton .., ?_⟩
      · rw [hother (hinit ha).1, hother (hinit hb).1]
        exact hab
      · intro x hx y hy a b c d hab hcd
        obtain rfl := List.mem_singleton.mp hy
        rw [hother (hinit hx).1] at hab
        obtain ⟨-, hc⟩ := hnew hcd
        rcases hc with rfl | ⟨last, hrange⟩
        · exact habove hq x (hinit hx).2 a b hab
        · exact hlast x hx y hy a b c last hab hrange
    hand := fun k hk => (hstate k).trans (j.hand k hk).2
    header := fun e he k hk => by
      rw [hepoch]
      exact (j.header e he).2.2 k hk
    placed := fun pl hpl => (hstate _).trans (j.placed pl hpl).2
    erasing := fun k hk => (hstate k).trans (j.erasing k hk)
    wipe := fun hw => (j.wipe hw).1 }

/-! ### Opening (R22) -/

/-- With no OPEN sector, a FREE one that nothing has in hand is opened at the end of the list, with an epoch above
every other. -/
theorem Held.opens {epoch : Nat} (h : Held q s) (hi : IsJournal i) (ho : (f s.table.entries[i]).state = .opened)
    (he : (f s.table.entries[i]).epoch = some epoch) (hr : (f s.table.entries[i]).range = none)
    (hnone : ∀ k : SectorNo, s.table.entries[k].state ≠ .opened) (hfree : q → s.table.entries[i].state = .free)
    (hhand : q → s.writer.sectorInHand = none) (hheader : q → s.writer.headerEpoch = none)
    (hwipe : q → s.reclaim.wipeActive = false) (hnext : q → epoch < s.writer.nextEpoch.getD 0)
    (habove : q → ∀ k ∈ s.table.journal, ∀ a, s.table.entries[k].epoch = some a → a < epoch) :
    Held q (s.onTable fun t => { t with entries := tableMod t.entries i f, journal := t.journal ++ [i] }) := by
  have hother {k : SectorNo} (hk : k ≠ i) : (tableMod s.table.entries i f)[k] = s.table.entries[k] :=
    tableMod_get_ne _ _ _ _ hk
  have hown : (tableMod s.table.entries i f)[i] = f s.table.entries[i] := tableMod_get_self ..
  refine h.onTable (anchors_tableMod h.anchors hi (by rw [ho]; decide)) (fun k hk => ?_) fun hq => ?_
  · rcases List.mem_append.mp hk with hk | hk
    · exact h.anchors.journal k hk
    · exact List.mem_singleton.mp hk ▸ hi
  have j := h.journal hq
  have houtside : i ∉ s.table.journal := fun hx => by
    have hs := (j.members i).mp hx
    rw [hfree hq] at hs
    rcases hs with hs | hs <;> cases hs
  have hne {k : SectorNo} (hk : k ∈ s.table.journal) : k ≠ i := fun heq => houtside (heq ▸ hk)
  exact {
    nodup := List.nodup_append.mpr ⟨j.nodup, List.nodup_singleton i, fun a ha b hb => by
      rw [List.mem_singleton.mp hb]
      exact hne ha⟩
    members := fun k => by
      rw [List.mem_append, List.mem_singleton]
      by_cases hk : k = i
      · subst hk
        rw [hown, ho]
        simp
      · rw [hother hk, j.members k]
        simp [hk]
    openLast := fun k hs => by
      by_cases hk : k = i
      · subst hk
        exact List.getLast?_concat
      · rw [hother hk] at hs
        exact absurd hs (hnone k)
    epochs := fun k hk => by
      rcases List.mem_append.mp hk with hk | hk
      · rw [hother (hne hk)]
        exact j.epochs k hk
      · rw [List.mem_singleton.mp hk, hown, he]
        exact ⟨epoch, rfl, hnext hq⟩
    rising := by
      refine List.pairwise_append.mpr ⟨j.rising.imp_of_mem fun ha hb hab => ?_, List.pairwise_singleton .., ?_⟩
      · rw [hother (hne ha), hother (hne hb)]
        exact hab
      · intro x hx y hy a b hxa hyb
        rw [hother (hne hx)] at hxa
        rw [List.mem_singleton.mp hy, hown, he] at hyb
        cases hyb
        exact habove hq x hx a hxa
    ranges := fun k hk a b hab => by
      rcases List.mem_append.mp hk with hk | hk
      · rw [hother (hne hk)] at hab
        exact j.ranges k hk a b hab
      · rw [List.mem_singleton.mp hk, hown, hr] at hab
        cases hab
    apart := by
      refine List.pairwise_append.mpr ⟨j.apart.imp_of_mem fun ha hb hab => ?_, List.pairwise_singleton .., ?_⟩
      · rw [hother (hne ha), hother (hne hb)]
        exact hab
      · intro x hx y hy a b c d hab hcd
        rw [List.mem_singleton.mp hy, hown, hr] at hcd
        cases hcd
    hand := fun k hk => by rw [hhand hq] at hk; cases hk
    header := fun e hx => by rw [hheader hq] at hx; cases hx
    placed := fun pl hpl => absurd (j.placed pl hpl).2 (hnone pl.sector)
    erasing := fun k hk => by
      have herasing := j.erasing k hk
      have hki : k ≠ i := fun heq => by rw [heq, hfree hq] at herasing; cases herasing
      rw [hother hki]
      exact herasing
    wipe := fun hw => by rw [hwipe hq] at hw; cases hw }

/-! ### A wipe (R34) -/

/-- The list is emptied, its members in a state that is none of a member's. -/
theorem Held.empties {entries : Vector SectorEntry 256} (h : Held q s)
    (hin : ∀ k ∈ s.table.journal, entries[k].state = .dirty)
    (hout : ∀ k : SectorNo, k ∉ s.table.journal → entries[k].state = s.table.entries[k].state)
    (hhand : q → s.writer.sectorInHand = none) (hplace : q → s.writer.placement = none) :
    Held q (s.onTable fun t => { t with entries := entries, journal := [] }) := by
  refine h.onTable (fun k => ?_) nofun fun hq => ?_
  · change entries[k].state = .anchor ↔ k.val < 2
    by_cases hk : k ∈ s.table.journal
    · rw [hin k hk]
      have hj : 2 ≤ k.val := h.anchors.journal k hk
      exact ⟨nofun, fun hlt => absurd hlt (Nat.not_lt.mpr hj)⟩
    · rw [hout k hk]
      exact h.anchors.anchors k
  have j := h.journal hq
  have hnone (k : SectorNo) : entries[k].state ≠ .opened ∧ entries[k].state ≠ .closed := by
    by_cases hk : k ∈ s.table.journal
    · rw [hin k hk]
      decide
    · rw [hout k hk]
      exact not_or.mp (mt (j.members k).mpr hk)
  exact {
    nodup := List.nodup_nil
    members := fun k => ⟨nofun, fun hs => hs.elim (absurd · (hnone k).1) (absurd · (hnone k).2)⟩
    openLast := fun k hs => absurd hs (hnone k).1
    epochs := nofun
    rising := .nil
    ranges := nofun
    apart := .nil
    hand := fun k hk => by rw [hhand hq] at hk; cases hk
    header := fun _ _ => nofun
    placed := fun pl hpl => by rw [hplace hq] at hpl; cases hpl
    erasing := fun k hk => by
      have herasing := j.erasing k hk
      have hk : k ∉ s.table.journal := fun hx => by
        have hs := (j.members k).mp hx
        rw [herasing] at hs
        rcases hs with hs | hs <;> cases hs
      exact (hout k hk).trans herasing
    wipe := fun _ => rfl }

end Sys2Proof.Machine
end

section
/-! The Journal Writer keeps the journal list (R18, R84 to R97). -/

namespace Sys2Proof.Machine

open Sys2Proof.Laws Sys2Proof.Safety

set_option Elab.async false

variable {q : Prop} {s t : State}

/-! ### What the writer's state says -/

theorem not_barred_of_context (j : JournalHeld t) {i : CtxNo} {c : Context} (hc : t.assembly.contexts[i] = some c) :
    ¬Barred t := fun hb => by
  have hnone := (noRecords_of j hb).2 i
  rw [hc] at hnone
  cases hnone

theorem nothing_in_hand (j : JournalHeld t) (hs : t.writer.state ≠ .opening) :
    t.writer.sectorInHand = none ∧ t.writer.headerEpoch = none :=
  ⟨Option.eq_none_iff_forall_ne_some.mpr fun i hi => hs (j.hand i hi).1,
    Option.eq_none_iff_forall_ne_some.mpr fun e he => hs (j.header e he).1⟩

theorem nothing_placed (j : JournalHeld t) (hs : t.writer.state = .opening) : t.writer.placement = none :=
  Option.eq_none_iff_forall_ne_some.mpr fun pl hpl => by
    have hwriting := (j.placed pl hpl).1
    rw [hs] at hwriting
    rcases hwriting with h | h <;> cases h

theorem epoch_of_opening (j : JournalHeld t) (hs : t.writer.state = .opening) :
    t.writer.epoch = t.writer.nextEpoch.getD 0 := by
  obtain ⟨e, he⟩ := Option.ne_none_iff_exists'.mp (j.opening hs)
  rw [Writer.epoch, he]
  rfl

theorem openSector_opened {o : SectorNo} (h : t.table.openSector = some o) : t.table.entries[o].state = .opened :=
  beq_iff_eq.mp (List.find?_some (p := fun i : SectorNo => t.table.entries[i].state == .opened) h)

theorem openSector_eq_none (h : t.table.openSector = none) (k : SectorNo) : t.table.entries[k].state ≠ .opened :=
  fun hk => List.find?_eq_none.mp h k (List.mem_finRange k) (beq_iff_eq.mpr hk)

theorem lowestWear_mem {tb : SectorTable} {l : List SectorNo} {i : SectorNo} (h : lowestWear tb l = some i) : i ∈ l := by
  induction l generalizing i with
  | nil => cases h
  | cons x rest ih =>
    unfold lowestWear at h
    split at h
    · cases h
      exact List.mem_cons_self
    next j hj =>
      split at h
      · cases h
        exact List.mem_cons_of_mem _ (ih hj)
      · cases h
        exact List.mem_cons_self

theorem chooseFree_free {i : SectorNo} (h : t.table.chooseFree = some i) : t.table.entries[i].state = .free :=
  beq_iff_eq.mp (List.mem_filter.mp (lowestWear_mem h)).2

/-! ### Failing, asking, placing (R86 to R97) -/

theorem failRecord_held {st : Status} (h : Held q t) : Held q (failRecord st t) := by
  unfold failRecord
  split
  · exact h
  next i _ =>
    have hf : Held q (recordFailed i st t) :=
      h.moves (recordFailed_moves .refl) (recordFailed_frame (l := [.host, .assembly]) .refl)
    have hm : Held q (if st = .journalFull then markFull (recordFailed i st t) else recordFailed i st t) :=
      .ite (hf.frame (markFull_frame (l := [.host, .writer]) .refl)) hf
    exact hm.letsGo rfl rfl rfl rfl rfl nofun fun _ _ => rfl

/-- A FREE sector is taken in hand. -/
theorem taken_held {i : SectorNo} (h : Held q t) (hfree : t.table.entries[i].state = .free)
    (hepoch : t.writer.epoch ≠ Config.exhausted) (hb : q → ¬Barred t) :
    Held q ((takeInHand i t).onWriter fun w => { w with
      state := .opening, sectorInHand := some i, headerEpoch := none, placement := none, spaceSignal := false }) := by
  have hu : Held q (takeInHand i t) := h.frame (takeInHand_frame (l := [.table]) .refl)
  have hfree' : (takeInHand i t).table.entries[i].state = .free := by
    change (tableMod t.table.entries i _)[i].state = .free
    rw [tableMod_get_self]
    exact hfree
  have hsome : t.writer.nextEpoch ≠ none := fun hn => hepoch (by rw [Writer.epoch, hn]; rfl)
  refine hu.onWriter (fun k hk => ?_) nofun fun hq => ?_
  · cases hk
    exact journal_of_not_anchor hu.anchors (by rw [hfree']; decide)
  · exact {
      epoch := le_rfl
      jsn := le_rfl
      opening := fun _ => hsome
      hand := fun k hk => by
        cases hk
        exact ⟨rfl, hfree'⟩
      header := nofun
      placed := nofun
      idle := fun hx => absurd hx (hb hq) }

theorem askSector_held (h : Held q t) (hb : q → ¬Barred t) : Held q (askSector t) := by
  unfold askSector
  split
  · exact failRecord_held h
  next hepoch =>
    split
    next i hi => exact (taken_held h (chooseFree_free hi) hepoch hb).frame (placeRequest_frame (l := [.ctrl]) .refl)
    next =>
      refine .ite ?_ (failRecord_held h)
      exact h.letsGo rfl rfl rfl rfl rfl nofun fun hq hx => absurd hx (hb hq)

theorem placeRecord_held {i : CtxNo} {c : Context} {o : SectorNo} {p : Nat} (h : Held q t)
    (hc : t.assembly.contexts[i] = some c) (ho : t.table.openSector = some o)
    (hs : q → t.writer.sectorInHand = none ∧ t.writer.headerEpoch = none) : Held q (placeRecord i c o p t) := by
  have hopen := openSector_opened ho
  obtain ⟨u, hu⟩ : ∃ u, setContext i (some { c with attempts := c.attempts + 1 })
      (if c.attempts = 0 then modStream c.stream (fun e => { e with gapPending := false }) t else t) = u := ⟨_, rfl⟩
  have hmoves : Moves t u := by
    rw [← hu]
    split
    · exact setContext_moves (modStream_moves .refl) hc (.of_state c _ _ _ _)
    · exact setContext_moves .refl hc (.of_state c _ _ _ _)
  have hframe : Frame [.assembly] t u := by
    rw [← hu]
    exact setContext_frame (.ite (modStream_frame .refl) .refl)
  have hheld : Held q u := h.moves hmoves hframe
  have hwriter : u.writer = t.writer := hframe.writer
  have hplaced : Held q (u.onWriter fun w => { w with
      state := .writing, gapMark := gapFor c t
      placement := some ⟨o, p, footprint c.payloadLength, p⟩, payloadCrc := crc32 (t.payloadOf c)
      spaceSignal := false }) := by
    refine hheld.onWriter (fun k hk => hheld.anchors.inHand k hk) (fun pl hpl => ?_) fun hq => ?_
    · cases hpl
      exact journal_of_not_anchor (i := o) h.anchors (by rw [hopen]; decide)
    · obtain ⟨hhand, hheader⟩ := hs hq
      exact {
        epoch := le_rfl
        jsn := le_rfl
        opening := nofun
        hand := fun k hk => by
          change u.writer.sectorInHand = some k at hk
          rw [hwriter, hhand] at hk
          cases hk
        header := fun e he => by
          change u.writer.headerEpoch = some e at he
          rw [hwriter, hheader] at he
          cases he
        placed := fun pl hpl => by
          cases hpl
          exact ⟨.inl rfl, by rw [hframe.table]; exact hopen⟩
        idle := fun hx => by
          refine absurd hx fun hx => not_barred_of_context (h.journal hq) hc ?_
          rwa [Barred, hframe.mount, hframe.reclaim] at hx }
  have hrun : placeRecord i c o p t = placeRequest .writer (.programLines o p (recordHeaderLine (t.headerFor c (gapFor c t)) ::
      payloadRun (t.payloadOf c) 0 (burstCount (footprint c.payloadLength - 1) - 1))) (u.onWriter fun w => { w with
        state := .writing, gapMark := gapFor c t
        placement := some ⟨o, p, footprint c.payloadLength, p⟩, payloadCrc := crc32 (t.payloadOf c)
        spaceSignal := false }) := by
    rw [← hu]
    rfl
  rw [hrun]
  exact hplaced.frame (placeRequest_frame (l := [.ctrl]) .refl)

theorem roomCheck_held (h : Held q t) (hs : q → t.writer.sectorInHand = none ∧ t.writer.headerEpoch = none) :
    Held q (roomCheck t) := by
  unfold roomCheck
  split
  · exact h
  next i c hi =>
    have hc := recordContext_mem hi
    have hasks : Held q (askSector t) := askSector_held h fun hq => not_barred_of_context (h.journal hq) hc
    split
    · exact hasks
    next o ho =>
      split
      · exact hasks
      · exact .ite (placeRecord_held h hc ho hs) hasks

theorem takeQueueHead_held (h : Held q t) (hidle : t.writer.state = .idle) : Held q (takeQueueHead t) := by
  unfold takeQueueHead
  split
  · exact h
  next i rest _ =>
    have hw : Held q (t.onWriter fun w => { w with queue := rest, record := some i }) :=
      h.frame (onWriter_frame (l := [.writer]) .refl)
    have hchecks {u : State} (hu : Held q u) (hstate : u.writer.state = .idle) :
        Held q (if u.writer.jsn = Config.exhausted then failRecord .journalExhausted u else roomCheck u) :=
      .ite (failRecord_held hu) (roomCheck_held hu fun hq => nothing_in_hand (hu.journal hq) (by rw [hstate]; decide))
    dsimp only
    split
    next c hc =>
      exact hchecks (hw.moves (setContext_moves .refl hc (.of_state c .writing c.deferred c.age c.attempts))
        (setContext_frame (l := [.assembly]) .refl)) hidle
    next => exact hchecks hw hidle

/-! ### Sector headers and PADs (R91, R92) -/

theorem signalReclaim_onWriter (f : Writer → Writer) (s : State) :
    (signalReclaim s).onWriter f = signalReclaim (s.onWriter f) := by
  unfold signalReclaim
  change _ = if s.reclaim.state = .idle then _ else _
  split <;> rfl

theorem closeClaim_onWriter (i : SectorNo) (k : CloseKind) (f : Writer → Writer) (s : State) :
    (closeClaim i k s).onWriter f = closeClaim i k (s.onWriter f) := signalReclaim_onWriter f _

theorem headerFailed_onWriter (i : SectorNo) (f : Writer → Writer) (s : State) :
    (headerFailed i s).onWriter f = headerFailed i (s.onWriter f) := signalReclaim_onWriter f _

theorem openClaim_onWriter (i : SectorNo) (epoch base : Nat) (f : Writer → Writer) (s : State) :
    (openClaim i epoch base s).onWriter f = openClaim i epoch base (s.onWriter f) := by
  unfold openClaim
  change _ = match s.table.openSector with
    | some _ => _
    | none => _
  cases s.table.openSector with
  | some o => rfl
  | none => exact signalReclaim_onWriter f _

theorem closeClaim_held {o : SectorNo} {k : CloseKind} (h : Held q t) (hj : IsJournal o)
    (ho : q → t.table.entries[o].state = .opened) (hp : q → t.writer.placement = none) : Held q (closeClaim o k t) := by
  have hkeeps (e : SectorEntry) (r : RetireReason) :
      SameEntry { e with state := .closed } ({ e with state := .closed, nextFree := none }.retireLater r) :=
    SameEntry.trans (d := { e with state := .closed, nextFree := none }) ⟨rfl, rfl, rfl⟩ (.retireLater _ r)
  refine Held.frame (l := [.reclaim]) ?_ (signalReclaim_frame .refl)
  cases k with
  | padded => exact h.closes hj rfl rfl rfl ho hp
  | full => exact h.closes hj rfl rfl rfl ho hp
  | padFailed => exact h.closes hj (hkeeps _ _).state (hkeeps _ _).epoch (hkeeps _ _).range ho hp
  | recordFailed => exact h.closes hj (hkeeps _ _).state (hkeeps _ _).epoch (hkeeps _ _).range ho hp

theorem advanceEpoch_held (h : Held q t) (hs : q → t.writer.state = .opening) : Held q (advanceEpoch t) := by
  refine h.onWriter h.anchors.inHand h.anchors.placement fun hq => ?_
  have j := h.journal hq
  have w := writerHeld_of j
  obtain ⟨e, he⟩ := Option.ne_none_iff_exists'.mp (j.opening (hs hq))
  have hgrows : t.writer.nextEpoch.getD 0 < (t.writer.nextEpoch.map (· + 1)).getD 0 := by
    rw [he]
    exact Nat.lt_succ_self e
  exact {
    epoch := hgrows.le
    jsn := le_rfl
    opening := fun _ => by rw [he]; exact Option.some_ne_none _
    hand := w.hand
    header := fun a ha => ⟨(w.header a ha).1, (w.header a ha).2.1.trans hgrows, (w.header a ha).2.2⟩
    placed := w.placed
    idle := w.idle }

/-- An epoch that a header has used: below the next one, above every member's. -/
def Used (epoch : Nat) (s : State) : Prop :=
  epoch < s.writer.nextEpoch.getD 0 ∧ ∀ i ∈ s.table.journal, ∀ a, s.table.entries[i].epoch = some a → a < epoch

/-- The epoch of a header that has just been programmed has been used. -/
theorem advanceEpoch_used (j : JournalHeld t) (hs : t.writer.state = .opening) :
    Used t.writer.epoch (advanceEpoch t) := by
  have hepoch := epoch_of_opening j hs
  obtain ⟨e, he⟩ := Option.ne_none_iff_exists'.mp (j.opening hs)
  refine ⟨?_, fun i hi a ha => ?_⟩
  · change t.writer.epoch < (t.writer.nextEpoch.map (· + 1)).getD 0
    rw [hepoch, he]
    exact Nat.lt_succ_self e
  · obtain ⟨b, hb, hlt⟩ := j.epochs i hi
    rw [hepoch]
    obtain rfl := Option.some.inj (hb.symm.trans ha)
    exact hlt

/-- A closed sector keeps the epoch of its header. -/
theorem closeClaim_epoch (o : SectorNo) (k : CloseKind) (t : State) (i : SectorNo) :
    (closeClaim o k t).table.entries[i].epoch = t.table.entries[i].epoch := by
  unfold closeClaim
  rw [(signalReclaim_frame (l := [.reclaim]) .refl).table]
  change (tableMod t.table.entries o _)[i].epoch = _
  by_cases hi : i = o
  · subst hi
    rw [tableMod_get_self]
    cases k with
    | padded => rfl
    | full => rfl
    | padFailed => exact (SameEntry.retireLater _ _).epoch
    | recordFailed => exact (SameEntry.retireLater _ _).epoch
  · rw [tableMod_get_ne _ _ _ _ hi]

theorem closeClaim_used {o : SectorNo} {k : CloseKind} {epoch : Nat} (h : Used epoch t) :
    Used epoch (closeClaim o k t) := by
  have hframe : Frame [.table, .reclaim, .sectors] t (closeClaim o k t) := closeClaim_frame .refl
  have hjournal : (closeClaim o k t).table.journal = t.table.journal := by
    unfold closeClaim
    rw [(signalReclaim_frame (l := [.reclaim]) .refl).table]
    rfl
  refine ⟨by rw [hframe.writer]; exact h.1, fun i hi a ha => ?_⟩
  rw [closeClaim_epoch] at ha
  exact h.2 i (hjournal ▸ hi) a ha

theorem openInHand_held {epoch : Nat} (h : Held q t) (hs : q → t.writer.state = .opening) (hu : q → Used epoch t) :
    Held q (openInHand epoch t) := by
  unfold openInHand
  split
  · exact h
  next i hi =>
    rw [openClaim_onWriter]
    have hj : IsJournal i := h.anchors.inHand i hi
    obtain ⟨u, hudef⟩ : ∃ u, (t.onWriter fun w => { w with sectorInHand := none, headerEpoch := none }) = u := ⟨_, rfl⟩
    have hheld : Held q u := by
      rw [← hudef]
      refine h.onWriter nofun h.anchors.placement fun hq => ?_
      have w := writerHeld_of (h.journal hq)
      exact { epoch := le_rfl, jsn := le_rfl, opening := w.opening, hand := nofun, header := nofun, placed := w.placed,
              idle := w.idle }
    have hclear : u.writer.sectorInHand = none ∧ u.writer.headerEpoch = none := by
      rw [← hudef]
      exact ⟨rfl, rfl⟩
    rw [hudef]
    have hopened : Held q (openClaim i epoch t.writer.jsn u) := by
      unfold openClaim
      split
      · exact hheld
      next hnone =>
        refine Held.frame (l := [.reclaim]) ?_ (signalReclaim_frame .refl)
        refine Held.opens (s := u) (i := i) (epoch := epoch) (f := fun e => { e with
          state := .opened, inHand := false, epoch := some epoch, baseJsn := some t.writer.jsn, range := none
          nextFree := some 1 }) hheld hj rfl rfl rfl (openSector_eq_none hnone) (fun hq => ?_) (fun _ => hclear.1)
          (fun _ => hclear.2) (fun hq => ?_) (fun hq => ?_) fun hq => ?_
        · rw [← hudef]
          exact ((h.journal hq).hand i hi).2
        · have hbar := not_barred (h.journal hq) (by rw [hs hq]; decide)
          rw [← hudef]
          exact Bool.eq_false_iff.mpr fun hw => hbar (.inr hw)
        · rw [← hudef]
          exact (hu hq).1
        · rw [← hudef]
          exact (hu hq).2
    refine roomCheck_held hopened fun _ => ?_
    have hwriter : (openClaim i epoch t.writer.jsn u).writer = u.writer :=
      (openClaim_frame (l := [.table, .reclaim, .sectors]) .refl).writer
    rw [hwriter]
    exact hclear

/-- The OPEN sector is closed, and the sector in hand opened in its place. -/
theorem closed_openInHand_held {o : SectorNo} {k : CloseKind} {epoch : Nat} (h : Held q t)
    (ho : t.table.openSector = some o) (hs : q → t.writer.state = .opening) (hu : q → Used epoch t) :
    Held q (openInHand epoch (closeClaim o k t)) := by
  have hopen := openSector_opened ho
  refine openInHand_held (closeClaim_held h (journal_of_not_anchor h.anchors (by rw [hopen]; decide)) (fun _ => hopen)
    fun hq => nothing_placed (h.journal hq) (hs hq)) (fun hq => ?_) fun hq => closeClaim_used (hu hq)
  rw [(closeClaim_frame (l := [.table, .reclaim, .sectors]) .refl).writer]
  exact hs hq

theorem headerProgrammed_held (h : Held q t) (hs : q → t.writer.state = .opening) : Held q (headerProgrammed t) := by
  have hheld := advanceEpoch_held h hs
  have hused : q → Used t.writer.epoch (advanceEpoch t) := fun hq => advanceEpoch_used (h.journal hq) (hs hq)
  unfold headerProgrammed
  dsimp only
  split
  · exact openInHand_held hheld hs hused
  next o ho =>
    split
    · exact closed_openInHand_held hheld ho hs hused
    next n _ =>
      refine .ite (Held.frame (l := [.ctrl]) ?_ (placeRequest_frame .refl)) (closed_openInHand_held hheld ho hs hused)
      refine hheld.onWriter hheld.anchors.inHand hheld.anchors.placement fun hq => ?_
      have w := writerHeld_of (hheld.journal hq)
      exact { w with
        header := fun e he => by
          cases he
          exact ⟨hs hq, hused hq⟩ }

/-- A header that was not programmed gives its sector back. -/
theorem headerProgramFailed_held (h : Held q t) (hs : q → t.writer.state = .opening) :
    Held q (headerProgramFailed t) := by
  unfold headerProgramFailed
  split
  · exact h
  next i hi =>
    have hheld := advanceEpoch_held h hs
    have hjournal : IsJournal i := h.anchors.inHand i hi
    rw [headerFailed_onWriter]
    obtain ⟨u, hu⟩ : ∃ u, ((advanceEpoch t).onWriter fun w => { w with sectorInHand := none }) = u := ⟨_, rfl⟩
    have hcleared : Held q u := by
      rw [← hu]
      refine hheld.onWriter nofun hheld.anchors.placement fun hq => ?_
      have w := writerHeld_of (hheld.journal hq)
      exact { w with hand := nofun }
    have hfree : q → u.table.entries[i].state = .free := by
      rw [← hu]
      exact fun hq => ((h.journal hq).hand i hi).2
    have hhand : u.writer.sectorInHand = none := by
      rw [← hu]
      rfl
    have hstate : q → u.writer.state = .opening := by
      rw [← hu]
      exact hs
    rw [hu]
    have hgiven : Held q (headerFailed i u) := by
      refine Held.frame (l := [.reclaim]) ?_ (signalReclaim_frame .refl)
      refine hcleared.outside hjournal nofun nofun nofun (fun hq => ?_) (fun _ => ?_) fun hq he => ?_
      · rw [hfree hq]
        decide
      · rw [hhand]
        exact nofun
      · have herasing := (hcleared.journal hq).erasing i he
        rw [hfree hq] at herasing
        cases herasing
    refine askSector_held hgiven fun hq => not_barred (hgiven.journal hq) ?_
    rw [(headerFailed_frame (l := [.table, .reclaim, .sectors]) .refl).writer, hstate hq]
    decide

theorem padProgrammed_held {epoch : Nat} {ok : Bool} (h : Held q t) (he : t.writer.headerEpoch = some epoch) :
    Held q (padProgrammed epoch ok t) := by
  have hs : q → t.writer.state = .opening := fun hq => ((h.journal hq).header epoch he).1
  have hu : q → Used epoch t := fun hq => ((h.journal hq).header epoch he).2
  unfold padProgrammed
  split
  · exact openInHand_held h hs hu
  next o ho => exact closed_openInHand_held h ho hs hu

/-! ### Bursts and commit lines (R94 to R97) -/

/-- A placement goes on in its sector, while the writer writes its lines or commits them. -/
theorem onPlacement_held {st : WriterState} {n : Nat} {pl : Placement} (h : Held q t)
    (hp : t.writer.placement = some pl) (hs : st = t.writer.state ∨ st = .committing) :
    Held q (t.onWriter fun w => { w with state := st, placement := some { pl with nextLine := n } }) := by
  refine h.onWriter h.anchors.inHand (fun p hpl => ?_) fun hq => ?_
  · cases hpl
    exact h.anchors.placement pl hp
  have j := h.journal hq
  obtain ⟨hwriting, hopen⟩ := j.placed pl hp
  have hstate : st = .writing ∨ st = .committing := hs.elim (fun he => he ▸ hwriting) .inr
  have hnot : t.writer.state ≠ .opening ∧ t.writer.state ≠ .idle := by
    rcases hwriting with he | he <;> rw [he] <;> decide
  obtain ⟨hhand, hheader⟩ := nothing_in_hand j hnot.1
  exact {
    epoch := le_rfl
    jsn := le_rfl
    opening := fun ho => by
      change st = _ at ho
      rw [ho] at hstate
      rcases hstate with he | he <;> cases he
    hand := fun i hi => by
      change t.writer.sectorInHand = _ at hi
      rw [hhand] at hi
      cases hi
    header := fun e he => by
      change t.writer.headerEpoch = _ at he
      rw [hheader] at he
      cases he
    placed := fun p hpl => by
      cases hpl
      exact ⟨hstate, hopen⟩
    idle := fun hb => absurd hb (not_barred j hnot.2) }

theorem burstDone_held {c : Context} {pl : Placement} (h : Held q t) (hp : t.writer.placement = some pl) :
    Held q (burstDone c pl t) := by
  unfold burstDone continueRecord
  dsimp only
  split
  · exact (onPlacement_held h hp (.inr rfl)).frame (placeRequest_frame (l := [.ctrl]) .refl)
  · exact (onPlacement_held h hp (.inl rfl)).frame (placeRequest_frame (l := [.ctrl]) .refl)

theorem placed_not_opening {pl : Placement} (j : JournalHeld t) (hp : t.writer.placement = some pl) :
    t.writer.state ≠ .opening := by
  rcases (j.placed pl hp).1 with he | he <;> rw [he] <;> decide

theorem relocate_held {c : Context} {pl : Placement} (h : Held q t) (hp : t.writer.placement = some pl) :
    Held q (relocate c pl t) := by
  unfold relocate
  dsimp only
  rw [closeClaim_onWriter]
  obtain ⟨u, hu⟩ : ∃ u, (t.onWriter fun w => { w with placement := none }) = u := ⟨_, rfl⟩
  rw [hu]
  have hcleared : Held q u := by
    rw [← hu]
    refine h.onWriter h.anchors.inHand nofun fun hq => ?_
    exact { writerHeld_of (h.journal hq) with placed := nofun }
  have hclosed : Held q (closeClaim pl.sector .recordFailed u) := by
    refine closeClaim_held hcleared (h.anchors.placement pl hp) (fun hq => ?_) fun _ => ?_
    · rw [← hu]
      exact ((h.journal hq).placed pl hp).2
    · rw [← hu]
      rfl
  have hstate : u.writer.state = t.writer.state := by
    rw [← hu]
    rfl
  refine .ite (roomCheck_held hclosed fun hq => nothing_in_hand (hclosed.journal hq) ?_) (failRecord_held hclosed)
  rw [(closeClaim_frame (l := [.table, .reclaim, .sectors]) .refl).writer, hstate]
  exact placed_not_opening (h.journal hq) hp

/-- A committed record takes the next JSN, which no member's range holds yet. -/
theorem commitRecord_held {i : CtxNo} {c : Context} {pl : Placement} (h : Held q t)
    (hp : t.writer.placement = some pl) : Held q (commitRecord i c pl t) := by
  obtain ⟨u, hu⟩ : ∃ u, (t.onWriter fun w => { w with nextJsn := some (t.writer.jsn + 1) }) = u := ⟨_, rfl⟩
  have hnext : t.writer.nextJsn.getD 0 ≤ t.writer.jsn := by
    unfold Writer.jsn
    cases t.writer.nextJsn with
    | none => exact Nat.zero_le _
    | some n => exact le_rfl
  have hcounted : Held q u := by
    rw [← hu]
    refine h.onWriter h.anchors.inHand h.anchors.placement fun hq => ?_
    have w := writerHeld_of (h.journal hq)
    exact { w with jsn := hnext.trans (Nat.le_succ _) }
  have hextended : Held q (extendClaim pl.sector pl.position pl.footprint t.writer.jsn u) := by
    refine hcounted.extends (jsn := t.writer.jsn) rfl rfl rfl (fun hq => ?_) (fun _ => ?_) fun hq => ?_
    · rw [← hu]
      exact ((h.journal hq).placed pl hp).2
    · rw [← hu]
      exact Nat.lt_succ_self _
    · rw [← hu]
      exact fun k hk a b hab => ((h.journal hq).ranges k hk a b hab).2.trans_le hnext
  have hrun : commitRecord i c pl t =
      (recordCommitted i t.writer.jsn (extendClaim pl.sector pl.position pl.footprint t.writer.jsn u)).onWriter
        fun w => { w.toIdle with
          recordsCommitted := saturate (w.recordsCommitted + 1)
          bytesCommitted := saturate (w.bytesCommitted + c.payloadLength) } := by
    rw [← hu]
    rfl
  rw [hrun]
  refine (Held.moves (l := [.host, .assembly]) hextended (recordCommitted_moves .refl)
    (recordCommitted_frame .refl)).letsGo rfl rfl rfl rfl rfl nofun fun _ _ => rfl

/-! ### The rows of the Journal Writer -/

theorem takeOutcome_held {who : Requester} (h : Held q t) : Held q (takeOutcome who t) :=
  h.frame (takeOutcome_frame (l := [.ctrl]) .refl)

theorem after_queueHeadTaken_held (h : Held q s) : Held q (after .queueHeadTaken s) := by
  change Held q (if s.live ∧ s.writer.state = .idle then takeQueueHead s else s)
  split
  next hs => exact takeQueueHead_held h hs.2
  next => exact h

theorem after_spaceQuestionRetry_held (h : Held q s) : Held q (after .spaceQuestionRetry s) := by
  change Held q (if s.live ∧ s.writer.state = .waitingSpace ∧ s.writer.spaceSignal then
    askSector (s.onWriter fun w => { w with spaceSignal := false }) else s)
  split
  next hs =>
    refine askSector_held (h.frame (onWriter_frame (l := [.writer]) .refl)) fun hq hb => ?_
    exact not_barred (h.journal hq) (by rw [hs.2.1]; decide) hb
  next => exact h

theorem after_sectorHeaderProgrammed_held (h : Held q s) : Held q (after .sectorHeaderProgrammed s) := by
  unfold after exec execSectorHeaderProgrammed
  dsimp only
  split
  · split
    next hs =>
      exact .ite (headerProgrammed_held (takeOutcome_held h) fun _ => hs.1)
        (headerProgramFailed_held (takeOutcome_held h) fun _ => hs.1)
    next => exact h
  · exact h

theorem after_padProgrammed_held (h : Held q s) : Held q (after .padProgrammed s) := by
  unfold after exec execPadProgrammed
  dsimp only
  split
  next he => exact .ite (padProgrammed_held (takeOutcome_held h) he) h
  next => exact h

theorem after_burstProgrammed_held (h : Held q s) : Held q (after .burstProgrammed s) := by
  unfold after exec execBurstProgrammed
  dsimp only
  split
  next hp => exact .ite (.ite (burstDone_held (takeOutcome_held h) hp) (relocate_held (takeOutcome_held h) hp)) h
  next => exact h

theorem after_commitLineProgrammed_held (h : Held q s) : Held q (after .commitLineProgrammed s) := by
  unfold after exec execCommitLineProgrammed
  dsimp only
  split
  next hp => exact .ite (.ite (commitRecord_held (takeOutcome_held h) hp) (relocate_held (takeOutcome_held h) hp)) h
  next => exact h

end Sys2Proof.Machine
end

section
/-! The Anchor Unit and the Reclaim Unit keep the journal list (R30 to R34, R101 to R112, R122 to R127). -/

namespace Sys2Proof.Machine

open Sys2Proof.Laws Sys2Proof.Safety

set_option Elab.async false

variable {q : Prop} {l : List Block} {s t u : State} {i : SectorNo}

/-! ### The end of a wipe, and changes (R112, R122 to R127) -/

theorem completeWipe_held {st : Status} (h : Held q t) : Held q (completeWipe st t) := by
  unfold completeWipe
  split
  next slot _ =>
    have hc : Held q (complete slot st t) := h.frame (complete_frame (l := [.host]) .refl)
    refine Held.frame (l := [.reclaim]) (hc.onReclaim hc.anchors.erase fun hq => ?_) (signalReclaim_frame .refl)
    have r := reclaimHeld_of (hc.journal hq)
    exact { erasing := r.erasing, wiping := nofun, wipe := nofun, unmounted := fun hm => ⟨(r.unmounted hm).1, rfl⟩ }
  next => exact h

theorem startSnapshot_held (h : Held q t) : Held q (startSnapshot t) :=
  h.frame (startSnapshot_blocks (l := [.anchor, .ctrl]) .refl)

theorem onAnchor_held {f : Anchor → Anchor} (h : Held q t) : Held q (t.onAnchor f) :=
  h.frame (onAnchor_frame (l := [.anchor]) .refl)

theorem takeChange_held {c : Change} (h : Held q t) : Held q (takeChange c t) := by
  unfold takeChange
  refine .ite ?failed ?taken
  case failed =>
    cases c with
    | wipe => exact completeWipe_held (onAnchor_held h)
    | retire _ => exact onAnchor_held h
    | hold _ => exact onAnchor_held h
  case taken =>
    split
    · exact startSnapshot_held (onAnchor_held (onAnchor_held h))
    · exact onAnchor_held (onAnchor_held h)
    · exact onAnchor_held (onAnchor_held h)

theorem completeWaiting_held {rh : Hold} {st : Status} {r : Results} (h : Held q t) :
    Held q (completeWaiting rh st r t) :=
  h.frame (completeWaiting_frame (l := [.host]) .refl)

theorem freeHold_held {id : Fin 16} (h : Held q t) : Held q (freeHold id t) :=
  h.frame (freeHold_frame (l := [.holds, .reclaim]) .refl)

theorem setHold_held {id : Fin 16} {rh : Option Hold} (h : Held q t) : Held q (setHold id rh t) :=
  h.frame (setHold_frame (l := [.holds]) .refl)

theorem changeValidated_held {c : Change} (h : Held q t) : Held q (changeValidated c t) := by
  unfold changeValidated
  split
  · exact h
  · exact completeWipe_held h
  · split
    · exact h
    · split
      · exact completeWaiting_held (setHold_held h)
      · exact completeWaiting_held (freeHold_held h)
      · exact h
      · exact h

theorem changeFailed_held {c : Change} (h : Held q t) : Held q (changeFailed c t) := by
  unfold changeFailed
  split
  · exact h
  · exact completeWipe_held h
  · split
    · exact h
    · split
      · exact completeWaiting_held (freeHold_held h)
      · exact completeWaiting_held (setHold_held h)
      · exact h
      · exact h

theorem Held.foldl {α : Type} {f : State → α → State} {xs : List α} (hf : ∀ {t a}, Held q t → Held q (f t a))
    (h : Held q t) : Held q (xs.foldl f t) := by
  induction xs generalizing t with
  | nil => exact h
  | cons x xs ih => exact ih (hf h)

theorem snapshotValidated_held {snap : Snapshot} (h : Held q t) : Held q (snapshotValidated snap t) := by
  have hf {u : State} (hu : Held q u) (cs : List Change) : Held q (cs.foldl (fun s c => changeValidated c s) u) :=
    .foldl (fun h => changeValidated_held h) hu
  exact .ite (startSnapshot_held (onAnchor_held (hf (onAnchor_held h) _))) (hf (onAnchor_held h) _)

theorem anchorFails_held (h : Held q t) : Held q (anchorFails t) := by
  refine Held.frame (l := [.host]) ?_ (postNotice_frame .refl)
  exact .foldl (fun h => changeFailed_held h) (onAnchor_held h)

theorem beginAttempt_held {snap : Snapshot} (h : Held q t) : Held q (beginAttempt snap t) :=
  h.frame (beginAttempt_frame (l := [.anchor, .ctrl]) .refl)

theorem snapshotPartEnded_held {snap : Snapshot} {ok : Bool} (h : Held q t) : Held q (snapshotPartEnded snap ok t) :=
  .ite (.ite (snapshotValidated_held h) (h.frame (requestPart_frame (l := [.anchor, .ctrl]) .refl)))
    (.ite (beginAttempt_held h) (.ite (anchorFails_held h)
      (h.frame (beginRollover_frame (l := [.anchor, .ctrl]) .refl))))

theorem rolloverEnded_held {snap : Snapshot} {ok : Bool} (h : Held q t) : Held q (rolloverEnded snap ok t) := by
  have hs : Held q (anchorEraseSettled (otherAnchor t.anchor.active) ok t) :=
    h.frame (anchorEraseSettled_frame (l := [.table]) .refl)
  exact .ite (beginAttempt_held (onAnchor_held hs)) (anchorFails_held hs)

theorem after_hold_held (h : Held q s) : Held q (after .hold s) := by
  unfold after exec execHold
  dsimp only
  split
  next slot first last fixed owner _ =>
    have hp : Held q (popHolds s) := h.frame (popHolds_frame (l := [.holds]) .refl)
    have hcomplete {st : Status} : Held q (complete slot st (popHolds s)) := hp.frame (complete_frame (l := [.host]) .refl)
    unfold takeHold
    refine .ite hcomplete (.ite hcomplete (.ite hcomplete ?_))
    split
    · exact hcomplete
    · exact .ite (takeChange_held (setHold_held hp)) ((setHold_held hp).frame (postOutcome_frame (l := [.host]) .refl))
  next => exact h

theorem after_release_held (h : Held q s) : Held q (after .release s) := by
  unfold after exec execRelease
  dsimp only
  split
  next slot id _ =>
    have hp : Held q (popHolds s) := h.frame (popHolds_frame (l := [.holds]) .refl)
    have hcomplete {st : Status} {u : State} (hu : Held q u) : Held q (complete slot st u) :=
      hu.frame (complete_frame (l := [.host]) .refl)
    unfold takeRelease
    split
    · exact hcomplete hp
    · split
      · exact hcomplete hp
      · exact hcomplete hp
      · exact hcomplete (freeHold_held hp)
      · exact .ite (hcomplete hp) (takeChange_held (setHold_held hp))
  next => exact h

theorem after_snapshotProgramEnd_held (h : Held q s) : Held q (after .snapshotProgramEnd s) := by
  unfold after exec execSnapshotProgramEnd
  dsimp only
  split
  · exact .ite (snapshotPartEnded_held (takeOutcome_held h)) h
  · exact h

theorem after_rolloverEraseEnd_held (h : Held q s) : Held q (after .rolloverEraseEnd s) := by
  unfold after exec execRolloverEraseEnd
  dsimp only
  split
  · exact .ite (rolloverEnded_held (takeOutcome_held h)) h
  · exact h

/-! ### Victims (R30, R31, R102) -/

theorem chooseVictim_state {tb : SectorTable} {holds : HoldTable} (h : chooseVictim tb holds = some i) :
    tb.entries[i].state = .dirty ∨ tb.entries[i].state = .closed := by
  unfold chooseVictim at h
  split at h
  next k hk =>
    cases h
    exact .inl (beq_iff_eq.mp (List.find?_some (p := fun i : SectorNo => tb.entries[i].state == .dirty) hk))
  next =>
    have hm := List.find?_some (p := fun i : SectorNo =>
      tb.entries[i].state == .closed && tb.entries[i].pins == 0 && !heldRange holds tb.entries[i].range) h
    simp only [Bool.and_eq_true, beq_iff_eq] at hm
    exact .inr hm.1.1

/-- A victim leaves the journal list and is erased, by a part that is mounted. -/
theorem eraseVictim_held {st : ReclaimState} (h : Held q t) (hv : chooseVictim t.table t.holds = some i)
    (hm : q → t.mount.mounted = true) (hw : q → st = .wiping → t.reclaim.wipeActive = true) :
    Held q (eraseVictim i st t) := by
  have hvictim := chooseVictim_state hv
  obtain ⟨u, hu⟩ : ∃ u, expireRange i t = u := ⟨_, rfl⟩
  have hf : Frame [.host] t u := hu ▸ expireRange_frame .refl
  have hheld : Held q u := h.frame hf
  have hne {st : SectorState} (hs : t.table.entries[i].state = st) (hd : st ≠ .dirty) (hc : st ≠ .closed) : False :=
    hvictim.elim (fun he => hd (hs.symm.trans he)) fun he => hc (hs.symm.trans he)
  have hleft : Held q (takeVictim i t) := by
    unfold takeVictim
    rw [hu]
    refine hheld.leaves (f := fun e => { e with state := .erasing, epoch := none, baseJsn := none, range := none })
      (journal_of_not_anchor hheld.anchors fun ha => ?_) nofun nofun nofun (fun _ ho => ?_) (fun hq hi => ?_)
      fun _ _ => rfl
    · rw [hf.table] at ha
      exact hne ha nofun nofun
    · rw [hf.table] at ho
      exact hne ho nofun nofun
    · rw [hf.writer] at hi
      exact hne ((h.journal hq).hand i hi).2 nofun nofun
  have hframe : Frame [.host, .table, .sectors] t (takeVictim i t) := takeVictim_frame .refl
  have herasing : (takeVictim i t).table.entries[i].state = .erasing := by
    change (tableMod (expireRange i t).table.entries i _)[i].state = _
    rw [tableMod_get_self]
  refine Held.frame (l := [.ctrl]) (hleft.onReclaim (fun k hk => ?_) fun hq => ?_) (placeRequest_frame .refl)
  · cases hk
    exact journal_of_not_anchor hleft.anchors (by rw [herasing]; decide)
  · have r := reclaimHeld_of (hleft.journal hq)
    exact { r with
      erasing := fun k hk => by
        cases hk
        exact herasing
      wiping := fun hst => by
        change (takeVictim i t).reclaim.wipeActive = true
        rw [hframe.reclaim]
        exact hw hq hst
      unmounted := fun hmount => by
        rw [hframe.mount, hm hq] at hmount
        cases hmount }

theorem mounted_of_wipe (j : JournalHeld t) (hw : t.reclaim.wipeActive = true) : t.mount.mounted = true := by
  by_contra hm
  have hwipe := (j.unmounted (Bool.eq_false_iff.mpr hm)).2.2.2.2
  rw [hw] at hwipe
  cases hwipe

theorem mounted_of_online (j : JournalHeld t) (hd : t.host.device = .online) : t.mount.mounted = true := by
  by_contra hm
  exact (j.unmounted (Bool.eq_false_iff.mpr hm)).1 hd

theorem reclaimTest_held (h : Held q t) : Held q (reclaimTest t) := by
  unfold reclaimTest
  split
  next hp =>
    have hd : t.host.device = .online := by
      simp only [reclaimTestPasses, Bool.and_eq_true, beq_iff_eq] at hp
      exact hp.1.1
    split
    next hv => exact eraseVictim_held h hv (fun hq => mounted_of_online (h.journal hq) hd) nofun
    next => exact h.frame (signalWriter_frame (l := [.writer]) .refl)
  next => exact h

theorem after_reclaimTest_held (h : Held q s) : Held q (after .reclaimTest s) := by
  unfold after exec execReclaimTest
  exact .ite (reclaimTest_held (h.frame (onReclaim_frame (l := [.reclaim]) .refl))) h

/-! ### Wipes (R34, R109 to R112) -/

/-- Numbering starts again in a wipe: no record and no member of the list is there to be numbered. -/
theorem renumbered_held (h : Held q t) (hw : q → t.reclaim.wipeActive = true) :
    Held q (t.onWriter fun w => { w with nextJsn := some 1, nextEpoch := some 1 }) where
  anchors := { h.anchors with }
  journal := fun hq => by
    have j := h.journal hq
    obtain ⟨hempty, hnone, -⟩ := j.wipe (hw hq)
    have hidle : t.writer.state ≠ .opening := by
      rw [hnone.1]
      decide
    have hheader := (nothing_in_hand j hidle).2
    have hmember := List.eq_nil_iff_forall_not_mem.mp hempty
    exact { j with
      epochs := fun k hk => (hmember k hk).elim
      ranges := fun k hk => (hmember k hk).elim
      opening := fun ho => absurd ho hidle
      header := fun e he => nomatch hheader.symm.trans he }

theorem finishWipe_held (h : Held q t) (hw : q → t.reclaim.wipeActive = true) : Held q (finishWipe t) := by
  unfold finishWipe
  have hn := renumbered_held h hw
  refine takeChange_held ?_
  obtain ⟨u, hu⟩ : ∃ u, (t.onWriter fun w => { w with nextJsn := some 1, nextEpoch := some 1 }).onAssembly
      (fun a => { a with streams := tableMap (fun e => { e with recovered := none }) a.streams }) = u := ⟨_, rfl⟩
  have hheld : Held q u := by
    rw [← hu]
    refine Held.moves (l := [.assembly]) hn ?_ (onAssembly_frame .refl)
    refine onAssembly_quiet_moves .refl rfl rfl (fun _ => id) fun st hst => ?_
    rw [tableMap_get]
    exact hst
  rw [hu]
  exact hheld.onReclaim hheld.anchors.erase fun hq => { reclaimHeld_of (hheld.journal hq) with wiping := nofun }

theorem continueWipe_held (h : Held q t) (hw : q → t.reclaim.wipeActive = true) : Held q (continueWipe t) := by
  unfold continueWipe
  split
  next hv => exact eraseVictim_held h hv (fun hq => mounted_of_wipe (h.journal hq) (hw hq)) fun hq _ => hw hq
  next => exact finishWipe_held h hw

/-! ### Two states that differ alike -/

theorem Frame.onTable_both {f g : SectorTable → SectorTable} (h : Frame (.sectors :: l) t u)
    (hs : SameSectors (f t.table) (g u.table)) (ht : Block.table ∈ l) (hc : Block.counters ∈ l) :
    Frame l (t.onTable f) (u.onTable g) := fun b => by
  by_cases hb : b ∈ l
  · exact .inl hb
  · refine .inr ?_
    have hsame (hne : b ≠ .sectors) : Same t u b := (h b).resolve_left fun hm => (List.mem_cons.mp hm).elim hne hb
    cases b with
    | sectors => exact hs
    | table => exact absurd ht hb
    | counters => exact absurd hc hb
    | _ => exact hsame nofun

theorem Frame.onReclaim_both {f g : Reclaim → Reclaim} (h : Frame l t u)
    (hs : SameErasing (f t.reclaim) (g u.reclaim)) (hr : Block.reclaim ∈ l) (hc : Block.counters ∈ l) :
    Frame l (t.onReclaim f) (u.onReclaim g) := fun b => by
  by_cases hb : b ∈ l
  · exact .inl hb
  · refine .inr ?_
    have hsame : Same t u b := (h b).resolve_left hb
    cases b with
    | erasing => exact hs
    | reclaim => exact absurd hr hb
    | counters => exact absurd hc hb
    | _ => exact hsame

/-! ### The settlement of an erase (R33, R103) -/

theorem settled_state (e : SectorEntry) (o : Settlement) :
    (e.settled o).state = .free ∨ (e.settled o).state = .retired := by
  cases o with
  | toFree => exact .inl rfl
  | toRetired _ => exact .inr rfl
  | failed => exact .inr rfl

theorem takeChange_retire_frame (h : Frame l s t) (hl : [.anchor, .ctrl] ⊆ l := by simp_all) :
    Frame l s (takeChange (.retire i) t) := by
  unfold takeChange
  refine .ite (onAnchor_frame h) ?_
  split
  · exact startSnapshot_blocks (onAnchor_frame (onAnchor_frame h))
  · exact onAnchor_frame (onAnchor_frame h)
  · exact onAnchor_frame (onAnchor_frame h)

/-- The unit's erase is over, and its sector FREE or RETIRED. -/
theorem settleSector_held {ok : Bool} (h : Held q t) (he : t.reclaim.erase = some i) : Held q (settleSector i ok t) := by
  obtain ⟨o, ho⟩ : ∃ o, settlementOf t.table.entries[i] ok = o := ⟨_, rfl⟩
  have hended : Held q (t.onReclaim fun r => { r with erase := none }) :=
    h.onReclaim nofun fun hq =>
      { reclaimHeld_of (h.journal hq) with
        erasing := nofun
        unmounted := fun hm => ⟨rfl, ((h.journal hq).unmounted hm).2.2.2.2⟩ }
  have hsettled : Held q (modEntry i (fun e => e.settled o) (t.onReclaim fun r => { r with erase := none })) := by
    have hstate {st : SectorState} (hf : st ≠ .free) (hr : st ≠ .retired) (e : SectorEntry) :
        (e.settled o).state ≠ st := fun hs =>
      (settled_state e o).elim (fun he => hf (hs.symm.trans he)) fun he => hr (hs.symm.trans he)
    have herasing (hq : q) : t.table.entries[i].state = .erasing := (h.journal hq).erasing i he
    refine hended.outside (h.anchors.erase i he) (hstate (st := .anchor) nofun nofun _)
      (hstate (st := .opened) nofun nofun _) (hstate (st := .closed) nofun nofun _)
      (fun hq => ?_) (fun hq hi => ?_) fun _ => nofun
    · exact ⟨fun hs => (by cases (herasing hq).symm.trans hs), fun hs => (by cases (herasing hq).symm.trans hs)⟩
    · cases (herasing hq).symm.trans ((h.journal hq).hand i hi).2
  have hrest : Frame [.host, .writer, .anchor, .ctrl, .reclaim, .counters] (modEntry i (fun e => e.settled o) t)
      (match o.retires with
        | none => spaceRegained (settleErase i o t)
        | some r => retireSector i r (settleErase i o t)) := by
    have hsignal : Frame [.host, .writer, .anchor, .ctrl, .reclaim, .counters] (modEntry i (fun e => e.settled o) t)
        (settleErase i o t) := signalWriter_frame .refl
    cases o.retires with
    | none => exact spaceRegained_frame hsignal
    | some r => exact postNotice_frame (takeChange_retire_frame hsignal)
  have hreclaim := hrest.erasing
  unfold settleSector
  dsimp only
  rw [ho]
  refine hsettled.frame (hrest.onReclaim_both (f := fun r => { r with erase := none }) ?_ (by simp) (by simp))
  exact ⟨hreclaim.state, rfl, hreclaim.wipeActive⟩

theorem eraseEnded_held {ok : Bool} (h : Held q t) (he : t.reclaim.erase = some i) : Held q (eraseEnded i ok t) := by
  have hs : Held q (settleSector i ok t) := settleSector_held h he
  unfold eraseEnded
  dsimp only
  split
  next hw => exact continueWipe_held hs fun hq => (hs.journal hq).wiping hw
  next =>
    refine reclaimTest_held (hs.onReclaim hs.anchors.erase fun hq => ?_)
    exact { reclaimHeld_of (hs.journal hq) with wiping := nofun }
  next => exact hs
  next => exact hs

theorem after_eraseEnd_held (h : Held q s) : Held q (after .eraseEnd s) := by
  unfold after exec execEraseEnd
  dsimp only
  split
  next he => exact eraseEnded_held (takeOutcome_held h) he
  next => exact h

/-! ### The start of a wipe (R34, R110) -/

theorem wipeMember_states (k : SectorNo) (s : State) : (wipeMember k s).table.entries[k].state = .dirty ∧
    ∀ j : SectorNo, j ≠ k → (wipeMember k s).table.entries[j].state = s.table.entries[j].state := by
  have hexpired : (expireRange k s).table = s.table := (expireRange_frame (l := [.host]) .refl).table
  refine ⟨?_, fun j hj => ?_⟩
  · change (tableMod (expireRange k s).table.entries k _)[k].state = _
    rw [tableMod_get_self]
  · change (tableMod (expireRange k s).table.entries k _)[j].state = _
    rw [tableMod_get_ne _ _ _ _ hj, hexpired]

/-- Every member wiped is DIRTY; the other sectors keep their states. -/
theorem wipeMembers_states (xs : List SectorNo) (s : State) (k : SectorNo) :
    (xs.foldl (fun s i => wipeMember i s) s).table.entries[k].state =
      if k ∈ xs then .dirty else s.table.entries[k].state := by
  induction xs generalizing s with
  | nil => rfl
  | cons x xs ih =>
    rw [List.foldl_cons, ih]
    obtain ⟨hown, hother⟩ := wipeMember_states x s
    by_cases hk : k = x
    · subst hk
      rw [hown, ite_self, if_pos List.mem_cons_self]
    · rw [hother k hk]
      simp only [List.mem_cons, hk, false_or]

theorem acceptWipe_held {slot : SlotNo} (h : Held q t) (hd : t.host.device = .online) (hu : journalInUse t = false) :
    Held q (acceptWipe slot t) := by
  obtain ⟨hstreams, hcontexts, -, -, -, hidle⟩ := (journalInUse_iff t).mp hu
  have hstate : t.writer.state ≠ .opening := by
    rw [hidle]
    decide
  have hplace : q → t.writer.placement = none := fun hq =>
    Option.eq_none_iff_forall_ne_some.mpr fun pl hpl => by
      have hwriting := ((h.journal hq).placed pl hpl).1
      rw [hidle] at hwriting
      rcases hwriting with he | he <;> cases he
  obtain ⟨v, hv⟩ : ∃ v, t.onReclaim (fun r => { r with wipeActive := true, wipeSlot := some slot, signal := false }) = v :=
    ⟨_, rfl⟩
  obtain ⟨w, hw⟩ : ∃ w, v.table.journal.foldl (fun s i => wipeMember i s) v = w := ⟨_, rfl⟩
  have hvt : v.table = t.table := by
    rw [← hv]
    rfl
  have hstates (k : SectorNo) : w.table.entries[k].state =
      if k ∈ t.table.journal then .dirty else t.table.entries[k].state := by
    rw [← hw, wipeMembers_states, hvt]
  have hempties : Held q (t.onTable fun tb => { tb with entries := w.table.entries, journal := [] }) :=
    h.empties (fun k hk => by rw [hstates, if_pos hk]) (fun k hk => by rw [hstates, if_neg hk])
      (fun hq => (nothing_in_hand (h.journal hq) hstate).1) hplace
  have hwiping : Held q ((t.onTable fun tb => { tb with entries := w.table.entries, journal := [] }).onReclaim
      fun r => { r with wipeActive := true, wipeSlot := some slot, signal := false, state := .wiping }) := by
    refine hempties.onReclaim hempties.anchors.erase fun hq => { reclaimHeld_of (hempties.journal hq) with
      wiping := fun _ => rfl
      wipe := fun _ => ⟨rfl, ⟨hidle, hcontexts⟩, hstreams⟩
      unmounted := fun hm => ?_ }
    have hmounted := mounted_of_online (h.journal hq) hd
    rw [show t.mount.mounted = false from hm] at hmounted
    cases hmounted
  have hmembers : Frame [.sectors, .host, .table, .reclaim, .counters] v w := by
    rw [← hw]
    exact .foldl (fun h => wipeMember_frame h) .refl
  have hstart : Frame [.host, .table, .reclaim, .counters]
      (v.onTable fun tb => { tb with entries := w.table.entries, journal := [] })
      (w.onTable fun tb => { tb with journal := [] }) :=
    hmembers.onTable_both ⟨rfl, fun _ => .refl _⟩ (by simp) (by simp)
  have hstarted : Held q ((w.onTable fun tb => { tb with journal := [] }).onReclaim
      fun r => { r with state := .wiping }) := by
    refine hwiping.frame (l := [.host, .table, .reclaim, .counters]) ?_
    have hboth := hstart.onReclaim_both (f := fun r => { r with state := .wiping })
      (g := fun r => { r with state := .wiping }) ⟨rfl, hstart.erasing.erase, hstart.erasing.wipeActive⟩ (by simp) (by simp)
    rw [← hv] at hboth
    exact hboth
  have hactive : (w.onTable fun tb => { tb with journal := [] }).reclaim.wipeActive = true := by
    have heq := hstart.erasing.wipeActive
    rw [heq, ← hv]
    rfl
  unfold acceptWipe wipeStart
  dsimp only
  rw [hv, hw]
  exact .ite (continueWipe_held hstarted fun _ => hactive) hstarted

theorem after_wipe_held (h : Held q s) : Held q (after .wipe s) := by
  unfold after exec execWipe
  dsimp only
  split
  next slot _ =>
    have hp : Held q (popReclaim s) := h.frame (popReclaim_frame (l := [.reclaim]) .refl)
    have hcomplete {st : Status} : Held q (complete slot st (popReclaim s)) := hp.frame (complete_frame (l := [.host]) .refl)
    unfold takeWipe
    refine .ite hcomplete ?_
    split
    next => exact hcomplete
    next hd =>
      split
      next => exact hcomplete
      next hu => exact acceptWipe_held hp (not_not.mp hd) (Bool.eq_false_iff.mpr hu)
  next => exact h

end Sys2Proof.Machine
end

section
/-! Changes of the device state keep the journal list (R172, R173, R180, R181). -/

namespace Sys2Proof.Machine

open Sys2Proof.Laws Sys2Proof.Safety

set_option Elab.async false

variable {q : Prop} {l : List Block} {s t u : State}

/-! ### Device states in which nothing is assembled or mounted -/

/-- The device state is as before, or one in which nothing is assembled or mounted. -/
def Turns (s t : State) : Prop :=
  t.host.device = s.host.device ∨
    (t.host.device ≠ .online ∧ t.host.device ≠ .draining ∧ t.host.device ≠ .mounting)

theorem Turns.refl : Turns s s := .inl rfl

theorem Turns.ite {p : Prop} [Decidable p] (h : Turns s t) (k : Turns s u) : Turns s (if p then t else u) := by
  split
  · exact h
  · exact k

theorem Turns.trans (h : Turns s t) (k : Turns t u) : Turns s u := by
  rcases k with k | k
  · rw [Turns, k]
    exact h
  · exact .inr k

theorem turns_of {d : DeviceState} (h : t.host.device = d) (hd : d ≠ .online ∧ d ≠ .draining ∧ d ≠ .mounting) :
    Turns s t := .inr (by rw [h]; exact hd)

theorem turns_frame (h : Frame l s t) (hd : Block.device ∉ l := by simp) : Turns s t := .inl (h.device hd)

theorem Held.turns (h : Held q t) (hm : Moves t u) (hf : Frame l t u) (hd : Turns t u)
    (hp : Block.program ∉ l := by simp) (he : Block.erasing ∉ l := by simp) (hs : Block.sectors ∉ l := by simp)
    (hc : Block.scan ∉ l := by simp) : Held q u := by
  refine h.device hm hf (fun hq => ?_) hp he hs hc
  rcases hd with hd | ⟨h1, h2, h3⟩
  · rw [hd]
    exact enters_of (h.journal hq)
  · exact ⟨fun hd => hd.elim (absurd · h1) (absurd · h2), fun hd => absurd hd h3⟩

theorem halt_turns {r : Reason} : Turns s (halt r s) := .ite .refl (turns_of (d := .halted) (withCauses_device ..) (by decide))

theorem enterOffline_turns {r : Reason} {k : Nat} : Turns s (enterOffline r k s) :=
  turns_of (d := .offline) (withCauses_device ..) (by decide)

theorem enterSetup_turns : Turns s (enterSetup s) := by
  refine turns_of (d := .setup) ?_ (by decide)
  unfold enterSetup State.onHost
  dsimp only
  split
  · rfl
  · rfl

theorem enterStopped_turns : Turns s (enterStopped s) :=
  .ite (.trans (t := s.onHost fun h => h.changeState .stopped) (turns_of (d := .stopped) rfl (by decide)) enterSetup_turns)
    (turns_of (d := .stopped) rfl (by decide))

/-! ### The rows of the Host Ring Unit, and the limits of the array's operations -/

theorem after_ctrlEnableSet_turns : Turns s (after .ctrlEnableSet s) :=
  .ite (.trans (t := s.onHost fun h => { h with enable := true }) (.inl rfl) enterSetup_turns) (.inl rfl)

theorem after_drainEnd_turns : Turns s (after .drainEnd s) := .ite enterStopped_turns .refl

theorem entryWriteEnded_turns {f : HostUnit → Setup → HostUnit} {r : Reason} {ok : Bool}
    (hf : ∀ h c, (f h c).device = h.device) : Turns s (entryWriteEnded f r ok s) := by
  unfold entryWriteEnded
  split
  · exact .refl
  next c _ =>
    refine .ite ?_ halt_turns
    have hwritten : Turns s (s.onHost fun h => f h c) := .inl (hf s.host c)
    exact hwritten.trans (turns_frame (resumeSetup_frame (l := [.host]) .refl))

theorem after_completionWriteEnd_turns {ok : Bool} : Turns s (after (.completionWriteEnd ok) s) := by
  unfold after exec execCompletionWriteEnd
  dsimp only
  split
  · exact .ite (entryWriteEnded_turns fun _ _ => rfl) .refl
  · exact .refl

theorem after_noticeWriteEnd_turns {ok : Bool} : Turns s (after (.noticeWriteEnd ok) s) := by
  unfold after exec execNoticeWriteEnd
  dsimp only
  split
  · exact .ite (entryWriteEnded_turns fun _ _ => rfl) .refl
  · exact .refl

theorem after_statusWriteEnd_turns {ok : Bool} : Turns s (after (.statusWriteEnd ok) s) := by
  unfold after exec execStatusWriteEnd
  dsimp only
  split
  next completions notices stateChange _ =>
    have hwritten : Turns s
        (s.onHost fun h => { h with ringWrite := none }.withCauses (statusCauses completions notices stateChange)) :=
      .inl (withCauses_device ..)
    exact .ite (.ite (hwritten.trans (turns_frame (resumeSetup_frame (l := [.host]) .refl))) halt_turns) .refl
  next => exact .refl

theorem after_submissionFetchEnd_turns {a : Option (List Byte)} : Turns s (after (.submissionFetchEnd a) s) := by
  unfold after exec execSubmissionFetchEnd
  dsimp only
  split
  next i ring c _ _ =>
    refine .ite ?_ .refl
    unfold fetchEnded
    split
    · exact halt_turns
    next bytes =>
      have hadvanced : Turns s (s.onHost fun h => h.advanceHead c ring) := .inl rfl
      exact hadvanced.trans (turns_frame (takeEntry_frame (l := queueBlocks) .refl))
  next => exact .refl

theorem after_arrayOperationEnd_turns {e : Nat} {r : ArrayReport} : Turns s (after (.arrayOperationEnd e r) s) := by
  change Turns s (operationEnded e r s)
  unfold operationEnded
  split
  · exact .refl
  · refine .ite ?_ .refl
    split
    · exact .refl
    · exact .inl rfl

theorem after_eraseStopped_turns {e : Nat} : Turns s (after (.eraseStopped e) s) := by
  change Turns s (eraseStopped e s)
  unfold eraseStopped
  refine .ite ?_ .refl
  have hstopped : Turns s (match s.ctrl.erase with
      | some e => stopLines e.sector s
      | none => s) := by
    cases s.ctrl.erase with
    | some e => exact .inl rfl
    | none => exact .refl
  exact hstopped.trans (.inl rfl)

theorem after_arrayTimeout_turns {e : Nat} {left : Residue} : Turns s (after (.arrayTimeout e left) s) := by
  change Turns s (operationTimedOut e left s)
  unfold operationTimedOut
  split
  · exact .refl
  next sector op _ =>
    refine .ite ?_ .refl
    have hcut : Turns s (((s.onCtrl fun c => { c.leave op with
        eraseTime := match op with
          | .eraseSector _ => min (c.eraseTime + e) Config.eraseLimit
          | _ => c.eraseTime }).onArray fun m => cutShort m s.barred op left).onBarred
            fun b => cutBarred s.array op b) := .inl rfl
    exact hcut.trans halt_turns

/-! ### Draining (R180) -/

theorem enterDraining_held (h : Held q t) (hd : t.host.device = .online) : Held q (enterDraining t) := by
  have hgathers : Gathers t := .inl (by simp [State.takesCommands, hd])
  have hframe : Frame [.host, .assembly, .writer, .device] t
      (drainAssembly (t.onHost fun h => h.changeState .draining)) := drainAssembly_frame (onHost_device_frame .refl)
  have hmoves : Moves t (drainAssembly (t.onHost fun h => h.changeState .draining)) :=
    drainAssembly_moves (Moves.refl.frame (onHost_device_frame (l := [.host, .device]) .refl)) hgathers
  have hheld : Held q (drainAssembly (t.onHost fun h => h.changeState .draining)) := by
    refine h.device hmoves hframe fun hq => ?_
    have hdevice : (drainAssembly (t.onHost fun h => h.changeState .draining)).host.device = .draining :=
      (drainAssembly_frame (l := [.host, .assembly, .writer]) .refl).device
    rw [hdevice]
    exact ⟨fun _ => mounted_of_online (h.journal hq) hd, nofun⟩
  unfold enterDraining drainWriter
  split
  next hw => exact askSector_held hheld fun hq => not_barred (hheld.journal hq) (by rw [hw]; decide)
  next => exact hheld

theorem after_ctrlEnableClear_held (h : Held q s) : Held q (after .ctrlEnableClear s) := by
  have hc : Held q (s.onHost fun h => { h with enable := false }) := h.frame (onHost_frame (l := [.host]) .refl)
  change Held q (if s.host.device = .online then enterDraining (s.onHost fun h => { h with enable := false })
    else s.onHost fun h => { h with enable := false })
  split
  next hd => exact enterDraining_held hc hd
  next => exact hc

/-! ### ONLINE and MOUNTING (R159, R172, R173) -/

theorem enterOnline_held (h : Held q t) (hm : t.mount.mounted = true) : Held q (enterOnline t) := by
  refine h.device (enterOnline_moves .refl)
    (enterOnline_frame (l := [.host, .assembly, .reclaim, .device]) .refl) fun _ => ?_
  have hdevice : (enterOnline t).host.device = .online := (signalReclaim_frame (l := [.reclaim]) .refl).device
  rw [hdevice]
  exact ⟨fun _ => hm, nofun⟩

/-- The Mount Unit as the anchor scan begins (R159, R160). -/
def firstSlot (m : Mount) : Mount :=
  { Mount.reset m.resetKind with phase := .anchorScan, mounted := m.mounted, position := .slot 0 0 }

theorem enterMounting_held (h : Held q t) (hm : t.mount.mounted = false) : Held q (enterMounting t) := by
  have hfinding (i : SectorNo) : (firstSlot t.mount).findings[i] = .none := Vector.getElem_replicate ..
  have hscan : Held q (t.onMount firstSlot) := by
    refine h.onMount rfl (fun i hi => ?_) nofun (fun _ i w e p hi => ?_) fun _ => nofun
    · rw [hfinding] at hi
      cases hi
    · rw [hfinding] at hi
      cases hi
  have hdevice : Held q ((t.onMount firstSlot).onHost fun h => h.changeState .mounting) :=
    hscan.device (Moves.refl.frame (onHost_device_frame (l := [.host, .device]) .refl))
      (onHost_device_frame (l := [.host, .device]) .refl) fun _ => ⟨nofun, fun _ => hm⟩
  exact hdevice.frame (placeRequest_frame (l := [.ctrl]) .refl)

theorem after_setupReadEnd_held {a : Option (List Byte)} (h : Held q s) : Held q (after (.setupReadEnd a) s) := by
  have hoffline {r : Reason} {k : Nat} : Held q (enterOffline r k s) :=
    h.turns (Moves.refl.frame (enterOffline_frame (l := [.host, .device]) .refl))
      (enterOffline_frame (l := [.host, .device]) .refl) enterOffline_turns
  refine .ite ?_ h
  unfold setupReadEnded setupBlockRead
  split
  next bytes =>
    dsimp only
    split
    next => exact hoffline
    next =>
      have hread : Held q (s.onHost fun h =>
          { h with setup := some (parseSetup bytes), setupStage := .idle, statusMark := true }) :=
        h.frame (onHost_frame (l := [.host]) .refl)
      split
      next =>
        split
        next hm => exact enterOnline_held hread hm
        next hm => exact enterMounting_held hread (Bool.eq_false_iff.mpr hm)
      next =>
        exact hread.turns (Moves.refl.frame (onHost_device_frame (l := [.host, .device]) .refl))
          (onHost_device_frame (l := [.host, .device]) .refl) (turns_of (d := .stopped) rfl (by decide))
  next => exact hoffline

end Sys2Proof.Machine
end

section
/-! A mount keeps the anchors apart, and hands the journal list over (R160 to R169). -/

namespace Sys2Proof.Machine

open Sys2Proof.Laws Sys2Proof.Safety

set_option Elab.async false

variable {q : Prop} {s t u : State}

/-! ### The members of a build (R164, R165) -/

theorem keepRising_sublist (high : Nat) (xs : List Candidate) : (keepRising high xs).Sublist xs := by
  induction xs generalizing high with
  | nil => exact .slnil
  | cons c xs ih =>
    unfold keepRising
    split
    · exact (ih high).cons_cons c
    · split
      · exact (ih high).cons c
      · exact (ih _).cons_cons c

theorem members_valid {m : Mount} {c : Candidate} (h : c ∈ m.members) :
    m.findings[c.sector] = .valid c.walk c.walkEnd c.position := by
  obtain ⟨hfirst, hapart⟩ := mem_firstOfEpoch m.validSectors [] (validSectors_sorted m)
  have hsorted := (sortByEpoch_spec _ hapart).1 c
  exact (mem_validSectors m c).mp ((hfirst c).mp (hsorted.mp ((keepRising_sublist 0 _).subset h))).1

/-- The members' sectors are the sectors listed. -/
theorem mem_sectors {m : Mount} {i : SectorNo} : i ∈ m.members.map (·.sector) ↔ ∃ c ∈ m.members, c.sector = i :=
  List.mem_map

theorem members_nodup {m : Mount} (hc : Counted m) : (m.members.map (·.sector)).Nodup := by
  rw [List.Nodup, List.pairwise_map]
  refine (members_spec m hc).1.imp_of_mem fun {a b} ha hb hab he => ?_
  have hwalk := (members_valid ha).symm.trans ((congrArg (m.findings[·]) he).trans (members_valid hb))
  cases a
  cases b
  cases hwalk
  exact absurd hab (lt_irrefl _)

/-- The entry of a member: OPEN or CLOSED, with the epoch of its header and the JSNs of its walk. -/
structure MemberBuilt (c : Candidate) (e : SectorEntry) : Prop where
  state : e.state = .opened ∨ e.state = .closed
  epoch : e.epoch = some c.walk.header.epoch
  range : e.range = if c.walk.count = 0 then none else some (c.walk.header.baseJsn, c.walk.expected - 1)

section
variable {m : Mount} {old : SectorTable} {c : Candidate} {i : SectorNo}

theorem memberBuilt_of (hc : Counted m) (hm : c ∈ m.members) (hj : IsJournal c.sector) :
    MemberBuilt c (m.builtTable old).entries[c.sector] := by
  have hlisted : c.sector ∈ m.members.map (·.sector) := mem_sectors.mpr ⟨c, hm, rfl⟩
  obtain ⟨-, hopens, hcloses⟩ := (built_entries m hc old).valid c.sector _ _ _ hj (members_valid hm)
  by_cases ho : (m.members.map (·.sector)).getLast? = some c.sector ∧ c.walkEnd = .erased ∧ m.nextJsn = c.walk.expected
  · rw [hopens hlisted ho]
    exact ⟨.inl rfl, rfl, rfl⟩
  · rw [hcloses hlisted ho]
    exact ⟨.inr rfl, rfl, rfl⟩

theorem opened_last (hc : Counted m) (hm : c ∈ m.members) (hj : IsJournal c.sector)
    (ho : (m.builtTable old).entries[c.sector].state = .opened) :
    (m.members.map (·.sector)).getLast? = some c.sector := by
  have hlisted : c.sector ∈ m.members.map (·.sector) := mem_sectors.mpr ⟨c, hm, rfl⟩
  obtain ⟨-, -, hcloses⟩ := (built_entries m hc old).valid c.sector _ _ _ hj (members_valid hm)
  by_contra hlast
  rw [hcloses hlisted fun h => hlast h.1] at ho
  cases ho

/-- An entry of a build that is not an anchor's is none. -/
theorem built_not_anchor (hi : IsJournal i) : (m.builtTable old).entries[i].state ≠ .anchor := by
  have hget : (m.builtTable old).entries[i] = m.entryOf m.members (m.openMember.map (·.sector)) old.entries[i] i :=
    tabulate_get _ i
  have hbuilt {st : SectorState} {w : Nat × Bool} (hne : st ≠ .anchor) : (builtEntry st w).state ≠ .anchor := hne
  rw [hget]
  unfold Mount.entryOf
  rw [if_neg (Nat.not_lt.mpr hi)]
  split
  · exact hbuilt nofun
  · refine hbuilt ?_
    split
    · nofun
    · nofun
  · exact hbuilt nofun
  · exact hbuilt nofun
  · split
    next c _ =>
      change (if (m.openMember.map (·.sector) == some i) = true then SectorState.opened else .closed) ≠ .anchor
      split
      · nofun
      · nofun
    next => exact hbuilt nofun

theorem built_anchor (hi : i.val < 2) : (m.builtTable old).entries[i].state = .anchor := by
  have hget : (m.builtTable old).entries[i] = m.entryOf m.members (m.openMember.map (·.sector)) old.entries[i] i :=
    tabulate_get _ i
  rw [hget]
  unfold Mount.entryOf
  rw [if_pos hi]
  rfl

/-- A journal sector that is no member is neither OPEN nor CLOSED. -/
theorem built_outside (hc : Counted m) (hi : IsJournal i) (hn : i ∉ m.members.map (·.sector)) :
    (m.builtTable old).entries[i].state ≠ .opened ∧ (m.builtTable old).entries[i].state ≠ .closed := by
  have hbuilt := built_entries m hc old
  cases hf : m.findings[i] with
  | valid w e p =>
    rw [(hbuilt.valid i w e p hi hf).1 hn]
    exact ⟨nofun, nofun⟩
  | none =>
    rw [(hbuilt.others i hi (by rw [hf]; rfl)).2.2, hf]
    exact ⟨nofun, nofun⟩
  | retired =>
    rw [(hbuilt.others i hi (by rw [hf]; rfl)).2.2, hf]
    exact ⟨nofun, nofun⟩
  | blank =>
    rw [(hbuilt.others i hi (by rw [hf]; rfl)).2.2, hf]
    dsimp only
    split
    · exact ⟨nofun, nofun⟩
    · exact ⟨nofun, nofun⟩
  | dirty =>
    rw [(hbuilt.others i hi (by rw [hf]; rfl)).2.2, hf]
    exact ⟨nofun, nofun⟩

theorem builtFindings_valid {w : Walk} {e : WalkEnd} {p : Nat} (h : m.builtFindings[i] = .valid w e p) :
    m.findings[i] = .valid w e p := by
  have hget : m.builtFindings[i] = match m.findings[i] with
      | .valid w e p => if m.members.any fun c => c.sector == i then .valid w e p else .dirty
      | .none => .none
      | .retired => .retired
      | .blank => .blank
      | .dirty => .dirty := tabulate_get _ i
  rw [hget] at h
  split at h
  next heq =>
    split at h
    · exact heq.trans h
    · cases h
  all_goals cases h

end

/-! ### What the built table holds -/

/-- The sector table and the numbers of a build, as the journal list asks them (R18, R164 to R166). -/
theorem built_tableHeld (j : JournalHeld s) (hs : AnchorsApart s) (hm : s.mount.mounted = false) :
    TableHeld { s with writer := { s.writer with
      nextJsn := some s.mount.nextJsn, nextEpoch := some s.mount.nextEpoch } } (s.mount.builtTable s.table) := by
  have hc : Counted s.mount := j.findings
  obtain ⟨-, -, ⟨hidle, -⟩, herase, hwipe⟩ := j.unmounted hm
  have hstate : s.writer.state ≠ .opening := by
    rw [hidle]
    decide
  obtain ⟨hhand, hheader⟩ := nothing_in_hand j hstate
  have hjournal {c : Candidate} (hm : c ∈ s.mount.members) : IsJournal c.sector :=
    hs.findings c.sector (by rw [members_valid hm]; rfl)
  have hbuilt {c : Candidate} (hm : c ∈ s.mount.members) :
      MemberBuilt c (s.mount.builtTable s.table).entries[c.sector] := memberBuilt_of hc hm (hjournal hm)
  have hrange {c : Candidate} (hm : c ∈ s.mount.members) {a b : Nat}
      (hab : (s.mount.builtTable s.table).entries[c.sector].range = some (a, b)) :
      c.walk.count ≠ 0 ∧ a = c.walk.header.baseJsn ∧ b = c.walk.expected - 1 := by
    rw [(hbuilt hm).range] at hab
    split at hab
    · cases hab
    next hcount =>
      cases hab
      exact ⟨hcount, rfl, rfl⟩
  obtain ⟨hrising, -, hmembers⟩ := members_spec s.mount hc
  exact {
    nodup := members_nodup hc
    members := fun i => by
      change i ∈ s.mount.members.map (·.sector) ↔ _
      by_cases hi : i.val < 2
      · refine ⟨fun hx => ?_, fun hx => ?_⟩
        · obtain ⟨c, hcm, rfl⟩ := mem_sectors.mp hx
          exact absurd hi (Nat.not_lt.mpr (hjournal hcm))
        · rw [built_anchor hi] at hx
          exact absurd hx (by decide)
      · refine ⟨fun hx => ?_, fun hx => ?_⟩
        · obtain ⟨c, hcm, rfl⟩ := mem_sectors.mp hx
          exact (hbuilt hcm).state
        · by_contra hn
          obtain ⟨ho, hcl⟩ := built_outside (old := s.table) hc (Nat.not_lt.mp hi) hn
          exact hx.elim ho hcl
    openLast := fun i ho => by
      by_cases hx : i ∈ s.mount.members.map (·.sector)
      · obtain ⟨c, hcm, rfl⟩ := mem_sectors.mp hx
        exact opened_last hc hcm (hjournal hcm) ho
      · by_cases hi : i.val < 2
        · rw [built_anchor hi] at ho
          cases ho
        · exact absurd ho (built_outside hc (Nat.not_lt.mp hi) hx).1
    epochs := fun i hx => by
      obtain ⟨c, hcm, rfl⟩ := mem_sectors.mp hx
      refine ⟨c.walk.header.epoch, (hbuilt hcm).epoch, ?_⟩
      exact (nextEpoch_highest s.mount).2.1 _ ⟨_, _, _, _, members_valid hcm, rfl⟩
    rising := by
      change (s.mount.members.map (·.sector)).Pairwise _
      rw [List.pairwise_map]
      refine hrising.imp_of_mem fun {c d} hcm hdm hcd a b ha hb => ?_
      rw [(hbuilt hcm).epoch] at ha
      rw [(hbuilt hdm).epoch] at hb
      cases ha
      cases hb
      exact hcd
    ranges := fun i hx a b hab => by
      obtain ⟨c, hcm, rfl⟩ := mem_sectors.mp hx
      obtain ⟨hcount, rfl, rfl⟩ := hrange hcm hab
      obtain ⟨hbase, hexpected⟩ := hc _ _ _ _ (members_valid hcm)
      have hnext : c.walk.expected ≤ s.mount.nextJsn :=
        (nextJsn_highest s.mount).2.1 _ ⟨_, _, _, _, members_valid hcm, .inl rfl⟩
      change c.walk.header.baseJsn ≤ c.walk.expected - 1 ∧ c.walk.expected - 1 < s.mount.nextJsn
      omega
    apart := by
      change (s.mount.members.map (·.sector)).Pairwise _
      rw [List.pairwise_map]
      refine hrising.imp_of_mem fun {k d} hkm hdm hkd a b x y hab hxy => ?_
      obtain ⟨hkcount, rfl, rfl⟩ := hrange hkm hab
      obtain ⟨hdcount, rfl, rfl⟩ := hrange hdm hxy
      have hle := (((hmembers d).mp hdm).2.2.resolve_left hdcount) k hkm hkd hkcount
      have hexpected := (hc _ _ _ _ (members_valid hkm)).2
      omega
    hand := fun i hi => nomatch hhand.symm.trans hi
    header := fun e he => nomatch hheader.symm.trans he
    placed := fun pl hpl => by
      have hwriting := (j.placed pl hpl).1
      rw [hidle] at hwriting
      exact absurd hwriting (by decide)
    erasing := fun i hi => nomatch herase.symm.trans hi
    wipe := fun hw => nomatch hwipe.symm.trans hw }

theorem handOver_held (h : Held q s) (hd : s.host.device = .mounting) : Held q (handOver s) := by
  have hreclaim : SameErasing s.reclaim (if s.host.enable then signalled s.reclaim else s.reclaim) := by
    split
    · exact ⟨rfl, rfl, rfl⟩
    · exact .refl _
  rw [handOver_eq s hd]
  refine ⟨?anchors, fun hq => ?journal⟩
  case anchors =>
    exact { h.anchors with
      anchors := fun i => by
        by_cases hi : i.val < 2
        · exact ⟨fun _ => hi, fun _ => built_anchor hi⟩
        · exact ⟨fun ha => absurd ha (built_not_anchor (Nat.not_lt.mp hi)), fun hlt => absurd hlt hi⟩
      journal := fun i hx => by
        obtain ⟨c, hcm, rfl⟩ := mem_sectors.mp hx
        exact h.anchors.findings c.sector (by rw [members_valid hcm]; rfl)
      findings := fun i hi => by
        change isValid s.mount.builtFindings[i] = true at hi
        cases hf : s.mount.builtFindings[i] with
        | valid w e p => exact h.anchors.findings i (by rw [builtFindings_valid hf]; rfl)
        | none => rw [hf] at hi; cases hi
        | retired => rw [hf] at hi; cases hi
        | blank => rw [hf] at hi; cases hi
        | dirty => rw [hf] at hi; cases hi
      erase := fun i hi => h.anchors.erase i (hreclaim.erase.symm.trans hi)
      scan := nofun }
  case journal =>
    have j := h.journal hq
    have hm := j.mounting hd
    obtain ⟨-, -, ⟨hidle, hcontexts⟩, herase, hwipe⟩ := j.unmounted hm
    have hstate : s.writer.state ≠ .opening := by
      rw [hidle]
      decide
    obtain ⟨hhand, hheader⟩ := nothing_in_hand j hstate
    have hb := built_tableHeld j h.anchors hm
    exact {
      nodup := hb.nodup
      members := hb.members
      openLast := hb.openLast
      epochs := hb.epochs
      rising := hb.rising
      ranges := hb.ranges
      apart := hb.apart
      opening := fun ho => absurd ho hstate
      hand := fun i hi => nomatch hhand.symm.trans hi
      header := fun e he => nomatch hheader.symm.trans he
      placed := fun pl hpl => ⟨(j.placed pl hpl).1, hb.placed pl hpl⟩
      erasing := fun i hi => nomatch herase.symm.trans (hreclaim.erase.symm.trans hi)
      wiping := fun hw => hreclaim.wipeActive.trans (j.wiping (hreclaim.state.symm.trans hw))
      wipe := fun hw => nomatch hwipe.symm.trans (hreclaim.wipeActive.symm.trans hw)
      unmounted := nofun
      mounting := fun hmount => by
        change (if s.host.enable then DeviceState.online else .stopped) = .mounting at hmount
        split at hmount
        · cases hmount
        · cases hmount
      findings := fun i w e p hi => j.findings i w e p (builtFindings_valid hi)
      scan := nofun }

/-! ### The scans (R160 to R163) -/

theorem setFinding_held {i : SectorNo} {f : Finding} (h : Held q t) (hf : isValid f = true → IsJournal i)
    (hw : q → ∀ w e p, f = .valid w e p → Walk.counted w) : Held q (setFinding i f t) := by
  have hget (k : SectorNo) : (t.mount.findings.set i f)[k] = if k = i then f else t.mount.findings[k] :=
    tableSet_get ..
  refine h.onMount rfl (fun k hk => ?_) h.anchors.scan (fun hq k w e p hk => ?_) fun hq => (h.journal hq).scan
  · change isValid (t.mount.findings.set i f)[k] = true at hk
    rw [hget] at hk
    split at hk
    next he => exact he ▸ hf hk
    next => exact h.anchors.findings k hk
  · change (t.mount.findings.set i f)[k] = _ at hk
    rw [hget] at hk
    split at hk
    · exact hw hq w e p hk
    · exact (h.journal hq).findings k w e p hk

/-- The Mount Unit goes on to a sector or a line. -/
theorem position_held {f : Mount → Mount} {p : ScanPosition} (h : Held q t)
    (hf : f t.mount = { t.mount with position := p }) (hp : ∀ i, scanned p = some i → IsJournal i)
    (hw : q → ∀ w, walking p = some w → Walk.counted w) : Held q (t.onMount f) := by
  refine h.onMount (by rw [hf]) (fun i hi => ?_) (by rw [hf]; exact hp) (fun hq i w e k hi => ?_) (by rw [hf]; exact hw)
  · rw [hf] at hi
    exact h.anchors.findings i hi
  · rw [hf] at hi
    exact (h.journal hq).findings i w e k hi

theorem requestMountLine_held {i : SectorNo} {line : Nat} {p : ScanPosition} (h : Held q t)
    (hp : ∀ i, scanned p = some i → IsJournal i) (hw : q → ∀ w, walking p = some w → Walk.counted w) :
    Held q (requestMountLine i line p t) :=
  (position_held h rfl hp hw).frame (placeRequest_frame (l := [.ctrl]) .refl)

theorem scanSectors_held {xs : List SectorNo} (h : Held q t) (hd : t.host.device = .mounting)
    (hx : ∀ i ∈ xs, IsJournal i) : Held q (scanSectors xs t) := by
  induction xs generalizing t with
  | nil => exact handOver_held (h.frame (onMount_frame (l := [.mount]) .refl)) hd
  | cons i xs ih =>
    unfold scanSectors
    refine .ite (ih (setFinding_held h nofun fun _ => nofun) hd fun k hk => hx k (List.mem_cons_of_mem _ hk)) ?_
    refine requestMountLine_held h (fun k hk => ?_) fun _ => nofun
    cases hk
    exact hx _ List.mem_cons_self

theorem journal_of_mem_drop {n : Nat} (hn : 2 ≤ n) {i : SectorNo} (h : i ∈ allSectors.drop n) : IsJournal i := by
  obtain ⟨_, _, rfl⟩ := List.mem_drop_iff_getElem.mp h
  simp only [allSectors, List.getElem_finRange, IsJournal, Fin.val_cast]
  omega

theorem scanAfter_held {i : SectorNo} (h : Held q t) (hd : t.host.device = .mounting) (hi : IsJournal i) :
    Held q (scanAfter i t) :=
  scanSectors_held h hd fun _ hk => journal_of_mem_drop (Nat.le_succ_of_le hi) hk

/-- The findings of the anchor scan are apart from those of the sectors. -/
theorem withSlot_same (m : Mount) (a : Fin 2) (slot : Nat) (l : List LineOutcome) : SameScan m (m.withSlot a slot l) := by
  cases l with
  | cons o l =>
    rw [withSlot_found]
    exact ⟨rfl, rfl, rfl⟩
  | nil =>
    have hnil : m.withSlot a slot [] = m.withSlot a slot [.uncorrectable] := rfl
    rw [hnil, withSlot_found]
    exact ⟨rfl, rfl, rfl⟩

theorem slotRead_held {a : Fin 2} {slot : Nat} {l : List LineOutcome} (h : Held q t)
    (hd : t.host.device = .mounting) : Held q (slotRead a slot l t) := by
  have hsame := withSlot_same t.mount a slot l
  have hfound : Held q (t.onMount fun m => m.withSlot a slot l) := by
    refine h.onMount hsame.mounted (fun i hi => ?_) (by rw [hsame.position]; exact h.anchors.scan)
      (fun hq i w e p hi => ?_) fun hq => by rw [hsame.position]; exact (h.journal hq).scan
    · simp only [hsame.findings] at hi
      exact h.anchors.findings i hi
    · simp only [hsame.findings] at hi
      exact (h.journal hq).findings i w e p hi
  have hnext {b : Fin 2} {n : Nat} : Held q (requestSlot b n (t.onMount fun m => m.withSlot a slot l)) :=
    (position_held (p := .slot b n) hfound rfl nofun fun _ => nofun).frame (placeRequest_frame (l := [.ctrl]) .refl)
  refine .ite hnext (.ite hnext ?_)
  exact scanSectors_held (hfound.frame (onMount_frame (l := [.mount]) .refl)) hd
    fun i hi => journal_of_mem_drop le_rfl hi

/-! ### Walks (R163) -/

theorem mountWalkEnded_held {i : SectorNo} {w : Walk} {e : WalkEnd} {p : Nat} (h : Held q t)
    (hd : t.host.device = .mounting) (hi : IsJournal i) (hw : q → Walk.counted w) : Held q (mountWalkEnded i w e p t) := by
  have hfound : Held q (setFinding i (.valid w e p) t) := by
    refine setFinding_held h (fun _ => hi) fun hq w' _ _ heq => ?_
    cases heq
    exact hw hq
  exact scanAfter_held (hfound.frame (onMount_frame (l := [.mount]) .refl)) hd hi

theorem mountHeaderRead_held {i : SectorNo} {w : Walk} {p : Nat} {o : LineOutcome} (h : Held q t)
    (hd : t.host.device = .mounting) (hi : IsJournal i) (hw : q → Walk.counted w) :
    Held q (mountHeaderRead i p w o t) := by
  unfold mountHeaderRead
  split
  · exact mountWalkEnded_held h hd hi hw
  · exact mountWalkEnded_held h hd hi hw
  · exact mountWalkEnded_held h hd hi hw
  · exact mountWalkEnded_held h hd hi hw
  · refine requestMountLine_held h (fun k hk => ?_) fun hq w' hw' => ?_
    · cases hk
      exact hi
    · cases hw'
      exact hw hq

theorem counted_pass {w : Walk} (r : RecordHeader) (h : Walk.counted w) : Walk.counted (w.pass r) := by
  obtain ⟨hbase, hexpected⟩ := h
  refine ⟨hbase, ?_⟩
  change w.expected + 1 = w.header.baseJsn + (w.count + 1)
  omega

theorem mountCommitRead_held {i : SectorNo} {w : Walk} {p : Nat} {r : RecordHeader} {o : LineOutcome} (h : Held q t)
    (hd : t.host.device = .mounting) (hi : IsJournal i) (hw : q → Walk.counted w) :
    Held q (mountCommitRead i p r w o t) := by
  unfold mountCommitRead
  split
  · exact mountWalkEnded_held h hd hi hw
  · refine .ite (mountWalkEnded_held h hd hi fun hq => counted_pass r (hw hq)) ?_
    refine requestMountLine_held h (fun k hk => ?_) fun hq w' hw' => ?_
    · cases hk
      exact hi
    · cases hw'
      exact counted_pass r (hw hq)

/-- A valid sector header has a base JSN of 1 or above (R5). -/
theorem counted_start {o : LineOutcome} {hdr : SectorHeader} (h : validSectorHeader o = some hdr) :
    Walk.counted (Walk.start hdr) := by
  unfold validSectorHeader at h
  split at h
  · cases h
  · split at h
    next hvalid =>
      cases h
      obtain ⟨-, -, hbase, -⟩ := hvalid
      exact ⟨of_decide_eq_true (Bool.and_eq_true_iff.mp hbase).1, rfl⟩
    next => cases h

theorem mountSectorRead_held {i : SectorNo} {o : LineOutcome} (h : Held q t) (hd : t.host.device = .mounting)
    (hi : IsJournal i) : Held q (mountSectorRead i o t) := by
  unfold mountSectorRead
  split
  next hdr hh =>
    refine requestMountLine_held h (fun k hk => ?_) fun _ w' hw' => ?_
    · cases hk
      exact hi
    · cases hw'
      exact counted_start hh
  next =>
    refine .ite ?_ (scanAfter_held (setFinding_held h nofun fun _ => nofun) hd hi)
    refine (position_held (p := .blankCheck i) h rfl (fun k hk => ?_) fun _ => nofun).frame (placeRequest_frame (l := [.ctrl]) .refl)
    cases hk
    exact hi

/-! ### The rows of the Mount Unit -/

theorem after_anchorSlotRead_held (h : Held q s) : Held q (after .anchorSlotRead s) := by
  unfold after exec execAnchorSlotRead
  dsimp only
  split
  · split
    next hd => exact slotRead_held (takeOutcome_held h) hd
    next => exact h
  · exact h

theorem after_mountLineRead_held (h : Held q s) : Held q (after .mountLineRead s) := by
  unfold after exec execMountLineRead
  dsimp only
  split
  next hd =>
    have ht : Held q (takeOutcome .mount s) := takeOutcome_held h
    have hscan {p : ScanPosition} (hp : s.mount.position = p) {i : SectorNo} (hi : scanned p = some i) : IsJournal i :=
      h.anchors.scan i (hp ▸ hi)
    have hwalk {p : ScanPosition} (hp : s.mount.position = p) {w : Walk} (hw : walking p = some w) (hq : q) :
        Walk.counted w := (h.journal hq).scan w (hp ▸ hw)
    split
    next hp => exact mountSectorRead_held ht hd (hscan hp rfl)
    next hp => exact mountHeaderRead_held ht hd (hscan hp rfl) (hwalk hp rfl)
    next hp => exact mountCommitRead_held ht hd (hscan hp rfl) (hwalk hp rfl)
    next => exact h
  next => exact h

theorem after_blankCheckEnd_held (h : Held q s) : Held q (after .blankCheckEnd s) := by
  unfold after exec execBlankCheckEnd
  dsimp only
  split
  next hd =>
    have hscan {i : SectorNo} (hp : s.mount.position = .blankCheck i) : IsJournal i := h.anchors.scan i (by rw [hp]; rfl)
    have hends {i : SectorNo} {f : Finding} (hf : isValid f = false) (hp : s.mount.position = .blankCheck i) :
        Held q (scanAfter i (setFinding i f (takeOutcome .mount s))) := by
      refine scanAfter_held (setFinding_held (takeOutcome_held h) (fun hv => ?_) fun _ w e p hv => ?_) hd (hscan hp)
      · rw [hf] at hv
        cases hv
      · rw [hv] at hf
        cases hf
    split
    next hp => exact hends rfl hp
    next hp => exact hends rfl hp
    next => exact h
  next => exact h

end Sys2Proof.Machine
end

section
/-! Every step keeps the anchors apart (O10), and the lists of the blocks (O6). -/

namespace Sys2Proof.Machine

open Sys2Proof.Laws Sys2Proof.Safety

set_option Elab.async false

variable {q : Prop} {s : State}

/-- A command that writes no part of what the journal list speaks of. -/
def Plain (c : Instr) : Prop :=
  Block.device ∉ writes c ∧ Block.program ∉ writes c ∧ Block.erasing ∉ writes c ∧ Block.sectors ∉ writes c ∧
    Block.scan ∉ writes c

theorem Plain.held {c : Instr} (hp : Plain c) (hr : isReset c = false) (h : Held q s) : Held q (after c s) := by
  obtain ⟨hdevice, hprogram, herasing, hsectors, hscan⟩ := hp
  exact h.moves (after_moves c s hr) (after_frame c s) hdevice hprogram herasing hsectors hscan

/-- A command that writes no more than the device state of what the journal list speaks of. -/
theorem turns_held {c : Instr} (h : Held q s) (hr : isReset c = false) (hd : Turns s (after c s))
    (hp : Block.program ∉ writes c) (he : Block.erasing ∉ writes c) (hs : Block.sectors ∉ writes c)
    (hc : Block.scan ∉ writes c) : Held q (after c s) :=
  h.turns (after_moves c s hr) (after_frame c s) hd hp he hs hc

theorem held_of_blank (h : Blank s) : Held q s := ⟨h.anchorsApart, fun _ => h.journalHeld⟩

/-- Every command keeps what the journal list asks. -/
theorem after_held (c : Instr) (h : Held q s) : Held q (after c s) := by
  by_cases hp : Plain c ∧ isReset c = false
  · exact hp.1.held hp.2 h
  · cases c with
    | softReset left => exact held_of_blank (blank_softReset left s)
    | coldReset left => exact held_of_blank (blank_coldReset left s)
    | queueHeadTaken => exact after_queueHeadTaken_held h
    | spaceQuestionRetry => exact after_spaceQuestionRetry_held h
    | sectorHeaderProgrammed => exact after_sectorHeaderProgrammed_held h
    | padProgrammed => exact after_padProgrammed_held h
    | burstProgrammed => exact after_burstProgrammed_held h
    | commitLineProgrammed => exact after_commitLineProgrammed_held h
    | hold => exact after_hold_held h
    | release => exact after_release_held h
    | snapshotProgramEnd => exact after_snapshotProgramEnd_held h
    | rolloverEraseEnd => exact after_rolloverEraseEnd_held h
    | reclaimTest => exact after_reclaimTest_held h
    | eraseEnd => exact after_eraseEnd_held h
    | wipe => exact after_wipe_held h
    | ctrlEnableClear => exact after_ctrlEnableClear_held h
    | setupReadEnd a => exact after_setupReadEnd_held h
    | anchorSlotRead => exact after_anchorSlotRead_held h
    | mountLineRead => exact after_mountLineRead_held h
    | blankCheckEnd => exact after_blankCheckEnd_held h
    | ctrlEnableSet => exact turns_held h rfl after_ctrlEnableSet_turns nofun nofun nofun nofun
    | drainEnd => exact turns_held h rfl after_drainEnd_turns nofun nofun nofun nofun
    | completionWriteEnd ok => exact turns_held h rfl after_completionWriteEnd_turns nofun nofun nofun nofun
    | noticeWriteEnd ok => exact turns_held h rfl after_noticeWriteEnd_turns nofun nofun nofun nofun
    | statusWriteEnd ok => exact turns_held h rfl after_statusWriteEnd_turns nofun nofun nofun nofun
    | submissionFetchEnd a => exact turns_held h rfl after_submissionFetchEnd_turns nofun nofun nofun nofun
    | arrayOperationEnd e r => exact turns_held h rfl after_arrayOperationEnd_turns nofun nofun nofun nofun
    | eraseStopped e => exact turns_held h rfl after_eraseStopped_turns nofun nofun nofun nofun
    | arrayTimeout e left => exact turns_held h rfl after_arrayTimeout_turns nofun nofun nofun nofun
    | _ => exact absurd ⟨by simp [Plain, writes], rfl⟩ hp

theorem step_held {t : State} (hs : Held q s) (h : step s = .next t) : Held q t :=
  step_keeps (p := Held q) (fun _ _ h => ⟨{ h.anchors with }, fun hq => { h.journal hq with }⟩)
    (fun c _ h => after_held c h) hs h

/-- Settles O10: what is asked of the anchors alone is kept by every command. -/
theorem anchorsKept : Obligations.AnchorsKept := fun _ _ hs h =>
  (step_held (q := False) ⟨hs, False.elim⟩ h).anchors

/-- Settles O6: the journal list by what every command keeps of it, the coverage lists by the moves it is made of. -/
theorem listsKept : Obligations.ListsKept :=
  ⟨fun _ _ ha hj h => (step_held (q := True) ⟨ha, fun _ => hj⟩ h).journal trivial, fun _ _ => step_coverageHeld⟩

end Sys2Proof.Machine
end
